-- ==== Sys2Proof/Word.lean ====
section
/-! DEFINITION. The word types of RHE: bytes of `MEM` (10_state.md R39) and 32-bit command words (30_encoding.md R90). -/

namespace Sys2Proof

/-- One byte, the unit of `MEM` (10_state.md R39). -/
abbrev Byte := BitVec 8

/-- One command word or register word, 32 bits (30_encoding.md R90, 10_state.md R37). -/
abbrev Word := BitVec 32

end Sys2Proof
end

