-- ==== Sys2Proof/Syntax.lean ====
section
/-! DEFINITION. The syntax of RHE: algorithm identifiers, slots, opcodes, command records and the 25 commands
(30_encoding.md R91, R96, R101, R104, R105). -/

namespace Sys2Proof

/-- AlgId, the source's discriminant enum in its order (30_encoding.md R96, 00_scope.md R3). -/
inductive AlgId where
  | sha1
  | sha256
  | sha384
  | sha512
  | sha512_256
  deriving DecidableEq, Repr

/-- A slot number, `s0` to `s15` (10_state.md R21). Every value of the 4-bit field is legal (30_encoding.md R91). -/
abbrev Slot := Fin 16

/-- The 25 opcodes of 30_encoding.md R101, by name. -/
inductive Op where
  | slFree
  | dgInit | dgUpdate | dgFinish | dgRead | ctVerify
  | hmKey | hmInit | hmUpdate | hmSign | hkExpand
  | lbParse | lbFormat | lbEq | lbLt | lbZero | lbEven | lbEqlimb | lbReduce | lbMinbits | lbFold5
  | ecNkey | ecNonce
  | sgFixed | sgAsn1
  deriving DecidableEq, Repr

/-- A command of RHE: one constructor per row of the opcode map (30_encoding.md R101), its used slot fields in the
order rd, rs1, rs2, then the algorithm, then the operand words as they stand (R92). -/
inductive Instr where
  | slFree (rd : Slot)
  | dgInit (rd : Slot) (alg : AlgId)
  | dgUpdate (rd : Slot) (addr len : Word)
  | dgFinish (rd rs1 : Slot)
  | dgRead (rs1 : Slot) (addr : Word)
  | ctVerify (rs1 : Slot) (addr len : Word)
  | hmKey (rd : Slot) (alg : AlgId) (addr len : Word)
  | hmInit (rd rs1 : Slot)
  | hmUpdate (rd : Slot) (addr len : Word)
  | hmSign (rd rs1 : Slot)
  | hkExpand (rs1 : Slot) (tab nChunks out outLen bigL : Word)
  | lbParse (rd : Slot) (addr len numLimbs : Word)
  | lbFormat (rs1 : Slot) (addr len : Word)
  | lbEq (rs1 rs2 : Slot)
  | lbLt (rs1 rs2 : Slot)
  | lbZero (rs1 : Slot)
  | lbEven (rs1 : Slot)
  | lbEqlimb (rs1 : Slot) (lo hi : Word)
  | lbReduce (rd rs2 : Slot)
  | lbMinbits (rs1 : Slot)
  | lbFold5 (rs1 : Slot) (addr : Word)
  | ecNkey (rd : Slot) (alg : AlgId) (addr len : Word)
  | ecNonce (rs1 : Slot) (mdAddr mdLen dst dstLen : Word)
  | sgFixed (rs1 rs2 : Slot) (addr : Word)
  | sgAsn1 (rs1 rs2 : Slot) (addr : Word)
  deriving DecidableEq, Repr

/-- A command record before decoding: the six fields of the header word (30_encoding.md R91) and the operand words
that follow it (R90). Any pattern of bits is such a record, legal or not. -/
structure Record where
  op : BitVec 8
  rd : BitVec 4
  rs1 : BitVec 4
  rs2 : BitVec 4
  sel : BitVec 4
  zero : BitVec 8
  operands : List Word
  deriving DecidableEq, Repr

/-- The three pseudo-instructions of 30_encoding.md R105. -/
inductive Pseudo where
  | digest (rd : Slot) (alg : AlgId) (addr len : Word)
  | hmac (rd rk : Slot) (addr len : Word)
  | hmVerify (rt rk : Slot) (addr len taddr tlen : Word)
  deriving DecidableEq, Repr

/-- One operand of the assembler notation of 30_encoding.md R104. -/
inductive AsmOperand where
  | slot (s : Slot)
  | alg (a : AlgId)
  | range (addr len : Word)
  | address (addr : Word)
  | number (n : Word)
  deriving DecidableEq, Repr

end Sys2Proof
end

