-- ==== Sys2Proof/Config.lean ====
section
/-! DEFINITION. What an implementation of RHE fixes (00_scope.md R9, 93_implementation_defined.md U16 to U20) as plain
data, and the free values: uninterpreted constants of which no proof can know a value (the answers of the random source,
U2; a compression function other than the reference one, U20). -/

namespace Sys2Proof

/-- `LIMB_BITS` is 32 or 64 (00_scope.md R9, 92_eei_decisions.md D2). -/
inductive LimbWidth where
  | w32
  | w64
  deriving DecidableEq, Repr

/-- Which function is `CompressBlock` and which vectors are `initial_state` (40_digest.md R122, R124): the reference
instantiation of 93_implementation_defined.md section 3, or one of which nothing is known but the shape of its result.
DESIGN CHOICE (log entry 2, safe): a statement for every value of this field holds of any compression function. -/
inductive CompressSource where
  | reference
  | external
  deriving DecidableEq, Repr

/-- The parameters of 00_scope.md R9. They never change during a run. -/
structure Config where
  /-- `LIMB_BITS` -/
  limbWidth : LimbWidth
  /-- `MAX_LIMBS`, 1 to 255 -/
  maxLimbs : Nat
  /-- `MEM_SIZE`, 1 to 2^32 -/
  memSize : Nat
  /-- `REG_BASE`, the platform's address of the register block (20_memory.md R68, log entry 9) -/
  regBase : Nat
  /-- `MEM_BASE`, the platform's address of the memory window (20_memory.md R68) -/
  memBase : Nat
  /-- `CompressBlock` and `initial_state` -/
  compress : CompressSource
  deriving DecidableEq, Repr

/-- FREE VALUE (log entry 2): word `i` of the chaining value an external compression function returns for an algorithm, a
chaining value (each word widened to 64 bits) and a block (40_digest.md R123, R124: "a pure function of (state, block bytes)"). -/
opaque Config.extCompressWord : AlgId → List (BitVec 64) → List Byte → Nat → BitVec 64

/-- FREE VALUE (log entry 2): word `i` of the initial state that goes with the external compression function (40_digest.md R122). -/
opaque Config.extInitialWord : AlgId → Nat → BitVec 64

/-- FREE VALUE (log entry 5): whether the secure-random source fails request number `k` (60_exceptions.md R320, U2). -/
opaque Config.rngFails : Nat → Bool

/-- FREE VALUE (log entry 5): byte `j` of the answer to request number `k` (60_exceptions.md R320, U2). -/
opaque Config.rngByte : Nat → Nat → Byte

end Sys2Proof
end

