-- ==== Sys2Proof/WellFormed.lean ====
section
/-! DEFINITION. Well-formedness: of a command record, by the table of formats of 30_encoding.md R101 read as R93 and R94
say, and of a configuration (00_scope.md R9). A term of `Instr` is well formed by its type (every slot number is 0 to 15,
every algorithm one of five); what can be ill formed is a record, and the decoder accepts exactly the records that are not. -/

namespace Sys2Proof

/-- One row of the opcode map as a format: the opcode, which header fields it uses, and how many operand words follow. -/
structure Format where
  op : BitVec 8
  rd : Bool
  rs1 : Bool
  rs2 : Bool
  sel : Bool
  k : Nat
  deriving DecidableEq, Repr

/-- The columns op, rd, rs1, rs2, sel and k of 30_encoding.md R101, row by row. -/
def formats : List Format :=
  [ ⟨0x01, true, false, false, false, 0⟩,   -- SL_FREE
    ⟨0x10, true, false, false, true, 0⟩,    -- DG_INIT
    ⟨0x11, true, false, false, false, 2⟩,   -- DG_UPDATE
    ⟨0x12, true, true, false, false, 0⟩,    -- DG_FINISH
    ⟨0x13, false, true, false, false, 1⟩,   -- DG_READ
    ⟨0x14, false, true, false, false, 2⟩,   -- CT_VERIFY
    ⟨0x20, true, false, false, true, 2⟩,    -- HM_KEY
    ⟨0x21, true, true, false, false, 0⟩,    -- HM_INIT
    ⟨0x22, true, false, false, false, 2⟩,   -- HM_UPDATE
    ⟨0x23, true, true, false, false, 0⟩,    -- HM_SIGN
    ⟨0x28, false, true, false, false, 5⟩,   -- HK_EXPAND
    ⟨0x30, true, false, false, false, 3⟩,   -- LB_PARSE
    ⟨0x31, false, true, false, false, 2⟩ ]  -- LB_FORMAT
  ++
  [ ⟨0x32, false, true, true, false, 0⟩,    -- LB_EQ
    ⟨0x33, false, true, true, false, 0⟩,    -- LB_LT
    ⟨0x34, false, true, false, false, 0⟩,   -- LB_ZERO
    ⟨0x35, false, true, false, false, 0⟩,   -- LB_EVEN
    ⟨0x36, false, true, false, false, 2⟩,   -- LB_EQLIMB
    ⟨0x37, true, false, true, false, 0⟩,    -- LB_REDUCE
    ⟨0x38, false, true, false, false, 0⟩,   -- LB_MINBITS
    ⟨0x39, false, true, false, false, 1⟩,   -- LB_FOLD5
    ⟨0x40, true, false, false, true, 2⟩,    -- EC_NKEY
    ⟨0x41, false, true, false, false, 4⟩,   -- EC_NONCE
    ⟨0x48, false, true, true, false, 1⟩,    -- SG_FIXED
    ⟨0x49, false, true, true, false, 1⟩ ]   -- SG_ASN1

/-- R93 (b), (c), (d) and R94 for a record, given the format of its opcode: the reserved byte is 0, every unused field is
0, a used `sel` is 0 to 4, and exactly `k` operand words follow. -/
def Record.fits (r : Record) (f : Format) : Bool :=
  f.op == r.op && r.zero == 0#8
    && (f.rd || r.rd == 0#4) && (f.rs1 || r.rs1 == 0#4) && (f.rs2 || r.rs2 == 0#4)
    && (if f.sel then decide (r.sel.toNat ≤ 4) else r.sel == 0#4)
    && r.operands.length == f.k

/-- A record is well formed when some row of the opcode map fits it (30_encoding.md R93, R94). -/
def Record.wellFormed (r : Record) : Bool := formats.any r.fits

/-- `LIMB_BITS` (00_scope.md R9). -/
def LimbWidth.bits : LimbWidth → Nat
  | .w32 => 32
  | .w64 => 64

/-- `LIMB_BYTES = LIMB_BITS / 8` (00_scope.md R9). -/
def LimbWidth.bytes : LimbWidth → Nat
  | .w32 => 4
  | .w64 => 8

/-- The ranges of the parameters (00_scope.md R9): `MAX_LIMBS` 1 to 255, `MEM_SIZE` 1 to 2^32. -/
def Config.wellFormed (c : Config) : Bool :=
  decide (1 ≤ c.maxLimbs) && decide (c.maxLimbs ≤ 255) && decide (1 ≤ c.memSize) && decide (c.memSize ≤ 2 ^ 32)

end Sys2Proof
end

