-- ==== Sys2Proof/Decode.lean ====
section
/-! DEFINITION. Decoding of command records, total on any words and rejecting by name (30_encoding.md R91 to R96), and
after it the encoder, written from the same encoding tables. -/

namespace Sys2Proof

/-! ## Header fields (30_encoding.md R91) -/

/-- `op`, bits 7:0. -/
def hdrOp (hdr : Word) : BitVec 8 := hdr.extractLsb' 0 8
/-- `rd`, bits 11:8. -/
def hdrRd (hdr : Word) : BitVec 4 := hdr.extractLsb' 8 4
/-- `rs1`, bits 15:12. -/
def hdrRs1 (hdr : Word) : BitVec 4 := hdr.extractLsb' 12 4
/-- `rs2`, bits 19:16. -/
def hdrRs2 (hdr : Word) : BitVec 4 := hdr.extractLsb' 16 4
/-- `sel`, bits 23:20. -/
def hdrSel (hdr : Word) : BitVec 4 := hdr.extractLsb' 20 4
/-- The reserved field `zero`, bits 31:24. -/
def hdrZero (hdr : Word) : BitVec 8 := hdr.extractLsb' 24 8

/-! ## The opcode map (30_encoding.md R101) -/

/-- The opcode a byte names, or none: every byte not in R101 is illegal (R95). -/
def opOfByte (b : BitVec 8) : Option Op :=
  match b with
  | 0x01#8 => some .slFree
  | 0x10#8 => some .dgInit
  | 0x11#8 => some .dgUpdate
  | 0x12#8 => some .dgFinish
  | 0x13#8 => some .dgRead
  | 0x14#8 => some .ctVerify
  | 0x20#8 => some .hmKey
  | 0x21#8 => some .hmInit
  | 0x22#8 => some .hmUpdate
  | 0x23#8 => some .hmSign
  | 0x28#8 => some .hkExpand
  | 0x30#8 => some .lbParse
  | 0x31#8 => some .lbFormat
  | 0x32#8 => some .lbEq
  | 0x33#8 => some .lbLt
  | 0x34#8 => some .lbZero
  | 0x35#8 => some .lbEven
  | 0x36#8 => some .lbEqlimb
  | 0x37#8 => some .lbReduce
  | 0x38#8 => some .lbMinbits
  | 0x39#8 => some .lbFold5
  | 0x40#8 => some .ecNkey
  | 0x41#8 => some .ecNonce
  | 0x48#8 => some .sgFixed
  | 0x49#8 => some .sgAsn1
  | _ => none

/-- Whether R101 uses the field `rd` for an opcode. -/
def opUsesRd : Op → Bool
  | .slFree | .dgInit | .dgUpdate | .dgFinish => true
  | .hmKey | .hmInit | .hmUpdate | .hmSign => true
  | .lbParse | .lbReduce | .ecNkey => true
  | .dgRead | .ctVerify | .hkExpand | .lbFormat | .lbEq | .lbLt | .lbZero | .lbEven | .lbEqlimb => false
  | .lbMinbits | .lbFold5 | .ecNonce | .sgFixed | .sgAsn1 => false

/-- Whether R101 uses the field `rs1` for an opcode. -/
def opUsesRs1 : Op → Bool
  | .slFree | .dgInit | .dgUpdate | .hmKey | .hmUpdate | .lbParse | .lbReduce | .ecNkey => false
  | .dgFinish | .dgRead | .ctVerify | .hmInit | .hmSign | .hkExpand | .lbFormat | .lbEq | .lbLt => true
  | .lbZero | .lbEven | .lbEqlimb | .lbMinbits | .lbFold5 | .ecNonce | .sgFixed | .sgAsn1 => true

/-- Whether R101 uses the field `rs2` for an opcode. -/
def opUsesRs2 : Op → Bool
  | .lbEq | .lbLt | .lbReduce | .sgFixed | .sgAsn1 => true
  | .slFree | .dgInit | .dgUpdate | .dgFinish | .dgRead | .ctVerify | .hmKey | .hmInit | .hmUpdate | .hmSign => false
  | .hkExpand | .lbParse | .lbFormat | .lbZero | .lbEven | .lbEqlimb | .lbMinbits | .lbFold5 | .ecNkey | .ecNonce => false

/-- Whether R101 uses the field `sel` (an algorithm identifier) for an opcode. -/
def opUsesSel : Op → Bool
  | .dgInit | .hmKey | .ecNkey => true
  | .slFree | .dgUpdate | .dgFinish | .dgRead | .ctVerify | .hmInit | .hmUpdate | .hmSign | .hkExpand => false
  | .lbParse | .lbFormat | .lbEq | .lbLt | .lbZero | .lbEven | .lbEqlimb | .lbReduce | .lbMinbits | .lbFold5 => false
  | .ecNonce | .sgFixed | .sgAsn1 => false

/-- `NumOperandWords(op)`, the column k of R101 (R94). -/
def numOperandWords : Op → Nat
  | .slFree | .dgInit | .dgFinish | .hmInit | .hmSign => 0
  | .lbEq | .lbLt | .lbZero | .lbEven | .lbReduce | .lbMinbits => 0
  | .dgRead | .lbFold5 | .sgFixed | .sgAsn1 => 1
  | .dgUpdate | .ctVerify | .hmKey | .hmUpdate | .lbFormat | .lbEqlimb | .ecNkey => 2
  | .lbParse => 3
  | .ecNonce => 4
  | .hkExpand => 5

/-- The algorithm identifier of a `sel` field; 5 to 15 are reserved and illegal (30_encoding.md R96). -/
def algOfSel (sel : BitVec 4) : Option AlgId :=
  match sel with
  | 0#4 => some .sha1
  | 1#4 => some .sha256
  | 2#4 => some .sha384
  | 3#4 => some .sha512
  | 4#4 => some .sha512_256
  | _ => none

/-! ## Decoding -/

/-- Why a record is rejected. -/
inductive DecodeError where
  /-- no word at all -/
  | noHeader
  /-- `op` is not an opcode of R101 (R93 (a), R95) -/
  | unknownOpcode
  /-- bits 31:24 are not 0 (R93 (b)) -/
  | reservedBits
  /-- a field R101 does not use is not 0 (R93 (c)) -/
  | unusedField
  /-- `sel` is 5 to 15 in a command that takes an algorithm (R93 (d)) -/
  | badAlgorithm
  /-- not exactly `NumOperandWords` words follow a legal header (R94): a record still being received, or too long -/
  | operandCount
  deriving DecidableEq, Repr

/-- The opcode of a legal header, or the first of R93's conditions (a) to (d) that it fails. -/
def decodeHeader (hdr : Word) : Except DecodeError Op :=
  match opOfByte (hdrOp hdr) with
  | none => .error .unknownOpcode
  | some o =>
    if hdrZero hdr ≠ 0#8 then .error .reservedBits
    else if (!opUsesRd o && hdrRd hdr != 0#4) || (!opUsesRs1 o && hdrRs1 hdr != 0#4)
        || (!opUsesRs2 o && hdrRs2 hdr != 0#4) || (!opUsesSel o && hdrSel hdr != 0#4) then .error .unusedField
    else if opUsesSel o && (algOfSel (hdrSel hdr)).isNone then .error .badAlgorithm
    else .ok o

/-- `LegalHeader(hdr)` (30_encoding.md R93). -/
def legalHeader (hdr : Word) : Bool :=
  match decodeHeader hdr with
  | .ok _ => true
  | .error _ => false

/-- A 4-bit slot field as a slot number (R91). -/
def slotOfField (f : BitVec 4) : Slot := f.toFin

/-- The algorithm of a header whose `sel` decodeHeader has accepted. -/
def hdrAlg (hdr : Word) : AlgId := (algOfSel (hdrSel hdr)).getD .sha1

/-- A command without operand words (R94: exactly as many words as the opcode says). -/
def withNone (ops : List Word) (i : Instr) : Except DecodeError Instr :=
  match ops with
  | [] => .ok i
  | _ :: _ => .error .operandCount

/-- A command with one operand word. -/
def withOne (ops : List Word) (f : Word → Instr) : Except DecodeError Instr :=
  match ops with
  | [a] => .ok (f a)
  | _ => .error .operandCount

/-- A command with two operand words. -/
def withTwo (ops : List Word) (f : Word → Word → Instr) : Except DecodeError Instr :=
  match ops with
  | [a, b] => .ok (f a b)
  | _ => .error .operandCount

/-- A command with three operand words. -/
def withThree (ops : List Word) (f : Word → Word → Word → Instr) : Except DecodeError Instr :=
  match ops with
  | [a, b, c] => .ok (f a b c)
  | _ => .error .operandCount

/-- A command with four operand words. -/
def withFour (ops : List Word) (f : Word → Word → Word → Word → Instr) : Except DecodeError Instr :=
  match ops with
  | [a, b, c, d] => .ok (f a b c d)
  | _ => .error .operandCount

/-- A command with five operand words. -/
def withFive (ops : List Word) (f : Word → Word → Word → Word → Word → Instr) : Except DecodeError Instr :=
  match ops with
  | [a, b, c, d, e] => .ok (f a b c d e)
  | _ => .error .operandCount

/-- The command a legal header and its operand words are (R90, R92, R101). -/
def decodeOperands (o : Op) (hdr : Word) (ops : List Word) : Except DecodeError Instr :=
  let rd := slotOfField (hdrRd hdr)
  let rs1 := slotOfField (hdrRs1 hdr)
  let rs2 := slotOfField (hdrRs2 hdr)
  match o with
  | .slFree => withNone ops (.slFree rd)
  | .dgInit => withNone ops (.dgInit rd (hdrAlg hdr))
  | .dgUpdate => withTwo ops (.dgUpdate rd)
  | .dgFinish => withNone ops (.dgFinish rd rs1)
  | .dgRead => withOne ops (.dgRead rs1)
  | .ctVerify => withTwo ops (.ctVerify rs1)
  | .hmKey => withTwo ops (.hmKey rd (hdrAlg hdr))
  | .hmInit => withNone ops (.hmInit rd rs1)
  | .hmUpdate => withTwo ops (.hmUpdate rd)
  | .hmSign => withNone ops (.hmSign rd rs1)
  | .hkExpand => withFive ops (.hkExpand rs1)
  | .lbParse => withThree ops (.lbParse rd)
  | .lbFormat => withTwo ops (.lbFormat rs1)
  | .lbEq => withNone ops (.lbEq rs1 rs2)
  | .lbLt => withNone ops (.lbLt rs1 rs2)
  | .lbZero => withNone ops (.lbZero rs1)
  | .lbEven => withNone ops (.lbEven rs1)
  | .lbEqlimb => withTwo ops (.lbEqlimb rs1)
  | .lbReduce => withNone ops (.lbReduce rd rs2)
  | .lbMinbits => withNone ops (.lbMinbits rs1)
  | .lbFold5 => withOne ops (.lbFold5 rs1)
  | .ecNkey => withTwo ops (.ecNkey rd (hdrAlg hdr))
  | .ecNonce => withFour ops (.ecNonce rs1)
  | .sgFixed => withOne ops (.sgFixed rs1 rs2)
  | .sgAsn1 => withOne ops (.sgAsn1 rs1 rs2)

/-- The command a whole record is: its header must be legal and exactly `NumOperandWords` words must follow it (R93, R94). -/
def decodeRecord (ws : List Word) : Except DecodeError Instr :=
  match ws with
  | [] => .error .noHeader
  | hdr :: ops =>
    match decodeHeader hdr with
    | .error e => .error e
    | .ok o => decodeOperands o hdr ops

/-- How many words a record with this first word has: one when the header is illegal (it faults at once, 10_state.md R38), else `1 + NumOperandWords`. -/
def recordLength (hdr : Word) : Nat :=
  match decodeHeader hdr with
  | .error _ => 1
  | .ok o => 1 + numOperandWords o

/-- The first record of a stream of words and the words after it (95_test_vectors.md 2.8, "Decoding a word stream"), or why there is none. -/
def decodeStream (ws : List Word) : Except DecodeError (Instr × List Word) :=
  match ws with
  | [] => .error .noHeader
  | hdr :: _ =>
    match decodeRecord (ws.take (recordLength hdr)) with
    | .error e => .error e
    | .ok i => .ok (i, ws.drop (recordLength hdr))

/-! ## Encoding -/

/-- The opcode byte of R101. -/
def opByte : Op → BitVec 8
  | .slFree => 0x01#8
  | .dgInit => 0x10#8
  | .dgUpdate => 0x11#8
  | .dgFinish => 0x12#8
  | .dgRead => 0x13#8
  | .ctVerify => 0x14#8
  | .hmKey => 0x20#8
  | .hmInit => 0x21#8
  | .hmUpdate => 0x22#8
  | .hmSign => 0x23#8
  | .hkExpand => 0x28#8
  | .lbParse => 0x30#8
  | .lbFormat => 0x31#8
  | .lbEq => 0x32#8
  | .lbLt => 0x33#8
  | .lbZero => 0x34#8
  | .lbEven => 0x35#8
  | .lbEqlimb => 0x36#8
  | .lbReduce => 0x37#8
  | .lbMinbits => 0x38#8
  | .lbFold5 => 0x39#8
  | .ecNkey => 0x40#8
  | .ecNonce => 0x41#8
  | .sgFixed => 0x48#8
  | .sgAsn1 => 0x49#8

/-- The `sel` field of an algorithm (R96). -/
def selOfAlg : AlgId → BitVec 4
  | .sha1 => 0#4
  | .sha256 => 1#4
  | .sha384 => 2#4
  | .sha512 => 3#4
  | .sha512_256 => 4#4

/-- `header = op | rd << 8 | rs1 << 12 | rs2 << 16 | sel << 20` (R91), with the reserved byte 0. -/
def makeHeader (op : BitVec 8) (rd rs1 rs2 sel : BitVec 4) : Word :=
  op.setWidth 32 ||| rd.setWidth 32 <<< 8 ||| rs1.setWidth 32 <<< 12 ||| rs2.setWidth 32 <<< 16 ||| sel.setWidth 32 <<< 20

/-- A slot number as its 4-bit field (R91). -/
def slotField (s : Slot) : BitVec 4 := BitVec.ofFin s

/-- The opcode of a command (R101). -/
def instrOp : Instr → Op
  | .slFree _ => .slFree
  | .dgInit _ _ => .dgInit
  | .dgUpdate _ _ _ => .dgUpdate
  | .dgFinish _ _ => .dgFinish
  | .dgRead _ _ => .dgRead
  | .ctVerify _ _ _ => .ctVerify
  | .hmKey _ _ _ _ => .hmKey
  | .hmInit _ _ => .hmInit
  | .hmUpdate _ _ _ => .hmUpdate
  | .hmSign _ _ => .hmSign
  | .hkExpand _ _ _ _ _ _ => .hkExpand
  | .lbParse _ _ _ _ => .lbParse
  | .lbFormat _ _ _ => .lbFormat
  | .lbEq _ _ => .lbEq
  | .lbLt _ _ => .lbLt
  | .lbZero _ => .lbZero
  | .lbEven _ => .lbEven
  | .lbEqlimb _ _ _ => .lbEqlimb
  | .lbReduce _ _ => .lbReduce
  | .lbMinbits _ => .lbMinbits
  | .lbFold5 _ _ => .lbFold5
  | .ecNkey _ _ _ _ => .ecNkey
  | .ecNonce _ _ _ _ _ => .ecNonce
  | .sgFixed _ _ _ => .sgFixed
  | .sgAsn1 _ _ _ => .sgAsn1

/-- The header word of a command (R91, R101): the fields it does not use are 0. -/
def instrHeader : Instr → Word
  | .slFree rd => makeHeader (opByte .slFree) (slotField rd) 0 0 0
  | .dgInit rd alg => makeHeader (opByte .dgInit) (slotField rd) 0 0 (selOfAlg alg)
  | .dgUpdate rd _ _ => makeHeader (opByte .dgUpdate) (slotField rd) 0 0 0
  | .dgFinish rd rs1 => makeHeader (opByte .dgFinish) (slotField rd) (slotField rs1) 0 0
  | .dgRead rs1 _ => makeHeader (opByte .dgRead) 0 (slotField rs1) 0 0
  | .ctVerify rs1 _ _ => makeHeader (opByte .ctVerify) 0 (slotField rs1) 0 0
  | .hmKey rd alg _ _ => makeHeader (opByte .hmKey) (slotField rd) 0 0 (selOfAlg alg)
  | .hmInit rd rs1 => makeHeader (opByte .hmInit) (slotField rd) (slotField rs1) 0 0
  | .hmUpdate rd _ _ => makeHeader (opByte .hmUpdate) (slotField rd) 0 0 0
  | .hmSign rd rs1 => makeHeader (opByte .hmSign) (slotField rd) (slotField rs1) 0 0
  | .hkExpand rs1 _ _ _ _ _ => makeHeader (opByte .hkExpand) 0 (slotField rs1) 0 0
  | .lbParse rd _ _ _ => makeHeader (opByte .lbParse) (slotField rd) 0 0 0
  | .lbFormat rs1 _ _ => makeHeader (opByte .lbFormat) 0 (slotField rs1) 0 0
  | .lbEq rs1 rs2 => makeHeader (opByte .lbEq) 0 (slotField rs1) (slotField rs2) 0
  | .lbLt rs1 rs2 => makeHeader (opByte .lbLt) 0 (slotField rs1) (slotField rs2) 0
  | .lbZero rs1 => makeHeader (opByte .lbZero) 0 (slotField rs1) 0 0
  | .lbEven rs1 => makeHeader (opByte .lbEven) 0 (slotField rs1) 0 0
  | .lbEqlimb rs1 _ _ => makeHeader (opByte .lbEqlimb) 0 (slotField rs1) 0 0
  | .lbReduce rd rs2 => makeHeader (opByte .lbReduce) (slotField rd) 0 (slotField rs2) 0
  | .lbMinbits rs1 => makeHeader (opByte .lbMinbits) 0 (slotField rs1) 0 0
  | .lbFold5 rs1 _ => makeHeader (opByte .lbFold5) 0 (slotField rs1) 0 0
  | .ecNkey rd alg _ _ => makeHeader (opByte .ecNkey) (slotField rd) 0 0 (selOfAlg alg)
  | .ecNonce rs1 _ _ _ _ => makeHeader (opByte .ecNonce) 0 (slotField rs1) 0 0
  | .sgFixed rs1 rs2 _ => makeHeader (opByte .sgFixed) 0 (slotField rs1) (slotField rs2) 0
  | .sgAsn1 rs1 rs2 _ => makeHeader (opByte .sgAsn1) 0 (slotField rs1) (slotField rs2) 0

/-- The operand words of a command, in order (R92, R101). -/
def instrOperands : Instr → List Word
  | .slFree _ | .dgInit _ _ | .dgFinish _ _ | .hmInit _ _ | .hmSign _ _ => []
  | .lbEq _ _ | .lbLt _ _ | .lbZero _ | .lbEven _ | .lbReduce _ _ | .lbMinbits _ => []
  | .dgUpdate _ addr len => [addr, len]
  | .dgRead _ addr => [addr]
  | .ctVerify _ addr len => [addr, len]
  | .hmKey _ _ addr len => [addr, len]
  | .hmUpdate _ addr len => [addr, len]
  | .hkExpand _ tab n out outLen l => [tab, n, out, outLen, l]
  | .lbParse _ addr len n => [addr, len, n]
  | .lbFormat _ addr len => [addr, len]
  | .lbEqlimb _ lo hi => [lo, hi]
  | .lbFold5 _ addr => [addr]
  | .ecNkey _ _ addr len => [addr, len]
  | .ecNonce _ mdAddr mdLen dst dstLen => [mdAddr, mdLen, dst, dstLen]
  | .sgFixed _ _ addr => [addr]
  | .sgAsn1 _ _ addr => [addr]

/-- The words of a command record, header first (R90). -/
def encode (i : Instr) : List Word := instrHeader i :: instrOperands i

/-- The header word of a raw record, all six fields of R91 in their places. -/
def recordHeader (r : Record) : Word := makeHeader r.op r.rd r.rs1 r.rs2 r.sel ||| r.zero.setWidth 32 <<< 24

/-- The words of a raw record. -/
def recordWords (r : Record) : List Word := recordHeader r :: r.operands

/-! ## The host's reading of the opcode table -/

/-- Word number `j` of an instruction whose bits are `w`: bit 0 is the least significant bit of the header word and each
later word's bits count on from it. -/
def tableWord (w j : Nat) : Word := BitVec.ofNat 32 (w / 2 ^ (32 * j))

/-- The words of the record whose table bits are `w`, the bits from `nbits` on being 0: the header and as many operand
words as it calls for (operand words of zeros where the table gives them no bits; DESIGN CHOICE, log entry 22, safe). -/
def tableRecord (nbits w : Nat) : List Word :=
  let v := w % 2 ^ nbits
  (List.range (recordLength (tableWord v 0))).map (tableWord v)

/-- The command the decoder reads from an instruction whose bits, as spec/opcode_table.json numbers them, are `w`. -/
def decodeTableWord (nbits w : Nat) : Option Instr :=
  match decodeRecord (tableRecord nbits w) with
  | .ok i => some i
  | .error _ => none

/-! ## Assembler notation (30_encoding.md R104, R105) -/

/-- The mnemonic of an opcode (R101). -/
def opMnemonic : Op → String
  | .slFree => "SL_FREE"
  | .dgInit => "DG_INIT"
  | .dgUpdate => "DG_UPDATE"
  | .dgFinish => "DG_FINISH"
  | .dgRead => "DG_READ"
  | .ctVerify => "CT_VERIFY"
  | .hmKey => "HM_KEY"
  | .hmInit => "HM_INIT"
  | .hmUpdate => "HM_UPDATE"
  | .hmSign => "HM_SIGN"
  | .hkExpand => "HK_EXPAND"
  | .lbParse => "LB_PARSE"
  | .lbFormat => "LB_FORMAT"
  | .lbEq => "LB_EQ"
  | .lbLt => "LB_LT"
  | .lbZero => "LB_ZERO"
  | .lbEven => "LB_EVEN"
  | .lbEqlimb => "LB_EQLIMB"
  | .lbReduce => "LB_REDUCE"
  | .lbMinbits => "LB_MINBITS"
  | .lbFold5 => "LB_FOLD5"
  | .ecNkey => "EC_NKEY"
  | .ecNonce => "EC_NONCE"
  | .sgFixed => "SG_FIXED"
  | .sgAsn1 => "SG_ASN1"

/-- The operands of a command in the order R104 writes them: used slots, algorithm, operand words, an address and a length
that belong together as one range. -/
def asmOperands : Instr → List AsmOperand
  | .slFree rd => [.slot rd]
  | .dgInit rd alg => [.slot rd, .alg alg]
  | .dgUpdate rd addr len => [.slot rd, .range addr len]
  | .dgFinish rd rs1 => [.slot rd, .slot rs1]
  | .dgRead rs1 addr => [.slot rs1, .address addr]
  | .ctVerify rs1 addr len => [.slot rs1, .range addr len]
  | .hmKey rd alg addr len => [.slot rd, .alg alg, .range addr len]
  | .hmInit rd rs1 => [.slot rd, .slot rs1]
  | .hmUpdate rd addr len => [.slot rd, .range addr len]
  | .hmSign rd rs1 => [.slot rd, .slot rs1]
  | .hkExpand rs1 tab n out outLen l => [.slot rs1, .address tab, .number n, .range out outLen, .number l]
  | .lbParse rd addr len n => [.slot rd, .range addr len, .number n]
  | .lbFormat rs1 addr len => [.slot rs1, .range addr len]
  | .lbEq rs1 rs2 => [.slot rs1, .slot rs2]
  | .lbLt rs1 rs2 => [.slot rs1, .slot rs2]
  | .lbZero rs1 => [.slot rs1]
  | .lbEven rs1 => [.slot rs1]
  | .lbEqlimb rs1 lo hi => [.slot rs1, .number lo, .number hi]
  | .lbReduce rd rs2 => [.slot rd, .slot rs2]
  | .lbMinbits rs1 => [.slot rs1]
  | .lbFold5 rs1 addr => [.slot rs1, .address addr]
  | .ecNkey rd alg addr len => [.slot rd, .alg alg, .range addr len]
  | .ecNonce rs1 mdAddr mdLen dst dstLen => [.slot rs1, .range mdAddr mdLen, .range dst dstLen]
  | .sgFixed rs1 rs2 addr => [.slot rs1, .slot rs2, .address addr]
  | .sgAsn1 rs1 rs2 addr => [.slot rs1, .slot rs2, .address addr]

/-- The expansions of R105. -/
def expandPseudo : Pseudo → List Instr
  | .digest rd alg addr len => [.dgInit rd alg, .dgUpdate rd addr len, .dgFinish rd rd]
  | .hmac rd rk addr len => [.hmInit rd rk, .hmUpdate rd addr len, .hmSign rd rd]
  | .hmVerify rt rk addr len taddr tlen =>
      [.hmInit rt rk, .hmUpdate rt addr len, .hmSign rt rt, .ctVerify rt taddr tlen]

end Sys2Proof
end

