-- ==== Sys2Proof/Machine/Memory.lean ====
section
/-! DEFINITION. The operand memory `MEM` (10_state.md R39, 20_memory.md R60 to R67) as a list of (address, byte) cells in
one canonical form: addresses strictly rising, no cell holding what an unlisted address reads as. -/

namespace Sys2Proof.Machine

/-- `MEM`: the cells that differ from `unlistedByte`. -/
abbrev Memory := List Host.Cell

/-- What a byte no cell lists reads as. DESIGN CHOICE (log entry 3, unsafe): the spec leaves the contents of `MEM` after
power-up unspecified and makes reading them legal (10_state.md R41, 70_reset_and_hazards.md R342). -/
def unlistedByte : Byte := 0x00#8

/-- The byte at an address. -/
def memRead : Memory → Nat → Byte
  | [], _ => unlistedByte
  | (k, b) :: rest, a => if k = a then b else memRead rest a

/-- The memory with one byte written, in canonical form again. -/
def memWrite : Memory → Nat → Byte → Memory
  | [], a, v => if v = unlistedByte then [] else [(a, v)]
  | (k, b) :: rest, a, v =>
    if a < k then (if v = unlistedByte then (k, b) :: rest else (a, v) :: (k, b) :: rest)
    else if a = k then (if v = unlistedByte then rest else (a, v) :: rest)
    else (k, b) :: memWrite rest a v

/-- The canonical form: addresses strictly rising, and no cell holds `unlistedByte`. -/
abbrev Memory.wf (m : Memory) : Prop :=
  m.Pairwise (fun c d => c.1 < d.1) ∧ ∀ c ∈ m, c.2 ≠ unlistedByte

/-- `MemRead(addr, n)` (00_scope.md R12): the bytes at `addr` to `addr + n - 1`, index 0 first. -/
def memReadBytes (m : Memory) (addr n : Nat) : List Byte :=
  (List.range n).map fun i => memRead m (addr + i)

/-- `MemWrite(addr, n, v)` (00_scope.md R12): the bytes of `v` at `addr` onward. -/
def memWriteBytes (m : Memory) (addr : Nat) : List Byte → Memory
  | [] => m
  | b :: bs => memWriteBytes (memWrite m addr b) (addr + 1) bs

/-- A memory made of given cells, those outside `MEM` left out and a later cell winning over an earlier one. -/
def memOfCells (memSize : Nat) (cells : List Host.Cell) : Memory :=
  cells.foldl (fun m c => if c.1 < memSize then memWrite m c.1 c.2 else m) []

end Sys2Proof.Machine
end

