-- ==== Sys2Proof/Machine/State.lean ====
section
/-! DEFINITION. The state of RHE as plain data (10_state.md R20 to R41), what a host may do to it (60_exceptions.md R335),
the reasons a step can stop, and the state after reset. -/

namespace Sys2Proof.Machine

/-! ## Slot objects (10_state.md R21 to R28) -/

/-- A chaining value: a vector of words in the word width of its algorithm, a tagged variant as R22 advises. -/
inductive Chain where
  | w32 (words : List (BitVec 32))
  | w64 (words : List (BitVec 64))
  deriving DecidableEq, Repr

/-- BlockCtx(alg, h, nblocks) (R22); the counter is 64 bits wide. -/
structure BlockCtx where
  alg : AlgId
  h : Chain
  nblocks : BitVec 64
  deriving DecidableEq, Repr

/-- DigestCtx(alg, h, nblocks, pending) (R23): a BlockCtx and the bytes buffered but not yet compressed. -/
structure DigestCtx where
  block : BlockCtx
  pending : List Byte
  deriving DecidableEq, Repr

/-- DigestVal(alg, value) (R24); an HMAC Tag too. -/
structure DigestVal where
  alg : AlgId
  value : List Byte
  deriving DecidableEq, Repr

/-- HmacKey(alg, inner, outer) (R25); an HKDF Prk too. -/
structure HmacKey where
  alg : AlgId
  inner : BlockCtx
  outer : BlockCtx
  deriving DecidableEq, Repr

/-- HmacCtx(alg, inner, outer) (R26). -/
structure HmacCtx where
  alg : AlgId
  inner : DigestCtx
  outer : BlockCtx
  deriving DecidableEq, Repr

/-- NonceKey(alg, value) (R28). -/
structure NonceKey where
  alg : AlgId
  value : List Byte
  deriving DecidableEq, Repr

/-- What a slot holds (R21; nothing beyond the bytes listed here, R40, log entry 23). The limbs of a big
integer are natural numbers below `2^LIMB_BITS`, least significant first (R27; the bound is part of the invariant of R29,
DESIGN CHOICE log entry 12, safe). -/
inductive Obj where
  | empty
  | digestCtx (c : DigestCtx)
  | digestVal (d : DigestVal)
  | hmacKey (k : HmacKey)
  | hmacCtx (c : HmacCtx)
  | limbs (ls : List Nat)
  | nonceKey (k : NonceKey)
  deriving DecidableEq, Repr

/-! ## Fault and completion codes, by name (60_exceptions.md R303, R311; their numbers are in Machine/Flags.lean) -/

/-- The nine synchronous exceptions of R303. -/
inductive FaultCode where
  | illegalCommand
  | badSlotKind
  | badAddress
  | badLength
  | overflow
  | overlap
  | zeroScalar
  | derTooLong
  | badOperand
  deriving DecidableEq, Repr

/-- The completion codes of R311. The four middle key-rejection reasons are produced by no command of RHE. -/
inductive ErrCode where
  | ok
  | unspecified
  | keyRejectedInvalidEncoding
  | keyRejectedWrongAlgorithm
  | keyRejectedUnsupportedVersion
  | keyRejectedPublicKeyMissing
  | keyRejectedRngFailed
  deriving DecidableEq, Repr

/-! ## The outside world -/

/-- One answer of the secure-random source to a request for `n` bytes (60_exceptions.md R320): the bytes it delivers (the
first `n` of those listed; bytes it is asked for beyond them are free values), a failure, or no answer at all (R321, U3). -/
inductive RngAnswer where
  | ok (bytes : List Byte)
  | fail
  | never
  deriving DecidableEq, Repr

/-- What the host may do (60_exceptions.md R335): access the register block at an offset with an access of `size` bytes,
access `MEM` through the window with byte strings (20_memory.md R74), assert reset. `MEM` after a reset is unspecified
(70_reset_and_hazards.md R340): the action carries its cells, as an input of the step (U1 "any value", log entry 4). -/
inductive HostAction where
  | regWrite (offset size : Nat) (value : Word)
  | regRead (offset size : Nat)
  | memWrite (addr : Nat) (bytes : List Byte)
  | memRead (addr n : Nat)
  | reset (memAfter : List Host.Cell)
  deriving DecidableEq, Repr

/-- What the engine answers a read of the host. -/
inductive HostAnswer where
  | reg (value : Word)
  | bytes (bs : List Byte)
  deriving DecidableEq, Repr

/-- The state. The first nine fields are R20's inventory, "exactly"; `cfg` holds the parameters of 00_scope.md R9, which no
step changes; the last four are the model's own: the inputs still to come and the answers given (log entries 5, 7, 8). -/
structure State where
  /-- `SLOT[0..15]` -/
  slots : Vector Obj 16
  /-- `MEM` -/
  mem : Memory
  /-- `RES`, `LIMB_BITS` wide, held in 64 bits (log entry 11) -/
  res : BitVec 64
  /-- `ERR` -/
  err : BitVec 8
  /-- `FAULT` -/
  fault : BitVec 8
  /-- `FAULTCMD` -/
  faultCmd : Word
  /-- `FAULTSEQ` -/
  faultSeq : Word
  /-- `CMDSEQ` -/
  cmdSeq : Word
  /-- `CMDBUF` -/
  cmdBuf : List Word
  /-- the parameters -/
  cfg : Config
  /-- the answers the random source will give, first first -/
  rngScript : List RngAnswer
  /-- how many RNG requests have been made -/
  rngDraws : Nat
  /-- the host actions still to come, first first -/
  inbox : List HostAction
  /-- what the host's reads were answered, last first -/
  answers : List HostAnswer
  deriving DecidableEq, Repr

/-- Why the machine stops with a fault. RHE's own faults (R303) are no such stop: they are taken, as a next state. -/
inductive Fault where
  /-- Raised by `EC_NKEY` and `EC_NONCE` when the random source never answers (60_exceptions.md R321; U3: "stuck: the
  command never completes"; DEDUCED, log entry 6). Safe: nothing is claimed of such a run. -/
  | rngNeverAnswers
  deriving DecidableEq, Repr

/-- Why the model refuses a step. -/
inductive Refusal where
  /-- Raised by exec's arm of an instruction that has no meaning yet. Safe: nothing is claimed of it. -/
  | notModelled (mnemonic : String)
  /-- Raised by a host register access that is not one aligned 32-bit word (20_memory.md R62, R335; U4 "refuse"; log entry 18). Safe. -/
  | registerAccessShape
  /-- Raised by a host access through the memory window outside `MEM` (20_memory.md R74; U5 "refuse"; log entry 18). Safe. -/
  | hostAccessOutsideMem
  deriving DecidableEq, Repr

/-- The state after reset (10_state.md R41): every slot Empty, every register 0, `CMDBUF` empty. DESIGN CHOICE (log entries
1, 2, 3, 5, 7, 8, 9): the parameters are the defaults of 00_scope.md R9 with 64-bit limbs and the reference compression,
no cell of `MEM` is listed, and no input is waiting. -/
def State.reset : State where
  slots := Vector.replicate 16 .empty
  mem := []
  res := 0#64
  err := 0#8
  fault := 0#8
  faultCmd := 0#32
  faultSeq := 0#32
  cmdSeq := 0#32
  cmdBuf := []
  cfg := { limbWidth := .w64, maxLimbs := 6, memSize := 65536, regBase := 0, memBase := 65536, compress := .reference }
  rngScript := []
  rngDraws := 0
  inbox := []
  answers := []

end Sys2Proof.Machine
end

