-- ==== Sys2Proof/Machine/Flags.lean ====
section
/-! DEFINITION. Everything RHE has by way of flags: the codes of `FAULT` and `ERR` (60_exceptions.md R303, R311), the LimbMask in
`RES` (43_limb.md R211), the `STATUS` view (10_state.md R35) and the whole register block as the host reads it (R36, R37). -/

namespace Sys2Proof.Machine

/-- The number of a fault in `FAULT` (R303). -/
def faultByte : FaultCode → BitVec 8
  | .illegalCommand => 0x01#8
  | .badSlotKind => 0x02#8
  | .badAddress => 0x03#8
  | .badLength => 0x04#8
  | .overflow => 0x05#8
  | .overlap => 0x06#8
  | .zeroScalar => 0x07#8
  | .derTooLong => 0x08#8
  | .badOperand => 0x09#8

/-- The number of a completion code in `ERR` (R311). -/
def errByte : ErrCode → BitVec 8
  | .ok => 0x00#8
  | .unspecified => 0x01#8
  | .keyRejectedInvalidEncoding => 0x10#8
  | .keyRejectedWrongAlgorithm => 0x11#8
  | .keyRejectedUnsupportedVersion => 0x12#8
  | .keyRejectedPublicKeyMissing => 0x13#8
  | .keyRejectedRngFailed => 0x14#8

/-- `LIMB_BITS` of a state. -/
def State.limbBits (s : State) : Nat := s.cfg.limbWidth.bits

/-- `LIMB_BYTES` of a state. -/
def State.limbBytes (s : State) : Nat := s.cfg.limbWidth.bytes

/-- `Mask(b)`: all ones in `LIMB_BITS` bits for true, all zeros for false (43_limb.md R211). -/
def limbMask (w : LimbWidth) (b : Bool) : BitVec 64 :=
  if b then BitVec.ofNat 64 (2 ^ w.bits - 1) else 0#64

/-- A number as `RES` holds it, `LIMB_BITS` bits wide (10_state.md R32; every count fits, 43_limb.md R225). -/
def resOfNat (w : LimbWidth) (n : Nat) : BitVec 64 := BitVec.ofNat 64 (n % 2 ^ w.bits)

/-- `STATUS` (R35): bit 0 BUSY, never seen as 1 (20_memory.md R70, log entry 17); bit 1 FAULTED; bit 2 PARTIAL; the rest 0. -/
def statusWord (s : State) : Word :=
  BitVec.ofNat 32 ((if s.fault ≠ 0#8 then 2 else 0) + (if s.cmdBuf ≠ [] then 4 else 0))

/-- The number of slots (00_scope.md R9). -/
def numSlots : Nat := 16

/-- The interface version (00_scope.md R1). -/
def interfaceVersion : Nat := 1

/-- `CONFIG` (R36): `LIMB_BITS`, `MAX_LIMBS`, `N_SLOTS`, interface version, one byte each from the lowest. -/
def configWord (c : Config) : Word :=
  BitVec.ofNat 8 interfaceVersion ++ BitVec.ofNat 8 numSlots ++ BitVec.ofNat 8 c.maxLimbs ++ BitVec.ofNat 8 c.limbWidth.bits

/-- `MEMSIZE = MEM_SIZE mod 2^32` (R36). -/
def memSizeWord (c : Config) : Word := BitVec.ofNat 32 c.memSize

/-- The offset of the command port `CMD` (R37). -/
def cmdOffset : Nat := 0x00

/-- What the host reads at an offset of the register block (R37). `CMD` and every offset not in the table read 0
(DEDUCED for offsets beyond the block, log entry 19, safe). -/
def readRegister (s : State) (offset : Nat) : Word :=
  if offset = 0x04 then statusWord s
  else if offset = 0x08 then s.err.setWidth 32
  else if offset = 0x0C then s.fault.setWidth 32
  else if offset = 0x10 then s.faultCmd
  else if offset = 0x14 then s.faultSeq
  else if offset = 0x18 then s.cmdSeq
  else if offset = 0x1C then s.res.extractLsb' 0 32
  else if offset = 0x20 then
    match s.cfg.limbWidth with
    | .w32 => 0#32
    | .w64 => s.res.extractLsb' 32 32
  else if offset = 0x24 then configWord s.cfg
  else if offset = 0x28 then memSizeWord s.cfg
  else 0#32

/-- The host's address of a register (20_memory.md R68). -/
def hostRegAddress (c : Config) (offset : Nat) : Nat := c.regBase + offset

/-- The host's address of byte `a` of `MEM` (20_memory.md R68). -/
def hostMemAddress (c : Config) (a : Nat) : Nat := c.memBase + a

end Sys2Proof.Machine
end

