-- ==== Sys2Proof/Machine/Bytes.lean ====
section
/-! DEFINITION. Byte strings and the numbers they stand for (00_scope.md R11). -/

namespace Sys2Proof.Machine

/-- `zeros(n)`. -/
def zeros (n : Nat) : List Byte := List.replicate n 0x00#8

/-- `be_n(v)`: the `n`-byte big-endian encoding, most significant byte first (its low `8 * n` bits when `v` is larger). -/
def beBytes : Nat → Nat → List Byte
  | 0, _ => []
  | n + 1, v => beBytes n (v / 256) ++ [BitVec.ofNat 8 v]

/-- `be_to_nat(b)`. -/
def beToNat (bs : List Byte) : Nat := bs.foldl (fun acc b => 256 * acc + b.toNat) 0

/-- The number whose least significant byte comes first; `le32_to_nat` on a 4-byte string. -/
def leToNat : List Byte → Nat
  | [] => 0
  | b :: bs => b.toNat + 256 * leToNat bs

/-- `b[i:j]`, the bytes from index `i` up to but not including `j`. -/
def byteSlice (b : List Byte) (i j : Nat) : List Byte := (b.take j).drop i

/-- `ceil(a / b)`. -/
def ceilDiv (a b : Nat) : Nat := (a + b - 1) / b

end Sys2Proof.Machine
end

