-- ==== Sys2Proof/Machine/Descriptor.lean ====
section
/-! DEFINITION. The algorithm descriptor table (40_digest.md R120, R121): immutable constants, one row per algorithm. The
numbers are the spec's own, marked there [from general knowledge, not in source] (log entry 16). -/

namespace Sys2Proof.Machine

/-- `output_len(alg)` in bytes. -/
def outputLen : AlgId → Nat
  | .sha1 => 20
  | .sha256 => 32
  | .sha384 => 48
  | .sha512 => 64
  | .sha512_256 => 32

/-- `block_len(alg)` in bytes. -/
def blockLen : AlgId → Nat
  | .sha1 => 64
  | .sha256 => 64
  | .sha384 => 128
  | .sha512 => 128
  | .sha512_256 => 128

/-- `len_len(alg)`: the bytes reserved for the length field of the final padding block. -/
def lenLen : AlgId → Nat
  | .sha1 => 8
  | .sha256 => 8
  | .sha384 => 16
  | .sha512 => 16
  | .sha512_256 => 16

/-- `word_bits(alg)`. -/
def wordBits : AlgId → Nat
  | .sha1 => 32
  | .sha256 => 32
  | .sha384 => 64
  | .sha512 => 64
  | .sha512_256 => 64

/-- `num_words(alg)`. -/
def numWords : AlgId → Nat
  | .sha1 => 5
  | .sha256 => 8
  | .sha384 => 8
  | .sha512 => 8
  | .sha512_256 => 8

/-- `chaining_len(alg)` in bytes; `num_words * word_bits / 8` (R121). -/
def chainingLen : AlgId → Nat
  | .sha1 => 20
  | .sha256 => 32
  | .sha384 => 64
  | .sha512 => 64
  | .sha512_256 => 64

/-- `MAX_BLOCK_LEN`, the widest `block_len` (00_scope.md R9). -/
def maxBlockLen : Nat := 128

/-- `MAX_CHAINING_LEN`, the widest `chaining_len` (00_scope.md R9). -/
def maxChainingLen : Nat := 64

/-- `MAX_OUTPUT_LEN`, the widest `output_len` (00_scope.md R9); the bound on the seed of `EC_NKEY` (44_ecdsa_nonce.md R253). -/
def maxOutputLen : Nat := 64

end Sys2Proof.Machine
end

