-- ==== Sys2Proof/Machine/Compress.lean ====
section
/-! DEFINITION. `CompressBlock` and `initial_state` (40_digest.md R122 to R124): the reference instantiation of
93_implementation_defined.md section 3 (FIPS 180-4), and the external one whose results are free values. -/

namespace Sys2Proof.Machine

/-! ## Words of a block and of a chaining value -/

/-- The message words of a block for 32-bit words: `M[i]` is the big-endian number in bytes `4i` to `4i + 3` (93 section 3). -/
def blockWords32 (block : List Byte) : List (BitVec 32) :=
  (List.range 16).map fun i => BitVec.ofNat 32 (beToNat (byteSlice block (4 * i) (4 * i + 4)))

/-- The message words of a block for 64-bit words. -/
def blockWords64 (block : List Byte) : List (BitVec 64) :=
  (List.range 16).map fun i => BitVec.ofNat 64 (beToNat (byteSlice block (8 * i) (8 * i + 8)))

/-- A chaining value with every word widened to 64 bits. -/
def chainWords : Chain → List (BitVec 64)
  | .w32 ws => ws.map (·.setWidth 64)
  | .w64 ws => ws

/-- The chaining value of an algorithm's shape (`num_words` words of `word_bits` bits) with the given words. -/
def chainOf (alg : AlgId) (f : Nat → BitVec 64) : Chain :=
  if wordBits alg = 32 then .w32 ((List.range (numWords alg)).map fun i => (f i).setWidth 32)
  else .w64 ((List.range (numWords alg)).map f)

/-! ## SHA-1 (93 section 3.2) -/

/-- The words `w[16..]` that follow a window of the last 16 words, oldest first. -/
def sha1Extend : Nat → List (BitVec 32) → List (BitVec 32)
  | 0, _ => []
  | n + 1, win =>
    let new := (win.getD 13 0 ^^^ win.getD 8 0 ^^^ win.getD 2 0 ^^^ win.getD 0 0).rotateLeft 1
    new :: sha1Extend n (win.tail ++ [new])

/-- The function `f` of round `t`. -/
def sha1F (t : Nat) (b c d : BitVec 32) : BitVec 32 :=
  if t ≤ 19 then (b &&& c) ||| (~~~b &&& d)
  else if t ≤ 39 then b ^^^ c ^^^ d
  else if t ≤ 59 then (b &&& c) ||| (b &&& d) ||| (c &&& d)
  else b ^^^ c ^^^ d

/-- The constant `k` of round `t`. -/
def sha1K (t : Nat) : BitVec 32 :=
  if t ≤ 19 then 0x5a827999#32
  else if t ≤ 39 then 0x6ed9eba1#32
  else if t ≤ 59 then 0x8f1bbcdc#32
  else 0xca62c1d6#32

/-- One round: the five variables, with word `w[t]`. -/
def sha1Round (t : Nat) (wt : BitVec 32) (v : List (BitVec 32)) : List (BitVec 32) :=
  match v with
  | [a, b, c, d, e] => [a.rotateLeft 5 + sha1F t b c d + e + sha1K t + wt, a, b.rotateLeft 30, c, d]
  | _ => v

/-- The rounds from number `t` on. -/
def sha1Rounds : Nat → List (BitVec 32) → List (BitVec 32) → List (BitVec 32)
  | _, [], v => v
  | t, wt :: ws, v => sha1Rounds (t + 1) ws (sha1Round t wt v)

/-- `CompressBlock(SHA1, h, block)` on the words of `h`. -/
def sha1Compress (h : List (BitVec 32)) (block : List Byte) : List (BitVec 32) :=
  let m := blockWords32 block
  List.zipWith (· + ·) h (sha1Rounds 0 (m ++ sha1Extend 64 m) h)

/-! ## The SHA-2 functions (93 sections 3.3 and 3.4), once for both word widths -/

/-- `Ch(x, y, z)`. -/
def shaCh {w : Nat} (x y z : BitVec w) : BitVec w := (x &&& y) ^^^ (~~~x &&& z)

/-- `Maj(x, y, z)`. -/
def shaMaj {w : Nat} (x y z : BitVec w) : BitVec w := (x &&& y) ^^^ (x &&& z) ^^^ (y &&& z)

/-- The words `w[16..]` that follow a window of the last 16 words, oldest first: `s1(w[t-2]) + w[t-7] + s0(w[t-15]) + w[t-16]`. -/
def sha2Extend {w : Nat} (s0 s1 : BitVec w → BitVec w) : Nat → List (BitVec w) → List (BitVec w)
  | 0, _ => []
  | n + 1, win =>
    let new := s1 (win.getD 14 0) + win.getD 9 0 + s0 (win.getD 1 0) + win.getD 0 0
    new :: sha2Extend s0 s1 n (win.tail ++ [new])

/-- One round on the eight variables, with the constant `K[t]` and the word `w[t]`. -/
def sha2Round {w : Nat} (bigS0 bigS1 : BitVec w → BitVec w) (v : List (BitVec w)) (kw : BitVec w × BitVec w) : List (BitVec w) :=
  match v with
  | [a, b, c, d, e, f, g, hh] =>
    let t1 := hh + bigS1 e + shaCh e f g + kw.1 + kw.2
    let t2 := bigS0 a + shaMaj a b c
    [t1 + t2, a, b, c, d + t1, e, f, g]
  | _ => v

/-- `s0`, `s1`, `S0`, `S1` of SHA-256 (93 section 3.3). -/
def sha256Small0 (x : BitVec 32) : BitVec 32 := x.rotateRight 7 ^^^ x.rotateRight 18 ^^^ x >>> 3
@[inherit_doc sha256Small0] def sha256Small1 (x : BitVec 32) : BitVec 32 := x.rotateRight 17 ^^^ x.rotateRight 19 ^^^ x >>> 10
@[inherit_doc sha256Small0] def sha256Big0 (x : BitVec 32) : BitVec 32 := x.rotateRight 2 ^^^ x.rotateRight 13 ^^^ x.rotateRight 22
@[inherit_doc sha256Small0] def sha256Big1 (x : BitVec 32) : BitVec 32 := x.rotateRight 6 ^^^ x.rotateRight 11 ^^^ x.rotateRight 25

/-- `s0`, `s1`, `S0`, `S1` of SHA-512 (93 section 3.4). -/
def sha512Small0 (x : BitVec 64) : BitVec 64 := x.rotateRight 1 ^^^ x.rotateRight 8 ^^^ x >>> 7
@[inherit_doc sha512Small0] def sha512Small1 (x : BitVec 64) : BitVec 64 := x.rotateRight 19 ^^^ x.rotateRight 61 ^^^ x >>> 6
@[inherit_doc sha512Small0] def sha512Big0 (x : BitVec 64) : BitVec 64 := x.rotateRight 28 ^^^ x.rotateRight 34 ^^^ x.rotateRight 39
@[inherit_doc sha512Small0] def sha512Big1 (x : BitVec 64) : BitVec 64 := x.rotateRight 14 ^^^ x.rotateRight 18 ^^^ x.rotateRight 41

/-- `K256[0..63]`. -/
def k256 : List (BitVec 32) :=
  [ 0x428a2f98#32, 0x71374491#32, 0xb5c0fbcf#32, 0xe9b5dba5#32, 0x3956c25b#32, 0x59f111f1#32, 0x923f82a4#32, 0xab1c5ed5#32,
    0xd807aa98#32, 0x12835b01#32, 0x243185be#32, 0x550c7dc3#32, 0x72be5d74#32, 0x80deb1fe#32, 0x9bdc06a7#32, 0xc19bf174#32,
    0xe49b69c1#32, 0xefbe4786#32, 0x0fc19dc6#32, 0x240ca1cc#32, 0x2de92c6f#32, 0x4a7484aa#32, 0x5cb0a9dc#32, 0x76f988da#32,
    0x983e5152#32, 0xa831c66d#32, 0xb00327c8#32, 0xbf597fc7#32, 0xc6e00bf3#32, 0xd5a79147#32, 0x06ca6351#32, 0x14292967#32 ]
  ++
  [ 0x27b70a85#32, 0x2e1b2138#32, 0x4d2c6dfc#32, 0x53380d13#32, 0x650a7354#32, 0x766a0abb#32, 0x81c2c92e#32, 0x92722c85#32,
    0xa2bfe8a1#32, 0xa81a664b#32, 0xc24b8b70#32, 0xc76c51a3#32, 0xd192e819#32, 0xd6990624#32, 0xf40e3585#32, 0x106aa070#32,
    0x19a4c116#32, 0x1e376c08#32, 0x2748774c#32, 0x34b0bcb5#32, 0x391c0cb3#32, 0x4ed8aa4a#32, 0x5b9cca4f#32, 0x682e6ff3#32,
    0x748f82ee#32, 0x78a5636f#32, 0x84c87814#32, 0x8cc70208#32, 0x90befffa#32, 0xa4506ceb#32, 0xbef9a3f7#32, 0xc67178f2#32 ]

/-- `K512[0..79]`. -/
def k512 : List (BitVec 64) :=
  [ 0x428a2f98d728ae22#64, 0x7137449123ef65cd#64, 0xb5c0fbcfec4d3b2f#64, 0xe9b5dba58189dbbc#64,
    0x3956c25bf348b538#64, 0x59f111f1b605d019#64, 0x923f82a4af194f9b#64, 0xab1c5ed5da6d8118#64,
    0xd807aa98a3030242#64, 0x12835b0145706fbe#64, 0x243185be4ee4b28c#64, 0x550c7dc3d5ffb4e2#64,
    0x72be5d74f27b896f#64, 0x80deb1fe3b1696b1#64, 0x9bdc06a725c71235#64, 0xc19bf174cf692694#64,
    0xe49b69c19ef14ad2#64, 0xefbe4786384f25e3#64, 0x0fc19dc68b8cd5b5#64, 0x240ca1cc77ac9c65#64 ]
  ++
  [ 0x2de92c6f592b0275#64, 0x4a7484aa6ea6e483#64, 0x5cb0a9dcbd41fbd4#64, 0x76f988da831153b5#64,
    0x983e5152ee66dfab#64, 0xa831c66d2db43210#64, 0xb00327c898fb213f#64, 0xbf597fc7beef0ee4#64,
    0xc6e00bf33da88fc2#64, 0xd5a79147930aa725#64, 0x06ca6351e003826f#64, 0x142929670a0e6e70#64,
    0x27b70a8546d22ffc#64, 0x2e1b21385c26c926#64, 0x4d2c6dfc5ac42aed#64, 0x53380d139d95b3df#64,
    0x650a73548baf63de#64, 0x766a0abb3c77b2a8#64, 0x81c2c92e47edaee6#64, 0x92722c851482353b#64 ]
  ++
  [ 0xa2bfe8a14cf10364#64, 0xa81a664bbc423001#64, 0xc24b8b70d0f89791#64, 0xc76c51a30654be30#64,
    0xd192e819d6ef5218#64, 0xd69906245565a910#64, 0xf40e35855771202a#64, 0x106aa07032bbd1b8#64,
    0x19a4c116b8d2d0c8#64, 0x1e376c085141ab53#64, 0x2748774cdf8eeb99#64, 0x34b0bcb5e19b48a8#64,
    0x391c0cb3c5c95a63#64, 0x4ed8aa4ae3418acb#64, 0x5b9cca4f7763e373#64, 0x682e6ff3d6b2b8a3#64,
    0x748f82ee5defb2fc#64, 0x78a5636f43172f60#64, 0x84c87814a1f0ab72#64, 0x8cc702081a6439ec#64 ]
  ++
  [ 0x90befffa23631e28#64, 0xa4506cebde82bde9#64, 0xbef9a3f7b2c67915#64, 0xc67178f2e372532b#64,
    0xca273eceea26619c#64, 0xd186b8c721c0c207#64, 0xeada7dd6cde0eb1e#64, 0xf57d4f7fee6ed178#64,
    0x06f067aa72176fba#64, 0x0a637dc5a2c898a6#64, 0x113f9804bef90dae#64, 0x1b710b35131c471b#64,
    0x28db77f523047d84#64, 0x32caab7b40c72493#64, 0x3c9ebe0a15c9bebc#64, 0x431d67c49c100d4c#64,
    0x4cc5d4becb3e42b6#64, 0x597f299cfc657e2a#64, 0x5fcb6fab3ad6faec#64, 0x6c44198c4a475817#64 ]

/-- `CompressBlock(SHA256, h, block)` on the words of `h`. -/
def sha256Compress (h : List (BitVec 32)) (block : List Byte) : List (BitVec 32) :=
  let m := blockWords32 block
  List.zipWith (· + ·) h
    ((k256.zip (m ++ sha2Extend sha256Small0 sha256Small1 48 m)).foldl (sha2Round sha256Big0 sha256Big1) h)

/-- `CompressBlock(alg, h, block)` for SHA384, SHA512 and SHA512_256 on the words of `h`. -/
def sha512Compress (h : List (BitVec 64)) (block : List Byte) : List (BitVec 64) :=
  let m := blockWords64 block
  List.zipWith (· + ·) h
    ((k512.zip (m ++ sha2Extend sha512Small0 sha512Small1 64 m)).foldl (sha2Round sha512Big0 sha512Big1) h)

/-! ## The two sources -/

/-- The reference initial states (93 section 3.1). -/
def refInitialState : AlgId → Chain
  | .sha1 =>
    .w32 [0x67452301#32, 0xefcdab89#32, 0x98badcfe#32, 0x10325476#32, 0xc3d2e1f0#32]
  | .sha256 =>
    .w32 [0x6a09e667#32, 0xbb67ae85#32, 0x3c6ef372#32, 0xa54ff53a#32, 0x510e527f#32,
      0x9b05688c#32, 0x1f83d9ab#32, 0x5be0cd19#32]
  | .sha384 =>
    .w64 [0xcbbb9d5dc1059ed8#64, 0x629a292a367cd507#64, 0x9159015a3070dd17#64, 0x152fecd8f70e5939#64,
      0x67332667ffc00b31#64, 0x8eb44a8768581511#64, 0xdb0c2e0d64f98fa7#64, 0x47b5481dbefa4fa4#64]
  | .sha512 =>
    .w64 [0x6a09e667f3bcc908#64, 0xbb67ae8584caa73b#64, 0x3c6ef372fe94f82b#64, 0xa54ff53a5f1d36f1#64,
      0x510e527fade682d1#64, 0x9b05688c2b3e6c1f#64, 0x1f83d9abfb41bd6b#64, 0x5be0cd19137e2179#64]
  | .sha512_256 =>
    .w64 [0x22312194fc2bf72c#64, 0x9f555fa3c84c64c2#64, 0x2393b86b6f53b151#64, 0x963877195940eabd#64,
      0x96283ee2a88effe3#64, 0xbe5e1e2553863992#64, 0x2b0199fc2c85b8aa#64, 0x0eb72ddc81c52ca2#64]

/-- The reference `CompressBlock`. A chaining value of another algorithm's word width is no argument of it (R124); the
function is made total by returning it unchanged (DESIGN CHOICE, log entry 15, safe: no state that satisfies R29 holds one). -/
def refCompressBlock (alg : AlgId) (h : Chain) (block : List Byte) : Chain :=
  match alg, h with
  | .sha1, .w32 ws => .w32 (sha1Compress ws block)
  | .sha256, .w32 ws => .w32 (sha256Compress ws block)
  | .sha384, .w64 ws => .w64 (sha512Compress ws block)
  | .sha512, .w64 ws => .w64 (sha512Compress ws block)
  | .sha512_256, .w64 ws => .w64 (sha512Compress ws block)
  | .sha1, .w64 ws => .w64 ws
  | .sha256, .w64 ws => .w64 ws
  | .sha384, .w32 ws => .w32 ws
  | .sha512, .w32 ws => .w32 ws
  | .sha512_256, .w32 ws => .w32 ws

/-- `initial_state(alg)` (R122). -/
def initialState (src : CompressSource) (alg : AlgId) : Chain :=
  match src with
  | .reference => refInitialState alg
  | .external => chainOf alg (Config.extInitialWord alg)

/-- `CompressBlock(alg, h, block)` (R124). -/
def compressBlock (src : CompressSource) (alg : AlgId) (h : Chain) (block : List Byte) : Chain :=
  match src with
  | .reference => refCompressBlock alg h block
  | .external => chainOf alg (Config.extCompressWord alg (chainWords h) block)

end Sys2Proof.Machine
end

