-- ==== Sys2Proof/Machine/DigestEngine.lean ====
section
/-! DEFINITION. The functions of the digest engine (40_digest.md R124 to R132, R139): iterated compression, state formatting,
the BlockCtx and DigestCtx operations, and the faults their `require` lines name. -/

namespace Sys2Proof.Machine

/-- `Compress(alg, h, B_1 ++ ... ++ B_k)` for the first `k` blocks of the data: `k` applications of `CompressBlock` in order (R124). -/
def compressBlocks (src : CompressSource) (alg : AlgId) : Nat → Chain → List Byte → Chain
  | 0, h, _ => h
  | k + 1, h, data =>
    compressBlocks src alg k (compressBlock src alg h (data.take (blockLen alg))) (data.drop (blockLen alg))

/-- `Format(alg, h)` (R125): the words one after the other, each big-endian in its own width. -/
def formatChain : Chain → List Byte
  | .w32 ws => ws.flatMap fun x => beBytes 4 x.toNat
  | .w64 ws => ws.flatMap fun x => beBytes 8 x.toNat

/-- `BlockNew(alg)` (R126). -/
def blockNew (src : CompressSource) (alg : AlgId) : BlockCtx :=
  { alg := alg, h := initialState src alg, nblocks := 0#64 }

/-- `BlockUpdate(bc, data)` (R127) where its `require` lines hold. -/
def blockUpdate (src : CompressSource) (bc : BlockCtx) (data : List Byte) : BlockCtx :=
  let k := data.length / blockLen bc.alg
  { bc with h := compressBlocks src bc.alg k bc.h data, nblocks := bc.nblocks + BitVec.ofNat 64 k }

/-- The fault the `require` lines of `BlockUpdate` raise for data of `len` bytes, if any (R127): `BAD_LENGTH` for a broken
block, `OVERFLOW` when the counter would reach 2^64. No command reaches the first. -/
def blockUpdateFault (bc : BlockCtx) (len : Nat) : Option FaultCode :=
  if len % blockLen bc.alg ≠ 0 then some .badLength
  else if 2 ^ 64 ≤ bc.nblocks.toNat + len / blockLen bc.alg then some .overflow
  else none

/-- The bit length `BlockFinish` writes: data blocks and pending bytes, times 8 (R131). -/
def finishBits (bc : BlockCtx) (numPending : Nat) : Nat :=
  (bc.nblocks.toNat * blockLen bc.alg + numPending) * 8

/-- The fault the `require` lines of `BlockFinish` raise, if any (R131): `BAD_LENGTH` for a whole block pending (no state
that satisfies R29 has one; log entry 14), `OVERFLOW` for 2^64 bits or more (R134). -/
def blockFinishFault (bc : BlockCtx) (numPending : Nat) : Option FaultCode :=
  if blockLen bc.alg ≤ numPending then some .badLength
  else if 2 ^ 64 ≤ finishBits bc numPending then some .overflow
  else none

/-- The blocks `BlockFinish` compresses, in order (R131): one when the `0x80` byte leaves room for the `len_len` bytes of the
length field, else first the pending bytes, `0x80` and zeros, and then a block of zeros with the length. -/
def paddingBlocks (alg : AlgId) (pending : List Byte) (bits : Nat) : List (List Byte) :=
  let buf := pending ++ [0x80#8]
  if blockLen alg - lenLen alg < buf.length then
    [ buf ++ zeros (blockLen alg - buf.length),
      zeros (blockLen alg - 8) ++ beBytes 8 bits ]
  else
    [ buf ++ zeros (blockLen alg - 8 - buf.length) ++ beBytes 8 bits ]

/-- `BlockFinish(bc, pending)` (R131) where its `require` lines hold. -/
def blockFinish (src : CompressSource) (bc : BlockCtx) (pending : List Byte) : DigestVal :=
  let h := (paddingBlocks bc.alg pending (finishBits bc pending.length)).foldl (compressBlock src bc.alg) bc.h
  { alg := bc.alg, value := (formatChain h).take (outputLen bc.alg) }

/-- `CtxNew(alg)` (R128). -/
def ctxNew (src : CompressSource) (alg : AlgId) : DigestCtx :=
  { block := blockNew src alg, pending := [] }

/-- The block `BlockUpdate` completes first when a partial block is pending, or the context as it is (R129). -/
def ctxTopUp (src : CompressSource) (ctx : DigestCtx) (data : List Byte) : BlockCtx × List Byte :=
  if 0 < ctx.pending.length then
    let t := blockLen ctx.block.alg - ctx.pending.length
    (blockUpdate src ctx.block (ctx.pending ++ data.take t), data.drop t)
  else (ctx.block, data)

/-- `CtxUpdate(ctx, data)` (R129). -/
def ctxUpdate (src : CompressSource) (ctx : DigestCtx) (data : List Byte) : DigestCtx :=
  let b := blockLen ctx.block.alg
  if data.length < b - ctx.pending.length then
    { ctx with pending := ctx.pending ++ data }
  else
    let (bc, rem) := ctxTopUp src ctx data
    let k := rem.length / b
    { block := blockUpdate src bc (rem.take (k * b)), pending := rem.drop (k * b) }

/-- Whether the counter stays below 2^64 when `len` more bytes are fed: the `OVERFLOW` check of `DG_UPDATE` and `HM_UPDATE`
(R136, 41_hmac.md R168). -/
def updateFits (ctx : DigestCtx) (len : Nat) : Bool :=
  decide (ctx.block.nblocks.toNat + (ctx.pending.length + len) / blockLen ctx.block.alg < 2 ^ 64)

/-- `CtxFinish(ctx)` (R132). -/
def ctxFinish (src : CompressSource) (ctx : DigestCtx) : DigestVal :=
  blockFinish src ctx.block ctx.pending

/-- `Digest(alg, data)` (R139). -/
def digest (src : CompressSource) (alg : AlgId) (data : List Byte) : DigestVal :=
  ctxFinish src (ctxUpdate src (ctxNew src alg) data)

end Sys2Proof.Machine
end

