-- ==== Sys2Proof/Machine/HmacEngine.lean ====
section
/-! DEFINITION. The functions of HMAC (41_hmac.md R160 to R165) and of HKDF expansion (42_hkdf.md R192, R194). -/

namespace Sys2Proof.Machine

/-- `IPAD` (R160). -/
def ipad : Byte := 0x36#8

/-- `OPAD` (R160). -/
def opad : Byte := 0x5C#8

/-- `k0` of R162: the key, or its digest when it is longer than a block, zero-padded to a block. -/
def hmacPaddedKey (src : CompressSource) (alg : AlgId) (keyValue : List Byte) : List Byte :=
  let k := if keyValue.length ≤ blockLen alg then keyValue else (digest src alg keyValue).value
  k ++ zeros (blockLen alg - k.length)

/-- `HmacKeyNew(alg, key_value)` (R162): `outer` from the pad block of `inner` toggled by `IPAD ^ OPAD`. -/
def hmacKeyNew (src : CompressSource) (alg : AlgId) (keyValue : List Byte) : HmacKey :=
  let ipadBlock := (hmacPaddedKey src alg keyValue).map (· ^^^ ipad)
  let opadBlock := ipadBlock.map (· ^^^ (ipad ^^^ opad))
  { alg := alg
    inner := blockUpdate src (blockNew src alg) ipadBlock
    outer := blockUpdate src (blockNew src alg) opadBlock }

/-- `HmacCtxNew(key)` (R163). -/
def hmacCtxNew (key : HmacKey) : HmacCtx :=
  { alg := key.alg
    inner := { block := { alg := key.alg, h := key.inner.h, nblocks := key.inner.nblocks }, pending := [] }
    outer := key.outer }

/-- `HmacCtxUpdate(ctx, data)` (R164). -/
def hmacCtxUpdate (src : CompressSource) (ctx : HmacCtx) (data : List Byte) : HmacCtx :=
  { ctx with inner := ctxUpdate src ctx.inner data }

/-- `HmacSign(ctx)` (R165): the inner digest is the pending data of the outer BlockContext's finish. -/
def hmacSign (src : CompressSource) (ctx : HmacCtx) : DigestVal :=
  blockFinish src ctx.outer (ctxFinish src ctx.inner).value

/-- The fault the two finishes inside `HmacSign` raise, if any (R165, R169, 40_digest.md R131): of the inner finish first,
then of the outer one, whose pending data is an inner digest of `output_len` bytes (DEDUCED, log entry 14, safe). -/
def hmacSignFault (ctx : HmacCtx) : Option FaultCode :=
  match blockFinishFault ctx.inner.block ctx.inner.pending.length with
  | some f => some f
  | none => blockFinishFault ctx.outer (outputLen ctx.inner.block.alg)

/-- One round of `HkdfFill`: `T(n) = HMAC(PRK, T(n-1) || info-chunks || n)`, the first round without `T(n-1)` (42_hkdf.md R192),
the counter as one byte (R194). -/
def hkdfRound (src : CompressSource) (prk : HmacKey) (chunks : List (List Byte)) (n : Nat) (prev : List Byte) : List Byte :=
  let start := if 1 < n then hmacCtxUpdate src (hmacCtxNew prk) prev else hmacCtxNew prk
  let fed := chunks.foldl (hmacCtxUpdate src) start
  (hmacSign src (hmacCtxUpdate src fed [BitVec.ofNat 8 n])).value

/-- The loop of `HkdfFill` (R192) for at most as many rounds as the first argument says. -/
def hkdfLoop (src : CompressSource) (prk : HmacKey) (chunks : List (List Byte)) (bigL : Nat) :
    Nat → Nat → List Byte → List Byte → List Byte
  | 0, _, _, out => out
  | fuel + 1, n, prev, out =>
    let t := hkdfRound src prk chunks n prev
    let out' := out ++ t.take (min (bigL - out.length) (outputLen prk.alg))
    if out'.length = bigL then out' else hkdfLoop src prk chunks bigL fuel (n + 1) t out'

/-- `HkdfFill(prk, chunks, L)` (R192): the counter is one byte, so at most 255 rounds (R194). -/
def hkdfFill (src : CompressSource) (prk : HmacKey) (chunks : List (List Byte)) (bigL : Nat) : List Byte :=
  hkdfLoop src prk chunks bigL 255 1 [] []

end Sys2Proof.Machine
end

