-- ==== Sys2Proof/Machine/LimbArith.lean ====
section
/-! DEFINITION. Limb arithmetic on natural numbers (43_limb.md R210 to R225) and the DER integer (45_sig_format.md R272,
R273). `w` is `LIMB_BITS` throughout. -/

namespace Sys2Proof.Machine

/-- `value(L)`: the sum of `limb[i] * 2^(LIMB_BITS * i)` (10_state.md R27). -/
def limbsValue (w : Nat) : List Nat → Nat
  | [] => 0
  | l :: ls => l + 2 ^ w * limbsValue w ls

/-- The `n` limbs of a number: `limb[i] = (v >> (LIMB_BITS * i)) mod 2^LIMB_BITS` (43_limb.md R212, R220). -/
def limbsOfNat (w n v : Nat) : List Nat :=
  (List.range n).map fun i => v / 2 ^ (w * i) % 2 ^ w

/-- The value `LB_REDUCE` leaves: one subtraction of the modulus when it does not go below zero (R220). -/
def reduceOnce (r m : Nat) : Nat := if m ≤ r then r - m else r

/-- The bit length `LB_MINBITS` answers: 0 for 0, else `1 + floor(log2 v)` (R221). -/
def minimalBits (v : Nat) : Nat := if v = 0 then 0 else 1 + Nat.log2 v

/-- The 1-based position of the highest set bit among the low `k` bits of a limb, scanned from bit `k - 1` down; 0 if none. -/
def highBitScan : Nat → Nat → Nat
  | 0, _ => 0
  | k + 1, x => if x.testBit k then k + 1 else highBitScan k x

/-- The scan the source describes: from the most significant limb down, and in the first nonzero limb from its high bit down
(R221). The limbs are given least significant first. -/
def minimalBitsScan (w : Nat) : List Nat → Nat
  | [] => 0
  | l :: ls =>
    let upper := minimalBitsScan w ls
    if upper ≠ 0 then w + upper else highBitScan w l

/-- `nw = ceil(n * LIMB_BITS / 5)`, the number of windows (R222). -/
def numWindows (w n : Nat) : Nat := ceilDiv (n * w) 5

/-- `Windows5(a)`: `w_j = (V >> (5 * (nw - 1 - j))) mod 32`, the most significant window first, one byte each (R222, R223). -/
def windows5 (w : Nat) (limbs : List Nat) : List Byte :=
  let nw := numWindows w limbs.length
  (List.range nw).map fun j => BitVec.ofNat 8 (limbsValue w limbs / 2 ^ (5 * (nw - 1 - j)) % 32)

/-! ## The DER integer -/

/-- The tag byte of INTEGER (45_sig_format.md R272). -/
def derIntegerTag : Byte := 0x02#8

/-- The tag byte of SEQUENCE, constructed (R272). -/
def derSequenceTag : Byte := 0x30#8

/-- The contents octets of a positive number of `scalarLen` bytes (R273): leading zero bytes stripped, then one zero byte put
back when the top bit of the first remaining byte is set. -/
def derContents (scalarLen v : Nat) : List Byte :=
  let fixed := 0x00#8 :: beBytes scalarLen v
  let i := fixed.findIdx (· != 0x00#8)
  let j := if fixed.getD i 0x00#8 &&& 0x80#8 ≠ 0#8 then i - 1 else i
  fixed.drop j

/-- `IntegerTLV(a)` where its `require` lines hold (R273): tag, one length byte, contents. -/
def integerTlv (scalarLen v : Nat) : List Byte :=
  let c := derContents scalarLen v
  derIntegerTag :: BitVec.ofNat 8 c.length :: c

/-- The length of the SEQUENCE's contents (R274). -/
def derBodyLen (scalarLen r s : Nat) : Nat :=
  (integerTlv scalarLen r).length + (integerTlv scalarLen s).length

/-- Whether every length byte of the encoding is below 128, the short form (R273, R274, 90_conflicts.md C8). -/
def derShort (scalarLen r s : Nat) : Bool :=
  decide ((derContents scalarLen r).length < 128) && decide ((derContents scalarLen s).length < 128)
    && decide (derBodyLen scalarLen r s < 128)

/-- The whole DER SEQUENCE of two INTEGERs (R274). -/
def derSignature (scalarLen r s : Nat) : List Byte :=
  derSequenceTag :: BitVec.ofNat 8 (derBodyLen scalarLen r s) :: (integerTlv scalarLen r ++ integerTlv scalarLen s)

/-- The fixed encoding: both scalars big-endian in `scalarLen` bytes (R271). -/
def fixedSignature (scalarLen r s : Nat) : List Byte := beBytes scalarLen r ++ beBytes scalarLen s

end Sys2Proof.Machine
end

