-- ==== Sys2Proof/Machine/NonceEngine.lean ====
section
/-! DEFINITION. The two functions of nonce generation (44_ecdsa_nonce.md R252, R254): plain digest passes, no HMAC (R251). -/

namespace Sys2Proof.Machine

/-- `NonceKeyNew(alg, seed, rand)` (R252): the random bytes first, then the seed. -/
def nonceKeyNew (src : CompressSource) (alg : AlgId) (seed rand : List Byte) : NonceKey :=
  { alg := alg
    value := (ctxFinish src (ctxUpdate src (ctxUpdate src (ctxNew src alg) rand) seed)).value }

/-- `NonceFill(nkey, md, rand)` (R254): key, random bytes to the end of the first block, message digest. -/
def nonceFill (src : CompressSource) (nkey : NonceKey) (md rand : List Byte) : List Byte :=
  (ctxFinish src
    (ctxUpdate src (ctxUpdate src (ctxUpdate src (ctxNew src nkey.alg) nkey.value) rand) md)).value

end Sys2Proof.Machine
end

