-- ==== Sys2Proof/Machine/Ops.lean ====
section
/-! DEFINITION. The named operations over the state that every command is written with: slots (10_state.md R30), `MEM`
(20_memory.md R64 to R66), completing (60_exceptions.md R310), taking a fault (R304), the random source (R320), and reset, the
one way out of a fault (70_reset_and_hazards.md R340). -/

namespace Sys2Proof.Machine

/-- What a step answers. -/
abbrev Result := Host.Outcome State Fault Refusal

/-! ## Slots and RES -/

/-- `SLOT[i]` (00_scope.md R12). -/
def State.slot (s : State) (r : Slot) : Obj := s.slots[r.val]

/-- `SLOT[i] <- obj` (R12): whatever the slot held is lost (10_state.md R30). -/
def State.setSlot (s : State) (r : Slot) (o : Obj) : State := { s with slots := s.slots.set r.val o r.isLt }

/-- `RES <- v` (R12). -/
def State.setRes (s : State) (v : BitVec 64) : State := { s with res := v }

/-! ## MEM -/

/-- A memory operand `(addr, len)` (20_memory.md R63). -/
structure MemRange where
  addr : Nat
  len : Nat
  deriving DecidableEq, Repr

/-- A range is valid exactly when `addr + len <= MEM_SIZE`, on naturals (R64). -/
def State.validRange (s : State) (r : MemRange) : Bool := decide (r.addr + r.len ≤ s.cfg.memSize)

/-- Two ranges overlap when both have nonzero length and share an address (R65). -/
def rangesOverlap (p q : MemRange) : Bool :=
  decide (0 < p.len) && decide (0 < q.len) && decide (p.addr < q.addr + q.len) && decide (q.addr < p.addr + p.len)

/-- The bytes of a range. -/
def State.bytesAt (s : State) (r : MemRange) : List Byte := memReadBytes s.mem r.addr r.len

/-- `MEM` with a byte string stored from an address on. -/
def State.store (s : State) (addr : Nat) (bs : List Byte) : State := { s with mem := memWriteBytes s.mem addr bs }

/-! ## How a command ends -/

/-- A command completes with a code: `ERR <- code`, `CMDSEQ <- (CMDSEQ + 1) mod 2^32` (10_state.md R31, R33; 60_exceptions.md R310). -/
def State.complete (s : State) (c : ErrCode) : State := { s with err := errByte c, cmdSeq := s.cmdSeq + 1#32 }

/-- A command succeeds, with the state its effect left: `ERR <- 0` and `CMDSEQ` advances. -/
def succeed (s : State) : Result := .next (s.complete .ok)

/-- `fail(code)` (60_exceptions.md R310): no slot, no byte of `MEM` and not `RES` changes. -/
def failWith (c : ErrCode) (s : State) : Result := .next (s.complete c)

/-- `raise Fault(code)` for a command whose header word is `hdr` (R304): the code, the header and the number of commands
completed are recorded, `CMDBUF` is emptied, nothing else changes. There is no vector and no mode: the engine halts (R306, R316). -/
def raiseFault (c : FaultCode) (hdr : Word) (s : State) : State :=
  { s with fault := faultByte c, faultCmd := hdr, faultSeq := s.cmdSeq, cmdBuf := [] }

/-- A command takes a fault: `raiseFault` with its own header word (R305), recomputed from the command (DEDUCED,
log entry 10, safe). -/
def trap (i : Instr) (c : FaultCode) (s : State) : Result := .next (raiseFault c (instrHeader i) s)

/-! ## The random source (60_exceptions.md R320, R321) -/

/-- What one request to the random source comes back with, and the state after it. -/
inductive RngReply where
  | ok (rand : List Byte) (s : State)
  | fail (s : State)
  | never

/-- The bytes an answer delivers to a request for `n` bytes: those listed, and free values beyond them. -/
def rngBytes (draw n : Nat) (listed : List Byte) : List Byte :=
  (List.range n).map fun j => listed.getD j (Config.rngByte draw j)

/-- `RngFill(n)` (R320): the next answer of the script; when none is listed, a free value decides success and every byte. -/
def rngFill (n : Nat) (s : State) : RngReply :=
  let s' := { s with rngScript := s.rngScript.tail, rngDraws := s.rngDraws + 1 }
  match s.rngScript with
  | [] => if Config.rngFails s.rngDraws then .fail s' else .ok (rngBytes s.rngDraws n []) s'
  | .ok bs :: _ => .ok (rngBytes s.rngDraws n bs) s'
  | .fail :: _ => .fail s'
  | .never :: _ => .never

/-- Whether the next request to the random source is answered with bytes; its length does not decide it (R320, a public value by
70_reset_and_hazards.md R350). -/
def rngDelivers (s : State) : Bool :=
  match s.rngScript with
  | [] => !Config.rngFails s.rngDraws
  | .ok _ :: _ => true
  | .fail :: _ => false
  | .never :: _ => false

/-- Byte `j` of the fixed test source of R321, counted from reset. -/
def testSourceByte (j : Nat) : Byte := BitVec.ofNat 8 (0x80 + j)

/-- The answers of the test source of R321 to requests of the given lengths, from byte `j` on: it never fails. -/
def testSourceAnswers : Nat → List Nat → List RngAnswer
  | _, [] => []
  | j, n :: ns => .ok ((List.range n).map fun i => testSourceByte (j + i)) :: testSourceAnswers (j + n) ns

/-! ## Reset -/

/-- Reset asserted (70_reset_and_hazards.md R340), whatever state the engine was in: every slot Empty, every register 0,
`CMDBUF` empty, and in `MEM` the bytes the reset leaves there, which the spec does not say (an input, log entry 4). The
parameters, the random source and the outside world are not the engine's to reset. -/
def State.assertReset (s : State) (memAfter : List Host.Cell) : State :=
  { State.reset with
    mem := memOfCells s.cfg.memSize memAfter
    cfg := s.cfg
    rngScript := s.rngScript
    rngDraws := s.rngDraws
    inbox := s.inbox
    answers := s.answers }

end Sys2Proof.Machine
end

