-- ==== Sys2Proof/Machine/Operands.lean ====
section
/-! DEFINITION. Every operand form of the commands: source slots by kind (10_state.md R30), ranges given by two operand words
(20_memory.md R63), the chunk table (42_hkdf.md R193), pairs of `Limbs` (43_limb.md R211), the scalar of `LB_EQLIMB` (R219). -/

namespace Sys2Proof.Machine

/-! ## Source slots: the object when the slot holds the kind the command requires -/

/-- The `DigestCtx` a slot holds. -/
def State.digestCtxIn (s : State) (r : Slot) : Option DigestCtx :=
  match s.slot r with
  | .digestCtx c => some c
  | .empty | .digestVal _ | .hmacKey _ | .hmacCtx _ | .limbs _ | .nonceKey _ => none

/-- The `DigestVal` a slot holds; a `NonceKey` is none (10_state.md R28). -/
def State.digestValIn (s : State) (r : Slot) : Option DigestVal :=
  match s.slot r with
  | .digestVal d => some d
  | .empty | .digestCtx _ | .hmacKey _ | .hmacCtx _ | .limbs _ | .nonceKey _ => none

/-- The `HmacKey` a slot holds. -/
def State.hmacKeyIn (s : State) (r : Slot) : Option HmacKey :=
  match s.slot r with
  | .hmacKey k => some k
  | .empty | .digestCtx _ | .digestVal _ | .hmacCtx _ | .limbs _ | .nonceKey _ => none

/-- The `HmacCtx` a slot holds. -/
def State.hmacCtxIn (s : State) (r : Slot) : Option HmacCtx :=
  match s.slot r with
  | .hmacCtx c => some c
  | .empty | .digestCtx _ | .digestVal _ | .hmacKey _ | .limbs _ | .nonceKey _ => none

/-- The `Limbs` a slot holds. -/
def State.limbsIn (s : State) (r : Slot) : Option (List Nat) :=
  match s.slot r with
  | .limbs ls => some ls
  | .empty | .digestCtx _ | .digestVal _ | .hmacKey _ | .hmacCtx _ | .nonceKey _ => none

/-- The `NonceKey` a slot holds. -/
def State.nonceKeyIn (s : State) (r : Slot) : Option NonceKey :=
  match s.slot r with
  | .nonceKey k => some k
  | .empty | .digestCtx _ | .digestVal _ | .hmacKey _ | .hmacCtx _ | .limbs _ => none

/-- Both `Limbs` operands of a command that takes two; none when either slot holds another kind. -/
def State.limbsPairIn (s : State) (a b : Slot) : Option (List Nat × List Nat) :=
  match s.limbsIn a, s.limbsIn b with
  | some x, some y => some (x, y)
  | some _, none => none
  | none, _ => none

/-! ## Operand words -/

/-- The range two operand words name: 32-bit unsigned numbers as they stand (30_encoding.md R92, 20_memory.md R63). -/
def wordRange (addr len : Word) : MemRange := { addr := addr.toNat, len := len.toNat }

/-- `b = lo + hi * 2^32` (43_limb.md R219). -/
def scalarOfWords (lo hi : Word) : Nat := lo.toNat + hi.toNat * 2 ^ 32

/-! ## The chunk table of HK_EXPAND (42_hkdf.md R193) -/

/-- The range of the table: `n` entries of 8 bytes. -/
def tableRange (tab nChunks : Word) : MemRange := { addr := tab.toNat, len := 8 * nChunks.toNat }

/-- Entry `i`: the chunk's address and length, each 4 bytes, least significant first. -/
def State.chunkEntry (s : State) (tab i : Nat) : MemRange :=
  { addr := leToNat (memReadBytes s.mem (tab + 8 * i) 4)
    len := leToNat (memReadBytes s.mem (tab + 8 * i + 4) 4) }

/-- The chunks the table names, in order. -/
def State.chunkRanges (s : State) (tab nChunks : Word) : List MemRange :=
  (List.range nChunks.toNat).map fun i => s.chunkEntry tab.toNat i

end Sys2Proof.Machine
end

