-- ==== Sys2Proof/Machine/DigestCmd.lean ====
section
/-! DEFINITION. The meanings of the digest commands (40_digest.md R135 to R138) and of CT_VERIFY (41_hmac.md R170). The checks
stand in the order of 60_exceptions.md R309. -/

namespace Sys2Proof.Machine

/-- DG_INIT (R135). -/
def execDgInit (rd : Slot) (alg : AlgId) (s : State) : Result :=
  succeed (s.setSlot rd (.digestCtx (ctxNew s.cfg.compress alg)))

/-- DG_UPDATE (R136). -/
def execDgUpdate (rd : Slot) (addr len : Word) (s : State) : Result :=
  match s.digestCtxIn rd with
  | none => trap (.dgUpdate rd addr len) .badSlotKind s
  | some ctx =>
    if ¬ s.validRange (wordRange addr len) then trap (.dgUpdate rd addr len) .badAddress s
    else if ¬ updateFits ctx len.toNat then trap (.dgUpdate rd addr len) .overflow s
    else succeed (s.setSlot rd (.digestCtx (ctxUpdate s.cfg.compress ctx (s.bytesAt (wordRange addr len)))))

/-- DG_FINISH (R137): the source is emptied, then the destination written (10_state.md R30). -/
def execDgFinish (rd rs1 : Slot) (s : State) : Result :=
  match s.digestCtxIn rs1 with
  | none => trap (.dgFinish rd rs1) .badSlotKind s
  | some ctx =>
    match blockFinishFault ctx.block ctx.pending.length with
    | some f => trap (.dgFinish rd rs1) f s
    | none => succeed ((s.setSlot rs1 .empty).setSlot rd (.digestVal (ctxFinish s.cfg.compress ctx)))

/-- DG_READ (R138). -/
def execDgRead (rs1 : Slot) (addr : Word) (s : State) : Result :=
  match s.digestValIn rs1 with
  | none => trap (.dgRead rs1 addr) .badSlotKind s
  | some d =>
    if ¬ s.validRange { addr := addr.toNat, len := outputLen d.alg } then trap (.dgRead rs1 addr) .badAddress s
    else succeed ((s.store addr.toNat d.value).setRes (resOfNat s.cfg.limbWidth (outputLen d.alg)))

/-- `acc = OR over i of (value[i] ^ e[i])` (41_hmac.md R170): every byte is looked at whatever the data. -/
def byteDifference (value e : List Byte) : Byte :=
  (List.zipWith (· ^^^ ·) value e).foldl (· ||| ·) 0#8

/-- CT_VERIFY (41_hmac.md R170): a length mismatch is an ordinary mismatch. -/
def execCtVerify (rs1 : Slot) (addr len : Word) (s : State) : Result :=
  match s.digestValIn rs1 with
  | none => trap (.ctVerify rs1 addr len) .badSlotKind s
  | some d =>
    if ¬ s.validRange (wordRange addr len) then trap (.ctVerify rs1 addr len) .badAddress s
    else if len.toNat ≠ outputLen d.alg then failWith .unspecified s
    else if byteDifference d.value (s.bytesAt (wordRange addr len)) ≠ 0#8 then failWith .unspecified s
    else succeed s

end Sys2Proof.Machine
end

