-- ==== Sys2Proof/Machine/EcdsaCmd.lean ====
section
/-! DEFINITION. The meanings of the nonce commands (44_ecdsa_nonce.md R253, R255). The one request to the random source is
made after every check (60_exceptions.md R312). -/

namespace Sys2Proof.Machine

/-- EC_NKEY (R253). -/
def execEcNkey (rd : Slot) (alg : AlgId) (addr len : Word) (s : State) : Result :=
  if len.toNat < 1 ∨ maxOutputLen < len.toNat then trap (.ecNkey rd alg addr len) .badLength s
  else if ¬ s.validRange (wordRange addr len) then trap (.ecNkey rd alg addr len) .badAddress s
  else
    match rngFill len.toNat s with
    | .never => .fault .rngNeverAnswers
    | .fail s' => failWith .keyRejectedRngFailed s'
    | .ok rand s' =>
      succeed (s'.setSlot rd (.nonceKey (nonceKeyNew s.cfg.compress alg (s.bytesAt (wordRange addr len)) rand)))

/-- EC_NONCE (R255). -/
def execEcNonce (rs1 : Slot) (mdAddr mdLen dst dstLen : Word) (s : State) : Result :=
  match s.nonceKeyIn rs1 with
  | none => trap (.ecNonce rs1 mdAddr mdLen dst dstLen) .badSlotKind s
  | some key =>
    if mdLen.toNat ≠ outputLen key.alg then trap (.ecNonce rs1 mdAddr mdLen dst dstLen) .badLength s
    else if dstLen.toNat ≠ outputLen key.alg then trap (.ecNonce rs1 mdAddr mdLen dst dstLen) .badLength s
    else if ¬ s.validRange (wordRange mdAddr mdLen) then trap (.ecNonce rs1 mdAddr mdLen dst dstLen) .badAddress s
    else if ¬ s.validRange (wordRange dst dstLen) then trap (.ecNonce rs1 mdAddr mdLen dst dstLen) .badAddress s
    else if rangesOverlap (wordRange dst dstLen) (wordRange mdAddr mdLen) then
      trap (.ecNonce rs1 mdAddr mdLen dst dstLen) .overlap s
    else
      match rngFill (blockLen key.alg - outputLen key.alg) s with
      | .never => .fault .rngNeverAnswers
      | .fail s' => failWith .unspecified s'
      | .ok rand s' =>
        succeed (s'.store dst.toNat (nonceFill s.cfg.compress key (s.bytesAt (wordRange mdAddr mdLen)) rand))

end Sys2Proof.Machine
end

