-- ==== Sys2Proof/Machine/HmacCmd.lean ====
section
/-! DEFINITION. The meanings of the HMAC commands (41_hmac.md R166 to R169) and of HKDF expansion (42_hkdf.md R196). -/

namespace Sys2Proof.Machine

/-- HM_KEY (R166). -/
def execHmKey (rd : Slot) (alg : AlgId) (addr len : Word) (s : State) : Result :=
  if ¬ s.validRange (wordRange addr len) then trap (.hmKey rd alg addr len) .badAddress s
  else succeed (s.setSlot rd (.hmacKey (hmacKeyNew s.cfg.compress alg (s.bytesAt (wordRange addr len)))))

/-- HM_INIT (R167): the key is kept, unless it is the destination. -/
def execHmInit (rd rs1 : Slot) (s : State) : Result :=
  match s.hmacKeyIn rs1 with
  | none => trap (.hmInit rd rs1) .badSlotKind s
  | some key => succeed (s.setSlot rd (.hmacCtx (hmacCtxNew key)))

/-- HM_UPDATE (R168). -/
def execHmUpdate (rd : Slot) (addr len : Word) (s : State) : Result :=
  match s.hmacCtxIn rd with
  | none => trap (.hmUpdate rd addr len) .badSlotKind s
  | some ctx =>
    if ¬ s.validRange (wordRange addr len) then trap (.hmUpdate rd addr len) .badAddress s
    else if ¬ updateFits ctx.inner len.toNat then trap (.hmUpdate rd addr len) .overflow s
    else succeed (s.setSlot rd (.hmacCtx (hmacCtxUpdate s.cfg.compress ctx (s.bytesAt (wordRange addr len)))))

/-- HM_SIGN (R169): the source is emptied, then the destination written (10_state.md R30). -/
def execHmSign (rd rs1 : Slot) (s : State) : Result :=
  match s.hmacCtxIn rs1 with
  | none => trap (.hmSign rd rs1) .badSlotKind s
  | some ctx =>
    match hmacSignFault ctx with
    | some f => trap (.hmSign rd rs1) f s
    | none => succeed ((s.setSlot rs1 .empty).setSlot rd (.digestVal (hmacSign s.cfg.compress ctx)))

/-- Check 6 of HK_EXPAND (42_hkdf.md R196, 20_memory.md R65): the output overlaps the table or a chunk. -/
def expandOverlaps (out table : MemRange) (chunks : List MemRange) : Bool :=
  rangesOverlap out table || chunks.any (rangesOverlap out)

/-- Check 7 of HK_EXPAND (42_hkdf.md R196): the longest HMAC input of any round, in bits, stays below 2^64. -/
def expandFits (alg : AlgId) (chunks : List MemRange) (bigL : Nat) : Bool :=
  let e := if outputLen alg < bigL then outputLen alg else 0
  decide ((blockLen alg + e + (chunks.map (·.len)).sum + 1) * 8 < 2 ^ 64)

/-- HK_EXPAND (42_hkdf.md R196). -/
def execHkExpand (rs1 : Slot) (tab nChunks out outLen bigL : Word) (s : State) : Result :=
  match s.hmacKeyIn rs1 with
  | none => trap (.hkExpand rs1 tab nChunks out outLen bigL) .badSlotKind s
  | some key =>
    if ¬ s.validRange (tableRange tab nChunks) then trap (.hkExpand rs1 tab nChunks out outLen bigL) .badAddress s
    else if ¬ s.validRange (wordRange out outLen) then trap (.hkExpand rs1 tab nChunks out outLen bigL) .badAddress s
    else if ¬ (s.chunkRanges tab nChunks).all s.validRange then
      trap (.hkExpand rs1 tab nChunks out outLen bigL) .badAddress s
    else if expandOverlaps (wordRange out outLen) (tableRange tab nChunks) (s.chunkRanges tab nChunks) then
      trap (.hkExpand rs1 tab nChunks out outLen bigL) .overlap s
    else if ¬ expandFits key.alg (s.chunkRanges tab nChunks) bigL.toNat then
      trap (.hkExpand rs1 tab nChunks out outLen bigL) .overflow s
    else if outLen ≠ bigL then failWith .unspecified s
    else if 255 * outputLen key.alg < bigL.toNat then failWith .unspecified s
    else
      succeed (s.store out.toNat
        (hkdfFill s.cfg.compress key ((s.chunkRanges tab nChunks).map s.bytesAt) bigL.toNat))

end Sys2Proof.Machine
end

