-- ==== Sys2Proof/Machine/LimbCmd.lean ====
section
/-! DEFINITION. The meanings of the limb commands (43_limb.md R212 to R223). -/

namespace Sys2Proof.Machine

/-- LB_PARSE (R212): the limbs needed are counted from the byte length, not from the value. -/
def execLbParse (rd : Slot) (addr len numLimbs : Word) (s : State) : Result :=
  if s.cfg.maxLimbs < numLimbs.toNat then trap (.lbParse rd addr len numLimbs) .badLength s
  else if ¬ s.validRange (wordRange addr len) then trap (.lbParse rd addr len numLimbs) .badAddress s
  else if len.toNat < 1 then failWith .unspecified s
  else if numLimbs.toNat < ceilDiv len.toNat s.limbBytes then failWith .unspecified s
  else succeed (s.setSlot rd
    (.limbs (limbsOfNat s.limbBits numLimbs.toNat (beToNat (s.bytesAt (wordRange addr len))))))

/-- LB_FORMAT (R213): exactly `n * LIMB_BYTES` bytes, the length checked before the range. -/
def execLbFormat (rs1 : Slot) (addr len : Word) (s : State) : Result :=
  match s.limbsIn rs1 with
  | none => trap (.lbFormat rs1 addr len) .badSlotKind s
  | some a =>
    if len.toNat ≠ a.length * s.limbBytes then trap (.lbFormat rs1 addr len) .badLength s
    else if ¬ s.validRange (wordRange addr len) then trap (.lbFormat rs1 addr len) .badAddress s
    else succeed (s.store addr.toNat (beBytes len.toNat (limbsValue s.limbBits a)))

/-- The comparison commands end by writing a LimbMask to `RES` (R211). -/
def succeedMask (s : State) (b : Bool) : Result := succeed (s.setRes (limbMask s.cfg.limbWidth b))

/-- LB_EQ (R215). -/
def execLbEq (rs1 rs2 : Slot) (s : State) : Result :=
  match s.limbsPairIn rs1 rs2 with
  | none => trap (.lbEq rs1 rs2) .badSlotKind s
  | some (a, b) =>
    if a.length ≠ b.length then trap (.lbEq rs1 rs2) .badLength s
    else succeedMask s (decide (limbsValue s.limbBits a = limbsValue s.limbBits b))

/-- LB_LT (R216), unsigned. -/
def execLbLt (rs1 rs2 : Slot) (s : State) : Result :=
  match s.limbsPairIn rs1 rs2 with
  | none => trap (.lbLt rs1 rs2) .badSlotKind s
  | some (a, b) =>
    if a.length ≠ b.length then trap (.lbLt rs1 rs2) .badLength s
    else succeedMask s (decide (limbsValue s.limbBits a < limbsValue s.limbBits b))

/-- LB_ZERO (R217). -/
def execLbZero (rs1 : Slot) (s : State) : Result :=
  match s.limbsIn rs1 with
  | none => trap (.lbZero rs1) .badSlotKind s
  | some a => succeedMask s (decide (limbsValue s.limbBits a = 0))

/-- LB_EVEN (R218): the parity of the big integer (90_conflicts.md C7). -/
def execLbEven (rs1 : Slot) (s : State) : Result :=
  match s.limbsIn rs1 with
  | none => trap (.lbEven rs1) .badSlotKind s
  | some a => succeedMask s (decide (limbsValue s.limbBits a % 2 = 0))

/-- LB_EQLIMB (R219): the scalar is one limb, so with 32-bit limbs `hi` must be 0. -/
def execLbEqlimb (rs1 : Slot) (lo hi : Word) (s : State) : Result :=
  match s.limbsIn rs1 with
  | none => trap (.lbEqlimb rs1 lo hi) .badSlotKind s
  | some a =>
    if s.cfg.limbWidth = .w32 ∧ hi ≠ 0#32 then trap (.lbEqlimb rs1 lo hi) .badOperand s
    else succeedMask s (decide (limbsValue s.limbBits a = scalarOfWords lo hi))

/-- LB_REDUCE (R220). -/
def execLbReduce (rd rs2 : Slot) (s : State) : Result :=
  match s.limbsPairIn rd rs2 with
  | none => trap (.lbReduce rd rs2) .badSlotKind s
  | some (r, m) =>
    if r.length ≠ m.length then trap (.lbReduce rd rs2) .badLength s
    else succeed (s.setSlot rd (.limbs (limbsOfNat s.limbBits r.length
      (reduceOnce (limbsValue s.limbBits r) (limbsValue s.limbBits m)))))

/-- LB_MINBITS (R221). -/
def execLbMinbits (rs1 : Slot) (s : State) : Result :=
  match s.limbsIn rs1 with
  | none => trap (.lbMinbits rs1) .badSlotKind s
  | some a => succeed (s.setRes (resOfNat s.cfg.limbWidth (minimalBits (limbsValue s.limbBits a))))

/-- LB_FOLD5 (R223). -/
def execLbFold5 (rs1 : Slot) (addr : Word) (s : State) : Result :=
  match s.limbsIn rs1 with
  | none => trap (.lbFold5 rs1 addr) .badSlotKind s
  | some a =>
    if ¬ s.validRange { addr := addr.toNat, len := numWindows s.limbBits a.length } then
      trap (.lbFold5 rs1 addr) .badAddress s
    else succeed ((s.store addr.toNat (windows5 s.limbBits a)).setRes
      (resOfNat s.cfg.limbWidth (numWindows s.limbBits a.length)))

end Sys2Proof.Machine
end

