-- ==== Sys2Proof/Machine/SigCmd.lean ====
section
/-! DEFINITION. The meanings of the signature formatter's commands (45_sig_format.md R270, R271, R274). -/

namespace Sys2Proof.Machine

/-- SG_FIXED (R271). -/
def execSgFixed (rs1 rs2 : Slot) (addr : Word) (s : State) : Result :=
  match s.limbsPairIn rs1 rs2 with
  | none => trap (.sgFixed rs1 rs2 addr) .badSlotKind s
  | some (r, t) =>
    if r.length ≠ t.length then trap (.sgFixed rs1 rs2 addr) .badLength s
    else
      let scalarLen := r.length * s.limbBytes
      if ¬ s.validRange { addr := addr.toNat, len := 2 * scalarLen } then trap (.sgFixed rs1 rs2 addr) .badAddress s
      else succeed ((s.store addr.toNat
          (fixedSignature scalarLen (limbsValue s.limbBits r) (limbsValue s.limbBits t))).setRes
        (resOfNat s.cfg.limbWidth (2 * scalarLen)))

/-- SG_ASN1 (R274): `ZERO_SCALAR` before `DER_TOO_LONG`, both before the range check. -/
def execSgAsn1 (rs1 rs2 : Slot) (addr : Word) (s : State) : Result :=
  match s.limbsPairIn rs1 rs2 with
  | none => trap (.sgAsn1 rs1 rs2 addr) .badSlotKind s
  | some (r, t) =>
    if r.length ≠ t.length then trap (.sgAsn1 rs1 rs2 addr) .badLength s
    else
      let scalarLen := r.length * s.limbBytes
      let rv := limbsValue s.limbBits r
      let sv := limbsValue s.limbBits t
      if rv = 0 ∨ sv = 0 then trap (.sgAsn1 rs1 rs2 addr) .zeroScalar s
      else if ¬ derShort scalarLen rv sv then trap (.sgAsn1 rs1 rs2 addr) .derTooLong s
      else if ¬ s.validRange { addr := addr.toNat, len := 2 + derBodyLen scalarLen rv sv } then
        trap (.sgAsn1 rs1 rs2 addr) .badAddress s
      else succeed ((s.store addr.toNat (derSignature scalarLen rv sv)).setRes
        (resOfNat s.cfg.limbWidth (2 + derBodyLen scalarLen rv sv)))

end Sys2Proof.Machine
end

