-- ==== Sys2Proof/Machine/SystemCmd.lean ====
section
/-! DEFINITION. The meaning of the system command (46_system.md R290). -/

namespace Sys2Proof.Machine

/-- SL_FREE (R290): any kind is accepted, the slot becomes Empty. -/
def execSlFree (rd : Slot) (s : State) : Result :=
  succeed (s.setSlot rd .empty)

end Sys2Proof.Machine
end

