-- ==== Sys2Proof/Machine/Dispatch.lean ====
section
/-! DEFINITION. One arm per command of 30_encoding.md R101: what executing a complete, legal record does. -/

namespace Sys2Proof.Machine

/-- What a complete command record does to a state with `FAULT = 0` (60_exceptions.md R304; the port keeps a faulted engine from executing, R306). -/
def exec (i : Instr) (s : State) : Host.Outcome State Fault Refusal :=
  match i with
  | .slFree rd => Sys2Proof.Machine.execSlFree rd s
  | .dgInit rd alg => Sys2Proof.Machine.execDgInit rd alg s
  | .dgUpdate rd addr len => Sys2Proof.Machine.execDgUpdate rd addr len s
  | .dgFinish rd rs1 => Sys2Proof.Machine.execDgFinish rd rs1 s
  | .dgRead rs1 addr => Sys2Proof.Machine.execDgRead rs1 addr s
  | .ctVerify rs1 addr len => Sys2Proof.Machine.execCtVerify rs1 addr len s
  | .hmKey rd alg addr len => Sys2Proof.Machine.execHmKey rd alg addr len s
  | .hmInit rd rs1 => Sys2Proof.Machine.execHmInit rd rs1 s
  | .hmUpdate rd addr len => Sys2Proof.Machine.execHmUpdate rd addr len s
  | .hmSign rd rs1 => Sys2Proof.Machine.execHmSign rd rs1 s
  | .hkExpand rs1 tab nChunks out outLen bigL => Sys2Proof.Machine.execHkExpand rs1 tab nChunks out outLen bigL s
  | .lbParse rd addr len numLimbs => Sys2Proof.Machine.execLbParse rd addr len numLimbs s
  | .lbFormat rs1 addr len => Sys2Proof.Machine.execLbFormat rs1 addr len s
  | .lbEq rs1 rs2 => Sys2Proof.Machine.execLbEq rs1 rs2 s
  | .lbLt rs1 rs2 => Sys2Proof.Machine.execLbLt rs1 rs2 s
  | .lbZero rs1 => Sys2Proof.Machine.execLbZero rs1 s
  | .lbEven rs1 => Sys2Proof.Machine.execLbEven rs1 s
  | .lbEqlimb rs1 lo hi => Sys2Proof.Machine.execLbEqlimb rs1 lo hi s
  | .lbReduce rd rs2 => Sys2Proof.Machine.execLbReduce rd rs2 s
  | .lbMinbits rs1 => Sys2Proof.Machine.execLbMinbits rs1 s
  | .lbFold5 rs1 addr => Sys2Proof.Machine.execLbFold5 rs1 addr s
  | .ecNkey rd alg addr len => Sys2Proof.Machine.execEcNkey rd alg addr len s
  | .ecNonce rs1 mdAddr mdLen dst dstLen => Sys2Proof.Machine.execEcNonce rs1 mdAddr mdLen dst dstLen s
  | .sgFixed rs1 rs2 addr => Sys2Proof.Machine.execSgFixed rs1 rs2 addr s
  | .sgAsn1 rs1 rs2 addr => Sys2Proof.Machine.execSgAsn1 rs1 rs2 addr s

end Sys2Proof.Machine
end

