-- ==== Sys2Proof/Machine/HostPort.lean ====
section
/-! DEFINITION. What the engine does with each action of the host (60_exceptions.md R335): the command port (10_state.md R38), the
register block (R37), the memory window (20_memory.md R74), reset (70_reset_and_hazards.md R340). -/

namespace Sys2Proof.Machine

/-- A write of word `w` to `CMD` (10_state.md R38): ignored while faulted (60_exceptions.md R306); the header is checked at
every word, and so when it arrives; a complete record is executed; otherwise the word is buffered (DEDUCED, log entry 13, safe). -/
def writeCmd (w : Word) (s : State) : Result :=
  if s.fault ≠ 0#8 then .next s
  else
    let buf := s.cmdBuf ++ [w]
    let hdr := buf.headD w
    if ¬ legalHeader hdr then .next (raiseFault .illegalCommand hdr s)
    else
      match decodeRecord buf with
      | .ok i => exec i { s with cmdBuf := [] }
      | .error _ => .next { s with cmdBuf := buf }

/-- A register access is one aligned 32-bit word (10_state.md R37, 20_memory.md R62). -/
def registerAccessOk (offset size : Nat) : Bool := decide (size = 4) && decide (offset % 4 = 0)

/-- A write to the register block: to `CMD` it delivers a command word; to a read-only register or an unlisted offset it is
ignored (10_state.md R37). -/
def hostRegWrite (offset size : Nat) (value : Word) (s : State) : Result :=
  if ¬ registerAccessOk offset size then .refused .registerAccessShape
  else if offset = cmdOffset then writeCmd value s
  else .next s

/-- A read of the register block has no side effect (10_state.md R37): only the answer is new. -/
def hostRegRead (offset size : Nat) (s : State) : Result :=
  if ¬ registerAccessOk offset size then .refused .registerAccessShape
  else .next { s with answers := .reg (readRegister s offset) :: s.answers }

/-- `HostWrite(a, bytes)` (20_memory.md R74), also while faulted and inside a record. -/
def hostMemWrite (addr : Nat) (bytes : List Byte) (s : State) : Result :=
  if ¬ s.validRange { addr := addr, len := bytes.length } then .refused .hostAccessOutsideMem
  else .next (s.store addr bytes)

/-- `HostRead(a, n)` (20_memory.md R74). -/
def hostMemRead (addr n : Nat) (s : State) : Result :=
  if ¬ s.validRange { addr := addr, len := n } then .refused .hostAccessOutsideMem
  else .next { s with answers := .bytes (s.bytesAt { addr := addr, len := n }) :: s.answers }

/-- One action of the host, already taken from the inbox. -/
def hostAct (a : HostAction) (s : State) : Result :=
  match a with
  | .regWrite offset size value => hostRegWrite offset size value s
  | .regRead offset size => hostRegRead offset size s
  | .memWrite addr bytes => hostMemWrite addr bytes s
  | .memRead addr n => hostMemRead addr n s
  | .reset memAfter => .next (s.assertReset memAfter)

/-- The next action of the host, or none: then the engine waits and nothing changes (70_reset_and_hazards.md R340 "waits for
the first word on CMD"; log entry 7). -/
def nextAction (s : State) : Result :=
  match s.inbox with
  | [] => .next s
  | a :: rest => hostAct a { s with inbox := rest }

/-- The state in which the very next step receives the last word of a record and executes it: the words before it stand in
`CMDBUF` (10_state.md R38), the engine is not faulted (R306), and the host's next action delivers the last word. -/
def awaitLastWord (ws : List Word) (s : State) : State :=
  { s with
    fault := 0#8
    faultCmd := 0#32
    faultSeq := 0#32
    cmdBuf := ws.dropLast
    inbox := .regWrite cmdOffset 4 (ws.getLastD 0#32) :: s.inbox }

end Sys2Proof.Machine
end

