-- ==== Sys2Proof/Machine/Step.lean ====
section
/-! DEFINITION. One step of the machine: the next action of the host and the engine's answer to it (20_memory.md R70). -/

namespace Sys2Proof.Machine

/-- One step. -/
def step (s : State) : Host.Outcome State Fault Refusal := nextAction s

/-- The state with an instruction, given by its bits as spec/opcode_table.json numbers them, placed where the next step
receives it (log entry 7). -/
def State.withFetchWord (s : State) (nbits w : Nat) : State := awaitLastWord (tableRecord nbits w) s

end Sys2Proof.Machine
end

