-- ==== Sys2Proof/Machine/Leakage.lean ====
section
/-! DEFINITION. What may be observed of a command besides its result, as 70_reset_and_hazards.md R350 lets a model without
time say it: each invocation of the compression primitive with its number of blocks (40_digest.md R141), which ranges of
`MEM` are touched, how many random bytes are requested (log entry 21). -/

namespace Sys2Proof.Machine

/-- The footprint of one command. -/
structure Footprint where
  /-- the invocations of the compression primitive in order, each by its number of blocks -/
  compressions : List Nat
  /-- the ranges of `MEM` read -/
  reads : List MemRange
  /-- the ranges of `MEM` written -/
  writes : List MemRange
  /-- the bytes requested of the random source -/
  rngRequest : Option Nat
  deriving DecidableEq, Repr

/-- Nothing touched. -/
def noFootprint : Footprint := { compressions := [], reads := [], writes := [], rngRequest := none }

/-! ## The invocations of the primitive (40_digest.md R123, R124): one or more blocks each -/

/-- The invocations `Compress` on `k` blocks makes: one, or none when there is no block (R123 "one-or-more full blocks", R124). -/
def compressCalls (k : Nat) : List Nat := if k = 0 then [] else [k]

/-- The invocations of `CtxUpdate` for `len` bytes (R129): none while less than a block is there; else one block that completes
the pending bytes, where there are any, and then the whole blocks of the rest. -/
def updateCalls (alg : AlgId) (numPending len : Nat) : List Nat :=
  let t := blockLen alg - numPending
  if len < t then []
  else if 0 < numPending then 1 :: compressCalls ((len - t) / blockLen alg)
  else compressCalls (len / blockLen alg)

/-- The invocations of `BlockFinish` (R131): one block, or two blocks one after the other. -/
def finishCalls (alg : AlgId) (numPending : Nat) : List Nat :=
  if blockLen alg - lenLen alg < numPending + 1 then [1, 1] else [1]

/-- The invocations of successive updates of the given lengths and the finish after them (R129, R131, R132). -/
def feedCalls (alg : AlgId) : Nat → List Nat → List Nat
  | numPending, [] => finishCalls alg numPending
  | numPending, len :: lens =>
    updateCalls alg numPending len ++ feedCalls alg ((numPending + len) % blockLen alg) lens

/-- The invocations of `HmacKeyNew` for a key of `len` bytes (41_hmac.md R162): its digest when it is longer than a block, then
one block for each pad. -/
def hmacKeyCalls (alg : AlgId) (len : Nat) : List Nat :=
  (if blockLen alg < len then feedCalls alg 0 [len] else []) ++ [1, 1]

/-- The invocations of HKDF round `n` (42_hkdf.md R192): the previous round's output from the second round on, the chunks, the
counter, the inner finish, and the outer finish (41_hmac.md R165). -/
def hkdfRoundCalls (alg : AlgId) (chunkLens : List Nat) (n : Nat) : List Nat :=
  feedCalls alg 0 ((if 1 < n then [outputLen alg] else []) ++ chunkLens ++ [1]) ++ finishCalls alg (outputLen alg)

/-- The rounds of an HKDF expansion that succeeds (42_hkdf.md R197). -/
def hkdfRounds (alg : AlgId) (bigL : Nat) : Nat := max 1 (ceilDiv bigL (outputLen alg))

/-- Whether a command that was executed with `FAULT = 0` took a fault. -/
def tookFault (i : Instr) (s : State) : Bool :=
  match exec i s with
  | .next t => t.fault != 0#8
  | .fault _ => false
  | .refused _ => false

/-- The footprint of a command that passes its fault checks. A command that asks the random source reads, hashes and writes only
when bytes are delivered (44_ecdsa_nonce.md R253, R255; 20_memory.md R73 "only on success"). -/
def workOf (i : Instr) (s : State) : Footprint :=
  match i with
  | .slFree _ | .dgInit _ _ | .hmInit _ _ => noFootprint
  | .lbEq _ _ | .lbLt _ _ | .lbZero _ | .lbEven _ | .lbEqlimb _ _ _ | .lbReduce _ _ | .lbMinbits _ => noFootprint
  | .dgUpdate rd addr len =>
    match s.digestCtxIn rd with
    | none => noFootprint
    | some c =>
      { noFootprint with
        compressions := updateCalls c.block.alg c.pending.length len.toNat, reads := [wordRange addr len] }
  | .dgFinish _ rs1 =>
    match s.digestCtxIn rs1 with
    | none => noFootprint
    | some c => { noFootprint with compressions := finishCalls c.block.alg c.pending.length }
  | .dgRead rs1 addr =>
    match s.digestValIn rs1 with
    | none => noFootprint
    | some d => { noFootprint with writes := [⟨addr.toNat, outputLen d.alg⟩] }
  | .ctVerify _ addr len => { noFootprint with reads := [wordRange addr len] }
  | .hmKey _ alg addr len =>
    { noFootprint with compressions := hmacKeyCalls alg len.toNat, reads := [wordRange addr len] }
  | .hmUpdate rd addr len =>
    match s.hmacCtxIn rd with
    | none => noFootprint
    | some c =>
      { noFootprint with
        compressions := updateCalls c.inner.block.alg c.inner.pending.length len.toNat, reads := [wordRange addr len] }
  | .hmSign _ rs1 =>
    match s.hmacCtxIn rs1 with
    | none => noFootprint
    | some c =>
      { noFootprint with
        compressions := finishCalls c.inner.block.alg c.inner.pending.length ++
          finishCalls c.outer.alg (outputLen c.inner.block.alg) }
  | .hkExpand rs1 tab nChunks out outLen bigL =>
    match s.hmacKeyIn rs1 with
    | none => noFootprint
    | some key =>
      let chunks := s.chunkRanges tab nChunks
      if outLen = bigL ∧ bigL.toNat ≤ 255 * outputLen key.alg then
        { compressions := (List.range (hkdfRounds key.alg bigL.toNat)).flatMap fun j =>
            hkdfRoundCalls key.alg (chunks.map (·.len)) (j + 1)
          reads := tableRange tab nChunks :: chunks
          writes := [wordRange out outLen]
          rngRequest := none }
      else { noFootprint with reads := [tableRange tab nChunks] }
  | .lbParse _ addr len numLimbs =>
    if 1 ≤ len.toNat ∧ ceilDiv len.toNat s.limbBytes ≤ numLimbs.toNat then
      { noFootprint with reads := [wordRange addr len] }
    else noFootprint
  | .lbFormat _ addr len => { noFootprint with writes := [wordRange addr len] }
  | .lbFold5 rs1 addr =>
    match s.limbsIn rs1 with
    | none => noFootprint
    | some a => { noFootprint with writes := [⟨addr.toNat, numWindows s.limbBits a.length⟩] }
  | .ecNkey _ alg addr len =>
    let asked := { noFootprint with rngRequest := some len.toNat }
    if rngDelivers s then
      { asked with compressions := feedCalls alg 0 [len.toNat, len.toNat], reads := [wordRange addr len] }
    else asked
  | .ecNonce rs1 mdAddr mdLen dst dstLen =>
    match s.nonceKeyIn rs1 with
    | none => noFootprint
    | some key =>
      let o := outputLen key.alg
      let asked := { noFootprint with rngRequest := some (blockLen key.alg - o) }
      if rngDelivers s then
        { asked with
          compressions := feedCalls key.alg 0 [o, blockLen key.alg - o, o]
          reads := [wordRange mdAddr mdLen]
          writes := [wordRange dst dstLen] }
      else asked
  | .sgFixed rs1 _ addr =>
    match s.limbsIn rs1 with
    | none => noFootprint
    | some r => { noFootprint with writes := [⟨addr.toNat, 2 * (r.length * s.limbBytes)⟩] }
  | .sgAsn1 rs1 rs2 addr =>
    match s.limbsPairIn rs1 rs2 with
    | none => noFootprint
    | some (r, t) =>
      { noFootprint with
        writes := [⟨addr.toNat,
          2 + derBodyLen (r.length * s.limbBytes) (limbsValue s.limbBits r) (limbsValue s.limbBits t)⟩] }

/-- What a command that takes a fault has read: only HK_EXPAND reads before its last check, the chunk table, once the key, the
table's range and the output range have been accepted (20_memory.md R64, 42_hkdf.md R196). -/
def faultReads (i : Instr) (s : State) : List MemRange :=
  match i with
  | .hkExpand rs1 tab nChunks out outLen _ =>
    match s.hmacKeyIn rs1 with
    | none => []
    | some _ =>
      if s.validRange (tableRange tab nChunks) && s.validRange (wordRange out outLen) then [tableRange tab nChunks] else []
  | .slFree _ | .dgInit _ _ | .dgUpdate _ _ _ | .dgFinish _ _ | .dgRead _ _ | .ctVerify _ _ _ => []
  | .hmKey _ _ _ _ | .hmInit _ _ | .hmUpdate _ _ _ | .hmSign _ _ => []
  | .lbParse _ _ _ _ | .lbFormat _ _ _ | .lbEq _ _ | .lbLt _ _ | .lbZero _ | .lbEven _ | .lbEqlimb _ _ _ => []
  | .lbReduce _ _ | .lbMinbits _ | .lbFold5 _ _ | .ecNkey _ _ _ _ | .ecNonce _ _ _ _ _ | .sgFixed _ _ _ | .sgAsn1 _ _ _ => []

/-- The footprint of a command executed in a state with `FAULT = 0` (R350). -/
def footprint (i : Instr) (s : State) : Footprint :=
  if tookFault i s then { noFootprint with reads := faultReads i s } else workOf i s

end Sys2Proof.Machine
end

