-- ==== Sys2Proof/Safety.lean ====
section
/-! DEFINITION. What claims are stated in terms of: the invariant of 10_state.md R29, the order of fault checks of
60_exceptions.md R309 written once as a table, what a command leaves unchanged, and the public view of a state
(70_reset_and_hazards.md R350). -/

namespace Sys2Proof.Machine

/-! ## The invariant (10_state.md R22 to R29) -/

/-- A chaining value has `num_words(alg)` words of `word_bits(alg)` bits (R22). -/
def chainFits (alg : AlgId) : Chain → Bool
  | .w32 ws => wordBits alg == 32 && ws.length == numWords alg
  | .w64 ws => wordBits alg == 64 && ws.length == numWords alg

/-- R23: the chaining value fits and less than a block is pending. -/
def digestCtxOk (c : DigestCtx) : Bool :=
  chainFits c.block.alg c.block.h && decide (c.pending.length < blockLen c.block.alg)

/-- R25, R26: a precomputed pad context of the given algorithm, one block compressed. -/
def padBlockOk (alg : AlgId) (b : BlockCtx) : Bool :=
  b.alg == alg && chainFits alg b.h && b.nblocks == 1#64

/-- Every object satisfies the invariant of its kind (R29). -/
def objOk (cfg : Config) : Obj → Bool
  | .empty => true
  | .digestCtx c => digestCtxOk c
  | .digestVal d => d.value.length == outputLen d.alg
  | .hmacKey k => padBlockOk k.alg k.inner && padBlockOk k.alg k.outer
  | .hmacCtx c => c.inner.block.alg == c.alg && digestCtxOk c.inner && padBlockOk c.alg c.outer
  | .limbs ls => decide (1 ≤ ls.length) && decide (ls.length ≤ cfg.maxLimbs) && ls.all (fun l => decide (l < 2 ^ cfg.limbWidth.bits))
  | .nonceKey k => k.value.length == outputLen k.alg

/-- `CMDBUF` is empty, or the beginning of one record whose header is legal (10_state.md R38). -/
def partialOk (buf : List Word) : Bool :=
  match buf with
  | [] => true
  | hdr :: _ => legalHeader hdr && decide (buf.length < recordLength hdr)

/-- The invariant of the whole state: R29, with what R20, R32 to R34, R39 and 60_exceptions.md R303, R306, R311 say of the
registers and of `MEM`. -/
abbrev State.Inv (s : State) : Prop :=
  s.cfg.wellFormed = true ∧
  (∀ r : Slot, objOk s.cfg (s.slot r) = true) ∧
  Memory.wf s.mem ∧
  (∀ c ∈ s.mem, c.1 < s.cfg.memSize) ∧
  s.res.toNat < 2 ^ s.limbBits ∧
  s.err ∈ [0x00#8, 0x01#8, 0x14#8] ∧
  s.fault.toNat ≤ 9 ∧
  (s.fault = 0#8 → s.faultCmd = 0#32 ∧ s.faultSeq = 0#32) ∧
  (s.fault ≠ 0#8 → s.cmdBuf = []) ∧
  partialOk s.cmdBuf = true

/-! ## The order of fault checks (60_exceptions.md R309) -/

/-- Whether a slot holds a `Limbs` of the same number of limbs as another. -/
def sameLimbCount (s : State) (a b : Slot) : Bool :=
  match s.slot a, s.slot b with
  | .limbs x, .limbs y => x.length == y.length
  | _, _ => false

/-- The kinds of objects, for the kind checks of R30. -/
inductive Kind where
  | digestCtx | digestVal | hmacKey | hmacCtx | limbs | nonceKey
  deriving DecidableEq, Repr

/-- Whether an object is of a kind. -/
def objIs : Kind → Obj → Bool
  | .digestCtx, .digestCtx _ => true
  | .digestVal, .digestVal _ => true
  | .hmacKey, .hmacKey _ => true
  | .hmacCtx, .hmacCtx _ => true
  | .limbs, .limbs _ => true
  | .nonceKey, .nonceKey _ => true
  | _, _ => false

/-- The source slots of a command and the kind each must hold (30_encoding.md R101 and the commands' rules). -/
def sources : Instr → List (Slot × Kind)
  | .slFree _ | .dgInit _ _ | .hmKey _ _ _ _ | .lbParse _ _ _ _ | .ecNkey _ _ _ _ => []
  | .dgUpdate rd _ _ => [(rd, .digestCtx)]
  | .dgFinish _ rs1 => [(rs1, .digestCtx)]
  | .dgRead rs1 _ => [(rs1, .digestVal)]
  | .ctVerify rs1 _ _ => [(rs1, .digestVal)]
  | .hmInit _ rs1 => [(rs1, .hmacKey)]
  | .hmUpdate rd _ _ => [(rd, .hmacCtx)]
  | .hmSign _ rs1 => [(rs1, .hmacCtx)]
  | .hkExpand rs1 _ _ _ _ _ => [(rs1, .hmacKey)]
  | .lbFormat rs1 _ _ => [(rs1, .limbs)]
  | .lbEq rs1 rs2 => [(rs1, .limbs), (rs2, .limbs)]
  | .lbLt rs1 rs2 => [(rs1, .limbs), (rs2, .limbs)]
  | .lbZero rs1 => [(rs1, .limbs)]
  | .lbEven rs1 => [(rs1, .limbs)]
  | .lbEqlimb rs1 _ _ => [(rs1, .limbs)]
  | .lbReduce rd rs2 => [(rd, .limbs), (rs2, .limbs)]
  | .lbMinbits rs1 => [(rs1, .limbs)]
  | .lbFold5 rs1 _ => [(rs1, .limbs)]
  | .ecNonce rs1 _ _ _ _ => [(rs1, .nonceKey)]
  | .sgFixed rs1 rs2 _ => [(rs1, .limbs), (rs2, .limbs)]
  | .sgAsn1 rs1 rs2 _ => [(rs1, .limbs), (rs2, .limbs)]

/-- Every source slot holds the kind its command requires (10_state.md R30). -/
def sourcesOk (i : Instr) (s : State) : Bool := (sources i).all fun p => objIs p.2 (s.slot p.1)

/-- The algorithm of the object in a slot (SHA1 for an object that has none). -/
def slotAlg (s : State) (r : Slot) : AlgId :=
  match s.slot r with
  | .digestCtx c => c.block.alg
  | .digestVal d => d.alg
  | .hmacKey k => k.alg
  | .hmacCtx c => c.alg
  | .nonceKey k => k.alg
  | .empty | .limbs _ => .sha1

/-- The number of limbs in a slot (0 for an object that has none). -/
def slotLimbCount (s : State) (r : Slot) : Nat :=
  match s.slot r with
  | .limbs ls => ls.length
  | _ => 0

/-- The big integer in a slot (0 for an object that is none). -/
def slotValue (s : State) (r : Slot) : Nat :=
  match s.slot r with
  | .limbs ls => limbsValue s.limbBits ls
  | _ => 0

/-- The digest Context in a slot that holds one, or the inner one of an HMAC Context. -/
def slotDigestCtx (s : State) (r : Slot) : Option DigestCtx :=
  match s.slot r with
  | .digestCtx c => some c
  | .hmacCtx c => some c.inner
  | _ => none

/-- The counter of a digest Context stays below 2^64 when `len` bytes are fed (40_digest.md R136, 41_hmac.md R168). -/
def counterFits (s : State) (r : Slot) (len : Nat) : Bool :=
  match slotDigestCtx s r with
  | some c => decide (c.block.nblocks.toNat + (c.pending.length + len) / blockLen c.block.alg < 2 ^ 64)
  | none => false

/-- The bit length of a digest Context stays below 2^64 (40_digest.md R131, R134). -/
def bitLengthFits (s : State) (r : Slot) : Bool :=
  match slotDigestCtx s r with
  | some c => decide ((c.block.nblocks.toNat * blockLen c.block.alg + c.pending.length) * 8 < 2 ^ 64)
  | none => false

/-- The fault checks each command makes after its header is accepted and its source slots hold the right kinds, in order:
whether the check passes, and the fault it raises when it does not (R309 and the commands' rules). -/
def fieldChecks (i : Instr) (s : State) : List (Bool × FaultCode) :=
  match i with
  | .slFree _ | .dgInit _ _ | .hmInit _ _ | .lbZero _ | .lbEven _ | .lbMinbits _ => []
  | .dgUpdate rd addr len => [(s.validRange (wordRange addr len), .badAddress), (counterFits s rd len.toNat, .overflow)]
  | .hmUpdate rd addr len => [(s.validRange (wordRange addr len), .badAddress), (counterFits s rd len.toNat, .overflow)]
  | .dgFinish _ rs1 => [(bitLengthFits s rs1, .overflow)]
  | .hmSign _ rs1 => [(bitLengthFits s rs1, .overflow)]
  | .dgRead rs1 addr => [(s.validRange ⟨addr.toNat, outputLen (slotAlg s rs1)⟩, .badAddress)]
  | .ctVerify _ addr len => [(s.validRange (wordRange addr len), .badAddress)]
  | .lbFold5 rs1 addr => [(s.validRange ⟨addr.toNat, numWindows s.limbBits (slotLimbCount s rs1)⟩, .badAddress)]
  | .hmKey _ _ addr len => [(s.validRange (wordRange addr len), .badAddress)]
  | .hkExpand rs1 tab nChunks out outLen bigL =>
    [ (s.validRange (tableRange tab nChunks), .badAddress),
      (s.validRange (wordRange out outLen), .badAddress),
      ((s.chunkRanges tab nChunks).all s.validRange, .badAddress),
      (!expandOverlaps (wordRange out outLen) (tableRange tab nChunks) (s.chunkRanges tab nChunks), .overlap),
      (expandFits (slotAlg s rs1) (s.chunkRanges tab nChunks) bigL.toNat, .overflow) ]
  | .lbParse _ addr len numLimbs =>
    [(decide (numLimbs.toNat ≤ s.cfg.maxLimbs), .badLength), (s.validRange (wordRange addr len), .badAddress)]
  | .lbFormat rs1 addr len =>
    [ (decide (len.toNat = slotLimbCount s rs1 * s.limbBytes), .badLength),
      (s.validRange (wordRange addr len), .badAddress) ]
  | .lbEq rs1 rs2 => [(sameLimbCount s rs1 rs2, .badLength)]
  | .lbLt rs1 rs2 => [(sameLimbCount s rs1 rs2, .badLength)]
  | .lbReduce rd rs2 => [(sameLimbCount s rd rs2, .badLength)]
  | .lbEqlimb _ _ hi => [(decide (s.cfg.limbWidth = .w64 ∨ hi = 0#32), .badOperand)]
  | .ecNkey _ _ addr len =>
    [(decide (1 ≤ len.toNat ∧ len.toNat ≤ 64), .badLength), (s.validRange (wordRange addr len), .badAddress)]
  | .ecNonce rs1 mdAddr mdLen dst dstLen =>
    [ (decide (mdLen.toNat = outputLen (slotAlg s rs1)), .badLength),
      (decide (dstLen.toNat = outputLen (slotAlg s rs1)), .badLength),
      (s.validRange (wordRange mdAddr mdLen), .badAddress),
      (s.validRange (wordRange dst dstLen), .badAddress),
      (!rangesOverlap (wordRange dst dstLen) (wordRange mdAddr mdLen), .overlap) ]
  | .sgFixed rs1 rs2 addr =>
    [ (sameLimbCount s rs1 rs2, .badLength),
      (s.validRange ⟨addr.toNat, 2 * (slotLimbCount s rs1 * s.limbBytes)⟩, .badAddress) ]
  | .sgAsn1 rs1 rs2 addr =>
    let n := slotLimbCount s rs1 * s.limbBytes
    [ (sameLimbCount s rs1 rs2, .badLength),
      (decide (slotValue s rs1 ≠ 0 ∧ slotValue s rs2 ≠ 0), .zeroScalar),
      (derShort n (slotValue s rs1) (slotValue s rs2), .derTooLong),
      (s.validRange ⟨addr.toNat, 2 + derBodyLen n (slotValue s rs1) (slotValue s rs2)⟩, .badAddress) ]

/-- All fault checks of a command in order, the kinds of its source slots first (R309, R314). -/
def faultChecks (i : Instr) (s : State) : List (Bool × FaultCode) :=
  (sourcesOk i s, .badSlotKind) :: fieldChecks i s

/-- The fault the first failing check raises; none when the command passes them all. -/
def firstFault (i : Instr) (s : State) : Option FaultCode :=
  ((faultChecks i s).find? fun p => !p.1).map Prod.snd

/-! ## What a command leaves unchanged -/

/-- Every slot but those listed is unchanged. -/
abbrev keepsSlotsExcept (rs : List Slot) (s t : State) : Prop := ∀ r : Slot, r ∉ rs → t.slot r = s.slot r

/-- Every byte of `MEM` outside a range reads as before. -/
abbrev keepsMemExcept (g : MemRange) (s t : State) : Prop :=
  ∀ a : Nat, ¬ (g.addr ≤ a ∧ a < g.addr + g.len) → memRead t.mem a = memRead s.mem a

/-- Every byte of `MEM` reads as before. -/
abbrev keepsMem (s t : State) : Prop := ∀ a : Nat, memRead t.mem a = memRead s.mem a

/-- The fault registers, the command buffer, the parameters and the host's side are unchanged. -/
abbrev keepsRest (s t : State) : Prop :=
  t.fault = s.fault ∧ t.faultCmd = s.faultCmd ∧ t.faultSeq = s.faultSeq ∧ t.cmdBuf = s.cmdBuf ∧
  t.cfg = s.cfg ∧ t.inbox = s.inbox ∧ t.answers = s.answers

/-- The random source has not been asked. -/
abbrev keepsRng (s t : State) : Prop := t.rngScript = s.rngScript ∧ t.rngDraws = s.rngDraws

/-- A command completed with a code: `ERR` and `CMDSEQ` (10_state.md R31, R33). -/
abbrev completedWith (c : ErrCode) (s t : State) : Prop := t.err = errByte c ∧ t.cmdSeq = s.cmdSeq + 1#32

/-- Slots other than those listed, bytes outside a range, and everything but `RES`, `ERR` and `CMDSEQ` are unchanged. -/
abbrev changesOnly (rs : List Slot) (g : MemRange) (s t : State) : Prop :=
  keepsSlotsExcept rs s t ∧ keepsMemExcept g s t ∧ keepsRest s t ∧ keepsRng s t

/-- The range of no byte. -/
def noRange : MemRange := { addr := 0, len := 0 }

/-- A command takes a fault: the whole of 60_exceptions.md R304 for its header word. -/
abbrev takesFault (i : Instr) (c : FaultCode) (s : State) : Prop :=
  exec i s = .next { s with fault := faultByte c, faultCmd := instrHeader i, faultSeq := s.cmdSeq, cmdBuf := [] }

/-- A command ends with a recoverable error: the whole of 60_exceptions.md R310. -/
abbrev failsWith (i : Instr) (c : ErrCode) (s : State) : Prop :=
  exec i s = .next { s with err := errByte c, cmdSeq := s.cmdSeq + 1#32 }

/-- The slots a command writes: its destination, a source it consumes, the slot it frees (30_encoding.md R101, columns d, c, m). -/
def slotsWritten : Instr → List Slot
  | .slFree rd | .dgInit rd _ | .dgUpdate rd _ _ | .hmKey rd _ _ _ | .hmInit rd _ | .hmUpdate rd _ _ => [rd]
  | .lbParse rd _ _ _ | .lbReduce rd _ | .ecNkey rd _ _ _ => [rd]
  | .dgFinish rd rs1 | .hmSign rd rs1 => [rd, rs1]
  | .dgRead _ _ | .ctVerify _ _ _ | .hkExpand _ _ _ _ _ _ | .lbFormat _ _ _ | .lbEq _ _ | .lbLt _ _ | .lbZero _ => []
  | .lbEven _ | .lbEqlimb _ _ _ | .lbMinbits _ | .lbFold5 _ _ | .ecNonce _ _ _ _ _ | .sgFixed _ _ _ | .sgAsn1 _ _ _ => []

/-- The commands that write `RES` (10_state.md R32). -/
def writesRes : Instr → Bool
  | .lbEq _ _ | .lbLt _ _ | .lbZero _ | .lbEven _ | .lbEqlimb _ _ _ | .lbMinbits _ => true
  | .dgRead _ _ | .lbFold5 _ _ | .sgFixed _ _ _ | .sgAsn1 _ _ _ => true
  | .slFree _ | .dgInit _ _ | .dgUpdate _ _ _ | .dgFinish _ _ | .ctVerify _ _ _ | .hmKey _ _ _ _ | .hmInit _ _ => false
  | .hmUpdate _ _ _ | .hmSign _ _ | .hkExpand _ _ _ _ _ _ | .lbParse _ _ _ _ | .lbFormat _ _ _ | .lbReduce _ _ => false
  | .ecNkey _ _ _ _ | .ecNonce _ _ _ _ _ => false

/-- The values each command may leave in `ERR` (60_exceptions.md R311, the column "produced by"). -/
def errCodes : Instr → List (BitVec 8)
  | .ctVerify _ _ _ | .lbParse _ _ _ _ | .hkExpand _ _ _ _ _ _ | .ecNonce _ _ _ _ _ => [0x00#8, 0x01#8]
  | .ecNkey _ _ _ _ => [0x00#8, 0x14#8]
  | .slFree _ | .dgInit _ _ | .dgUpdate _ _ _ | .dgFinish _ _ | .dgRead _ _ | .hmKey _ _ _ _ | .hmInit _ _ => [0x00#8]
  | .hmUpdate _ _ _ | .hmSign _ _ | .lbFormat _ _ _ | .lbEq _ _ | .lbLt _ _ | .lbZero _ | .lbEven _ => [0x00#8]
  | .lbEqlimb _ _ _ | .lbReduce _ _ | .lbMinbits _ | .lbFold5 _ _ | .sgFixed _ _ _ | .sgAsn1 _ _ _ => [0x00#8]

/-- The commands that may ask the random source (60_exceptions.md R320). -/
def asksRng : Instr → Bool
  | .ecNkey _ _ _ _ | .ecNonce _ _ _ _ _ => true
  | .slFree _ | .dgInit _ _ | .dgUpdate _ _ _ | .dgFinish _ _ | .dgRead _ _ | .ctVerify _ _ _ | .hmKey _ _ _ _ => false
  | .hmInit _ _ | .hmUpdate _ _ _ | .hmSign _ _ | .hkExpand _ _ _ _ _ _ | .lbParse _ _ _ _ | .lbFormat _ _ _ => false
  | .lbEq _ _ | .lbLt _ _ | .lbZero _ | .lbEven _ | .lbEqlimb _ _ _ | .lbReduce _ _ | .lbMinbits _ => false
  | .lbFold5 _ _ | .sgFixed _ _ _ | .sgAsn1 _ _ _ => false

/-- The bytes a successful request for `n` bytes may bring: `n` bytes, those the script lists and after them any. -/
abbrev isRngAnswer (listed rand : List Byte) (n : Nat) : Prop :=
  rand.length = n ∧ ∀ j : Nat, j < n → j < listed.length → rand[j]? = listed[j]?

/-- The state after one request to the random source. -/
abbrev asksRngOnce (s t : State) : Prop := t.rngScript = s.rngScript.tail ∧ t.rngDraws = s.rngDraws + 1

/-! ## The clear forms of the engine's functions -/

/-- How many blocks a message of `n` bytes fills with its padding: `ceil((L + 1 + LL) / B)` (40_digest.md R140). -/
def padCount (alg : AlgId) (n : Nat) : Nat := ceilDiv (n + 1 + lenLen alg) (blockLen alg)

/-- The padded message of 40_digest.md R140: the bytes, `0x80`, zeros, and the bit length in the last 8 bytes of the last block. -/
def paddedMessage (alg : AlgId) (data : List Byte) (bits : Nat) : List Byte :=
  data ++ [0x80#8] ++ zeros (padCount alg data.length * blockLen alg - data.length - 9) ++ beBytes 8 bits

/-- The digest bytes that a chaining value, the bytes still to hash and the bit length give: all padded blocks in one call of
`Compress`, formatted and cut to `output_len` (40_digest.md R124, R125, R140). -/
def finishBytes (src : CompressSource) (alg : AlgId) (h : Chain) (data : List Byte) (bits : Nat) : List Byte :=
  (formatChain (compressBlocks src alg (padCount alg data.length) h (paddedMessage alg data bits))).take (outputLen alg)

/-- The hash of a message, in one piece: the function `H` of 41_hmac.md R171. -/
def hashOf (src : CompressSource) (alg : AlgId) (data : List Byte) : List Byte :=
  finishBytes src alg (initialState src alg) data (8 * data.length)

/-- `K0` of RFC 2104, as 41_hmac.md R162 and R171 have it. -/
def hmacBlockKey (src : CompressSource) (alg : AlgId) (key : List Byte) : List Byte :=
  let k := if key.length ≤ blockLen alg then key else hashOf src alg key
  k ++ zeros (blockLen alg - k.length)

/-- `H((K0 ^ opad) ++ H((K0 ^ ipad) ++ data))` (41_hmac.md R171). -/
def hmacOf (src : CompressSource) (alg : AlgId) (key data : List Byte) : List Byte :=
  let k0 := hmacBlockKey src alg key
  hashOf src alg (k0.map (· ^^^ 0x5C#8) ++ hashOf src alg (k0.map (· ^^^ 0x36#8) ++ data))

/-- `T(n)` of RFC 5869 as 42_hkdf.md R195 has it, `T(0)` being empty. -/
def hkdfT (src : CompressSource) (alg : AlgId) (key info : List Byte) : Nat → List Byte
  | 0 => []
  | n + 1 => hmacOf src alg key (hkdfT src alg key info n ++ info ++ [BitVec.ofNat 8 (n + 1)])

/-- `T(1) ++ T(2) ++ ... ++ T(255)`. -/
def hkdfStream (src : CompressSource) (alg : AlgId) (key info : List Byte) : List Byte :=
  (List.range 255).flatMap fun j => hkdfT src alg key info (j + 1)

/-! ## The work of a command (70_reset_and_hazards.md R361) -/

/-- The blocks HKDF round `n` compresses with `infoLen` bytes of info: the inner blocks beyond the key's, and one outer block. -/
def hkdfRoundWork (alg : AlgId) (infoLen n : Nat) : Nat :=
  ceilDiv ((if 1 < n then outputLen alg else 0) + infoLen + 2 + lenLen alg) (blockLen alg) + 1

/-- R361's work per command in blocks compressed, for a command that succeeds. -/
def workGuide (i : Instr) (s : State) : Nat :=
  match i with
  | .dgUpdate rd _ len | .hmUpdate rd _ len =>
    match slotDigestCtx s rd with
    | some c => (c.pending.length + len.toNat) / blockLen c.block.alg
    | none => 0
  | .dgFinish _ rs1 =>
    match slotDigestCtx s rs1 with
    | some c => padCount c.block.alg c.pending.length
    | none => 0
  | .hmKey _ alg _ len => 2 + (if blockLen alg < len.toNat then padCount alg len.toNat else 0)
  | .hmSign _ rs1 =>
    match slotDigestCtx s rs1 with
    | some c => padCount c.block.alg c.pending.length + 1
    | none => 0
  | .hkExpand rs1 tab nChunks _ _ bigL =>
    ((List.range (hkdfRounds (slotAlg s rs1) bigL.toNat)).map fun j =>
      hkdfRoundWork (slotAlg s rs1) ((s.chunkRanges tab nChunks).map (·.len)).sum (j + 1)).sum
  | .ecNkey _ alg _ len => padCount alg (2 * len.toNat)
  | .ecNonce _ _ _ _ _ => 2
  | .slFree _ | .dgInit _ _ | .dgRead _ _ | .ctVerify _ _ _ | .hmInit _ _ | .lbParse _ _ _ _ | .lbFormat _ _ _ => 0
  | .lbEq _ _ | .lbLt _ _ | .lbZero _ | .lbEven _ | .lbEqlimb _ _ _ | .lbReduce _ _ | .lbMinbits _ => 0
  | .lbFold5 _ _ | .sgFixed _ _ _ | .sgAsn1 _ _ _ => 0

/-! ## The public view (70_reset_and_hazards.md R350) -/

/-- What is public of an object: its kind, its algorithms, counters and lengths. -/
inductive PublicObj where
  | empty
  | digestCtx (alg : AlgId) (nblocks : BitVec 64) (numPending : Nat)
  | digestVal (alg : AlgId)
  | hmacKey (alg innerAlg outerAlg : AlgId) (innerBlocks outerBlocks : BitVec 64)
  | hmacCtx (alg innerAlg outerAlg : AlgId) (innerBlocks outerBlocks : BitVec 64) (numPending : Nat)
  | limbs (n : Nat)
  | nonceKey (alg : AlgId)
  deriving DecidableEq, Repr

/-- The public part of an object. -/
def publicObj : Obj → PublicObj
  | .empty => .empty
  | .digestCtx c => .digestCtx c.block.alg c.block.nblocks c.pending.length
  | .digestVal d => .digestVal d.alg
  | .hmacKey k => .hmacKey k.alg k.inner.alg k.outer.alg k.inner.nblocks k.outer.nblocks
  | .hmacCtx c =>
    .hmacCtx c.alg c.inner.block.alg c.outer.alg c.inner.block.nblocks c.outer.nblocks c.inner.pending.length
  | .limbs ls => .limbs ls.length
  | .nonceKey k => .nonceKey k.alg

/-- Whether an answer of the random source is a success is public, its bytes are not (R350). -/
inductive PublicAnswer where
  | ok | fail | never
  deriving DecidableEq, Repr

/-- The public part of an answer of the random source. -/
def publicAnswer : RngAnswer → PublicAnswer
  | .ok _ => .ok
  | .fail => .fail
  | .never => .never

/-- Two states agree on every public value: parameters, kinds and public parts of the slots, completion and fault registers,
counters, the command words, and the outcomes of RNG requests. `MEM`, `RES` and everything inside the objects may differ. -/
abbrev publicEq (s t : State) : Prop :=
  s.cfg = t.cfg ∧ (∀ r : Slot, publicObj (s.slot r) = publicObj (t.slot r)) ∧
  s.err = t.err ∧ s.fault = t.fault ∧ s.faultCmd = t.faultCmd ∧ s.faultSeq = t.faultSeq ∧
  s.cmdSeq = t.cmdSeq ∧ s.cmdBuf = t.cmdBuf ∧
  s.rngScript.map publicAnswer = t.rngScript.map publicAnswer ∧ s.rngDraws = t.rngDraws

/-- What a command may disclose beyond the public values (70_reset_and_hazards.md R350, R351): `CT_VERIFY` its verdict,
`HK_EXPAND` the addresses and lengths in its chunk table (42_hkdf.md R197), `SG_ASN1` its outcome and the two content lengths of
the signature (45_sig_format.md R276). -/
inductive Disclosed where
  | nothing
  | verdict (equal : Bool)
  | chunks (ranges : List MemRange)
  | faultOf (c : FaultCode)
  | contents (rLen sLen : Nat)
  deriving DecidableEq, Repr

/-- `CT_VERIFY` discloses its verdict, and only where it compares: a range outside `MEM` faults and another length is a mismatch,
whatever the bytes are (41_hmac.md R170, R172). -/
def verifyDisclosed (rs1 : Slot) (addr len : Word) (s : State) : Disclosed :=
  match s.digestValIn rs1 with
  | none => .nothing
  | some d =>
    if s.validRange (wordRange addr len) && len.toNat == outputLen d.alg then
      .verdict (decide (byteDifference d.value (s.bytesAt (wordRange addr len)) = 0#8))
    else .nothing

/-- `HK_EXPAND` discloses what its chunk table says, and only where it reads the table: the key, the table's range and the output
range have been accepted (42_hkdf.md R196, R197). -/
def expandDisclosed (rs1 : Slot) (tab nChunks out outLen : Word) (s : State) : Disclosed :=
  match s.hmacKeyIn rs1 with
  | none => .nothing
  | some _ =>
    if s.validRange (tableRange tab nChunks) && s.validRange (wordRange out outLen) then .chunks (s.chunkRanges tab nChunks)
    else .nothing

/-- `SG_ASN1` discloses the fault it takes (a public outcome code, R350) or, with the signature it writes, the lengths of the two
contents (45_sig_format.md R276). -/
def asn1Disclosed (rs1 rs2 : Slot) (addr : Word) (s : State) : Disclosed :=
  match firstFault (.sgAsn1 rs1 rs2 addr) s with
  | some c => .faultOf c
  | none =>
    let n := slotLimbCount s rs1 * s.limbBytes
    .contents (derContents n (slotValue s rs1)).length (derContents n (slotValue s rs2)).length

/-- What a command discloses in a state. -/
def disclosed (i : Instr) (s : State) : Disclosed :=
  match i with
  | .ctVerify rs1 addr len => verifyDisclosed rs1 addr len s
  | .hkExpand rs1 tab nChunks out outLen _ => expandDisclosed rs1 tab nChunks out outLen s
  | .sgAsn1 rs1 rs2 addr => asn1Disclosed rs1 rs2 addr s
  | .slFree _ | .dgInit _ _ | .dgUpdate _ _ _ | .dgFinish _ _ | .dgRead _ _ | .hmKey _ _ _ _ | .hmInit _ _ => .nothing
  | .hmUpdate _ _ _ | .hmSign _ _ | .lbParse _ _ _ _ | .lbFormat _ _ _ | .lbEq _ _ | .lbLt _ _ | .lbZero _ => .nothing
  | .lbEven _ | .lbEqlimb _ _ _ | .lbReduce _ _ | .lbMinbits _ | .lbFold5 _ _ | .ecNkey _ _ _ _ => .nothing
  | .ecNonce _ _ _ _ _ | .sgFixed _ _ _ => .nothing

/-- The objects no command writes out except through its defined outputs (46_system.md R292). -/
def sealedObj : Obj → Bool
  | .digestCtx _ | .hmacKey _ | .hmacCtx _ | .nonceKey _ => true
  | .empty | .digestVal _ | .limbs _ => false

/-- Two states that differ at most inside such objects, whose public parts agree. -/
abbrev sealedEq (s t : State) : Prop :=
  (∀ r : Slot, s.slot r = t.slot r ∨
    (sealedObj (s.slot r) = true ∧ sealedObj (t.slot r) = true ∧ publicObj (s.slot r) = publicObj (t.slot r))) ∧
  t = { s with slots := t.slots }

/-- The one range of `MEM` through which a command may let out something made from a sealed object: the output keying material of
HK_EXPAND, the nonce seed of EC_NONCE (R292). A Digest or Tag leaves through a slot, by a finish command. -/
def sealedOutput : Instr → Option MemRange
  | .hkExpand _ _ _ out outLen _ => some (wordRange out outLen)
  | .ecNonce _ _ _ dst dstLen => some (wordRange dst dstLen)
  | .slFree _ | .dgInit _ _ | .dgUpdate _ _ _ | .dgFinish _ _ | .dgRead _ _ | .ctVerify _ _ _ | .hmKey _ _ _ _ => none
  | .hmInit _ _ | .hmUpdate _ _ _ | .hmSign _ _ | .lbParse _ _ _ _ | .lbFormat _ _ _ | .lbEq _ _ | .lbLt _ _ => none
  | .lbZero _ | .lbEven _ | .lbEqlimb _ _ _ | .lbReduce _ _ | .lbMinbits _ | .lbFold5 _ _ | .ecNkey _ _ _ _ => none
  | .sgFixed _ _ _ | .sgAsn1 _ _ _ => none

/-- Two states whose registers hold the same, so that the host reads the same from the register block (10_state.md R37). -/
abbrev sameRegisters (s t : State) : Prop :=
  s.res = t.res ∧ s.err = t.err ∧ s.fault = t.fault ∧ s.faultCmd = t.faultCmd ∧ s.faultSeq = t.faultSeq ∧
  s.cmdSeq = t.cmdSeq ∧ s.cmdBuf = t.cmdBuf ∧ s.cfg = t.cfg

/-- Two outcomes of a step that agree on every public value. -/
def publicOutcomeEq : Result → Result → Prop
  | .next s, .next t => publicEq s t
  | .fault a, .fault b => a = b
  | .refused a, .refused b => a = b
  | _, _ => False

end Sys2Proof.Machine
end

