-- ==== Sys2Proof/Certificates/Slice0/Obligations.lean ====
section
/-! DEFINITION. The statements for the provers, rule by rule of spec/. -/

open Sys2Proof Sys2Proof.Machine

/-! ## The command port and the encoding (10_state.md R38, 30_encoding.md) -/

/-- R38, R8: the word that completes a record makes the step run exactly the decoded command, on the state in which the action
is taken from the inbox and `CMDBUF` is empty. -/
def Obligations.StepRunsDecodedRecord : Prop :=
  ∀ (s : State) (w : Word) (rest : List HostAction) (i : Instr),
    s.inbox = .regWrite 0x00 4 w :: rest → s.fault = 0#8 → decodeRecord (s.cmdBuf ++ [w]) = .ok i →
      step s = exec i { s with inbox := rest, cmdBuf := [] }

/-- R38, the whole procedure of a write of word `w` to `CMD`. -/
def Obligations.CommandPortProcedure : Prop :=
  ∀ (s : State) (w : Word) (rest : List HostAction), s.inbox = .regWrite 0x00 4 w :: rest →
    (s.fault ≠ 0#8 → step s = .next { s with inbox := rest }) ∧
    (s.fault = 0#8 → ∀ (hdr : Word) (tail : List Word), s.cmdBuf ++ [w] = hdr :: tail →
      (legalHeader hdr = false →
        step s = .next { s with
          inbox := rest, fault := 0x01#8, faultCmd := hdr, faultSeq := s.cmdSeq, cmdBuf := [] }) ∧
      (legalHeader hdr = true → ∀ o : Op, opOfByte (hdrOp hdr) = some o →
        (tail.length = numOperandWords o →
          ∃ i : Instr, encode i = hdr :: tail ∧ instrOp i = o ∧ step s = exec i { s with inbox := rest, cmdBuf := [] }) ∧
        (tail.length ≠ numOperandWords o → step s = .next { s with inbox := rest, cmdBuf := hdr :: tail })))

/-- R103: the spec's worked encodings, both ways. -/
def Obligations.WorkedEncodings : Prop :=
  decodeRecord [0x00100320#32, 0x00000100#32, 0x00000014#32] = .ok (.hmKey 3 .sha256 0x0100#32 20#32) ∧
  decodeRecord [0x00021033#32] = .ok (.lbLt 1 2) ∧
  decodeRecord [0x00000012#32] = .ok (.dgFinish 0 0) ∧
  decodeRecord [0x00004512#32] = .ok (.dgFinish 5 4) ∧
  encode (.hmKey 3 .sha256 0x0100#32 20#32) = [0x00100320#32, 0x00000100#32, 0x00000014#32] ∧
  encode (.lbLt 1 2) = [0x00021033#32] ∧
  encode (.dgFinish 0 0) = [0x00000012#32] ∧
  encode (.dgFinish 5 4) = [0x00004512#32]

/-- R91: where the six fields of a header stand, and that each is read back whole. -/
def Obligations.HeaderLayout : Prop :=
  ∀ r : Record,
    (recordHeader r).toNat = r.op.toNat + r.rd.toNat * 2 ^ 8 + r.rs1.toNat * 2 ^ 12 + r.rs2.toNat * 2 ^ 16 +
      r.sel.toNat * 2 ^ 20 + r.zero.toNat * 2 ^ 24 ∧
    hdrOp (recordHeader r) = r.op ∧ hdrRd (recordHeader r) = r.rd ∧ hdrRs1 (recordHeader r) = r.rs1 ∧
    hdrRs2 (recordHeader r) = r.rs2 ∧ hdrSel (recordHeader r) = r.sel ∧ hdrZero (recordHeader r) = r.zero

/-- R93: `LegalHeader` by the table of R101, and what a header that is not legal does when it is written to `CMD`. -/
def Obligations.LegalHeaderByTable : Prop :=
  ∀ hdr : Word,
    (legalHeader hdr = true ↔
      ∃ f ∈ formats, f.op = hdrOp hdr ∧ hdrZero hdr = 0#8 ∧
        (f.rd = false → hdrRd hdr = 0#4) ∧ (f.rs1 = false → hdrRs1 hdr = 0#4) ∧
        (f.rs2 = false → hdrRs2 hdr = 0#4) ∧ (f.sel = false → hdrSel hdr = 0#4) ∧
        (f.sel = true → (hdrSel hdr).toNat ≤ 4)) ∧
    (legalHeader hdr = false → ∀ (s : State) (rest : List HostAction),
      s.inbox = .regWrite 0x00 4 hdr :: rest → s.fault = 0#8 → s.cmdBuf = [] →
        step s = .next { s with inbox := rest, fault := 0x01#8, faultCmd := hdr, faultSeq := s.cmdSeq })

/-- R90 to R96, R101: every command, with every operand at every value, comes back from its words, alone or at the head of a stream. -/
def Obligations.DecodeEncodeRoundTrip : Prop :=
  ∀ (i : Instr) (rest : List Word),
    decodeRecord (encode i) = .ok i ∧ decodeStream (encode i ++ rest) = .ok (i, rest)

/-- R93, R94: the decoder accepts exactly the words of the well-formed records, and gives the command whose words they are. -/
def Obligations.DecodeAcceptsExactlyWellFormed : Prop :=
  ∀ ws : List Word,
    ((∃ i, decodeRecord ws = .ok i) ↔ ∃ r : Record, r.wellFormed = true ∧ recordWords r = ws) ∧
    ∀ i : Instr, decodeRecord ws = .ok i → encode i = ws

/-! ## Reset and the invariant (10_state.md R41, R29; 70_reset_and_hazards.md R340) -/

/-- R340, R41: what reset leaves, from whatever state, and that `MEM` may hold any bytes after it. -/
def Obligations.ResetLeaves : Prop :=
  (∀ (s : State) (m : List Host.Cell) (rest : List HostAction), s.inbox = .reset m :: rest →
    ∃ t, step s = .next t ∧ (∀ r : Slot, t.slot r = .empty) ∧ t.res = 0#64 ∧ t.err = 0#8 ∧ t.fault = 0#8 ∧
      t.faultCmd = 0#32 ∧ t.faultSeq = 0#32 ∧ t.cmdSeq = 0#32 ∧ t.cmdBuf = [] ∧ t.cfg = s.cfg ∧ t.inbox = rest) ∧
  (∀ (s : State) (f : Nat → Byte) (rest : List HostAction), ∃ (m : List Host.Cell) (t : State),
    step { s with inbox := .reset m :: rest } = .next t ∧ ∀ a : Nat, a < s.cfg.memSize → memRead t.mem a = f a) ∧
  ((∀ r : Slot, State.reset.slot r = .empty) ∧ State.reset.res = 0#64 ∧ State.reset.err = 0#8 ∧
    State.reset.fault = 0#8 ∧ State.reset.faultCmd = 0#32 ∧ State.reset.faultSeq = 0#32 ∧ State.reset.cmdSeq = 0#32 ∧
    State.reset.cmdBuf = [])

/-- R29, R41: the invariant holds after reset. -/
def Obligations.ResetSatisfiesInvariant : Prop := State.reset.Inv

/-- R29: every step keeps the invariant, from every state that has it. -/
def Obligations.StepKeepsInvariant : Prop :=
  ∀ s t : State, s.Inv → step s = .next t → t.Inv

/-! ## Faults, errors, completion (60_exceptions.md) -/

/-- R306: the faulted engine ignores command words and still answers the host. -/
def Obligations.FaultedEngineIsHalted : Prop :=
  ∀ (s : State) (rest : List HostAction), s.fault ≠ 0#8 →
    (∀ w : Word, s.inbox = .regWrite 0x00 4 w :: rest → step s = .next { s with inbox := rest }) ∧
    (∀ off : Nat, off % 4 = 0 → s.inbox = .regRead off 4 :: rest →
      step s = .next { s with inbox := rest, answers := .reg (readRegister s off) :: s.answers }) ∧
    (∀ (a : Nat) (bs : List Byte), a + bs.length ≤ s.cfg.memSize → s.inbox = .memWrite a bs :: rest →
      step s = .next { s with inbox := rest, mem := memWriteBytes s.mem a bs }) ∧
    (∀ a n : Nat, a + n ≤ s.cfg.memSize → s.inbox = .memRead a n :: rest →
      step s = .next { s with inbox := rest, answers := .bytes (memReadBytes s.mem a n) :: s.answers })

/-- R34: when the fault registers change, and to what. -/
def Obligations.FaultRegistersAreSticky : Prop :=
  ∀ s t : State, step s = .next t →
    ((t.fault = s.fault ∧ t.faultCmd = s.faultCmd ∧ t.faultSeq = s.faultSeq) ∨
     (s.fault = 0#8 ∧ t.fault ≠ 0#8 ∧ t.faultSeq = s.cmdSeq ∧
        ∃ (w : Word) (rest : List HostAction) (tail : List Word),
          s.inbox = .regWrite 0x00 4 w :: rest ∧ s.cmdBuf ++ [w] = t.faultCmd :: tail) ∨
     ((∃ m rest, s.inbox = .reset m :: rest) ∧ t.fault = 0#8 ∧ t.faultCmd = 0#32 ∧ t.faultSeq = 0#32)) ∧
    ((s.fault = 0#8 → s.faultCmd = 0#32 ∧ s.faultSeq = 0#32) →
      (t.fault = 0#8 → t.faultCmd = 0#32 ∧ t.faultSeq = 0#32))

/-- R304, R308: a command that faults sets the fault registers, empties `CMDBUF` and does nothing else. -/
def Obligations.FaultsArePrecise : Prop :=
  ∀ (i : Instr) (s t : State), s.fault = 0#8 → exec i s = .next t → t.fault ≠ 0#8 →
    ∃ c : FaultCode, c ≠ .illegalCommand ∧
      t = { s with fault := faultByte c, faultCmd := instrHeader i, faultSeq := s.cmdSeq, cmdBuf := [] }

/-- R31, R33, R300: every command faults without counting, or completes, counting one and writing `ERR`; it is stuck only when
the random source never answers (R321; log entry 6 names that stop). -/
def Obligations.EveryCommandEnds : Prop :=
  ∀ (i : Instr) (s : State), s.fault = 0#8 →
    (∃ t, exec i s = .next t ∧
      ((t.fault ≠ 0#8 ∧ t.cmdSeq = s.cmdSeq ∧ t.err = s.err) ∨
       (t.fault = 0#8 ∧ t.cmdSeq = s.cmdSeq + 1#32 ∧ t.err ∈ errCodes i))) ∨
    (exec i s = .fault .rngNeverAnswers ∧ asksRng i = true ∧ s.rngScript.head? = some .never)

/-- R310: a command that ends with an error changes `ERR` and `CMDSEQ` and nothing else of RHE. -/
def Obligations.ErrorsChangeNothingElse : Prop :=
  ∀ (i : Instr) (s t : State), s.fault = 0#8 → exec i s = .next t → t.fault = 0#8 → t.err ≠ 0#8 →
    t.cmdSeq = s.cmdSeq + 1#32 ∧ (∀ r : Slot, t.slot r = s.slot r) ∧ (∀ a : Nat, memRead t.mem a = memRead s.mem a) ∧
    t.res = s.res ∧ t.faultCmd = s.faultCmd ∧ t.faultSeq = s.faultSeq ∧ t.cmdBuf = s.cmdBuf ∧ t.cfg = s.cfg

/-- R309: the first failing check of a command decides its fault, and a command whose checks all pass takes none; the legality
of the header is checked before all of them. -/
def Obligations.FirstFailingCheckDecides : Prop :=
  (∀ (s : State) (w hdr : Word) (tail : List Word) (rest : List HostAction),
    s.inbox = .regWrite 0x00 4 w :: rest → s.fault = 0#8 → s.cmdBuf ++ [w] = hdr :: tail → legalHeader hdr = false →
      ∃ t, step s = .next t ∧ t.fault = 0x01#8) ∧
  ∀ (i : Instr) (s : State), s.Inv → s.fault = 0#8 →
    (∀ c : FaultCode, firstFault i s = some c → takesFault i c s) ∧
    (firstFault i s = none → ∀ t : State, exec i s = .next t → t.fault = 0#8)

/-- R312, R320: at most one request to the random source, by two commands only, and only after every fault check has passed. -/
def Obligations.RngIsAskedLast : Prop :=
  ∀ (i : Instr) (s t : State), s.fault = 0#8 → exec i s = .next t →
    keepsRng s t ∨ (asksRng i = true ∧ firstFault i s = none ∧ t.fault = 0#8 ∧ asksRngOnce s t)

/-! ## What a command may change -/

/-- R32: which commands write `RES`, and when. -/
def Obligations.ResWrittenOnlyBy : Prop :=
  ∀ (i : Instr) (s t : State), s.fault = 0#8 → exec i s = .next t → t.res ≠ s.res →
    writesRes i = true ∧ t.fault = 0#8 ∧ t.err = 0#8

/-- R64, R73: a command changes bytes of `MEM` only inside the one range R73 gives it (the footprint of log entry 21 names it),
which lies inside `MEM`. -/
def Obligations.MemoryWrittenOnlyInRange : Prop :=
  ∀ (i : Instr) (s t : State), s.Inv → s.fault = 0#8 → exec i s = .next t →
    (footprint i s).writes.length ≤ 1 ∧
    ∀ a : Nat, memRead t.mem a ≠ memRead s.mem a →
      ∃ g ∈ (footprint i s).writes, g.addr ≤ a ∧ a < g.addr + g.len ∧ g.addr + g.len ≤ s.cfg.memSize

/-- R30, R101: a command changes only its destination slot and a source it consumes. -/
def Obligations.SlotsWrittenOnlyBy : Prop :=
  ∀ (i : Instr) (s t : State), exec i s = .next t → keepsSlotsExcept (slotsWritten i) s t

/-! ## The host's side (10_state.md R35 to R37, 20_memory.md R70, R74) -/

/-- R70, R344, R36: a step takes one action of the host, in order; the constants never change; with no action nothing changes. -/
def Obligations.StepTakesOneAction : Prop :=
  (∀ s : State, s.inbox = [] → step s = .next s) ∧
  ∀ (s t : State) (a : HostAction) (rest : List HostAction), s.inbox = a :: rest → step s = .next t →
    t.inbox = rest ∧ t.cfg = s.cfg ∧ (t.answers = s.answers ∨ ∃ x, t.answers = x :: s.answers)

/-- R37: the register block as the host sees it, register by register. -/
def Obligations.RegisterBlock : Prop :=
  ∀ (s : State) (off : Nat) (rest : List HostAction), off % 4 = 0 →
    (s.inbox = .regRead off 4 :: rest →
      ∃ v : Word, step s = .next { s with inbox := rest, answers := .reg v :: s.answers } ∧
        (off = 0x04 → v = statusWord s) ∧ (off = 0x08 → v.toNat = s.err.toNat) ∧ (off = 0x0C → v.toNat = s.fault.toNat) ∧
        (off = 0x10 → v = s.faultCmd) ∧ (off = 0x14 → v = s.faultSeq) ∧ (off = 0x18 → v = s.cmdSeq) ∧
        (off = 0x1C → v.toNat = s.res.toNat % 2 ^ 32) ∧
        (off = 0x20 → v.toNat = if s.cfg.limbWidth = .w64 then s.res.toNat / 2 ^ 32 else 0) ∧
        (off = 0x24 → v = configWord s.cfg) ∧ (off = 0x28 → v.toNat = s.cfg.memSize % 2 ^ 32) ∧
        (off = 0x00 ∨ 0x28 < off → v = 0#32)) ∧
    (∀ x : Word, off ≠ 0x00 → s.inbox = .regWrite off 4 x :: rest → step s = .next { s with inbox := rest })

/-- R35, R36: the bits of `STATUS` and the bytes of `CONFIG`. -/
def Obligations.StatusAndConfigBits : Prop :=
  ∀ s : State,
    ((statusWord s).getLsbD 0 = false ∧ ((statusWord s).getLsbD 1 = true ↔ s.fault ≠ 0#8) ∧
      ((statusWord s).getLsbD 2 = true ↔ s.cmdBuf ≠ []) ∧ ∀ k : Nat, 3 ≤ k → (statusWord s).getLsbD k = false) ∧
    (s.cfg.wellFormed = true →
      (configWord s.cfg).toNat = s.limbBits + s.cfg.maxLimbs * 2 ^ 8 + 16 * 2 ^ 16 + 1 * 2 ^ 24 ∧
      (memSizeWord s.cfg).toNat = s.cfg.memSize % 2 ^ 32)

/-- R74: the memory window; R62, R335: the register accesses a model refuses (DEDUCED, log entry 18). -/
def Obligations.MemoryWindow : Prop :=
  ∀ (s : State) (rest : List HostAction),
    (∀ (a : Nat) (bs : List Byte), s.inbox = .memWrite a bs :: rest →
      (Memory.wf s.mem → a + bs.length ≤ s.cfg.memSize →
        ∃ t, step s = .next t ∧ memReadBytes t.mem a bs.length = bs ∧ keepsMemExcept ⟨a, bs.length⟩ s t ∧
          t = { s with inbox := rest, mem := t.mem }) ∧
      (s.cfg.memSize < a + bs.length → step s = .refused .hostAccessOutsideMem)) ∧
    (∀ a n : Nat, s.inbox = .memRead a n :: rest →
      (a + n ≤ s.cfg.memSize →
        step s = .next { s with inbox := rest, answers := .bytes (memReadBytes s.mem a n) :: s.answers }) ∧
      (s.cfg.memSize < a + n → step s = .refused .hostAccessOutsideMem)) ∧
    (∀ off size : Nat, size ≠ 4 ∨ off % 4 ≠ 0 →
      (s.inbox = .regRead off size :: rest → step s = .refused .registerAccessShape) ∧
      (∀ x : Word, s.inbox = .regWrite off size x :: rest → step s = .refused .registerAccessShape))

/-! ## The system command (46_system.md) -/

/-- R290: SL_FREE empties any slot; afterwards every command that needs an object there faults with `BAD_SLOT_KIND`. -/
def Obligations.SlFreeEmptiesSlot : Prop :=
  ∀ (s : State) (rd : Slot),
    encode (.slFree rd) = [makeHeader 0x01#8 (slotField rd) 0 0 0] ∧
    ∃ t, exec (.slFree rd) s = .next t ∧ t.slot rd = .empty ∧ changesOnly [rd] noRange s t ∧ t.res = s.res ∧
      completedWith .ok s t ∧
      ∀ (i : Instr) (k : Kind), (rd, k) ∈ sources i → takesFault i .badSlotKind t

/-! ## The digest commands and CT_VERIFY (40_digest.md, 41_hmac.md) -/

/-- R135, R128. -/
def Obligations.DgInitMakesContext : Prop :=
  ∀ (s : State) (rd : Slot) (alg : AlgId),
    encode (.dgInit rd alg) = [makeHeader 0x10#8 (slotField rd) 0 0 (selOfAlg alg)] ∧
    ∃ t, exec (.dgInit rd alg) s = .next t ∧
      t.slot rd = .digestCtx { block := { alg := alg, h := initialState s.cfg.compress alg, nblocks := 0#64 }, pending := [] } ∧
      changesOnly [rd] noRange s t ∧ t.res = s.res ∧ completedWith .ok s t

/-- R136, with the update in the second form of R129: the whole blocks of `pending ++ data` are compressed, the rest stays
pending, the counter counts them. -/
def Obligations.DgUpdateFeedsBytes : Prop :=
  ∀ (s : State) (rd : Slot) (addr len : Word),
    encode (.dgUpdate rd addr len) = [makeHeader 0x11#8 (slotField rd) 0 0 0, addr, len] ∧
    ((∀ c, s.slot rd ≠ .digestCtx c) → takesFault (.dgUpdate rd addr len) .badSlotKind s) ∧
    ∀ c : DigestCtx, s.slot rd = .digestCtx c → c.pending.length < blockLen c.block.alg →
      let data := c.pending ++ memReadBytes s.mem addr.toNat len.toNat
      let k := data.length / blockLen c.block.alg
      (s.cfg.memSize < addr.toNat + len.toNat → takesFault (.dgUpdate rd addr len) .badAddress s) ∧
      (addr.toNat + len.toNat ≤ s.cfg.memSize → 2 ^ 64 ≤ c.block.nblocks.toNat + k →
        takesFault (.dgUpdate rd addr len) .overflow s) ∧
      (addr.toNat + len.toNat ≤ s.cfg.memSize → c.block.nblocks.toNat + k < 2 ^ 64 →
        ∃ t c', exec (.dgUpdate rd addr len) s = .next t ∧ t.slot rd = .digestCtx c' ∧
          c'.block.alg = c.block.alg ∧
          c'.block.h = compressBlocks s.cfg.compress c.block.alg k c.block.h (data.take (k * blockLen c.block.alg)) ∧
          c'.block.nblocks.toNat = c.block.nblocks.toNat + k ∧
          c'.pending = data.drop (k * blockLen c.block.alg) ∧
          changesOnly [rd] noRange s t ∧ t.res = s.res ∧ completedWith .ok s t)

/-- R137, with the finish of R131 in the form of R140: all padded blocks compressed, formatted, cut to `output_len`. -/
def Obligations.DgFinishGivesDigest : Prop :=
  ∀ (s : State) (rd rs1 : Slot),
    encode (.dgFinish rd rs1) = [makeHeader 0x12#8 (slotField rd) (slotField rs1) 0 0] ∧
    ((∀ c, s.slot rs1 ≠ .digestCtx c) → takesFault (.dgFinish rd rs1) .badSlotKind s) ∧
    ∀ c : DigestCtx, s.slot rs1 = .digestCtx c → c.pending.length < blockLen c.block.alg →
      let bits := (c.block.nblocks.toNat * blockLen c.block.alg + c.pending.length) * 8
      (2 ^ 64 ≤ bits → takesFault (.dgFinish rd rs1) .overflow s) ∧
      (bits < 2 ^ 64 →
        ∃ t, exec (.dgFinish rd rs1) s = .next t ∧
          t.slot rd = .digestVal
            { alg := c.block.alg, value := finishBytes s.cfg.compress c.block.alg c.block.h c.pending bits } ∧
          (rd ≠ rs1 → t.slot rs1 = .empty) ∧
          changesOnly [rd, rs1] noRange s t ∧ t.res = s.res ∧ completedWith .ok s t)

/-- R138. -/
def Obligations.DgReadStoresDigest : Prop :=
  ∀ (s : State) (rs1 : Slot) (addr : Word), Memory.wf s.mem →
    encode (.dgRead rs1 addr) = [makeHeader 0x13#8 0 (slotField rs1) 0 0, addr] ∧
    ((∀ d, s.slot rs1 ≠ .digestVal d) → takesFault (.dgRead rs1 addr) .badSlotKind s) ∧
    ∀ d : DigestVal, s.slot rs1 = .digestVal d → d.value.length = outputLen d.alg →
      (s.cfg.memSize < addr.toNat + outputLen d.alg → takesFault (.dgRead rs1 addr) .badAddress s) ∧
      (addr.toNat + outputLen d.alg ≤ s.cfg.memSize →
        ∃ t, exec (.dgRead rs1 addr) s = .next t ∧
          memReadBytes t.mem addr.toNat (outputLen d.alg) = d.value ∧ t.res.toNat = outputLen d.alg ∧
          changesOnly [] ⟨addr.toNat, outputLen d.alg⟩ s t ∧ completedWith .ok s t)

/-- R170: the verdict is in `ERR` and nowhere else. -/
def Obligations.CtVerifyComparesBytes : Prop :=
  ∀ (s : State) (rs1 : Slot) (addr len : Word),
    encode (.ctVerify rs1 addr len) = [makeHeader 0x14#8 0 (slotField rs1) 0 0, addr, len] ∧
    ((∀ d, s.slot rs1 ≠ .digestVal d) → takesFault (.ctVerify rs1 addr len) .badSlotKind s) ∧
    ∀ d : DigestVal, s.slot rs1 = .digestVal d → d.value.length = outputLen d.alg →
      (s.cfg.memSize < addr.toNat + len.toNat → takesFault (.ctVerify rs1 addr len) .badAddress s) ∧
      (addr.toNat + len.toNat ≤ s.cfg.memSize →
        ∃ t, exec (.ctVerify rs1 addr len) s = .next t ∧
          (memReadBytes s.mem addr.toNat len.toNat = d.value → t.err = 0x00#8) ∧
          (memReadBytes s.mem addr.toNat len.toNat ≠ d.value → t.err = 0x01#8) ∧
          changesOnly [] noRange s t ∧ t.res = s.res ∧ t.cmdSeq = s.cmdSeq + 1#32)

/-! ## The HMAC and HKDF commands (41_hmac.md, 42_hkdf.md) -/

/-- R166, R162: both pads of the padded key, one block each. -/
def Obligations.HmKeyBuildsPads : Prop :=
  ∀ (s : State) (rd : Slot) (alg : AlgId) (addr len : Word),
    encode (.hmKey rd alg addr len) = [makeHeader 0x20#8 (slotField rd) 0 0 (selOfAlg alg), addr, len] ∧
    (s.cfg.memSize < addr.toNat + len.toNat → takesFault (.hmKey rd alg addr len) .badAddress s) ∧
    (addr.toNat + len.toNat ≤ s.cfg.memSize →
      let src := s.cfg.compress
      let k0 := hmacBlockKey src alg (memReadBytes s.mem addr.toNat len.toNat)
      ∃ t, exec (.hmKey rd alg addr len) s = .next t ∧ k0.length = blockLen alg ∧
        t.slot rd = .hmacKey
          { alg := alg
            inner := { alg := alg, h := compressBlock src alg (initialState src alg) (k0.map (· ^^^ 0x36#8)), nblocks := 1#64 }
            outer := { alg := alg, h := compressBlock src alg (initialState src alg) (k0.map (· ^^^ 0x5C#8)), nblocks := 1#64 } } ∧
        changesOnly [rd] noRange s t ∧ t.res = s.res ∧ completedWith .ok s t)

/-- R167, R163: the key is kept unless it is the destination. -/
def Obligations.HmInitStartsContext : Prop :=
  ∀ (s : State) (rd rs1 : Slot),
    encode (.hmInit rd rs1) = [makeHeader 0x21#8 (slotField rd) (slotField rs1) 0 0] ∧
    ((∀ k, s.slot rs1 ≠ .hmacKey k) → takesFault (.hmInit rd rs1) .badSlotKind s) ∧
    ∀ k : HmacKey, s.slot rs1 = .hmacKey k →
      ∃ t, exec (.hmInit rd rs1) s = .next t ∧
        t.slot rd = .hmacCtx
          { alg := k.alg
            inner := { block := { alg := k.alg, h := k.inner.h, nblocks := k.inner.nblocks }, pending := [] }
            outer := k.outer } ∧
        (rd ≠ rs1 → t.slot rs1 = .hmacKey k) ∧
        changesOnly [rd] noRange s t ∧ t.res = s.res ∧ completedWith .ok s t

/-- R168, R164: the inner Context is fed as R129 says, the outer one is not touched. -/
def Obligations.HmUpdateFeedsInner : Prop :=
  ∀ (s : State) (rd : Slot) (addr len : Word),
    encode (.hmUpdate rd addr len) = [makeHeader 0x22#8 (slotField rd) 0 0 0, addr, len] ∧
    ((∀ c, s.slot rd ≠ .hmacCtx c) → takesFault (.hmUpdate rd addr len) .badSlotKind s) ∧
    ∀ c : HmacCtx, s.slot rd = .hmacCtx c → c.inner.pending.length < blockLen c.inner.block.alg →
      let b := c.inner.block
      let data := c.inner.pending ++ memReadBytes s.mem addr.toNat len.toNat
      let k := data.length / blockLen b.alg
      (s.cfg.memSize < addr.toNat + len.toNat → takesFault (.hmUpdate rd addr len) .badAddress s) ∧
      (addr.toNat + len.toNat ≤ s.cfg.memSize → 2 ^ 64 ≤ b.nblocks.toNat + k →
        takesFault (.hmUpdate rd addr len) .overflow s) ∧
      (addr.toNat + len.toNat ≤ s.cfg.memSize → b.nblocks.toNat + k < 2 ^ 64 →
        ∃ t c', exec (.hmUpdate rd addr len) s = .next t ∧ t.slot rd = .hmacCtx c' ∧
          c'.alg = c.alg ∧ c'.outer = c.outer ∧ c'.inner.block.alg = b.alg ∧
          c'.inner.block.h = compressBlocks s.cfg.compress b.alg k b.h (data.take (k * blockLen b.alg)) ∧
          c'.inner.block.nblocks.toNat = b.nblocks.toNat + k ∧
          c'.inner.pending = data.drop (k * blockLen b.alg) ∧
          changesOnly [rd] noRange s t ∧ t.res = s.res ∧ completedWith .ok s t)

/-- R169, R165: the inner digest is the pending data of the outer finish, whose bit length is `(block_len + output_len) * 8`. -/
def Obligations.HmSignGivesTag : Prop :=
  ∀ (s : State) (rd rs1 : Slot),
    encode (.hmSign rd rs1) = [makeHeader 0x23#8 (slotField rd) (slotField rs1) 0 0] ∧
    ((∀ c, s.slot rs1 ≠ .hmacCtx c) → takesFault (.hmSign rd rs1) .badSlotKind s) ∧
    ∀ c : HmacCtx, s.slot rs1 = .hmacCtx c → objOk s.cfg (.hmacCtx c) = true →
      let src := s.cfg.compress
      let b := c.inner.block
      let bits := (b.nblocks.toNat * blockLen c.alg + c.inner.pending.length) * 8
      (2 ^ 64 ≤ bits → takesFault (.hmSign rd rs1) .overflow s) ∧
      (bits < 2 ^ 64 →
        ∃ t, exec (.hmSign rd rs1) s = .next t ∧
          t.slot rd = .digestVal
            { alg := c.alg
              value := finishBytes src c.alg c.outer.h (finishBytes src c.alg b.h c.inner.pending bits)
                ((1 * blockLen c.alg + outputLen c.alg) * 8) } ∧
          (rd ≠ rs1 → t.slot rs1 = .empty) ∧
          changesOnly [rd, rs1] noRange s t ∧ t.res = s.res ∧ completedWith .ok s t)

/-- R196 check by check, with the chunk table of R193 and the fill of R192. -/
def Obligations.HkExpandFillsOutput : Prop :=
  ∀ (s : State) (rs1 : Slot) (tab n out outLen bigL : Word), Memory.wf s.mem →
    let i := Instr.hkExpand rs1 tab n out outLen bigL
    let chunks := (List.range n.toNat).map fun j => s.chunkEntry tab.toNat j
    let output := MemRange.mk out.toNat outLen.toNat
    let table := MemRange.mk tab.toNat (8 * n.toNat)
    encode i = [makeHeader 0x28#8 0 (slotField rs1) 0 0, tab, n, out, outLen, bigL] ∧
    ((∀ k, s.slot rs1 ≠ .hmacKey k) → takesFault i .badSlotKind s) ∧
    ∀ k : HmacKey, s.slot rs1 = .hmacKey k → objOk s.cfg (.hmacKey k) = true →
      let o := outputLen k.alg
      let fits := (blockLen k.alg + (if o < bigL.toNat then o else 0) + (chunks.map (·.len)).sum + 1) * 8 < 2 ^ 64
      let inMem := fun g : MemRange => g.addr + g.len ≤ s.cfg.memSize
      let apart := ∀ g ∈ table :: chunks,
        ¬ ∃ a, (output.addr ≤ a ∧ a < output.addr + output.len) ∧ g.addr ≤ a ∧ a < g.addr + g.len
      (¬ (∀ g ∈ table :: output :: chunks, inMem g) → takesFault i .badAddress s) ∧
      ((∀ g ∈ table :: output :: chunks, inMem g) → ¬ apart → takesFault i .overlap s) ∧
      ((∀ g ∈ table :: output :: chunks, inMem g) → apart → ¬ fits → takesFault i .overflow s) ∧
      ((∀ g ∈ table :: output :: chunks, inMem g) → apart → fits → outLen ≠ bigL ∨ 255 * o < bigL.toNat →
        failsWith i .unspecified s) ∧
      ((∀ g ∈ table :: output :: chunks, inMem g) → apart → fits → outLen = bigL → bigL.toNat ≤ 255 * o →
        ∃ t, exec i s = .next t ∧
          memReadBytes t.mem out.toNat bigL.toNat =
            hkdfFill s.cfg.compress k (chunks.map fun g => memReadBytes s.mem g.addr g.len) bigL.toNat ∧
          changesOnly [] output s t ∧ t.res = s.res ∧ completedWith .ok s t)

/-- R193: an entry of the chunk table, least significant byte first. -/
def Obligations.ChunkTableEntry : Prop :=
  ∀ (s : State) (tab j : Nat),
    let byte := fun k => (memRead s.mem (tab + 8 * j + k)).toNat
    s.chunkEntry tab j =
      { addr := byte 0 + 2 ^ 8 * byte 1 + 2 ^ 16 * byte 2 + 2 ^ 24 * byte 3
        len := byte 4 + 2 ^ 8 * byte 5 + 2 ^ 16 * byte 6 + 2 ^ 24 * byte 7 } ∧
    (s.chunkEntry tab j).addr < 2 ^ 32 ∧ (s.chunkEntry tab j).len < 2 ^ 32

/-! ## The limb commands (43_limb.md) -/

/-- R212: the limbs of the number the bytes are, and the inputs that are rejected. -/
def Obligations.LbParseReadsNumber : Prop :=
  ∀ (s : State) (rd : Slot) (addr len n : Word),
    let i := Instr.lbParse rd addr len n
    let need := (len.toNat + s.limbBytes - 1) / s.limbBytes
    encode i = [makeHeader 0x30#8 (slotField rd) 0 0 0, addr, len, n] ∧
    (s.cfg.maxLimbs < n.toNat → takesFault i .badLength s) ∧
    (n.toNat ≤ s.cfg.maxLimbs → s.cfg.memSize < addr.toNat + len.toNat → takesFault i .badAddress s) ∧
    (n.toNat ≤ s.cfg.maxLimbs → addr.toNat + len.toNat ≤ s.cfg.memSize → len.toNat = 0 ∨ n.toNat < need →
      failsWith i .unspecified s) ∧
    (n.toNat ≤ s.cfg.maxLimbs → addr.toNat + len.toNat ≤ s.cfg.memSize → 1 ≤ len.toNat → need ≤ n.toNat →
      ∃ t ls, exec i s = .next t ∧ t.slot rd = .limbs ls ∧ ls.length = n.toNat ∧ (∀ l ∈ ls, l < 2 ^ s.limbBits) ∧
        limbsValue s.limbBits ls = beToNat (memReadBytes s.mem addr.toNat len.toNat) ∧
        changesOnly [rd] noRange s t ∧ t.res = s.res ∧ completedWith .ok s t)

/-- R213: the most significant limb first, each limb most significant byte first. -/
def Obligations.LbFormatStoresNumber : Prop :=
  ∀ (s : State) (rs1 : Slot) (addr len : Word), Memory.wf s.mem →
    let i := Instr.lbFormat rs1 addr len
    encode i = [makeHeader 0x31#8 0 (slotField rs1) 0 0, addr, len] ∧
    ((∀ a, s.slot rs1 ≠ .limbs a) → takesFault i .badSlotKind s) ∧
    ∀ a : List Nat, s.slot rs1 = .limbs a → (∀ l ∈ a, l < 2 ^ s.limbBits) →
      (len.toNat ≠ a.length * s.limbBytes → takesFault i .badLength s) ∧
      (len.toNat = a.length * s.limbBytes → s.cfg.memSize < addr.toNat + len.toNat → takesFault i .badAddress s) ∧
      (len.toNat = a.length * s.limbBytes → addr.toNat + len.toNat ≤ s.cfg.memSize →
        ∃ t, exec i s = .next t ∧
          memReadBytes t.mem addr.toNat len.toNat = a.reverse.flatMap (beBytes s.limbBytes) ∧
          changesOnly [] ⟨addr.toNat, len.toNat⟩ s t ∧ t.res = s.res ∧ completedWith .ok s t)

/-- R214: what LB_PARSE read, LB_FORMAT writes back, left-padded with zero bytes to the width of the limbs; an empty input fails. -/
def Obligations.ParseFormatRoundTrip : Prop :=
  (∀ (s t u : State) (rd : Slot) (a b len n width : Word), Memory.wf s.mem →
    s.fault = 0#8 → exec (.lbParse rd a len n) s = .next t → t.fault = 0#8 → t.err = 0#8 →
    width.toNat = n.toNat * s.limbBytes → exec (.lbFormat rd b width) t = .next u → u.fault = 0#8 →
      memReadBytes u.mem b.toNat width.toNat =
        List.replicate (width.toNat - len.toNat) 0x00#8 ++ memReadBytes s.mem a.toNat len.toNat) ∧
  (∀ (s : State) (rd : Slot) (a n : Word), n.toNat ≤ s.cfg.maxLimbs → a.toNat ≤ s.cfg.memSize →
    failsWith (.lbParse rd a 0#32 n) .unspecified s)

/-- R215, R216: the two comparisons of big integers of one length. -/
def Obligations.LbEqLbLtCompare : Prop :=
  ∀ (s : State) (rs1 rs2 : Slot),
    encode (.lbEq rs1 rs2) = [makeHeader 0x32#8 0 (slotField rs1) (slotField rs2) 0] ∧
    encode (.lbLt rs1 rs2) = [makeHeader 0x33#8 0 (slotField rs1) (slotField rs2) 0] ∧
    ((∀ a, s.slot rs1 ≠ .limbs a) ∨ (∀ b, s.slot rs2 ≠ .limbs b) →
      takesFault (.lbEq rs1 rs2) .badSlotKind s ∧ takesFault (.lbLt rs1 rs2) .badSlotKind s) ∧
    ∀ a b : List Nat, s.slot rs1 = .limbs a → s.slot rs2 = .limbs b →
      (∀ l ∈ a, l < 2 ^ s.limbBits) → (∀ l ∈ b, l < 2 ^ s.limbBits) →
      (a.length ≠ b.length → takesFault (.lbEq rs1 rs2) .badLength s ∧ takesFault (.lbLt rs1 rs2) .badLength s) ∧
      (a.length = b.length →
        (∃ t, exec (.lbEq rs1 rs2) s = .next t ∧ t.res.toNat = (if a = b then 2 ^ s.limbBits - 1 else 0) ∧
          changesOnly [] noRange s t ∧ completedWith .ok s t) ∧
        (∃ t, exec (.lbLt rs1 rs2) s = .next t ∧
          t.res.toNat = (if limbsValue s.limbBits a < limbsValue s.limbBits b then 2 ^ s.limbBits - 1 else 0) ∧
          changesOnly [] noRange s t ∧ completedWith .ok s t))

/-- R217, R218: every limb zero; bit 0 of the least significant limb zero. -/
def Obligations.LbZeroLbEvenTest : Prop :=
  ∀ (s : State) (rs1 : Slot),
    encode (.lbZero rs1) = [makeHeader 0x34#8 0 (slotField rs1) 0 0] ∧
    encode (.lbEven rs1) = [makeHeader 0x35#8 0 (slotField rs1) 0 0] ∧
    ((∀ a, s.slot rs1 ≠ .limbs a) →
      takesFault (.lbZero rs1) .badSlotKind s ∧ takesFault (.lbEven rs1) .badSlotKind s) ∧
    ∀ a : List Nat, s.slot rs1 = .limbs a →
      (∃ t, exec (.lbZero rs1) s = .next t ∧
        t.res.toNat = (if a.all (fun l => l == 0) then 2 ^ s.limbBits - 1 else 0) ∧
        changesOnly [] noRange s t ∧ completedWith .ok s t) ∧
      (∃ t, exec (.lbEven rs1) s = .next t ∧
        t.res.toNat = (if (a.headD 0).testBit 0 then 0 else 2 ^ s.limbBits - 1) ∧
        changesOnly [] noRange s t ∧ completedWith .ok s t)

/-- R219: the scalar is the least significant limb and every higher limb is zero. -/
def Obligations.LbEqlimbCompares : Prop :=
  ∀ (s : State) (rs1 : Slot) (lo hi : Word),
    let i := Instr.lbEqlimb rs1 lo hi
    encode i = [makeHeader 0x36#8 0 (slotField rs1) 0 0, lo, hi] ∧
    ((∀ a, s.slot rs1 ≠ .limbs a) → takesFault i .badSlotKind s) ∧
    ∀ a : List Nat, s.slot rs1 = .limbs a → 1 ≤ a.length → (∀ l ∈ a, l < 2 ^ s.limbBits) →
      (s.limbBits = 32 → hi ≠ 0#32 → takesFault i .badOperand s) ∧
      (s.limbBits = 64 ∨ hi = 0#32 →
        ∃ t, exec i s = .next t ∧
          t.res.toNat = (if a.headD 0 = lo.toNat + hi.toNat * 2 ^ 32 ∧ a.tail.all (fun l => l == 0)
            then 2 ^ s.limbBits - 1 else 0) ∧
          changesOnly [] noRange s t ∧ completedWith .ok s t)

/-- R220: at most one subtraction of the modulus. -/
def Obligations.LbReduceSubtractsOnce : Prop :=
  ∀ (s : State) (rd rs2 : Slot),
    let i := Instr.lbReduce rd rs2
    encode i = [makeHeader 0x37#8 (slotField rd) 0 (slotField rs2) 0] ∧
    ((∀ r, s.slot rd ≠ .limbs r) ∨ (∀ m, s.slot rs2 ≠ .limbs m) → takesFault i .badSlotKind s) ∧
    ∀ r m : List Nat, s.slot rd = .limbs r → s.slot rs2 = .limbs m →
      (∀ l ∈ r, l < 2 ^ s.limbBits) → (∀ l ∈ m, l < 2 ^ s.limbBits) →
      let rv := limbsValue s.limbBits r
      let mv := limbsValue s.limbBits m
      (r.length ≠ m.length → takesFault i .badLength s) ∧
      (r.length = m.length →
        ∃ t ls, exec i s = .next t ∧ t.slot rd = .limbs ls ∧ ls.length = r.length ∧ (∀ l ∈ ls, l < 2 ^ s.limbBits) ∧
          limbsValue s.limbBits ls = (if rv ≥ mv then rv - mv else rv) ∧
          changesOnly [rd] noRange s t ∧ t.res = s.res ∧ completedWith .ok s t)

/-- R221: `LIMB_BITS * j + k` for the highest nonzero limb `j` and the 1-based position `k` of its highest set bit. -/
def Obligations.LbMinbitsFindsTopBit : Prop :=
  ∀ (s : State) (rs1 : Slot),
    encode (.lbMinbits rs1) = [makeHeader 0x38#8 0 (slotField rs1) 0 0] ∧
    ((∀ a, s.slot rs1 ≠ .limbs a) → takesFault (.lbMinbits rs1) .badSlotKind s) ∧
    ∀ a : List Nat, s.slot rs1 = .limbs a → a.length ≤ 255 → (∀ l ∈ a, l < 2 ^ s.limbBits) →
      ∃ t, exec (.lbMinbits rs1) s = .next t ∧
        ((∀ l ∈ a, l = 0) → t.res.toNat = 0) ∧
        (∀ j k : Nat, (a.getD j 0).testBit k = true → (∀ k' > k, (a.getD j 0).testBit k' = false) →
          (∀ j' > j, a.getD j' 0 = 0) → t.res.toNat = s.limbBits * j + (k + 1)) ∧
        changesOnly [] noRange s t ∧ completedWith .ok s t

/-- R223, R222: the windows are the base-32 digits of the number, most significant first, `ceil(N / 5)` of them. -/
def Obligations.LbFold5StoresWindows : Prop :=
  ∀ (s : State) (rs1 : Slot) (addr : Word), Memory.wf s.mem →
    let i := Instr.lbFold5 rs1 addr
    encode i = [makeHeader 0x39#8 0 (slotField rs1) 0 0, addr] ∧
    ((∀ a, s.slot rs1 ≠ .limbs a) → takesFault i .badSlotKind s) ∧
    ∀ a : List Nat, s.slot rs1 = .limbs a → a.length ≤ 255 → (∀ l ∈ a, l < 2 ^ s.limbBits) →
      let nw := (a.length * s.limbBits + 4) / 5
      (s.cfg.memSize < addr.toNat + nw → takesFault i .badAddress s) ∧
      (addr.toNat + nw ≤ s.cfg.memSize →
        ∃ t ws, exec i s = .next t ∧ memReadBytes t.mem addr.toNat nw = ws ∧ (∀ w ∈ ws, w.toNat < 32) ∧
          ws.foldl (fun acc w => 32 * acc + w.toNat) 0 = limbsValue s.limbBits a ∧ t.res.toNat = nw ∧
          changesOnly [] ⟨addr.toNat, nw⟩ s t ∧ completedWith .ok s t)

/-! ## The nonce commands (44_ecdsa_nonce.md) -/

/-- R253, R252: one request, the random bytes hashed before the seed; a failed request is the key-rejection error. That the
answers stand in a script, and are free values after its end, is the model's choice (R320; DESIGN CHOICE, log entry 5), and so
is the stop for a source that never answers (R321; DEDUCED, log entry 6). -/
def Obligations.EcNkeyDerivesKey : Prop :=
  ∀ (s : State) (rd : Slot) (alg : AlgId) (addr len : Word),
    let i := Instr.ecNkey rd alg addr len
    let seed := memReadBytes s.mem addr.toNat len.toNat
    let failed := ∃ t, exec i s = .next t ∧ (∀ r : Slot, t.slot r = s.slot r) ∧ keepsMem s t ∧ t.res = s.res ∧
      keepsRest s t ∧ asksRngOnce s t ∧ completedWith .keyRejectedRngFailed s t
    let answered := fun rand : List Byte => ∃ t, exec i s = .next t ∧
      t.slot rd = .nonceKey { alg := alg, value := hashOf s.cfg.compress alg (rand ++ seed) } ∧
      keepsSlotsExcept [rd] s t ∧ keepsMem s t ∧ t.res = s.res ∧ keepsRest s t ∧ asksRngOnce s t ∧ completedWith .ok s t
    encode i = [makeHeader 0x40#8 (slotField rd) 0 0 (selOfAlg alg), addr, len] ∧
    (¬ (1 ≤ len.toNat ∧ len.toNat ≤ 64) → takesFault i .badLength s) ∧
    (1 ≤ len.toNat ∧ len.toNat ≤ 64 → s.cfg.memSize < addr.toNat + len.toNat → takesFault i .badAddress s) ∧
    (1 ≤ len.toNat ∧ len.toNat ≤ 64 → addr.toNat + len.toNat ≤ s.cfg.memSize →
      (∀ rest, s.rngScript = .fail :: rest → failed) ∧
      (∀ bs rest, s.rngScript = .ok bs :: rest → ∃ rand, isRngAnswer bs rand len.toNat ∧ answered rand) ∧
      (s.rngScript = [] → failed ∨ ∃ rand, isRngAnswer [] rand len.toNat ∧ answered rand) ∧
      (∀ rest, s.rngScript = .never :: rest → exec i s = .fault .rngNeverAnswers))

/-- R255, R254: one request for the rest of the first block; a failed request is the opaque error. The script of answers is the
model's choice (R320; DESIGN CHOICE, log entry 5), and so is the stop for a source that never answers (R321; DEDUCED, log entry 6). -/
def Obligations.EcNonceFillsRequest : Prop :=
  ∀ (s : State) (rs1 : Slot) (ma ml d dl : Word), Memory.wf s.mem →
    let i := Instr.ecNonce rs1 ma ml d dl
    encode i = [makeHeader 0x41#8 0 (slotField rs1) 0 0, ma, ml, d, dl] ∧
    ((∀ k, s.slot rs1 ≠ .nonceKey k) → takesFault i .badSlotKind s) ∧
    ∀ k : NonceKey, s.slot rs1 = .nonceKey k → k.value.length = outputLen k.alg →
      let o := outputLen k.alg
      let md := memReadBytes s.mem ma.toNat ml.toNat
      let inMem := ma.toNat + ml.toNat ≤ s.cfg.memSize ∧ d.toNat + dl.toNat ≤ s.cfg.memSize
      let overlap := ∃ a, (d.toNat ≤ a ∧ a < d.toNat + dl.toNat) ∧ ma.toNat ≤ a ∧ a < ma.toNat + ml.toNat
      let failed := ∃ t, exec i s = .next t ∧ (∀ r : Slot, t.slot r = s.slot r) ∧ keepsMem s t ∧ t.res = s.res ∧
        keepsRest s t ∧ asksRngOnce s t ∧ completedWith .unspecified s t
      let answered := fun rand : List Byte => ∃ t, exec i s = .next t ∧
        memReadBytes t.mem d.toNat o = hashOf s.cfg.compress k.alg (k.value ++ rand ++ md) ∧
        (∀ r : Slot, t.slot r = s.slot r) ∧ keepsMemExcept ⟨d.toNat, o⟩ s t ∧ t.res = s.res ∧ keepsRest s t ∧
        asksRngOnce s t ∧ completedWith .ok s t
      (ml.toNat ≠ o ∨ dl.toNat ≠ o → takesFault i .badLength s) ∧
      (ml.toNat = o → dl.toNat = o → ¬ inMem → takesFault i .badAddress s) ∧
      (ml.toNat = o → dl.toNat = o → inMem → overlap → takesFault i .overlap s) ∧
      (ml.toNat = o → dl.toNat = o → inMem → ¬ overlap →
        (∀ rest, s.rngScript = .fail :: rest → failed) ∧
        (∀ bs rest, s.rngScript = .ok bs :: rest → ∃ rand, isRngAnswer bs rand (blockLen k.alg - o) ∧ answered rand) ∧
        (s.rngScript = [] → failed ∨ ∃ rand, isRngAnswer [] rand (blockLen k.alg - o) ∧ answered rand) ∧
        (∀ rest, s.rngScript = .never :: rest → exec i s = .fault .rngNeverAnswers))

/-! ## The signature formatter (45_sig_format.md) -/

/-- R271, R275: both scalars big-endian in `scalar_len` bytes, which decode back. -/
def Obligations.SgFixedStoresScalars : Prop :=
  ∀ (s : State) (rs1 rs2 : Slot) (addr : Word), Memory.wf s.mem →
    let i := Instr.sgFixed rs1 rs2 addr
    encode i = [makeHeader 0x48#8 0 (slotField rs1) (slotField rs2) 0, addr] ∧
    ((∀ r, s.slot rs1 ≠ .limbs r) ∨ (∀ v, s.slot rs2 ≠ .limbs v) → takesFault i .badSlotKind s) ∧
    ∀ r v : List Nat, s.slot rs1 = .limbs r → s.slot rs2 = .limbs v → r.length ≤ 255 →
      (∀ l ∈ r, l < 2 ^ s.limbBits) → (∀ l ∈ v, l < 2 ^ s.limbBits) →
      let n := r.length * s.limbBytes
      (r.length ≠ v.length → takesFault i .badLength s) ∧
      (r.length = v.length → s.cfg.memSize < addr.toNat + 2 * n → takesFault i .badAddress s) ∧
      (r.length = v.length → addr.toNat + 2 * n ≤ s.cfg.memSize →
        ∃ t, exec i s = .next t ∧
          beToNat (memReadBytes t.mem addr.toNat n) = limbsValue s.limbBits r ∧
          beToNat (memReadBytes t.mem (addr.toNat + n) n) = limbsValue s.limbBits v ∧
          t.res.toNat = 2 * n ∧ changesOnly [] ⟨addr.toNat, 2 * n⟩ s t ∧ completedWith .ok s t)

/-- R274, R273, R272: the DER encoding, each content the shortest whose first bit is 0, `ceil((minimal_bits + 1) / 8)` bytes long. -/
def Obligations.SgAsn1StoresDer : Prop :=
  ∀ (s : State) (rs1 rs2 : Slot) (addr : Word), Memory.wf s.mem →
    let i := Instr.sgAsn1 rs1 rs2 addr
    encode i = [makeHeader 0x49#8 0 (slotField rs1) (slotField rs2) 0, addr] ∧
    ((∀ r, s.slot rs1 ≠ .limbs r) ∨ (∀ v, s.slot rs2 ≠ .limbs v) → takesFault i .badSlotKind s) ∧
    ∀ r v : List Nat, s.slot rs1 = .limbs r → s.slot rs2 = .limbs v →
      (∀ l ∈ r, l < 2 ^ s.limbBits) → (∀ l ∈ v, l < 2 ^ s.limbBits) →
      let rv := limbsValue s.limbBits r
      let sv := limbsValue s.limbBits v
      let lr := (minimalBits rv + 8) / 8
      let ls := (minimalBits sv + 8) / 8
      let body := (2 + lr) + (2 + ls)
      (r.length ≠ v.length → takesFault i .badLength s) ∧
      (r.length = v.length → rv = 0 ∨ sv = 0 → takesFault i .zeroScalar s) ∧
      (r.length = v.length → rv ≠ 0 → sv ≠ 0 → 128 ≤ body → takesFault i .derTooLong s) ∧
      (r.length = v.length → rv ≠ 0 → sv ≠ 0 → body < 128 → s.cfg.memSize < addr.toNat + (2 + body) →
        takesFault i .badAddress s) ∧
      (r.length = v.length → rv ≠ 0 → sv ≠ 0 → body < 128 → addr.toNat + (2 + body) ≤ s.cfg.memSize →
        ∃ t cr cs, exec i s = .next t ∧
          memReadBytes t.mem addr.toNat (2 + body) =
            [0x30#8, BitVec.ofNat 8 body] ++ ([0x02#8, BitVec.ofNat 8 lr] ++ cr) ++ ([0x02#8, BitVec.ofNat 8 ls] ++ cs) ∧
          cr.length = lr ∧ beToNat cr = rv ∧ (cr.headD 0xFF#8).toNat < 128 ∧
          cs.length = ls ∧ beToNat cs = sv ∧ (cs.headD 0xFF#8).toNat < 128 ∧
          t.res.toNat = 2 + body ∧ changesOnly [] ⟨addr.toNat, 2 + body⟩ s t ∧ completedWith .ok s t)

/-! ## The functions of the digest engine and what is built on it -/

/-- R124: a call on several blocks is the single-block calls in order. -/
def Obligations.CompressIterates : Prop :=
  ∀ (src : CompressSource) (alg : AlgId) (h : Chain) (blocks : List (List Byte)),
    (∀ b ∈ blocks, b.length = blockLen alg) →
      compressBlocks src alg blocks.length h blocks.flatten = blocks.foldl (compressBlock src alg) h

/-- R125: the chaining value word by word, each word big-endian in its own width. -/
def Obligations.FormatIsBigEndian : Prop :=
  (∀ (ws : List (BitVec 32)) (j : Nat) (hj : j < ws.length),
    beToNat ((formatChain (.w32 ws)).drop (4 * j) |>.take 4) = (ws[j]).toNat) ∧
  (∀ (ws : List (BitVec 64)) (j : Nat) (hj : j < ws.length),
    beToNat ((formatChain (.w64 ws)).drop (8 * j) |>.take 8) = (ws[j]).toNat) ∧
  ∀ (alg : AlgId) (h : Chain), chainFits alg h = true → (formatChain h).length = chainingLen alg

/-- R133: how data is cut into updates does not matter, to the Context and so to the Digest. -/
def Obligations.ChunkingInvariance : Prop :=
  ∀ (src : CompressSource) (c : DigestCtx) (chunks : List (List Byte)), c.pending.length < blockLen c.block.alg →
    chunks.foldl (ctxUpdate src) c = ctxUpdate src c chunks.flatten ∧
    ctxFinish src (chunks.foldl (ctxUpdate src) c) = ctxFinish src (ctxUpdate src c chunks.flatten)

/-- R131, R140: the blocks a finish compresses are the padded message, whole, and no shorter padding would do. -/
def Obligations.PaddingLayout : Prop :=
  ∀ (alg : AlgId) (pending : List Byte) (bits : Nat), pending.length < blockLen alg →
    (paddingBlocks alg pending bits).flatten = paddedMessage alg pending bits ∧
    (∀ b ∈ paddingBlocks alg pending bits, b.length = blockLen alg) ∧
    (paddingBlocks alg pending bits).length = padCount alg pending.length ∧
    ∀ z : Nat, lenLen alg - 8 ≤ z → (pending.length + 1 + z + 8) % blockLen alg = 0 →
      (paddedMessage alg pending bits).length ≤ pending.length + 1 + z + 8

/-- R139, R140: the one-shot digest is the hash of the padded message in one piece. -/
def Obligations.DigestIsHashOfPaddedMessage : Prop :=
  ∀ (src : CompressSource) (alg : AlgId) (data : List Byte), 8 * data.length < 2 ^ 64 →
    digest src alg data = { alg := alg, value := hashOf src alg data }

/-- R171: the HMAC of RFC 2104, in as many updates as one likes. -/
def Obligations.HmacIsRfc2104 : Prop :=
  ∀ (src : CompressSource) (alg : AlgId) (key : List Byte) (chunks : List (List Byte)),
    8 * key.length < 2 ^ 64 → 8 * (blockLen alg + chunks.flatten.length) < 2 ^ 64 →
      hmacSign src (chunks.foldl (hmacCtxUpdate src) (hmacCtxNew (hmacKeyNew src alg key))) =
        { alg := alg, value := hmacOf src alg key chunks.flatten }

/-- R195: RFC 5869's HKDF-Expand, however the info is cut into chunks. -/
def Obligations.HkdfIsRfc5869Expand : Prop :=
  ∀ (src : CompressSource) (alg : AlgId) (key : List Byte) (chunks : List (List Byte)) (bigL : Nat),
    8 * key.length < 2 ^ 64 → 8 * (blockLen alg + outputLen alg + chunks.flatten.length + 1) < 2 ^ 64 →
    bigL ≤ 255 * outputLen alg →
      hkdfFill src (hmacKeyNew src alg key) chunks bigL = (hkdfStream src alg key chunks.flatten).take bigL

/-- R254: key material and message digest stand in different blocks, and exactly two blocks are compressed. -/
def Obligations.NonceCompressesTwoBlocks : Prop :=
  ∀ (src : CompressSource) (k : NonceKey) (md rand : List Byte),
    k.value.length = outputLen k.alg → rand.length = blockLen k.alg - outputLen k.alg → md.length = outputLen k.alg →
      padCount k.alg (k.value ++ rand ++ md).length = 2 ∧
      (paddedMessage k.alg (k.value ++ rand ++ md) (8 * (blockLen k.alg + outputLen k.alg))).take (blockLen k.alg) =
        k.value ++ rand ∧
      nonceFill src k md rand =
        (formatChain (compressBlock src k.alg (compressBlock src k.alg (initialState src k.alg) (k.value ++ rand))
          (md ++ [0x80#8] ++ zeros (blockLen k.alg - outputLen k.alg - 9) ++
            beBytes 8 (8 * (blockLen k.alg + outputLen k.alg))))).take (outputLen k.alg)

/-! ## Data independence (70_reset_and_hazards.md R350, R351; 46_system.md R292) -/

/-- R350, R351 (with R141, R172, R197, R224, R258, R276): what can be observed of a command (the footprint, as log entry 21
chooses it: every invocation of the compression primitive, the `MEM` ranges touched, the random bytes requested) and
everything public it leaves depends on public values and on what R351 lets it disclose, not on secret bytes, limbs, chaining
values or random bytes. -/
def Obligations.ObservablesArePublic : Prop :=
  ∀ (i : Instr) (s t : State), publicEq s t → disclosed i s = disclosed i t →
    footprint i s = footprint i t ∧ publicOutcomeEq (exec i s) (exec i t)

/-- R292: keys, Contexts and nonce keys reach no register, and `MEM` only in the output range of HK_EXPAND or EC_NONCE (a Digest
or Tag leaves a Context by its finish command, into a slot). -/
def Obligations.SealedObjectsStayInside : Prop :=
  ∀ (i : Instr) (s t s' t' : State), sealedEq s t → exec i s = .next s' → exec i t = .next t' →
    sameRegisters s' t' ∧
    (sealedOutput i = none → s'.mem = t'.mem) ∧
    (∀ g, sealedOutput i = some g → ∀ a : Nat, ¬ (g.addr ≤ a ∧ a < g.addr + g.len) → memRead s'.mem a = memRead t'.mem a)

/-- R361, R197, R258: every invocation of the primitive is on one or more blocks (R123); a command that completes with `ERR = 0`
compresses as many blocks as R361 says, and one that faults or ends with an error compresses none. The footprint is the model's
own view of a command (log entry 21). -/
def Obligations.CompressionWorkByGuide : Prop :=
  ∀ (i : Instr) (s t : State), s.Inv → s.fault = 0#8 → exec i s = .next t →
    (∀ k ∈ (footprint i s).compressions, 1 ≤ k) ∧
    (t.fault = 0#8 → t.err = 0#8 → (footprint i s).compressions.sum = workGuide i s) ∧
    (t.fault ≠ 0#8 ∨ t.err ≠ 0#8 → (footprint i s).compressions = [])
end

