-- ==== Sys2Proof/Laws/Bytes.lean ====
section
/-! SUPPORT. Byte strings and limbs as numbers: lengths, inverses, bounds. -/

namespace Sys2Proof.Machine

@[simp] theorem zeros_length (n : Nat) : (zeros n).length = n := by simp [zeros]

@[simp] theorem beBytes_length (n v : Nat) : (beBytes n v).length = n := by
  induction n generalizing v with
  | zero => rfl
  | succ n ih => simp [beBytes, ih]

@[simp] theorem beToNat_nil : beToNat [] = 0 := rfl

/-- A big-endian number with one more byte at its end. -/
theorem beToNat_snoc (bs : List Byte) (b : Byte) : beToNat (bs ++ [b]) = 256 * beToNat bs + b.toNat := by
  simp [beToNat]

/-- Big-endian numbers of concatenated strings. -/
theorem beToNat_append (xs ys : List Byte) : beToNat (xs ++ ys) = 256 ^ ys.length * beToNat xs + beToNat ys := by
  induction ys using List.reverseRecOn with
  | nil => simp
  | append_singleton ys y ih =>
    rw [← List.append_assoc, beToNat_snoc, ih, beToNat_snoc, List.length_append, List.length_singleton, pow_succ]
    ring

/-- The number of a byte string is below 256 to its length. -/
theorem beToNat_lt (bs : List Byte) : beToNat bs < 256 ^ bs.length := by
  induction bs using List.reverseRecOn with
  | nil => simp
  | append_singleton bs b ih =>
    rw [beToNat_snoc, List.length_append, List.length_singleton, pow_succ]
    have := b.isLt
    omega

/-- `be_to_nat` undoes `be_n`. -/
theorem beToNat_beBytes (n v : Nat) : beToNat (beBytes n v) = v % 256 ^ n := by
  induction n generalizing v with
  | zero => simp [beBytes, Nat.mod_one]
  | succ n ih =>
    have h : v % 256 ^ (n + 1) = v % 256 + 256 * (v / 256 % 256 ^ n) := by
      rw [Nat.pow_succ', Nat.mod_mul]
    rw [beBytes, beToNat_snoc, ih, BitVec.toNat_ofNat, h]
    omega

/-- `be_n` undoes `be_to_nat` on strings of `n` bytes. -/
theorem beBytes_beToNat (bs : List Byte) : beBytes bs.length (beToNat bs) = bs := by
  induction bs using List.reverseRecOn with
  | nil => rfl
  | append_singleton bs b ih =>
    have hb := b.isLt
    rw [List.length_append, List.length_singleton, beBytes, beToNat_snoc]
    have h1 : (256 * beToNat bs + b.toNat) / 256 = beToNat bs := by omega
    rw [h1, ih]
    congr 1
    simp only [List.cons.injEq, and_true]
    apply BitVec.eq_of_toNat_eq
    simp only [BitVec.toNat_ofNat]
    omega

/-- Byte `i` of `be_n(v)`. -/
theorem beBytes_getElem (n v i : Nat) (h : i < (beBytes n v).length) :
    (beBytes n v)[i] = BitVec.ofNat 8 (v / 256 ^ (n - 1 - i)) := by
  induction n generalizing v with
  | zero => simp [beBytes] at h
  | succ n ih =>
    simp only [beBytes_length] at h
    simp only [beBytes]
    by_cases hi : i < n
    · rw [List.getElem_append_left (by simpa using hi), ih]
      have : n + 1 - 1 - i = (n - 1 - i) + 1 := by omega
      rw [this, pow_succ, Nat.mul_comm, Nat.div_div_eq_div_mul]
    · have : i = n := by omega
      subst this
      simp

/-! ## Limbs -/

@[simp] theorem limbsOfNat_length (w n v : Nat) : (limbsOfNat w n v).length = n := by simp [limbsOfNat]

/-- Every limb of a number is below `2^w`. -/
theorem limbsOfNat_lt (w n v : Nat) : ∀ l ∈ limbsOfNat w n v, l < 2 ^ w := by
  intro l hl
  simp only [limbsOfNat, List.mem_map] at hl
  obtain ⟨i, -, rfl⟩ := hl
  exact Nat.mod_lt _ (by positivity)

/-- The limbs of a number, its least significant limb first. -/
theorem limbsOfNat_succ (w n v : Nat) : limbsOfNat w (n + 1) v = v % 2 ^ w :: limbsOfNat w n (v / 2 ^ w) := by
  simp only [limbsOfNat, List.range_succ_eq_map, List.map_cons, List.map_map, Nat.mul_zero, pow_zero, Nat.div_one]
  congr 1
  refine List.map_congr_left fun i _ => ?_
  simp only [Function.comp, Nat.succ_eq_add_one, Nat.mul_add, Nat.mul_one, pow_add, Nat.div_div_eq_div_mul]
  rw [Nat.mul_comm]

/-- The value of the limbs of a number. -/
theorem limbsValue_limbsOfNat (w n v : Nat) : limbsValue w (limbsOfNat w n v) = v % 2 ^ (w * n) := by
  induction n generalizing v with
  | zero => simp [limbsOfNat, limbsValue, Nat.mod_one]
  | succ n ih =>
    rw [limbsOfNat_succ, limbsValue, ih, Nat.mul_succ, Nat.add_comm (w * n) w, pow_add, Nat.mod_mul]

/-- A big integer of `n` limbs is below `2^(w * n)`. -/
theorem limbsValue_lt (w : Nat) (ls : List Nat) (h : ∀ l ∈ ls, l < 2 ^ w) : limbsValue w ls < 2 ^ (w * ls.length) := by
  induction ls with
  | nil => simp [limbsValue]
  | cons l ls ih =>
    have h1 := ih fun x hx => h x (by simp [hx])
    have h2 := h l (by simp)
    rw [limbsValue, List.length_cons, Nat.mul_succ, Nat.add_comm (w * _) w, pow_add]
    calc l + 2 ^ w * limbsValue w ls < 2 ^ w + 2 ^ w * limbsValue w ls := by omega
      _ = 2 ^ w * (limbsValue w ls + 1) := by ring
      _ ≤ 2 ^ w * 2 ^ (w * ls.length) := Nat.mul_le_mul_left _ h1

/-- Limbs are determined by their number and the value. -/
theorem limbsOfNat_limbsValue (w : Nat) (ls : List Nat) (h : ∀ l ∈ ls, l < 2 ^ w) :
    limbsOfNat w ls.length (limbsValue w ls) = ls := by
  induction ls with
  | nil => rfl
  | cons l ls ih =>
    have h2 := h l (by simp)
    have hp : 0 < 2 ^ w := by positivity
    rw [List.length_cons, limbsOfNat_succ, limbsValue]
    rw [Nat.add_mul_mod_self_left, Nat.mod_eq_of_lt h2, Nat.add_mul_div_left _ _ hp, Nat.div_eq_of_lt h2, Nat.zero_add,
      ih fun x hx => h x (by simp [hx])]

@[simp] theorem windows5_length (w : Nat) (ls : List Nat) : (windows5 w ls).length = numWindows w ls.length := by
  simp [windows5]

@[simp] theorem fixedSignature_length (n r s : Nat) : (fixedSignature n r s).length = 2 * n := by
  simp [fixedSignature, two_mul]

@[simp] theorem integerTlv_length (n v : Nat) : (integerTlv n v).length = 2 + (derContents n v).length := by
  simp [integerTlv]; omega

@[simp] theorem derSignature_length (n r s : Nat) : (derSignature n r s).length = 2 + derBodyLen n r s := by
  simp [derSignature, derBodyLen]; omega

end Sys2Proof.Machine
end

