-- ==== Sys2Proof/Laws/Decode.lean ====
section
/-! SUPPORT. The fields of a header word put together and taken apart, and the tables of 30_encoding.md read both ways. -/

namespace Sys2Proof

/-! ## Fields of `makeHeader` -/

@[simp] theorem hdrOp_makeHeader (op : BitVec 8) (rd rs1 rs2 sel : BitVec 4) : hdrOp (makeHeader op rd rs1 rs2 sel) = op := by
  apply BitVec.eq_of_getLsbD_eq; intro i hi
  simp only [hdrOp, makeHeader, BitVec.getLsbD_extractLsb', BitVec.getLsbD_or, BitVec.getLsbD_shiftLeft, BitVec.getLsbD_setWidth]
  interval_cases i <;> simp

@[simp] theorem hdrRd_makeHeader (op : BitVec 8) (rd rs1 rs2 sel : BitVec 4) : hdrRd (makeHeader op rd rs1 rs2 sel) = rd := by
  apply BitVec.eq_of_getLsbD_eq; intro i hi
  simp only [hdrRd, makeHeader, BitVec.getLsbD_extractLsb', BitVec.getLsbD_or, BitVec.getLsbD_shiftLeft, BitVec.getLsbD_setWidth]
  interval_cases i <;> simp

@[simp] theorem hdrRs1_makeHeader (op : BitVec 8) (rd rs1 rs2 sel : BitVec 4) : hdrRs1 (makeHeader op rd rs1 rs2 sel) = rs1 := by
  apply BitVec.eq_of_getLsbD_eq; intro i hi
  simp only [hdrRs1, makeHeader, BitVec.getLsbD_extractLsb', BitVec.getLsbD_or, BitVec.getLsbD_shiftLeft, BitVec.getLsbD_setWidth]
  interval_cases i <;> simp

@[simp] theorem hdrRs2_makeHeader (op : BitVec 8) (rd rs1 rs2 sel : BitVec 4) : hdrRs2 (makeHeader op rd rs1 rs2 sel) = rs2 := by
  apply BitVec.eq_of_getLsbD_eq; intro i hi
  simp only [hdrRs2, makeHeader, BitVec.getLsbD_extractLsb', BitVec.getLsbD_or, BitVec.getLsbD_shiftLeft, BitVec.getLsbD_setWidth]
  interval_cases i <;> simp

@[simp] theorem hdrSel_makeHeader (op : BitVec 8) (rd rs1 rs2 sel : BitVec 4) : hdrSel (makeHeader op rd rs1 rs2 sel) = sel := by
  apply BitVec.eq_of_getLsbD_eq; intro i hi
  simp only [hdrSel, makeHeader, BitVec.getLsbD_extractLsb', BitVec.getLsbD_or, BitVec.getLsbD_shiftLeft, BitVec.getLsbD_setWidth]
  interval_cases i <;> simp

@[simp] theorem hdrZero_makeHeader (op : BitVec 8) (rd rs1 rs2 sel : BitVec 4) : hdrZero (makeHeader op rd rs1 rs2 sel) = 0#8 := by
  apply BitVec.eq_of_getLsbD_eq; intro i hi
  simp only [hdrZero, makeHeader, BitVec.getLsbD_extractLsb', BitVec.getLsbD_or, BitVec.getLsbD_shiftLeft, BitVec.getLsbD_setWidth]
  interval_cases i <;> simp

/-- A header is its six fields. -/
theorem header_eq_of_fields {a b : Word} (h1 : hdrOp a = hdrOp b) (h2 : hdrRd a = hdrRd b) (h3 : hdrRs1 a = hdrRs1 b)
    (h4 : hdrRs2 a = hdrRs2 b) (h5 : hdrSel a = hdrSel b) (h6 : hdrZero a = hdrZero b) : a = b := by
  apply BitVec.eq_of_getLsbD_eq; intro i hi
  have g1 (j : Nat) : (hdrOp a).getLsbD j = (hdrOp b).getLsbD j := by rw [h1]
  have g2 (j : Nat) : (hdrRd a).getLsbD j = (hdrRd b).getLsbD j := by rw [h2]
  have g3 (j : Nat) : (hdrRs1 a).getLsbD j = (hdrRs1 b).getLsbD j := by rw [h3]
  have g4 (j : Nat) : (hdrRs2 a).getLsbD j = (hdrRs2 b).getLsbD j := by rw [h4]
  have g5 (j : Nat) : (hdrSel a).getLsbD j = (hdrSel b).getLsbD j := by rw [h5]
  have g6 (j : Nat) : (hdrZero a).getLsbD j = (hdrZero b).getLsbD j := by rw [h6]
  simp only [hdrOp, hdrRd, hdrRs1, hdrRs2, hdrSel, hdrZero, BitVec.getLsbD_extractLsb'] at g1 g2 g3 g4 g5 g6
  by_cases c1 : i < 8
  · simpa [c1] using g1 i
  by_cases c2 : i < 12
  · have := g2 (i - 8); rw [show 8 + (i - 8) = i by omega] at this; simpa [show i - 8 < 4 by omega] using this
  by_cases c3 : i < 16
  · have := g3 (i - 12); rw [show 12 + (i - 12) = i by omega] at this; simpa [show i - 12 < 4 by omega] using this
  by_cases c4 : i < 20
  · have := g4 (i - 16); rw [show 16 + (i - 16) = i by omega] at this; simpa [show i - 16 < 4 by omega] using this
  by_cases c5 : i < 24
  · have := g5 (i - 20); rw [show 20 + (i - 20) = i by omega] at this; simpa [show i - 20 < 4 by omega] using this
  · have := g6 (i - 24); rw [show 24 + (i - 24) = i by omega] at this; simpa [show i - 24 < 8 by omega] using this

/-! ## The tables, both ways -/

@[simp] theorem opOfByte_opByte (o : Op) : opOfByte (opByte o) = some o := by cases o <;> rfl

/-- Each opcode byte names one opcode. -/
theorem opByte_of_opOfByte {b : BitVec 8} {o : Op} (h : opOfByte b = some o) : opByte o = b := by
  unfold opOfByte at h
  split at h <;> first | (cases h; rfl) | cases h

@[simp] theorem algOfSel_selOfAlg (a : AlgId) : algOfSel (selOfAlg a) = some a := by cases a <;> rfl

/-- Each `sel` value names one algorithm. -/
theorem selOfAlg_of_algOfSel {b : BitVec 4} {a : AlgId} (h : algOfSel b = some a) : selOfAlg a = b := by
  unfold algOfSel at h
  split at h <;> first | (cases h; rfl) | cases h

/-- `sel` names an algorithm exactly when it is at most 4. -/
theorem algOfSel_isSome (b : BitVec 4) : (algOfSel b).isSome = decide (b.toNat ≤ 4) := by
  revert b; decide

@[simp] theorem slotOfField_slotField (s : Slot) : slotOfField (slotField s) = s := rfl

@[simp] theorem slotField_slotOfField (f : BitVec 4) : slotField (slotOfField f) = f := rfl

/-! ## Operand words -/

theorem withNone_ok {ops : List Word} {g : Instr} {i : Instr} : withNone ops g = .ok i ↔ ops = [] ∧ g = i := by
  cases ops <;> simp [withNone]

theorem withOne_ok {ops : List Word} {f : Word → Instr} {i : Instr} : withOne ops f = .ok i ↔ ∃ a, ops = [a] ∧ f a = i := by
  unfold withOne
  split
  · simp
  · rename_i h
    simp only [reduceCtorEq, false_iff]
    rintro ⟨a, rfl, -⟩
    exact h _ rfl

theorem withTwo_ok {ops : List Word} {f : Word → Word → Instr} {i : Instr} : withTwo ops f = .ok i ↔ ∃ a b, ops = [a, b] ∧ f a b = i := by
  unfold withTwo
  split
  · simp
  · rename_i h
    simp only [reduceCtorEq, false_iff]
    rintro ⟨a, b, rfl, -⟩
    exact h _ _ rfl

theorem withThree_ok {ops : List Word} {f : Word → Word → Word → Instr} {i : Instr} : withThree ops f = .ok i ↔ ∃ a b c, ops = [a, b, c] ∧ f a b c = i := by
  unfold withThree
  split
  · simp
  · rename_i h
    simp only [reduceCtorEq, false_iff]
    rintro ⟨a, b, c, rfl, -⟩
    exact h _ _ _ rfl

theorem withFour_ok {ops : List Word} {f : Word → Word → Word → Word → Instr} {i : Instr} : withFour ops f = .ok i ↔ ∃ a b c d, ops = [a, b, c, d] ∧ f a b c d = i := by
  unfold withFour
  split
  · simp
  · rename_i h
    simp only [reduceCtorEq, false_iff]
    rintro ⟨a, b, c, d, rfl, -⟩
    exact h _ _ _ _ rfl

theorem withFive_ok {ops : List Word} {f : Word → Word → Word → Word → Word → Instr} {i : Instr} : withFive ops f = .ok i ↔ ∃ a b c d e, ops = [a, b, c, d, e] ∧ f a b c d e = i := by
  unfold withFive
  split
  · simp
  · rename_i h
    simp only [reduceCtorEq, false_iff]
    rintro ⟨a, b, c, d, e, rfl, -⟩
    exact h _ _ _ _ _ rfl

/-! ## What `decodeHeader` answers -/

/-- The four conditions under which a header is accepted with an opcode (R93). -/
theorem decodeHeader_ok {hdr : Word} {o : Op} :
    decodeHeader hdr = .ok o ↔
      opOfByte (hdrOp hdr) = some o ∧ hdrZero hdr = 0#8 ∧
      (opUsesRd o = true ∨ hdrRd hdr = 0#4) ∧ (opUsesRs1 o = true ∨ hdrRs1 hdr = 0#4) ∧
      (opUsesRs2 o = true ∨ hdrRs2 hdr = 0#4) ∧ (opUsesSel o = true ∨ hdrSel hdr = 0#4) ∧
      (opUsesSel o = true → (hdrSel hdr).toNat ≤ 4) := by
  unfold decodeHeader
  cases ho : opOfByte (hdrOp hdr) with
  | none => simp
  | some o' =>
    have ha := algOfSel_isSome (hdrSel hdr)
    simp only [Option.some.injEq]
    constructor
    · intro h
      split at h
      · cases h
      · split at h
        · cases h
        · split at h
          · cases h
          · cases h
            rename_i h1 h2 h3
            simp only [Bool.or_eq_true, Bool.and_eq_true, Bool.not_eq_true', bne_iff_ne, ne_eq, not_or, not_and,
              Decidable.not_not] at h1 h2 h3
            refine ⟨rfl, h1, ?_, ?_, ?_, ?_, fun hs => ?_⟩
            · cases hb : opUsesRd o
              · exact .inr (h2.1.1.1 hb)
              · exact .inl rfl
            · cases hb : opUsesRs1 o
              · exact .inr (h2.1.1.2 hb)
              · exact .inl rfl
            · cases hb : opUsesRs2 o
              · exact .inr (h2.1.2 hb)
              · exact .inl rfl
            · cases hb : opUsesSel o
              · exact .inr (h2.2 hb)
              · exact .inl rfl
            · have h4 := h3 hs
              cases hq : algOfSel (hdrSel hdr) with
              | none => rw [hq] at h4; simp at h4
              | some a => rw [hq] at ha; simpa using ha.symm
    · rintro ⟨rfl, hz, h1, h2, h3, h4, h5⟩
      have e1 : ¬ (hdrZero hdr ≠ 0#8) := by simp [hz]
      rw [if_neg e1]
      have e2 : ((!opUsesRd o' && hdrRd hdr != 0#4) || (!opUsesRs1 o' && hdrRs1 hdr != 0#4)
        || (!opUsesRs2 o' && hdrRs2 hdr != 0#4) || (!opUsesSel o' && hdrSel hdr != 0#4)) = false := by
        rcases h1 with h1 | h1 <;> rcases h2 with h2 | h2 <;> rcases h3 with h3 | h3 <;> rcases h4 with h4 | h4 <;>
          simp [h1, h2, h3, h4]
      rw [e2]
      have e3 : (opUsesSel o' && (algOfSel (hdrSel hdr)).isNone) = false := by
        cases hs : opUsesSel o' with
        | false => rfl
        | true =>
          have := h5 hs
          cases hq : algOfSel (hdrSel hdr) with
          | none => rw [hq] at ha; simp at ha; omega
          | some a => rfl
      rw [e3]
      rfl

/-- A legal header, by its opcode. -/
theorem legalHeader_iff {hdr : Word} : legalHeader hdr = true ↔ ∃ o, decodeHeader hdr = .ok o := by
  unfold legalHeader
  cases decodeHeader hdr <;> simp

end Sys2Proof
end

