-- ==== Sys2Proof/Laws/Digest.lean ====
section
/-! SUPPORT. The shapes the digest engine keeps (10_state.md R22 to R28): chaining values, pending bytes, digests; and how
the compression of many blocks is cut. -/

namespace Sys2Proof.Machine

theorem blockLen_pos (alg : AlgId) : 0 < blockLen alg := by cases alg <;> decide

theorem outputLen_pos (alg : AlgId) : 0 < outputLen alg := by cases alg <;> decide

theorem outputLen_lt_blockLen (alg : AlgId) : outputLen alg < blockLen alg := by cases alg <;> decide

theorem outputLen_le_chainingLen (alg : AlgId) : outputLen alg ≤ chainingLen alg := by cases alg <;> decide

/-! ## Chaining values -/

theorem sha1Round_length (t : Nat) (w : BitVec 32) (v : List (BitVec 32)) (h : v.length = 5) : (sha1Round t w v).length = 5 := by
  match v, h with
  | [a, b, c, d, e], _ => rfl

theorem sha1Rounds_length (t : Nat) (ws v : List (BitVec 32)) (h : v.length = 5) : (sha1Rounds t ws v).length = 5 := by
  induction ws generalizing t v with
  | nil => exact h
  | cons w ws ih => exact ih (t + 1) _ (sha1Round_length t w v h)

theorem sha2Round_length {w : Nat} (f g : BitVec w → BitVec w) (v : List (BitVec w)) (k : BitVec w × BitVec w)
    (h : v.length = 8) : (sha2Round f g v k).length = 8 := by
  match v, h with
  | [a, b, c, d, e, f, g, hh], _ => rfl

theorem foldl_sha2Round_length {w : Nat} (f g : BitVec w → BitVec w) (ks : List (BitVec w × BitVec w)) (v : List (BitVec w))
    (h : v.length = 8) : (ks.foldl (sha2Round f g) v).length = 8 := by
  induction ks generalizing v with
  | nil => exact h
  | cons k ks ih => exact ih _ (sha2Round_length f g v k h)

/-- A chaining value built word by word has its algorithm's shape. -/
theorem chainFits_chainOf (alg : AlgId) (f : Nat → BitVec 64) : chainFits alg (chainOf alg f) = true := by
  cases alg <;> simp [chainOf, chainFits, wordBits, numWords]

/-- The initial state has its algorithm's shape. -/
theorem chainFits_initialState (src : CompressSource) (alg : AlgId) : chainFits alg (initialState src alg) = true := by
  cases src with
  | reference => cases alg <;> rfl
  | external => exact chainFits_chainOf alg _

/-- Compression keeps the shape. -/
theorem chainFits_compressBlock (src : CompressSource) (alg : AlgId) (h : Chain) (b : List Byte)
    (hf : chainFits alg h = true) : chainFits alg (compressBlock src alg h b) = true := by
  cases src with
  | external => exact chainFits_chainOf alg _
  | reference =>
    cases alg <;> cases h <;>
      simp_all [chainFits, compressBlock, refCompressBlock, wordBits, numWords, sha1Compress, sha256Compress, sha512Compress,
        sha1Rounds_length, foldl_sha2Round_length]

/-- Compression of many blocks keeps the shape. -/
theorem chainFits_compressBlocks (src : CompressSource) (alg : AlgId) (k : Nat) (h : Chain) (data : List Byte)
    (hf : chainFits alg h = true) : chainFits alg (compressBlocks src alg k h data) = true := by
  induction k generalizing h data with
  | zero => exact hf
  | succ k ih => exact ih _ _ (chainFits_compressBlock src alg h _ hf)

theorem chainFits_foldl (src : CompressSource) (alg : AlgId) (bs : List (List Byte)) (h : Chain)
    (hf : chainFits alg h = true) : chainFits alg (bs.foldl (compressBlock src alg) h) = true := by
  induction bs generalizing h with
  | nil => exact hf
  | cons b bs ih => exact ih _ (chainFits_compressBlock src alg h b hf)

/-- `Format` gives `chaining_len` bytes. -/
theorem formatChain_length {alg : AlgId} {h : Chain} (hf : chainFits alg h = true) :
    (formatChain h).length = chainingLen alg := by
  cases h <;> cases alg <;>
    simp_all [chainFits, formatChain, wordBits, numWords, chainingLen, List.length_flatMap]

/-! ## Contexts -/

@[simp] theorem blockUpdate_alg (src : CompressSource) (bc : BlockCtx) (d : List Byte) :
    (blockUpdate src bc d).alg = bc.alg := rfl

@[simp] theorem blockFinish_alg (src : CompressSource) (bc : BlockCtx) (p : List Byte) :
    (blockFinish src bc p).alg = bc.alg := rfl

@[simp] theorem blockNew_alg (src : CompressSource) (alg : AlgId) : (blockNew src alg).alg = alg := rfl

@[simp] theorem ctxNew_block (src : CompressSource) (alg : AlgId) : (ctxNew src alg).block = blockNew src alg := rfl

@[simp] theorem ctxNew_pending (src : CompressSource) (alg : AlgId) : (ctxNew src alg).pending = [] := rfl

theorem ctxTopUp_alg (src : CompressSource) (c : DigestCtx) (d : List Byte) : (ctxTopUp src c d).1.alg = c.block.alg := by
  unfold ctxTopUp; split <;> rfl

/-- A context that is not filled up keeps the bytes. -/
theorem ctxUpdate_short (src : CompressSource) (c : DigestCtx) (d : List Byte)
    (h : d.length < blockLen c.block.alg - c.pending.length) :
    ctxUpdate src c d = { c with pending := c.pending ++ d } := by
  simp only [ctxUpdate, if_pos h]

/-- A context that is filled up compresses every whole block and keeps the rest. -/
theorem ctxUpdate_long (src : CompressSource) (c : DigestCtx) (d : List Byte)
    (h : ¬ d.length < blockLen c.block.alg - c.pending.length) :
    ctxUpdate src c d =
      { block := blockUpdate src (ctxTopUp src c d).1
          ((ctxTopUp src c d).2.take ((ctxTopUp src c d).2.length / blockLen c.block.alg * blockLen c.block.alg))
        pending := (ctxTopUp src c d).2.drop ((ctxTopUp src c d).2.length / blockLen c.block.alg * blockLen c.block.alg) } := by
  simp only [ctxUpdate, if_neg h]

@[simp] theorem ctxUpdate_alg (src : CompressSource) (c : DigestCtx) (d : List Byte) :
    (ctxUpdate src c d).block.alg = c.block.alg := by
  by_cases h : d.length < blockLen c.block.alg - c.pending.length
  · rw [ctxUpdate_short src c d h]
  · rw [ctxUpdate_long src c d h]; exact ctxTopUp_alg src c d

@[simp] theorem ctxFinish_alg (src : CompressSource) (c : DigestCtx) : (ctxFinish src c).alg = c.block.alg := rfl

theorem chainFits_blockUpdate (src : CompressSource) (bc : BlockCtx) (d : List Byte) (hf : chainFits bc.alg bc.h = true) :
    chainFits bc.alg (blockUpdate src bc d).h = true := chainFits_compressBlocks src bc.alg _ _ _ hf

theorem digestCtxOk_iff {c : DigestCtx} :
    digestCtxOk c = true ↔ chainFits c.block.alg c.block.h = true ∧ c.pending.length < blockLen c.block.alg := by
  simp [digestCtxOk]

theorem digestCtxOk_ctxNew (src : CompressSource) (alg : AlgId) : digestCtxOk (ctxNew src alg) = true :=
  digestCtxOk_iff.2 ⟨chainFits_initialState src alg, blockLen_pos alg⟩

/-- Feeding bytes keeps a Context well formed. -/
theorem digestCtxOk_ctxUpdate (src : CompressSource) (c : DigestCtx) (d : List Byte) (h : digestCtxOk c = true) :
    digestCtxOk (ctxUpdate src c d) = true := by
  obtain ⟨hf, hp⟩ := digestCtxOk_iff.1 h
  refine digestCtxOk_iff.2 ⟨?_, ?_⟩
  · rw [ctxUpdate_alg]
    by_cases hs : d.length < blockLen c.block.alg - c.pending.length
    · rw [ctxUpdate_short src c d hs]; exact hf
    · rw [ctxUpdate_long src c d hs]
      have ha := ctxTopUp_alg src c d
      have ht : chainFits c.block.alg (ctxTopUp src c d).1.h = true := by
        unfold ctxTopUp; split
        · exact chainFits_blockUpdate src _ _ hf
        · exact hf
      rw [← ha] at ht ⊢
      exact chainFits_blockUpdate src _ _ ht
  · rw [ctxUpdate_alg]
    by_cases hs : d.length < blockLen c.block.alg - c.pending.length
    · rw [ctxUpdate_short src c d hs]; simp only [List.length_append]; omega
    · rw [ctxUpdate_long src c d hs]
      simp only [List.length_drop]
      have hb := blockLen_pos c.block.alg
      have := Nat.mod_lt (ctxTopUp src c d).2.length hb
      have hm := Nat.div_add_mod' (ctxTopUp src c d).2.length (blockLen c.block.alg)
      omega

/-- A finish gives `output_len` bytes. -/
theorem blockFinish_length (src : CompressSource) (bc : BlockCtx) (p : List Byte) (hf : chainFits bc.alg bc.h = true) :
    (blockFinish src bc p).value.length = outputLen bc.alg := by
  have h := chainFits_foldl src bc.alg (paddingBlocks bc.alg p (finishBits bc p.length)) bc.h hf
  have hl := formatChain_length h
  have ho := outputLen_le_chainingLen bc.alg
  simp only [blockFinish, List.length_take, hl]
  omega

theorem ctxFinish_length (src : CompressSource) (c : DigestCtx) (h : digestCtxOk c = true) :
    (ctxFinish src c).value.length = outputLen c.block.alg := blockFinish_length src _ _ (digestCtxOk_iff.1 h).1

theorem digest_length (src : CompressSource) (alg : AlgId) (d : List Byte) : (digest src alg d).value.length = outputLen alg := by
  have := ctxFinish_length src _ (digestCtxOk_ctxUpdate src _ d (digestCtxOk_ctxNew src alg))
  simpa [digest] using this

/-! ## HMAC and nonce objects -/

theorem hmacPaddedKey_length (src : CompressSource) (alg : AlgId) (k : List Byte) :
    (hmacPaddedKey src alg k).length = blockLen alg := by
  have ho := outputLen_lt_blockLen alg
  unfold hmacPaddedKey
  split
  · rename_i h; simp only [List.length_append, zeros_length]; omega
  · simp only [List.length_append, zeros_length, digest_length]; omega

/-- One whole block fed to a fresh BlockCtx. -/
theorem padBlockOk_blockUpdate (src : CompressSource) (alg : AlgId) (d : List Byte) (h : d.length = blockLen alg) :
    padBlockOk alg (blockUpdate src (blockNew src alg) d) = true := by
  have hf := chainFits_blockUpdate src (blockNew src alg) d (chainFits_initialState src alg)
  have hb := blockLen_pos alg
  have hn : (blockUpdate src (blockNew src alg) d).nblocks = 1#64 := by
    simp [blockUpdate, blockNew, h, Nat.div_self hb]
  simp [padBlockOk, hn]
  exact hf

theorem objOk_hmacKeyNew (cfg : Config) (src : CompressSource) (alg : AlgId) (k : List Byte) :
    objOk cfg (.hmacKey (hmacKeyNew src alg k)) = true := by
  have h := hmacPaddedKey_length src alg k
  have h1 : padBlockOk alg (hmacKeyNew src alg k).inner = true :=
    padBlockOk_blockUpdate src alg _ (by simp [h])
  have h2 : padBlockOk alg (hmacKeyNew src alg k).outer = true :=
    padBlockOk_blockUpdate src alg _ (by simp [h])
  simp only [objOk, Bool.and_eq_true]
  exact ⟨h1, h2⟩

theorem padBlockOk_iff {alg : AlgId} {b : BlockCtx} :
    padBlockOk alg b = true ↔ b.alg = alg ∧ chainFits alg b.h = true ∧ b.nblocks = 1#64 := by
  simp [padBlockOk, and_assoc]

theorem objOk_hmacCtxNew (cfg : Config) (k : HmacKey) (h : objOk cfg (.hmacKey k) = true) :
    objOk cfg (.hmacCtx (hmacCtxNew k)) = true := by
  simp only [objOk, Bool.and_eq_true] at h ⊢
  obtain ⟨-, hf, -⟩ := padBlockOk_iff.1 h.1
  refine ⟨⟨by simp [hmacCtxNew], digestCtxOk_iff.2 ⟨hf, ?_⟩⟩, h.2⟩
  simpa [hmacCtxNew] using blockLen_pos k.alg

theorem objOk_hmacCtxUpdate (cfg : Config) (src : CompressSource) (c : HmacCtx) (d : List Byte)
    (h : objOk cfg (.hmacCtx c) = true) : objOk cfg (.hmacCtx (hmacCtxUpdate src c d)) = true := by
  simp only [objOk, Bool.and_eq_true, beq_iff_eq] at h ⊢
  obtain ⟨⟨h1, h2⟩, h3⟩ := h
  exact ⟨⟨by simpa [hmacCtxUpdate] using h1, digestCtxOk_ctxUpdate src _ d h2⟩, h3⟩

theorem hmacSign_alg (src : CompressSource) (c : HmacCtx) : (hmacSign src c).alg = c.outer.alg := rfl

theorem objOk_hmacSign (cfg : Config) (src : CompressSource) (c : HmacCtx) (h : objOk cfg (.hmacCtx c) = true) :
    objOk cfg (.digestVal (hmacSign src c)) = true := by
  simp only [objOk, Bool.and_eq_true, beq_iff_eq] at h ⊢
  obtain ⟨ha, hf, -⟩ := padBlockOk_iff.1 h.2
  have hf' : chainFits c.outer.alg c.outer.h = true := by rw [ha]; exact hf
  exact blockFinish_length src c.outer _ hf'

theorem nonceKeyNew_length (src : CompressSource) (alg : AlgId) (seed rand : List Byte) :
    (nonceKeyNew src alg seed rand).value.length = outputLen alg := by
  have := ctxFinish_length src _ (digestCtxOk_ctxUpdate src _ seed
    (digestCtxOk_ctxUpdate src _ rand (digestCtxOk_ctxNew src alg)))
  simpa [nonceKeyNew] using this

theorem nonceFill_length (src : CompressSource) (k : NonceKey) (md rand : List Byte) :
    (nonceFill src k md rand).length = outputLen k.alg := by
  have := ctxFinish_length src _ (digestCtxOk_ctxUpdate src _ md (digestCtxOk_ctxUpdate src _ rand
    (digestCtxOk_ctxUpdate src _ k.value (digestCtxOk_ctxNew src k.alg))))
  simpa [nonceFill] using this

/-! ## Cutting the data of a multi-block compression -/

/-- `j + k` blocks are `j` blocks and then `k` blocks. -/
theorem compressBlocks_add (src : CompressSource) (alg : AlgId) (j k : Nat) (h : Chain) (data : List Byte) :
    compressBlocks src alg (j + k) h data =
      compressBlocks src alg k (compressBlocks src alg j h data) (data.drop (j * blockLen alg)) := by
  induction j generalizing h data with
  | zero => simp [compressBlocks]
  | succ j ih =>
    rw [Nat.succ_add, compressBlocks, ih, compressBlocks, List.drop_drop, Nat.succ_mul, Nat.add_comm (j * _)]

/-- Only the first `k` blocks of the data matter. -/
theorem compressBlocks_append (src : CompressSource) (alg : AlgId) (k : Nat) (h : Chain) (xs ys : List Byte)
    (hl : k * blockLen alg ≤ xs.length) : compressBlocks src alg k h (xs ++ ys) = compressBlocks src alg k h xs := by
  induction k generalizing h xs with
  | zero => rfl
  | succ k ih =>
    rw [Nat.succ_mul] at hl
    rw [compressBlocks, compressBlocks, List.take_append_of_le_length (by omega), List.drop_append_of_le_length (by omega)]
    exact ih _ _ (by rw [List.length_drop]; omega)

/-- Only the first `k` blocks of the data matter, stated with `take`. -/
theorem compressBlocks_take (src : CompressSource) (alg : AlgId) (k n : Nat) (h : Chain) (xs : List Byte)
    (hn : k * blockLen alg ≤ n) (hl : n ≤ xs.length) :
    compressBlocks src alg k h (xs.take n) = compressBlocks src alg k h xs := by
  conv_rhs => rw [← List.take_append_drop n xs]
  exact (compressBlocks_append src alg k h _ _ (by rw [List.length_take]; omega)).symm

end Sys2Proof.Machine
end

