-- ==== Sys2Proof/Laws/Memory.lean ====
section
/-! SUPPORT. The laws of `MEM`: read after write, the canonical form, and the bounds of addresses. -/

namespace Sys2Proof.Machine

/-- No address below all listed ones is listed. -/
theorem memRead_of_lt_all {m : Memory} {a : Nat} (h : ∀ c ∈ m, a < c.1) : memRead m a = unlistedByte := by
  induction m with
  | nil => rfl
  | cons c rest ih =>
    obtain ⟨k, b⟩ := c
    have hk : a < k := h (k, b) (by simp)
    have hne : ¬ k = a := by omega
    simp only [memRead, hne, if_false]
    exact ih fun c hc => h c (by simp [hc])

/-- The cells of a written memory are old cells or the written one. -/
theorem mem_memWrite {m : Memory} {a : Nat} {v : Byte} {c : Host.Cell} (h : c ∈ memWrite m a v) :
    c ∈ m ∨ (c = (a, v) ∧ v ≠ unlistedByte) := by
  induction m with
  | nil =>
    simp only [memWrite] at h
    split at h
    · simp at h
    · rename_i hv; exact .inr ⟨by simpa using h, hv⟩
  | cons x rest ih =>
    obtain ⟨k, b⟩ := x
    simp only [memWrite] at h
    split at h
    · split at h
      · exact .inl h
      · rename_i hv
        rcases List.mem_cons.1 h with h | h
        · exact .inr ⟨h, hv⟩
        · exact .inl h
    · split at h
      · split at h
        · exact .inl (by simp [h])
        · rename_i hv
          rcases List.mem_cons.1 h with h | h
          · exact .inr ⟨h, hv⟩
          · exact .inl (by simp [h])
      · rcases List.mem_cons.1 h with h | h
        · exact .inl (by simp [h])
        · rcases ih h with h | h
          · exact .inl (by simp [h])
          · exact .inr h

/-- A write keeps the canonical form. -/
theorem memWrite_wf {m : Memory} (h : Memory.wf m) (a : Nat) (v : Byte) : Memory.wf (memWrite m a v) := by
  refine ⟨?_, ?_⟩
  · obtain ⟨hp, -⟩ := h
    induction m with
    | nil => simp only [memWrite]; split <;> simp
    | cons x rest ih =>
      obtain ⟨k, b⟩ := x
      have hr := (List.pairwise_cons.1 hp).1
      have hp' := (List.pairwise_cons.1 hp).2
      simp only [memWrite]
      split
      · rename_i hlt
        split
        · exact hp
        · refine List.pairwise_cons.2 ⟨fun c hc => ?_, hp⟩
          rcases List.mem_cons.1 hc with hc | hc
          · subst hc; exact hlt
          · exact lt_trans hlt (hr c hc)
      · split
        · rename_i heq
          split
          · exact hp'
          · exact List.pairwise_cons.2 ⟨fun c hc => by have := hr c hc; simp only [heq]; exact this, hp'⟩
        · rename_i h1 h2
          refine List.pairwise_cons.2 ⟨fun c hc => ?_, ih hp'⟩
          rcases mem_memWrite hc with hc | ⟨hc, -⟩
          · exact hr c hc
          · subst hc; simp only; omega
  · intro c hc
    rcases mem_memWrite hc with hc | ⟨hc, hv⟩
    · exact h.2 c hc
    · subst hc; exact hv

/-- Reading a byte after a write of one byte. -/
theorem memRead_memWrite {m : Memory} (h : Memory.wf m) (a : Nat) (v : Byte) (x : Nat) :
    memRead (memWrite m a v) x = if x = a then v else memRead m x := by
  obtain ⟨hp, -⟩ := h
  induction m with
  | nil =>
    simp only [memWrite]
    split
    · rename_i hv; simp only [memRead, hv]; split <;> rfl
    · simp only [memRead]; split <;> split <;> simp_all
  | cons c rest ih =>
    obtain ⟨k, b⟩ := c
    have hr := (List.pairwise_cons.1 hp).1
    have hp' := (List.pairwise_cons.1 hp).2
    simp only [memWrite]
    split
    · rename_i hlt
      split
      · rename_i hv
        by_cases hx : x = a
        · subst hx
          rw [if_pos rfl, hv]
          exact memRead_of_lt_all fun c hc => by
            rcases List.mem_cons.1 hc with hc | hc
            · subst hc; exact hlt
            · exact lt_trans hlt (hr c hc)
        · rw [if_neg hx]
      · by_cases hx : x = a
        · subst hx; simp [memRead]
        · have : ¬ a = x := fun e => hx e.symm
          rw [if_neg hx]; simp only [memRead, this, if_false]
    · split
      · rename_i heq
        subst heq
        split
        · rename_i hv
          by_cases hx : x = a
          · subst hx
            rw [if_pos rfl, hv]
            exact memRead_of_lt_all fun c hc => hr c hc
          · have : ¬ a = x := fun e => hx e.symm
            rw [if_neg hx]; simp only [memRead, this, if_false]
        · by_cases hx : x = a
          · subst hx; simp [memRead]
          · have : ¬ a = x := fun e => hx e.symm
            rw [if_neg hx]; simp only [memRead, this, if_false]
      · rename_i h1 h2
        simp only [memRead]
        by_cases hk : k = x
        · have : ¬ x = a := by omega
          simp [hk, this]
        · simp only [hk, if_false]; exact ih hp'

/-- A write leaves every other address alone, in whatever form the memory is. -/
theorem memRead_memWrite_ne {m : Memory} {a x : Nat} (v : Byte) (h : x ≠ a) : memRead (memWrite m a v) x = memRead m x := by
  induction m with
  | nil => unfold memWrite; split <;> simp [memRead, Ne.symm h]
  | cons c cs ih =>
    obtain ⟨k, b⟩ := c
    unfold memWrite
    split
    · split
      · rfl
      · simp [memRead, Ne.symm h]
    · split
      · subst a
        split <;> simp [memRead, Ne.symm h]
      · simp only [memRead, ih]

/-- A byte string stored leaves every address outside it alone, in whatever form the memory is. -/
theorem memRead_memWriteBytes_outside {m : Memory} {a x : Nat} {bs : List Byte} (h : ¬ (a ≤ x ∧ x < a + bs.length)) :
    memRead (memWriteBytes m a bs) x = memRead m x := by
  induction bs generalizing m a with
  | nil => rfl
  | cons b bs ih =>
    simp only [List.length_cons] at h
    rw [memWriteBytes, ih (by omega), memRead_memWrite_ne _ (by omega)]

/-- A write of a byte string keeps the canonical form. -/
theorem memWriteBytes_wf {m : Memory} (h : Memory.wf m) (a : Nat) (bs : List Byte) : Memory.wf (memWriteBytes m a bs) := by
  induction bs generalizing m a with
  | nil => exact h
  | cons b bs ih => exact ih (memWrite_wf h a b) (a + 1)

/-- Reading a byte after a write of a byte string. -/
theorem memRead_memWriteBytes {m : Memory} (h : Memory.wf m) (a : Nat) (bs : List Byte) (x : Nat) :
    memRead (memWriteBytes m a bs) x =
      if a ≤ x ∧ x < a + bs.length then bs.getD (x - a) unlistedByte else memRead m x := by
  induction bs generalizing m a with
  | nil =>
    have : ¬ (a ≤ x ∧ x < a + 0) := by omega
    simp only [memWriteBytes, List.length_nil, this, if_false]
  | cons b bs ih =>
    simp only [memWriteBytes, ih (memWrite_wf h a b), memRead_memWrite h, List.length_cons]
    by_cases hx : x = a
    · subst hx
      have h1 : ¬ (x + 1 ≤ x ∧ x < x + 1 + bs.length) := by omega
      have h2 : x ≤ x ∧ x < x + (bs.length + 1) := by omega
      rw [if_neg h1, if_pos rfl, if_pos h2]; simp
    · by_cases h1 : a + 1 ≤ x ∧ x < a + 1 + bs.length
      · have h2 : a ≤ x ∧ x < a + (bs.length + 1) := by omega
        rw [if_pos h1, if_pos h2]
        obtain ⟨d, hd⟩ : ∃ d, x - a = d + 1 := ⟨x - a - 1, by omega⟩
        have : x - (a + 1) = d := by omega
        rw [this, hd, List.getD_cons_succ]
      · have h2 : ¬ (a ≤ x ∧ x < a + (bs.length + 1)) := by omega
        rw [if_neg h1, if_neg h2, if_neg hx]

/-- The addresses of a written memory. -/
theorem memWriteBytes_bound {m : Memory} {n : Nat} (h : ∀ c ∈ m, c.1 < n) (a : Nat) (bs : List Byte)
    (hb : a + bs.length ≤ n) : ∀ c ∈ memWriteBytes m a bs, c.1 < n := by
  induction bs generalizing m a with
  | nil => exact h
  | cons b bs ih =>
    simp only [List.length_cons] at hb
    refine ih (fun c hc => ?_) (a + 1) (by omega)
    rcases mem_memWrite hc with hc | ⟨hc, -⟩
    · exact h c hc
    · subst hc; simp only; omega

@[simp] theorem memReadBytes_length (m : Memory) (a n : Nat) : (memReadBytes m a n).length = n := by
  simp [memReadBytes]

/-- The bytes just written read back. -/
theorem memReadBytes_memWriteBytes {m : Memory} (h : Memory.wf m) (a : Nat) (bs : List Byte) :
    memReadBytes (memWriteBytes m a bs) a bs.length = bs := by
  apply List.ext_getElem
  · simp
  · intro i h1 h2
    simp only [memReadBytes, List.getElem_map, List.getElem_range, memRead_memWriteBytes h]
    have : a ≤ a + i ∧ a + i < a + bs.length := by omega
    rw [if_pos this, List.getD_eq_getElem _ _ (by omega)]
    simp

/-- Bytes outside the written range read as before. -/
theorem memReadBytes_congr {m m' : Memory} {a n : Nat} (h : ∀ x, a ≤ x → x < a + n → memRead m' x = memRead m x) :
    memReadBytes m' a n = memReadBytes m a n := by
  simp only [memReadBytes]
  refine List.map_congr_left fun i hi => h _ (by omega) ?_
  have := List.mem_range.1 hi
  omega

/-- A memory built from cells is canonical and lies inside `MEM`. -/
theorem memOfCells_ok (n : Nat) (cells : List Host.Cell) :
    Memory.wf (memOfCells n cells) ∧ ∀ c ∈ memOfCells n cells, c.1 < n := by
  suffices h : ∀ (cs : List Host.Cell) (m : Memory), Memory.wf m → (∀ c ∈ m, c.1 < n) →
      Memory.wf (cs.foldl (fun m c => if c.1 < n then memWrite m c.1 c.2 else m) m) ∧
      ∀ c ∈ cs.foldl (fun m c => if c.1 < n then memWrite m c.1 c.2 else m) m, c.1 < n from
    h cells [] ⟨List.Pairwise.nil, by simp⟩ (by simp)
  intro cs
  induction cs with
  | nil => exact fun m h1 h2 => ⟨h1, h2⟩
  | cons c cs ih =>
    intro m h1 h2
    simp only [List.foldl_cons]
    by_cases hc : c.1 < n
    · rw [if_pos hc]
      refine ih _ (memWrite_wf h1 _ _) fun x hx => ?_
      rcases mem_memWrite hx with hx | ⟨hx, -⟩
      · exact h2 x hx
      · subst hx; exact hc
    · rw [if_neg hc]; exact ih _ h1 h2

/-- Two canonical memories that read alike are equal. -/
theorem Memory.ext_of_wf {m m' : Memory} (h : Memory.wf m) (h' : Memory.wf m') (he : ∀ a, memRead m a = memRead m' a) :
    m = m' := by
  induction m generalizing m' with
  | nil =>
    cases m' with
    | nil => rfl
    | cons c rest =>
      obtain ⟨k, b⟩ := c
      have := he k
      simp only [memRead, if_true] at this
      exact absurd this.symm (h'.2 (k, b) (by simp))
  | cons c rest ih =>
    obtain ⟨k, b⟩ := c
    have hb : b ≠ unlistedByte := h.2 (k, b) (by simp)
    have hr := (List.pairwise_cons.1 h.1).1
    cases m' with
    | nil =>
      have := he k
      simp only [memRead, if_true] at this
      exact absurd this hb
    | cons c' rest' =>
      obtain ⟨k', b'⟩ := c'
      have hb' : b' ≠ unlistedByte := h'.2 (k', b') (by simp)
      have hr' := (List.pairwise_cons.1 h'.1).1
      have hk : k = k' := by
        by_contra hne
        rcases Nat.lt_or_gt_of_ne hne with hlt | hlt
        · have h1 := he k
          have h2 : memRead ((k', b') :: rest') k = unlistedByte := memRead_of_lt_all fun c hc => by
            rcases List.mem_cons.1 hc with hc | hc
            · subst hc; exact hlt
            · exact lt_trans hlt (hr' c hc)
          rw [h2] at h1
          simp only [memRead, if_true] at h1
          exact hb h1
        · have h1 := he k'
          have h2 : memRead ((k, b) :: rest) k' = unlistedByte := memRead_of_lt_all fun c hc => by
            rcases List.mem_cons.1 hc with hc | hc
            · subst hc; exact hlt
            · exact lt_trans hlt (hr c hc)
          rw [h2] at h1
          simp only [memRead, if_true] at h1
          exact hb' h1.symm
      subst hk
      have hbb : b = b' := by have := he k; simpa only [memRead, if_true] using this
      subst hbb
      have : rest = rest' := by
        refine ih ⟨(List.pairwise_cons.1 h.1).2, fun c hc => h.2 c (by simp [hc])⟩
          ⟨(List.pairwise_cons.1 h'.1).2, fun c hc => h'.2 c (by simp [hc])⟩ fun a => ?_
        by_cases ha : k = a
        · subst ha
          rw [memRead_of_lt_all fun c hc => hr c hc, memRead_of_lt_all fun c hc => hr' c hc]
        · have := he a
          simpa only [memRead, ha, if_false] using this
      rw [this]

end Sys2Proof.Machine
end

