-- ==== Sys2Proof/Laws/State.lean ====
section
/-! SUPPORT. One lemma per field per update of the state, so that no later proof unfolds a record update. -/

namespace Sys2Proof.Machine

/-! ## Writing a slot -/

@[simp] theorem State.setSlot_slots (s : State) (r : Slot) (o : Obj) : (s.setSlot r o).slots = s.slots.set r.val o r.isLt := rfl
@[simp] theorem State.setSlot_mem (s : State) (r : Slot) (o : Obj) : (s.setSlot r o).mem = s.mem := rfl
@[simp] theorem State.setSlot_res (s : State) (r : Slot) (o : Obj) : (s.setSlot r o).res = s.res := rfl
@[simp] theorem State.setSlot_err (s : State) (r : Slot) (o : Obj) : (s.setSlot r o).err = s.err := rfl
@[simp] theorem State.setSlot_fault (s : State) (r : Slot) (o : Obj) : (s.setSlot r o).fault = s.fault := rfl
@[simp] theorem State.setSlot_faultCmd (s : State) (r : Slot) (o : Obj) : (s.setSlot r o).faultCmd = s.faultCmd := rfl
@[simp] theorem State.setSlot_faultSeq (s : State) (r : Slot) (o : Obj) : (s.setSlot r o).faultSeq = s.faultSeq := rfl
@[simp] theorem State.setSlot_cmdSeq (s : State) (r : Slot) (o : Obj) : (s.setSlot r o).cmdSeq = s.cmdSeq := rfl
@[simp] theorem State.setSlot_cmdBuf (s : State) (r : Slot) (o : Obj) : (s.setSlot r o).cmdBuf = s.cmdBuf := rfl
@[simp] theorem State.setSlot_cfg (s : State) (r : Slot) (o : Obj) : (s.setSlot r o).cfg = s.cfg := rfl
@[simp] theorem State.setSlot_rngScript (s : State) (r : Slot) (o : Obj) : (s.setSlot r o).rngScript = s.rngScript := rfl
@[simp] theorem State.setSlot_rngDraws (s : State) (r : Slot) (o : Obj) : (s.setSlot r o).rngDraws = s.rngDraws := rfl
@[simp] theorem State.setSlot_inbox (s : State) (r : Slot) (o : Obj) : (s.setSlot r o).inbox = s.inbox := rfl
@[simp] theorem State.setSlot_answers (s : State) (r : Slot) (o : Obj) : (s.setSlot r o).answers = s.answers := rfl
@[simp] theorem State.setSlot_limbBits (s : State) (r : Slot) (o : Obj) : (s.setSlot r o).limbBits = s.limbBits := rfl
@[simp] theorem State.setSlot_limbBytes (s : State) (r : Slot) (o : Obj) : (s.setSlot r o).limbBytes = s.limbBytes := rfl

/-! ## Writing RES -/

@[simp] theorem State.setRes_slots (s : State) (v : BitVec 64) : (s.setRes v).slots = s.slots := rfl
@[simp] theorem State.setRes_mem (s : State) (v : BitVec 64) : (s.setRes v).mem = s.mem := rfl
@[simp] theorem State.setRes_res (s : State) (v : BitVec 64) : (s.setRes v).res = v := rfl
@[simp] theorem State.setRes_err (s : State) (v : BitVec 64) : (s.setRes v).err = s.err := rfl
@[simp] theorem State.setRes_fault (s : State) (v : BitVec 64) : (s.setRes v).fault = s.fault := rfl
@[simp] theorem State.setRes_faultCmd (s : State) (v : BitVec 64) : (s.setRes v).faultCmd = s.faultCmd := rfl
@[simp] theorem State.setRes_faultSeq (s : State) (v : BitVec 64) : (s.setRes v).faultSeq = s.faultSeq := rfl
@[simp] theorem State.setRes_cmdSeq (s : State) (v : BitVec 64) : (s.setRes v).cmdSeq = s.cmdSeq := rfl
@[simp] theorem State.setRes_cmdBuf (s : State) (v : BitVec 64) : (s.setRes v).cmdBuf = s.cmdBuf := rfl
@[simp] theorem State.setRes_cfg (s : State) (v : BitVec 64) : (s.setRes v).cfg = s.cfg := rfl
@[simp] theorem State.setRes_rngScript (s : State) (v : BitVec 64) : (s.setRes v).rngScript = s.rngScript := rfl
@[simp] theorem State.setRes_rngDraws (s : State) (v : BitVec 64) : (s.setRes v).rngDraws = s.rngDraws := rfl
@[simp] theorem State.setRes_inbox (s : State) (v : BitVec 64) : (s.setRes v).inbox = s.inbox := rfl
@[simp] theorem State.setRes_answers (s : State) (v : BitVec 64) : (s.setRes v).answers = s.answers := rfl
@[simp] theorem State.setRes_slot (s : State) (v : BitVec 64) (q : Slot) : (s.setRes v).slot q = s.slot q := rfl
@[simp] theorem State.setRes_limbBits (s : State) (v : BitVec 64) : (s.setRes v).limbBits = s.limbBits := rfl
@[simp] theorem State.setRes_limbBytes (s : State) (v : BitVec 64) : (s.setRes v).limbBytes = s.limbBytes := rfl

/-! ## Writing MEM -/

@[simp] theorem State.store_slots (s : State) (a : Nat) (bs : List Byte) : (s.store a bs).slots = s.slots := rfl
@[simp] theorem State.store_mem (s : State) (a : Nat) (bs : List Byte) : (s.store a bs).mem = memWriteBytes s.mem a bs := rfl
@[simp] theorem State.store_res (s : State) (a : Nat) (bs : List Byte) : (s.store a bs).res = s.res := rfl
@[simp] theorem State.store_err (s : State) (a : Nat) (bs : List Byte) : (s.store a bs).err = s.err := rfl
@[simp] theorem State.store_fault (s : State) (a : Nat) (bs : List Byte) : (s.store a bs).fault = s.fault := rfl
@[simp] theorem State.store_faultCmd (s : State) (a : Nat) (bs : List Byte) : (s.store a bs).faultCmd = s.faultCmd := rfl
@[simp] theorem State.store_faultSeq (s : State) (a : Nat) (bs : List Byte) : (s.store a bs).faultSeq = s.faultSeq := rfl
@[simp] theorem State.store_cmdSeq (s : State) (a : Nat) (bs : List Byte) : (s.store a bs).cmdSeq = s.cmdSeq := rfl
@[simp] theorem State.store_cmdBuf (s : State) (a : Nat) (bs : List Byte) : (s.store a bs).cmdBuf = s.cmdBuf := rfl
@[simp] theorem State.store_cfg (s : State) (a : Nat) (bs : List Byte) : (s.store a bs).cfg = s.cfg := rfl
@[simp] theorem State.store_rngScript (s : State) (a : Nat) (bs : List Byte) : (s.store a bs).rngScript = s.rngScript := rfl
@[simp] theorem State.store_rngDraws (s : State) (a : Nat) (bs : List Byte) : (s.store a bs).rngDraws = s.rngDraws := rfl
@[simp] theorem State.store_inbox (s : State) (a : Nat) (bs : List Byte) : (s.store a bs).inbox = s.inbox := rfl
@[simp] theorem State.store_answers (s : State) (a : Nat) (bs : List Byte) : (s.store a bs).answers = s.answers := rfl
@[simp] theorem State.store_slot (s : State) (a : Nat) (bs : List Byte) (q : Slot) : (s.store a bs).slot q = s.slot q := rfl
@[simp] theorem State.store_limbBits (s : State) (a : Nat) (bs : List Byte) : (s.store a bs).limbBits = s.limbBits := rfl
@[simp] theorem State.store_limbBytes (s : State) (a : Nat) (bs : List Byte) : (s.store a bs).limbBytes = s.limbBytes := rfl

/-! ## Completing a command -/

@[simp] theorem State.complete_slots (s : State) (c : ErrCode) : (s.complete c).slots = s.slots := rfl
@[simp] theorem State.complete_mem (s : State) (c : ErrCode) : (s.complete c).mem = s.mem := rfl
@[simp] theorem State.complete_res (s : State) (c : ErrCode) : (s.complete c).res = s.res := rfl
@[simp] theorem State.complete_err (s : State) (c : ErrCode) : (s.complete c).err = errByte c := rfl
@[simp] theorem State.complete_fault (s : State) (c : ErrCode) : (s.complete c).fault = s.fault := rfl
@[simp] theorem State.complete_faultCmd (s : State) (c : ErrCode) : (s.complete c).faultCmd = s.faultCmd := rfl
@[simp] theorem State.complete_faultSeq (s : State) (c : ErrCode) : (s.complete c).faultSeq = s.faultSeq := rfl
@[simp] theorem State.complete_cmdSeq (s : State) (c : ErrCode) : (s.complete c).cmdSeq = s.cmdSeq + 1#32 := rfl
@[simp] theorem State.complete_cmdBuf (s : State) (c : ErrCode) : (s.complete c).cmdBuf = s.cmdBuf := rfl
@[simp] theorem State.complete_cfg (s : State) (c : ErrCode) : (s.complete c).cfg = s.cfg := rfl
@[simp] theorem State.complete_rngScript (s : State) (c : ErrCode) : (s.complete c).rngScript = s.rngScript := rfl
@[simp] theorem State.complete_rngDraws (s : State) (c : ErrCode) : (s.complete c).rngDraws = s.rngDraws := rfl
@[simp] theorem State.complete_inbox (s : State) (c : ErrCode) : (s.complete c).inbox = s.inbox := rfl
@[simp] theorem State.complete_answers (s : State) (c : ErrCode) : (s.complete c).answers = s.answers := rfl
@[simp] theorem State.complete_slot (s : State) (c : ErrCode) (q : Slot) : (s.complete c).slot q = s.slot q := rfl
@[simp] theorem State.complete_limbBits (s : State) (c : ErrCode) : (s.complete c).limbBits = s.limbBits := rfl
@[simp] theorem State.complete_limbBytes (s : State) (c : ErrCode) : (s.complete c).limbBytes = s.limbBytes := rfl

/-! ## Taking a fault -/

@[simp] theorem raiseFault_slots (s : State) (c : FaultCode) (h : Word) : (raiseFault c h s).slots = s.slots := rfl
@[simp] theorem raiseFault_mem (s : State) (c : FaultCode) (h : Word) : (raiseFault c h s).mem = s.mem := rfl
@[simp] theorem raiseFault_res (s : State) (c : FaultCode) (h : Word) : (raiseFault c h s).res = s.res := rfl
@[simp] theorem raiseFault_err (s : State) (c : FaultCode) (h : Word) : (raiseFault c h s).err = s.err := rfl
@[simp] theorem raiseFault_fault (s : State) (c : FaultCode) (h : Word) : (raiseFault c h s).fault = faultByte c := rfl
@[simp] theorem raiseFault_faultCmd (s : State) (c : FaultCode) (h : Word) : (raiseFault c h s).faultCmd = h := rfl
@[simp] theorem raiseFault_faultSeq (s : State) (c : FaultCode) (h : Word) : (raiseFault c h s).faultSeq = s.cmdSeq := rfl
@[simp] theorem raiseFault_cmdSeq (s : State) (c : FaultCode) (h : Word) : (raiseFault c h s).cmdSeq = s.cmdSeq := rfl
@[simp] theorem raiseFault_cmdBuf (s : State) (c : FaultCode) (h : Word) : (raiseFault c h s).cmdBuf = [] := rfl
@[simp] theorem raiseFault_cfg (s : State) (c : FaultCode) (h : Word) : (raiseFault c h s).cfg = s.cfg := rfl
@[simp] theorem raiseFault_rngScript (s : State) (c : FaultCode) (h : Word) : (raiseFault c h s).rngScript = s.rngScript := rfl
@[simp] theorem raiseFault_rngDraws (s : State) (c : FaultCode) (h : Word) : (raiseFault c h s).rngDraws = s.rngDraws := rfl
@[simp] theorem raiseFault_inbox (s : State) (c : FaultCode) (h : Word) : (raiseFault c h s).inbox = s.inbox := rfl
@[simp] theorem raiseFault_answers (s : State) (c : FaultCode) (h : Word) : (raiseFault c h s).answers = s.answers := rfl
@[simp] theorem raiseFault_slot (s : State) (c : FaultCode) (h : Word) (q : Slot) : (raiseFault c h s).slot q = s.slot q := rfl
@[simp] theorem raiseFault_limbBits (s : State) (c : FaultCode) (h : Word) : (raiseFault c h s).limbBits = s.limbBits := rfl
@[simp] theorem raiseFault_limbBytes (s : State) (c : FaultCode) (h : Word) : (raiseFault c h s).limbBytes = s.limbBytes := rfl

/-- Reading back the slot just written. -/
@[simp] theorem State.slot_setSlot_same (s : State) (r : Slot) (o : Obj) : (s.setSlot r o).slot r = o := by
  simp [State.slot, State.setSlot]

/-- A slot write leaves the other slots alone. -/
theorem State.slot_setSlot_other (s : State) (r q : Slot) (o : Obj) (h : q ≠ r) : (s.setSlot r o).slot q = s.slot q := by
  have h' : r.val ≠ q.val := fun e => h (Fin.ext e.symm)
  simp [State.slot, State.setSlot, h']

/-- Any slot after a slot write. -/
theorem State.slot_setSlot (s : State) (r q : Slot) (o : Obj) :
    (s.setSlot r o).slot q = if q = r then o else s.slot q := by
  by_cases h : q = r
  · subst h; simp
  · simp [State.slot_setSlot_other s r q o h, h]

/-- Every slot is empty after reset. -/
@[simp] theorem State.reset_slot (r : Slot) : State.reset.slot r = .empty := by
  simp [State.slot, State.reset]

/-! ## Asserting reset -/

@[simp] theorem State.assertReset_slots (s : State) (m : List Host.Cell) : (s.assertReset m).slots = Vector.replicate 16 .empty := rfl
@[simp] theorem State.assertReset_mem (s : State) (m : List Host.Cell) : (s.assertReset m).mem = memOfCells s.cfg.memSize m := rfl
@[simp] theorem State.assertReset_res (s : State) (m : List Host.Cell) : (s.assertReset m).res = 0#64 := rfl
@[simp] theorem State.assertReset_err (s : State) (m : List Host.Cell) : (s.assertReset m).err = 0#8 := rfl
@[simp] theorem State.assertReset_fault (s : State) (m : List Host.Cell) : (s.assertReset m).fault = 0#8 := rfl
@[simp] theorem State.assertReset_faultCmd (s : State) (m : List Host.Cell) : (s.assertReset m).faultCmd = 0#32 := rfl
@[simp] theorem State.assertReset_faultSeq (s : State) (m : List Host.Cell) : (s.assertReset m).faultSeq = 0#32 := rfl
@[simp] theorem State.assertReset_cmdSeq (s : State) (m : List Host.Cell) : (s.assertReset m).cmdSeq = 0#32 := rfl
@[simp] theorem State.assertReset_cmdBuf (s : State) (m : List Host.Cell) : (s.assertReset m).cmdBuf = [] := rfl
@[simp] theorem State.assertReset_cfg (s : State) (m : List Host.Cell) : (s.assertReset m).cfg = s.cfg := rfl
@[simp] theorem State.assertReset_rngScript (s : State) (m : List Host.Cell) : (s.assertReset m).rngScript = s.rngScript := rfl
@[simp] theorem State.assertReset_rngDraws (s : State) (m : List Host.Cell) : (s.assertReset m).rngDraws = s.rngDraws := rfl
@[simp] theorem State.assertReset_inbox (s : State) (m : List Host.Cell) : (s.assertReset m).inbox = s.inbox := rfl
@[simp] theorem State.assertReset_answers (s : State) (m : List Host.Cell) : (s.assertReset m).answers = s.answers := rfl
@[simp] theorem State.assertReset_slot (s : State) (m : List Host.Cell) (r : Slot) : (s.assertReset m).slot r = .empty := by
  simp [State.slot]

end Sys2Proof.Machine
end

