-- ==== Sys2Proof/Laws/Ops.lean ====
section
/-! SUPPORT. What each shared operation over the state can do: source slots, ranges, the ends of a command, the random source. -/

namespace Sys2Proof.Machine

/-! ## Source slots -/

theorem State.digestCtxIn_eq_some {s : State} {r : Slot} {x : DigestCtx} : s.digestCtxIn r = some x ↔ s.slot r = .digestCtx x := by
  unfold State.digestCtxIn; cases s.slot r <;> simp

theorem State.digestCtxIn_eq_none {s : State} {r : Slot} : s.digestCtxIn r = none ↔ ∀ x, s.slot r ≠ .digestCtx x := by
  unfold State.digestCtxIn; cases s.slot r <;> simp

theorem State.digestValIn_eq_some {s : State} {r : Slot} {x : DigestVal} : s.digestValIn r = some x ↔ s.slot r = .digestVal x := by
  unfold State.digestValIn; cases s.slot r <;> simp

theorem State.digestValIn_eq_none {s : State} {r : Slot} : s.digestValIn r = none ↔ ∀ x, s.slot r ≠ .digestVal x := by
  unfold State.digestValIn; cases s.slot r <;> simp

theorem State.hmacKeyIn_eq_some {s : State} {r : Slot} {x : HmacKey} : s.hmacKeyIn r = some x ↔ s.slot r = .hmacKey x := by
  unfold State.hmacKeyIn; cases s.slot r <;> simp

theorem State.hmacKeyIn_eq_none {s : State} {r : Slot} : s.hmacKeyIn r = none ↔ ∀ x, s.slot r ≠ .hmacKey x := by
  unfold State.hmacKeyIn; cases s.slot r <;> simp

theorem State.hmacCtxIn_eq_some {s : State} {r : Slot} {x : HmacCtx} : s.hmacCtxIn r = some x ↔ s.slot r = .hmacCtx x := by
  unfold State.hmacCtxIn; cases s.slot r <;> simp

theorem State.hmacCtxIn_eq_none {s : State} {r : Slot} : s.hmacCtxIn r = none ↔ ∀ x, s.slot r ≠ .hmacCtx x := by
  unfold State.hmacCtxIn; cases s.slot r <;> simp

theorem State.limbsIn_eq_some {s : State} {r : Slot} {x : List Nat} : s.limbsIn r = some x ↔ s.slot r = .limbs x := by
  unfold State.limbsIn; cases s.slot r <;> simp

theorem State.limbsIn_eq_none {s : State} {r : Slot} : s.limbsIn r = none ↔ ∀ x, s.slot r ≠ .limbs x := by
  unfold State.limbsIn; cases s.slot r <;> simp

theorem State.nonceKeyIn_eq_some {s : State} {r : Slot} {x : NonceKey} : s.nonceKeyIn r = some x ↔ s.slot r = .nonceKey x := by
  unfold State.nonceKeyIn; cases s.slot r <;> simp

theorem State.nonceKeyIn_eq_none {s : State} {r : Slot} : s.nonceKeyIn r = none ↔ ∀ x, s.slot r ≠ .nonceKey x := by
  unfold State.nonceKeyIn; cases s.slot r <;> simp

/-- Both operands of a command on two big integers. -/
theorem State.limbsPairIn_eq_some {s : State} {a b : Slot} {x y : List Nat} :
    s.limbsPairIn a b = some (x, y) ↔ s.slot a = .limbs x ∧ s.slot b = .limbs y := by
  unfold State.limbsPairIn
  rw [← State.limbsIn_eq_some, ← State.limbsIn_eq_some]
  cases s.limbsIn a <;> cases s.limbsIn b <;> simp

theorem State.limbsPairIn_eq_none {s : State} {a b : Slot} :
    s.limbsPairIn a b = none ↔ (∀ x, s.slot a ≠ .limbs x) ∨ (∀ y, s.slot b ≠ .limbs y) := by
  unfold State.limbsPairIn
  rw [← State.limbsIn_eq_none, ← State.limbsIn_eq_none]
  cases s.limbsIn a <;> cases s.limbsIn b <;> simp

/-! ## Ranges -/

theorem State.validRange_iff {s : State} {r : MemRange} : s.validRange r = true ↔ r.addr + r.len ≤ s.cfg.memSize := by
  simp [State.validRange]

theorem rangesOverlap_iff {p q : MemRange} :
    rangesOverlap p q = true ↔ ∃ a, (p.addr ≤ a ∧ a < p.addr + p.len) ∧ (q.addr ≤ a ∧ a < q.addr + q.len) := by
  simp only [rangesOverlap, Bool.and_eq_true, decide_eq_true_eq]
  constructor
  · rintro ⟨⟨⟨h1, h2⟩, h3⟩, h4⟩
    exact ⟨max p.addr q.addr, by omega, by omega⟩
  · rintro ⟨a, h1, h2⟩
    omega

@[simp] theorem State.bytesAt_length (s : State) (r : MemRange) : (s.bytesAt r).length = r.len := by
  simp [State.bytesAt]

@[simp] theorem wordRange_addr (a n : Word) : (wordRange a n).addr = a.toNat := rfl
@[simp] theorem wordRange_len (a n : Word) : (wordRange a n).len = n.toNat := rfl
@[simp] theorem tableRange_addr (a n : Word) : (tableRange a n).addr = a.toNat := rfl
@[simp] theorem tableRange_len (a n : Word) : (tableRange a n).len = 8 * n.toNat := rfl

/-! ## The ends of a command -/

@[simp] theorem succeed_eq_next {s t : State} : succeed s = .next t ↔ t = s.complete .ok := by
  simp [succeed, eq_comm]

@[simp] theorem failWith_eq_next {c : ErrCode} {s t : State} : failWith c s = .next t ↔ t = s.complete c := by
  simp [failWith, eq_comm]

@[simp] theorem trap_eq_next {i : Instr} {c : FaultCode} {s t : State} :
    trap i c s = .next t ↔ t = raiseFault c (instrHeader i) s := by
  simp [trap, eq_comm]

@[simp] theorem succeedMask_eq_next {s t : State} {b : Bool} :
    succeedMask s b = .next t ↔ t = (s.setRes (limbMask s.cfg.limbWidth b)).complete .ok := by
  simp [succeedMask]

/-- No fault has the code 0. -/
theorem faultByte_ne_zero (c : FaultCode) : faultByte c ≠ 0#8 := by cases c <;> decide

/-! ## The random source -/

/-- The state after a request. -/
theorem rngFill_ok {n : Nat} {s s' : State} {rand : List Byte} (h : rngFill n s = .ok rand s') :
    rand.length = n ∧ s' = { s with rngScript := s.rngScript.tail, rngDraws := s.rngDraws + 1 } := by
  unfold rngFill at h
  split at h
  · split at h
    · cases h
    · cases h; simp [rngBytes]
  · cases h; simp [rngBytes]
  · cases h
  · cases h

theorem rngFill_fail {n : Nat} {s s' : State} (h : rngFill n s = .fail s') :
    s' = { s with rngScript := s.rngScript.tail, rngDraws := s.rngDraws + 1 } := by
  unfold rngFill at h
  split at h
  · split at h
    · cases h; rfl
    · cases h
  · cases h
  · cases h; rfl
  · cases h

theorem rngFill_never {n : Nat} {s : State} : rngFill n s = .never ↔ s.rngScript.head? = some .never := by
  unfold rngFill
  cases hs : s.rngScript with
  | nil => simp only [List.head?_nil]; split <;> simp
  | cons x xs => cases x <;> simp

/-! ## The state after reset -/

/-- The memory after reset is in canonical form. -/
theorem State.reset_mem_wf : Memory.wf State.reset.mem := ⟨List.Pairwise.nil, by simp [State.reset]⟩

end Sys2Proof.Machine
end

