-- ==== Sys2Proof/Laws/Exec.lean ====
section
/-! SUPPORT. What each command can do, said once: the faults it can take, each with the check that failed, and how it completes.
Later proofs cite these lemmas and never unfold a meaning. -/

namespace Sys2Proof.Machine

theorem execSlFree_cases (rd : Slot) (s : State) : execSlFree rd s = succeed (s.setSlot rd .empty) := rfl

theorem execDgInit_cases (rd : Slot) (alg : AlgId) (s : State) :
    execDgInit rd alg s = succeed (s.setSlot rd (.digestCtx (ctxNew s.cfg.compress alg))) := rfl

theorem execDgUpdate_cases (rd : Slot) (addr len : Word) (s : State) :
    ((∀ c, s.slot rd ≠ .digestCtx c) ∧ execDgUpdate rd addr len s = trap (.dgUpdate rd addr len) .badSlotKind s) ∨
    ∃ c, s.slot rd = .digestCtx c ∧
      ((s.validRange (wordRange addr len) = false ∧ execDgUpdate rd addr len s = trap (.dgUpdate rd addr len) .badAddress s) ∨
       (s.validRange (wordRange addr len) = true ∧ updateFits c len.toNat = false ∧
          execDgUpdate rd addr len s = trap (.dgUpdate rd addr len) .overflow s) ∨
       (s.validRange (wordRange addr len) = true ∧ updateFits c len.toNat = true ∧
          execDgUpdate rd addr len s =
            succeed (s.setSlot rd (.digestCtx (ctxUpdate s.cfg.compress c (s.bytesAt (wordRange addr len))))))) := by
  unfold execDgUpdate
  cases h : s.digestCtxIn rd with
  | none => exact .inl ⟨State.digestCtxIn_eq_none.1 h, rfl⟩
  | some c =>
    refine .inr ⟨c, State.digestCtxIn_eq_some.1 h, ?_⟩
    cases h1 : s.validRange (wordRange addr len) <;> cases h2 : updateFits c len.toNat <;> simp [h2]

theorem execDgFinish_cases (rd rs1 : Slot) (s : State) :
    ((∀ c, s.slot rs1 ≠ .digestCtx c) ∧ execDgFinish rd rs1 s = trap (.dgFinish rd rs1) .badSlotKind s) ∨
    ∃ c, s.slot rs1 = .digestCtx c ∧
      ((∃ f, blockFinishFault c.block c.pending.length = some f ∧ execDgFinish rd rs1 s = trap (.dgFinish rd rs1) f s) ∨
       (blockFinishFault c.block c.pending.length = none ∧
          execDgFinish rd rs1 s =
            succeed ((s.setSlot rs1 .empty).setSlot rd (.digestVal (ctxFinish s.cfg.compress c))))) := by
  unfold execDgFinish
  cases h : s.digestCtxIn rs1 with
  | none => exact .inl ⟨State.digestCtxIn_eq_none.1 h, rfl⟩
  | some c =>
    refine .inr ⟨c, State.digestCtxIn_eq_some.1 h, ?_⟩
    cases h1 : blockFinishFault c.block c.pending.length <;> simp [h1]

theorem execDgRead_cases (rs1 : Slot) (addr : Word) (s : State) :
    ((∀ d, s.slot rs1 ≠ .digestVal d) ∧ execDgRead rs1 addr s = trap (.dgRead rs1 addr) .badSlotKind s) ∨
    ∃ d, s.slot rs1 = .digestVal d ∧
      ((s.validRange ⟨addr.toNat, outputLen d.alg⟩ = false ∧ execDgRead rs1 addr s = trap (.dgRead rs1 addr) .badAddress s) ∨
       (s.validRange ⟨addr.toNat, outputLen d.alg⟩ = true ∧
          execDgRead rs1 addr s =
            succeed ((s.store addr.toNat d.value).setRes (resOfNat s.cfg.limbWidth (outputLen d.alg))))) := by
  unfold execDgRead
  cases h : s.digestValIn rs1 with
  | none => exact .inl ⟨State.digestValIn_eq_none.1 h, rfl⟩
  | some d =>
    refine .inr ⟨d, State.digestValIn_eq_some.1 h, ?_⟩
    cases h1 : s.validRange ⟨addr.toNat, outputLen d.alg⟩ <;> simp [h1]

theorem execCtVerify_cases (rs1 : Slot) (addr len : Word) (s : State) :
    ((∀ d, s.slot rs1 ≠ .digestVal d) ∧ execCtVerify rs1 addr len s = trap (.ctVerify rs1 addr len) .badSlotKind s) ∨
    ∃ d, s.slot rs1 = .digestVal d ∧
      ((s.validRange (wordRange addr len) = false ∧
          execCtVerify rs1 addr len s = trap (.ctVerify rs1 addr len) .badAddress s) ∨
       (s.validRange (wordRange addr len) = true ∧
          (len.toNat ≠ outputLen d.alg ∨ byteDifference d.value (s.bytesAt (wordRange addr len)) ≠ 0#8) ∧
          execCtVerify rs1 addr len s = failWith .unspecified s) ∨
       (s.validRange (wordRange addr len) = true ∧ len.toNat = outputLen d.alg ∧
          byteDifference d.value (s.bytesAt (wordRange addr len)) = 0#8 ∧ execCtVerify rs1 addr len s = succeed s)) := by
  unfold execCtVerify
  cases h : s.digestValIn rs1 with
  | none => exact .inl ⟨State.digestValIn_eq_none.1 h, rfl⟩
  | some d =>
    refine .inr ⟨d, State.digestValIn_eq_some.1 h, ?_⟩
    cases h1 : s.validRange (wordRange addr len)
    · simp
    · by_cases h2 : len.toNat = outputLen d.alg <;>
        by_cases h3 : byteDifference d.value (s.bytesAt (wordRange addr len)) = 0#8 <;> simp [h2, h3]

theorem execHmKey_cases (rd : Slot) (alg : AlgId) (addr len : Word) (s : State) :
    (s.validRange (wordRange addr len) = false ∧ execHmKey rd alg addr len s = trap (.hmKey rd alg addr len) .badAddress s) ∨
    (s.validRange (wordRange addr len) = true ∧
      execHmKey rd alg addr len s =
        succeed (s.setSlot rd (.hmacKey (hmacKeyNew s.cfg.compress alg (s.bytesAt (wordRange addr len)))))) := by
  unfold execHmKey
  cases h1 : s.validRange (wordRange addr len) <;> simp

theorem execHmInit_cases (rd rs1 : Slot) (s : State) :
    ((∀ k, s.slot rs1 ≠ .hmacKey k) ∧ execHmInit rd rs1 s = trap (.hmInit rd rs1) .badSlotKind s) ∨
    ∃ k, s.slot rs1 = .hmacKey k ∧ execHmInit rd rs1 s = succeed (s.setSlot rd (.hmacCtx (hmacCtxNew k))) := by
  unfold execHmInit
  cases h : s.hmacKeyIn rs1 with
  | none => exact .inl ⟨State.hmacKeyIn_eq_none.1 h, rfl⟩
  | some k => exact .inr ⟨k, State.hmacKeyIn_eq_some.1 h, rfl⟩

theorem execHmUpdate_cases (rd : Slot) (addr len : Word) (s : State) :
    ((∀ c, s.slot rd ≠ .hmacCtx c) ∧ execHmUpdate rd addr len s = trap (.hmUpdate rd addr len) .badSlotKind s) ∨
    ∃ c, s.slot rd = .hmacCtx c ∧
      ((s.validRange (wordRange addr len) = false ∧ execHmUpdate rd addr len s = trap (.hmUpdate rd addr len) .badAddress s) ∨
       (s.validRange (wordRange addr len) = true ∧ updateFits c.inner len.toNat = false ∧
          execHmUpdate rd addr len s = trap (.hmUpdate rd addr len) .overflow s) ∨
       (s.validRange (wordRange addr len) = true ∧ updateFits c.inner len.toNat = true ∧
          execHmUpdate rd addr len s =
            succeed (s.setSlot rd (.hmacCtx (hmacCtxUpdate s.cfg.compress c (s.bytesAt (wordRange addr len))))))) := by
  unfold execHmUpdate
  cases h : s.hmacCtxIn rd with
  | none => exact .inl ⟨State.hmacCtxIn_eq_none.1 h, rfl⟩
  | some c =>
    refine .inr ⟨c, State.hmacCtxIn_eq_some.1 h, ?_⟩
    cases h1 : s.validRange (wordRange addr len) <;> cases h2 : updateFits c.inner len.toNat <;> simp [h2]

theorem execHmSign_cases (rd rs1 : Slot) (s : State) :
    ((∀ c, s.slot rs1 ≠ .hmacCtx c) ∧ execHmSign rd rs1 s = trap (.hmSign rd rs1) .badSlotKind s) ∨
    ∃ c, s.slot rs1 = .hmacCtx c ∧
      ((∃ f, hmacSignFault c = some f ∧ execHmSign rd rs1 s = trap (.hmSign rd rs1) f s) ∨
       (hmacSignFault c = none ∧
          execHmSign rd rs1 s =
            succeed ((s.setSlot rs1 .empty).setSlot rd (.digestVal (hmacSign s.cfg.compress c))))) := by
  unfold execHmSign
  cases h : s.hmacCtxIn rs1 with
  | none => exact .inl ⟨State.hmacCtxIn_eq_none.1 h, rfl⟩
  | some c =>
    refine .inr ⟨c, State.hmacCtxIn_eq_some.1 h, ?_⟩
    cases h1 : hmacSignFault c <;> simp [h1]

theorem execHkExpand_cases (rs1 : Slot) (tab n out outLen bigL : Word) (s : State) :
    ((∀ k, s.slot rs1 ≠ .hmacKey k) ∧
      execHkExpand rs1 tab n out outLen bigL s = trap (.hkExpand rs1 tab n out outLen bigL) .badSlotKind s) ∨
    ∃ k, s.slot rs1 = .hmacKey k ∧
      ((¬ (s.validRange (tableRange tab n) = true ∧ s.validRange (wordRange out outLen) = true ∧
            (s.chunkRanges tab n).all s.validRange = true) ∧
          execHkExpand rs1 tab n out outLen bigL s = trap (.hkExpand rs1 tab n out outLen bigL) .badAddress s) ∨
       ((s.validRange (tableRange tab n) = true ∧ s.validRange (wordRange out outLen) = true ∧
            (s.chunkRanges tab n).all s.validRange = true) ∧
        ((expandOverlaps (wordRange out outLen) (tableRange tab n) (s.chunkRanges tab n) = true ∧
            execHkExpand rs1 tab n out outLen bigL s = trap (.hkExpand rs1 tab n out outLen bigL) .overlap s) ∨
         (expandOverlaps (wordRange out outLen) (tableRange tab n) (s.chunkRanges tab n) = false ∧
          ((expandFits k.alg (s.chunkRanges tab n) bigL.toNat = false ∧
              execHkExpand rs1 tab n out outLen bigL s = trap (.hkExpand rs1 tab n out outLen bigL) .overflow s) ∨
           (expandFits k.alg (s.chunkRanges tab n) bigL.toNat = true ∧
            ((¬ (outLen = bigL ∧ bigL.toNat ≤ 255 * outputLen k.alg) ∧
                execHkExpand rs1 tab n out outLen bigL s = failWith .unspecified s) ∨
             ((outLen = bigL ∧ bigL.toNat ≤ 255 * outputLen k.alg) ∧
                execHkExpand rs1 tab n out outLen bigL s =
                  succeed (s.store out.toNat
                    (hkdfFill s.cfg.compress k ((s.chunkRanges tab n).map s.bytesAt) bigL.toNat)))))))))) := by
  unfold execHkExpand
  cases h : s.hmacKeyIn rs1 with
  | none => exact .inl ⟨State.hmacKeyIn_eq_none.1 h, rfl⟩
  | some k =>
    refine .inr ⟨k, State.hmacKeyIn_eq_some.1 h, ?_⟩
    cases h1 : s.validRange (tableRange tab n)
    · simp
    cases h2 : s.validRange (wordRange out outLen)
    · simp
    cases h3 : (s.chunkRanges tab n).all s.validRange
    · simp
    cases h4 : expandOverlaps (wordRange out outLen) (tableRange tab n) (s.chunkRanges tab n)
    · cases h5 : expandFits k.alg (s.chunkRanges tab n) bigL.toNat
      · simp [h5]
      · by_cases h6 : outLen = bigL
        · by_cases h7 : 255 * outputLen k.alg < bigL.toNat
          · have : ¬ bigL.toNat ≤ 255 * outputLen k.alg := by omega
            simp [h5, h6, h7, this]
          · have : bigL.toNat ≤ 255 * outputLen k.alg := by omega
            simp [h5, h6, h7, this]
        · simp [h5, h6]
    · simp

theorem execLbParse_cases (rd : Slot) (addr len n : Word) (s : State) :
    (s.cfg.maxLimbs < n.toNat ∧ execLbParse rd addr len n s = trap (.lbParse rd addr len n) .badLength s) ∨
    (n.toNat ≤ s.cfg.maxLimbs ∧ s.validRange (wordRange addr len) = false ∧
      execLbParse rd addr len n s = trap (.lbParse rd addr len n) .badAddress s) ∨
    (n.toNat ≤ s.cfg.maxLimbs ∧ s.validRange (wordRange addr len) = true ∧
      (len.toNat = 0 ∨ n.toNat < ceilDiv len.toNat s.limbBytes) ∧ execLbParse rd addr len n s = failWith .unspecified s) ∨
    (n.toNat ≤ s.cfg.maxLimbs ∧ s.validRange (wordRange addr len) = true ∧
      1 ≤ len.toNat ∧ ceilDiv len.toNat s.limbBytes ≤ n.toNat ∧
      execLbParse rd addr len n s = succeed (s.setSlot rd
        (.limbs (limbsOfNat s.limbBits n.toNat (beToNat (s.bytesAt (wordRange addr len))))))) := by
  unfold execLbParse
  by_cases h1 : s.cfg.maxLimbs < n.toNat
  · simp [h1]
  have h1' : n.toNat ≤ s.cfg.maxLimbs := by omega
  cases h2 : s.validRange (wordRange addr len)
  · simp [h1, h1']
  by_cases h3 : len.toNat < 1
  · have : len.toNat = 0 := by omega
    simp [h1', this, h1]
  have h3' : 1 ≤ len.toNat := by omega
  by_cases h4 : n.toNat < ceilDiv len.toNat s.limbBytes
  · have : len ≠ 0#32 := by intro e; subst e; simp at h3'
    simp [h1, h1', h3, h4]
  · have h4' : ceilDiv len.toNat s.limbBytes ≤ n.toNat := by omega
    have : len ≠ 0#32 := by intro e; subst e; simp at h3'
    simp [h1, h1', h3, h3', h4, h4']

theorem execLbFormat_cases (rs1 : Slot) (addr len : Word) (s : State) :
    ((∀ a, s.slot rs1 ≠ .limbs a) ∧ execLbFormat rs1 addr len s = trap (.lbFormat rs1 addr len) .badSlotKind s) ∨
    ∃ a, s.slot rs1 = .limbs a ∧
      ((len.toNat ≠ a.length * s.limbBytes ∧ execLbFormat rs1 addr len s = trap (.lbFormat rs1 addr len) .badLength s) ∨
       (len.toNat = a.length * s.limbBytes ∧ s.validRange (wordRange addr len) = false ∧
          execLbFormat rs1 addr len s = trap (.lbFormat rs1 addr len) .badAddress s) ∨
       (len.toNat = a.length * s.limbBytes ∧ s.validRange (wordRange addr len) = true ∧
          execLbFormat rs1 addr len s = succeed (s.store addr.toNat (beBytes len.toNat (limbsValue s.limbBits a))))) := by
  unfold execLbFormat
  cases h : s.limbsIn rs1 with
  | none => exact .inl ⟨State.limbsIn_eq_none.1 h, rfl⟩
  | some a =>
    refine .inr ⟨a, State.limbsIn_eq_some.1 h, ?_⟩
    by_cases h1 : len.toNat = a.length * s.limbBytes <;> cases h2 : s.validRange (wordRange addr len) <;> simp [h1]

/-- The four commands on two big integers of one length share this shape. -/
theorem limbsPair_cases {s : State} {a b : Slot} {i : Instr} {f : List Nat → List Nat → Result} {r : Result}
    (h : r = match s.limbsPairIn a b with
      | none => trap i .badSlotKind s
      | some (x, y) => if x.length ≠ y.length then trap i .badLength s else f x y) :
    (((∀ x, s.slot a ≠ .limbs x) ∨ (∀ y, s.slot b ≠ .limbs y)) ∧ r = trap i .badSlotKind s) ∨
    ∃ x y, s.slot a = .limbs x ∧ s.slot b = .limbs y ∧
      ((x.length ≠ y.length ∧ r = trap i .badLength s) ∨ (x.length = y.length ∧ r = f x y)) := by
  cases hp : s.limbsPairIn a b with
  | none => rw [hp] at h; exact .inl ⟨State.limbsPairIn_eq_none.1 hp, h⟩
  | some p =>
    obtain ⟨x, y⟩ := p
    rw [hp] at h
    obtain ⟨h1, h2⟩ := State.limbsPairIn_eq_some.1 hp
    refine .inr ⟨x, y, h1, h2, ?_⟩
    by_cases hl : x.length = y.length
    · exact .inr ⟨hl, by simpa [hl] using h⟩
    · exact .inl ⟨hl, by simpa [hl] using h⟩

theorem execLbEq_cases (rs1 rs2 : Slot) (s : State) :
    (((∀ x, s.slot rs1 ≠ .limbs x) ∨ (∀ y, s.slot rs2 ≠ .limbs y)) ∧
      execLbEq rs1 rs2 s = trap (.lbEq rs1 rs2) .badSlotKind s) ∨
    ∃ x y, s.slot rs1 = .limbs x ∧ s.slot rs2 = .limbs y ∧
      ((x.length ≠ y.length ∧ execLbEq rs1 rs2 s = trap (.lbEq rs1 rs2) .badLength s) ∨
       (x.length = y.length ∧
        execLbEq rs1 rs2 s = succeedMask s (decide (limbsValue s.limbBits x = limbsValue s.limbBits y)))) :=
  limbsPair_cases (f := fun x y => succeedMask s (decide (limbsValue s.limbBits x = limbsValue s.limbBits y))) rfl

theorem execLbLt_cases (rs1 rs2 : Slot) (s : State) :
    (((∀ x, s.slot rs1 ≠ .limbs x) ∨ (∀ y, s.slot rs2 ≠ .limbs y)) ∧
      execLbLt rs1 rs2 s = trap (.lbLt rs1 rs2) .badSlotKind s) ∨
    ∃ x y, s.slot rs1 = .limbs x ∧ s.slot rs2 = .limbs y ∧
      ((x.length ≠ y.length ∧ execLbLt rs1 rs2 s = trap (.lbLt rs1 rs2) .badLength s) ∨
       (x.length = y.length ∧
        execLbLt rs1 rs2 s = succeedMask s (decide (limbsValue s.limbBits x < limbsValue s.limbBits y)))) :=
  limbsPair_cases (f := fun x y => succeedMask s (decide (limbsValue s.limbBits x < limbsValue s.limbBits y))) rfl

theorem execLbReduce_cases (rd rs2 : Slot) (s : State) :
    (((∀ x, s.slot rd ≠ .limbs x) ∨ (∀ y, s.slot rs2 ≠ .limbs y)) ∧
      execLbReduce rd rs2 s = trap (.lbReduce rd rs2) .badSlotKind s) ∨
    ∃ x y, s.slot rd = .limbs x ∧ s.slot rs2 = .limbs y ∧
      ((x.length ≠ y.length ∧ execLbReduce rd rs2 s = trap (.lbReduce rd rs2) .badLength s) ∨
       (x.length = y.length ∧
        execLbReduce rd rs2 s = succeed (s.setSlot rd (.limbs (limbsOfNat s.limbBits x.length
          (reduceOnce (limbsValue s.limbBits x) (limbsValue s.limbBits y))))))) :=
  limbsPair_cases (f := fun x y => succeed (s.setSlot rd (.limbs (limbsOfNat s.limbBits x.length
    (reduceOnce (limbsValue s.limbBits x) (limbsValue s.limbBits y)))))) rfl

/-- The commands on one big integer share this shape. -/
theorem limbs_cases {s : State} {a : Slot} {i : Instr} {f : List Nat → Result} {r : Result}
    (h : r = match s.limbsIn a with
      | none => trap i .badSlotKind s
      | some x => f x) :
    ((∀ x, s.slot a ≠ .limbs x) ∧ r = trap i .badSlotKind s) ∨ ∃ x, s.slot a = .limbs x ∧ r = f x := by
  cases hp : s.limbsIn a with
  | none => rw [hp] at h; exact .inl ⟨State.limbsIn_eq_none.1 hp, h⟩
  | some x => rw [hp] at h; exact .inr ⟨x, State.limbsIn_eq_some.1 hp, h⟩

theorem execLbZero_cases (rs1 : Slot) (s : State) :
    ((∀ x, s.slot rs1 ≠ .limbs x) ∧ execLbZero rs1 s = trap (.lbZero rs1) .badSlotKind s) ∨
    ∃ x, s.slot rs1 = .limbs x ∧ execLbZero rs1 s = succeedMask s (decide (limbsValue s.limbBits x = 0)) :=
  limbs_cases (f := fun x => succeedMask s (decide (limbsValue s.limbBits x = 0))) rfl

theorem execLbEven_cases (rs1 : Slot) (s : State) :
    ((∀ x, s.slot rs1 ≠ .limbs x) ∧ execLbEven rs1 s = trap (.lbEven rs1) .badSlotKind s) ∨
    ∃ x, s.slot rs1 = .limbs x ∧ execLbEven rs1 s = succeedMask s (decide (limbsValue s.limbBits x % 2 = 0)) :=
  limbs_cases (f := fun x => succeedMask s (decide (limbsValue s.limbBits x % 2 = 0))) rfl

theorem execLbMinbits_cases (rs1 : Slot) (s : State) :
    ((∀ x, s.slot rs1 ≠ .limbs x) ∧ execLbMinbits rs1 s = trap (.lbMinbits rs1) .badSlotKind s) ∨
    ∃ x, s.slot rs1 = .limbs x ∧
      execLbMinbits rs1 s = succeed (s.setRes (resOfNat s.cfg.limbWidth (minimalBits (limbsValue s.limbBits x)))) :=
  limbs_cases (f := fun x => succeed (s.setRes (resOfNat s.cfg.limbWidth (minimalBits (limbsValue s.limbBits x))))) rfl

theorem execLbEqlimb_cases (rs1 : Slot) (lo hi : Word) (s : State) :
    ((∀ x, s.slot rs1 ≠ .limbs x) ∧ execLbEqlimb rs1 lo hi s = trap (.lbEqlimb rs1 lo hi) .badSlotKind s) ∨
    ∃ x, s.slot rs1 = .limbs x ∧
      ((s.cfg.limbWidth = .w32 ∧ hi ≠ 0#32 ∧ execLbEqlimb rs1 lo hi s = trap (.lbEqlimb rs1 lo hi) .badOperand s) ∨
       ((s.cfg.limbWidth = .w64 ∨ hi = 0#32) ∧
          execLbEqlimb rs1 lo hi s = succeedMask s (decide (limbsValue s.limbBits x = scalarOfWords lo hi)))) := by
  unfold execLbEqlimb
  cases hp : s.limbsIn rs1 with
  | none => exact .inl ⟨State.limbsIn_eq_none.1 hp, rfl⟩
  | some x =>
    refine .inr ⟨x, State.limbsIn_eq_some.1 hp, ?_⟩
    cases hw : s.cfg.limbWidth <;> by_cases hh : hi = 0#32 <;> simp [hh]

theorem execLbFold5_cases (rs1 : Slot) (addr : Word) (s : State) :
    ((∀ x, s.slot rs1 ≠ .limbs x) ∧ execLbFold5 rs1 addr s = trap (.lbFold5 rs1 addr) .badSlotKind s) ∨
    ∃ x, s.slot rs1 = .limbs x ∧
      ((s.validRange ⟨addr.toNat, numWindows s.limbBits x.length⟩ = false ∧
          execLbFold5 rs1 addr s = trap (.lbFold5 rs1 addr) .badAddress s) ∨
       (s.validRange ⟨addr.toNat, numWindows s.limbBits x.length⟩ = true ∧
          execLbFold5 rs1 addr s = succeed ((s.store addr.toNat (windows5 s.limbBits x)).setRes
            (resOfNat s.cfg.limbWidth (numWindows s.limbBits x.length))))) := by
  unfold execLbFold5
  cases hp : s.limbsIn rs1 with
  | none => exact .inl ⟨State.limbsIn_eq_none.1 hp, rfl⟩
  | some x =>
    refine .inr ⟨x, State.limbsIn_eq_some.1 hp, ?_⟩
    cases h1 : s.validRange ⟨addr.toNat, numWindows s.limbBits x.length⟩ <;> simp [h1]

theorem execEcNkey_cases (rd : Slot) (alg : AlgId) (addr len : Word) (s : State) :
    (¬ (1 ≤ len.toNat ∧ len.toNat ≤ 64) ∧ execEcNkey rd alg addr len s = trap (.ecNkey rd alg addr len) .badLength s) ∨
    ((1 ≤ len.toNat ∧ len.toNat ≤ 64) ∧ s.validRange (wordRange addr len) = false ∧
      execEcNkey rd alg addr len s = trap (.ecNkey rd alg addr len) .badAddress s) ∨
    ((1 ≤ len.toNat ∧ len.toNat ≤ 64) ∧ s.validRange (wordRange addr len) = true ∧
      ((rngFill len.toNat s = .never ∧ execEcNkey rd alg addr len s = .fault .rngNeverAnswers) ∨
       (∃ s', rngFill len.toNat s = .fail s' ∧ execEcNkey rd alg addr len s = failWith .keyRejectedRngFailed s') ∨
       (∃ rand s', rngFill len.toNat s = .ok rand s' ∧
          execEcNkey rd alg addr len s = succeed (s'.setSlot rd
            (.nonceKey (nonceKeyNew s.cfg.compress alg (s.bytesAt (wordRange addr len)) rand)))))) := by
  unfold execEcNkey
  by_cases h1 : len.toNat < 1 ∨ maxOutputLen < len.toNat
  · refine .inl ⟨?_, by rw [if_pos h1]⟩
    simp only [maxOutputLen] at h1; omega
  have h1' : 1 ≤ len.toNat ∧ len.toNat ≤ 64 := by simp only [maxOutputLen] at h1; omega
  right
  rw [if_neg h1]
  cases h2 : s.validRange (wordRange addr len)
  · exact .inl ⟨h1', rfl, by simp⟩
  refine .inr ⟨h1', rfl, ?_⟩
  cases h3 : rngFill len.toNat s <;> simp

theorem execEcNonce_cases (rs1 : Slot) (ma ml d dl : Word) (s : State) :
    ((∀ k, s.slot rs1 ≠ .nonceKey k) ∧ execEcNonce rs1 ma ml d dl s = trap (.ecNonce rs1 ma ml d dl) .badSlotKind s) ∨
    ∃ k, s.slot rs1 = .nonceKey k ∧
      ((¬ (ml.toNat = outputLen k.alg ∧ dl.toNat = outputLen k.alg) ∧
          execEcNonce rs1 ma ml d dl s = trap (.ecNonce rs1 ma ml d dl) .badLength s) ∨
       ((ml.toNat = outputLen k.alg ∧ dl.toNat = outputLen k.alg) ∧
        ((¬ (s.validRange (wordRange ma ml) = true ∧ s.validRange (wordRange d dl) = true) ∧
            execEcNonce rs1 ma ml d dl s = trap (.ecNonce rs1 ma ml d dl) .badAddress s) ∨
         ((s.validRange (wordRange ma ml) = true ∧ s.validRange (wordRange d dl) = true) ∧
          ((rangesOverlap (wordRange d dl) (wordRange ma ml) = true ∧
              execEcNonce rs1 ma ml d dl s = trap (.ecNonce rs1 ma ml d dl) .overlap s) ∨
           (rangesOverlap (wordRange d dl) (wordRange ma ml) = false ∧
            ((rngFill (blockLen k.alg - outputLen k.alg) s = .never ∧
                execEcNonce rs1 ma ml d dl s = .fault .rngNeverAnswers) ∨
             (∃ s', rngFill (blockLen k.alg - outputLen k.alg) s = .fail s' ∧
                execEcNonce rs1 ma ml d dl s = failWith .unspecified s') ∨
             (∃ rand s', rngFill (blockLen k.alg - outputLen k.alg) s = .ok rand s' ∧
                execEcNonce rs1 ma ml d dl s =
                  succeed (s'.store d.toNat (nonceFill s.cfg.compress k (s.bytesAt (wordRange ma ml)) rand)))))))))) := by
  unfold execEcNonce
  cases hp : s.nonceKeyIn rs1 with
  | none => exact .inl ⟨State.nonceKeyIn_eq_none.1 hp, rfl⟩
  | some k =>
    refine .inr ⟨k, State.nonceKeyIn_eq_some.1 hp, ?_⟩
    by_cases h1 : ml.toNat = outputLen k.alg
    · by_cases h2 : dl.toNat = outputLen k.alg
      · cases h3 : s.validRange (wordRange ma ml)
        · simp [h1, h2]
        · cases h4 : s.validRange (wordRange d dl)
          · simp [h1, h2]
          · cases h5 : rangesOverlap (wordRange d dl) (wordRange ma ml)
            · cases h6 : rngFill (blockLen k.alg - outputLen k.alg) s <;> simp [h1, h2, h6]
            · simp [h1, h2]
      · simp [h1, h2]
    · simp [h1]

theorem execSgFixed_cases (rs1 rs2 : Slot) (addr : Word) (s : State) :
    (((∀ x, s.slot rs1 ≠ .limbs x) ∨ (∀ y, s.slot rs2 ≠ .limbs y)) ∧
      execSgFixed rs1 rs2 addr s = trap (.sgFixed rs1 rs2 addr) .badSlotKind s) ∨
    ∃ x y, s.slot rs1 = .limbs x ∧ s.slot rs2 = .limbs y ∧
      ((x.length ≠ y.length ∧ execSgFixed rs1 rs2 addr s = trap (.sgFixed rs1 rs2 addr) .badLength s) ∨
       (x.length = y.length ∧
        ((s.validRange ⟨addr.toNat, 2 * (x.length * s.limbBytes)⟩ = false ∧
            execSgFixed rs1 rs2 addr s = trap (.sgFixed rs1 rs2 addr) .badAddress s) ∨
         (s.validRange ⟨addr.toNat, 2 * (x.length * s.limbBytes)⟩ = true ∧
            execSgFixed rs1 rs2 addr s = succeed ((s.store addr.toNat
              (fixedSignature (x.length * s.limbBytes) (limbsValue s.limbBits x) (limbsValue s.limbBits y))).setRes
              (resOfNat s.cfg.limbWidth (2 * (x.length * s.limbBytes)))))))) := by
  rcases limbsPair_cases (s := s) (a := rs1) (b := rs2) (i := .sgFixed rs1 rs2 addr)
    (f := fun x y => if ¬ s.validRange ⟨addr.toNat, 2 * (x.length * s.limbBytes)⟩ then
        trap (.sgFixed rs1 rs2 addr) .badAddress s
      else succeed ((s.store addr.toNat
          (fixedSignature (x.length * s.limbBytes) (limbsValue s.limbBits x) (limbsValue s.limbBits y))).setRes
        (resOfNat s.cfg.limbWidth (2 * (x.length * s.limbBytes))))) (r := execSgFixed rs1 rs2 addr s) rfl with
    h | ⟨x, y, hx, hy, h | ⟨hl, h⟩⟩
  · exact .inl h
  · exact .inr ⟨x, y, hx, hy, .inl h⟩
  · refine .inr ⟨x, y, hx, hy, .inr ⟨hl, ?_⟩⟩
    cases hv : s.validRange ⟨addr.toNat, 2 * (x.length * s.limbBytes)⟩
    · exact .inl ⟨rfl, by simpa [hv] using h⟩
    · exact .inr ⟨rfl, by simpa [hv] using h⟩

theorem execSgAsn1_cases (rs1 rs2 : Slot) (addr : Word) (s : State) :
    (((∀ x, s.slot rs1 ≠ .limbs x) ∨ (∀ y, s.slot rs2 ≠ .limbs y)) ∧
      execSgAsn1 rs1 rs2 addr s = trap (.sgAsn1 rs1 rs2 addr) .badSlotKind s) ∨
    ∃ x y, s.slot rs1 = .limbs x ∧ s.slot rs2 = .limbs y ∧
      ((x.length ≠ y.length ∧ execSgAsn1 rs1 rs2 addr s = trap (.sgAsn1 rs1 rs2 addr) .badLength s) ∨
       (x.length = y.length ∧ ∃ n rv sv, n = x.length * s.limbBytes ∧ rv = limbsValue s.limbBits x ∧
          sv = limbsValue s.limbBits y ∧
        (((rv = 0 ∨ sv = 0) ∧ execSgAsn1 rs1 rs2 addr s = trap (.sgAsn1 rs1 rs2 addr) .zeroScalar s) ∨
         ((rv ≠ 0 ∧ sv ≠ 0) ∧
          ((derShort n rv sv = false ∧ execSgAsn1 rs1 rs2 addr s = trap (.sgAsn1 rs1 rs2 addr) .derTooLong s) ∨
           (derShort n rv sv = true ∧
            ((s.validRange ⟨addr.toNat, 2 + derBodyLen n rv sv⟩ = false ∧
                execSgAsn1 rs1 rs2 addr s = trap (.sgAsn1 rs1 rs2 addr) .badAddress s) ∨
             (s.validRange ⟨addr.toNat, 2 + derBodyLen n rv sv⟩ = true ∧
                execSgAsn1 rs1 rs2 addr s = succeed ((s.store addr.toNat (derSignature n rv sv)).setRes
                  (resOfNat s.cfg.limbWidth (2 + derBodyLen n rv sv)))))))))))  := by
  rcases limbsPair_cases (s := s) (a := rs1) (b := rs2) (i := .sgAsn1 rs1 rs2 addr)
    (f := fun x y =>
      if limbsValue s.limbBits x = 0 ∨ limbsValue s.limbBits y = 0 then trap (.sgAsn1 rs1 rs2 addr) .zeroScalar s
      else if ¬ derShort (x.length * s.limbBytes) (limbsValue s.limbBits x) (limbsValue s.limbBits y) then
        trap (.sgAsn1 rs1 rs2 addr) .derTooLong s
      else if ¬ s.validRange ⟨addr.toNat,
          2 + derBodyLen (x.length * s.limbBytes) (limbsValue s.limbBits x) (limbsValue s.limbBits y)⟩ then
        trap (.sgAsn1 rs1 rs2 addr) .badAddress s
      else succeed ((s.store addr.toNat
          (derSignature (x.length * s.limbBytes) (limbsValue s.limbBits x) (limbsValue s.limbBits y))).setRes
        (resOfNat s.cfg.limbWidth
          (2 + derBodyLen (x.length * s.limbBytes) (limbsValue s.limbBits x) (limbsValue s.limbBits y)))))
    (r := execSgAsn1 rs1 rs2 addr s) rfl with
    h | ⟨x, y, hx, hy, h | ⟨hl, h⟩⟩
  · exact .inl h
  · exact .inr ⟨x, y, hx, hy, .inl h⟩
  · refine .inr ⟨x, y, hx, hy, .inr ⟨hl, _, _, _, rfl, rfl, rfl, ?_⟩⟩
    by_cases hz : limbsValue s.limbBits x = 0 ∨ limbsValue s.limbBits y = 0
    · exact .inl ⟨hz, by simpa [hz] using h⟩
    refine .inr ⟨by simpa [not_or] using hz, ?_⟩
    cases hd : derShort (x.length * s.limbBytes) (limbsValue s.limbBits x) (limbsValue s.limbBits y)
    · exact .inl ⟨rfl, by simpa [hz, hd] using h⟩
    refine .inr ⟨rfl, ?_⟩
    cases hv : s.validRange ⟨addr.toNat,
        2 + derBodyLen (x.length * s.limbBytes) (limbsValue s.limbBits x) (limbsValue s.limbBits y)⟩
    · exact .inl ⟨rfl, by simpa [hz, hd, hv] using h⟩
    · exact .inr ⟨rfl, by simpa [hz, hd, hv] using h⟩

end Sys2Proof.Machine
end

