-- ==== Sys2Proof/Laws/Leakage.lean ====
section
/-! SUPPORT. The invocations of the compression primitive a command is observed to make: each is on one or more blocks, their
blocks are as many as R361 says, and making them one after the other is what the engine's functions do. -/

namespace Sys2Proof.Machine

/-! ## One or more blocks each (40_digest.md R123) -/

theorem compressCalls_pos {k n : Nat} (h : n ∈ compressCalls k) : 1 ≤ n := by
  unfold compressCalls at h
  split at h
  · simp at h
  · simp at h; omega

theorem updateCalls_pos {alg : AlgId} {np len n : Nat} (h : n ∈ updateCalls alg np len) : 1 ≤ n := by
  unfold updateCalls at h
  dsimp only at h
  split at h
  · simp at h
  · split at h
    · rcases List.mem_cons.1 h with h | h
      · omega
      · exact compressCalls_pos h
    · exact compressCalls_pos h

theorem finishCalls_pos {alg : AlgId} {np n : Nat} (h : n ∈ finishCalls alg np) : 1 ≤ n := by
  unfold finishCalls at h
  split at h <;> simp at h <;> omega

theorem feedCalls_pos {alg : AlgId} {np n : Nat} {lens : List Nat} (h : n ∈ feedCalls alg np lens) : 1 ≤ n := by
  induction lens generalizing np with
  | nil => exact finishCalls_pos h
  | cons l ls ih =>
    rcases List.mem_append.1 h with h | h
    · exact updateCalls_pos h
    · exact ih h

theorem hmacKeyCalls_pos {alg : AlgId} {len n : Nat} (h : n ∈ hmacKeyCalls alg len) : 1 ≤ n := by
  rcases List.mem_append.1 h with h | h
  · split at h
    · exact feedCalls_pos h
    · simp at h
  · simp at h; omega

theorem hkdfRoundCalls_pos {alg : AlgId} {lens : List Nat} {r n : Nat} (h : n ∈ hkdfRoundCalls alg lens r) : 1 ≤ n := by
  rcases List.mem_append.1 h with h | h
  · exact feedCalls_pos h
  · exact finishCalls_pos h

/-! ## How many blocks (70_reset_and_hazards.md R361) -/

@[simp] theorem compressCalls_sum (k : Nat) : (compressCalls k).sum = k := by
  unfold compressCalls; split <;> simp [*]

/-- An update compresses `(num_pending + len) div block_len` blocks. -/
theorem updateCalls_sum {alg : AlgId} {np len : Nat} (h : np < blockLen alg) :
    (updateCalls alg np len).sum = (np + len) / blockLen alg := by
  have hb := blockLen_pos alg
  unfold updateCalls
  dsimp only
  split
  · rw [Nat.div_eq_of_lt (by omega)]; rfl
  · split
    · rw [List.sum_cons, compressCalls_sum,
        show np + len = blockLen alg + (len - (blockLen alg - np)) by omega, Nat.add_div_left _ hb]
      omega
    · rw [compressCalls_sum, show np = 0 by omega, Nat.zero_add]

/-- A finish compresses as many blocks as the pending bytes fill with their padding. -/
theorem finishCalls_sum {alg : AlgId} {np : Nat} (h : np < blockLen alg) :
    (finishCalls alg np).sum = ceilDiv (np + 1 + lenLen alg) (blockLen alg) := by
  have hl : lenLen alg < blockLen alg := by cases alg <;> decide
  have hb := blockLen_pos alg
  unfold finishCalls ceilDiv
  by_cases hr : blockLen alg - lenLen alg < np + 1
  · rw [if_pos hr, Nat.div_eq_of_lt_le (k := 2) (by omega) (by omega)]; rfl
  · rw [if_neg hr, Nat.div_eq_of_lt_le (k := 1) (by omega) (by omega)]; rfl

/-- Updates and the finish together compress the padded message. -/
theorem feedCalls_sum {alg : AlgId} {np : Nat} {lens : List Nat} (h : np < blockLen alg) :
    (feedCalls alg np lens).sum = ceilDiv (np + lens.sum + 1 + lenLen alg) (blockLen alg) := by
  have hb := blockLen_pos alg
  induction lens generalizing np with
  | nil => exact finishCalls_sum h
  | cons l ls ih =>
    have hm := Nat.div_add_mod (np + l) (blockLen alg)
    rw [feedCalls, List.sum_append, updateCalls_sum h, ih (Nat.mod_lt _ hb), List.sum_cons]
    unfold ceilDiv
    rw [show np + (l + ls.sum) + 1 + lenLen alg + blockLen alg - 1 =
        ((np + l) % blockLen alg + ls.sum + 1 + lenLen alg + blockLen alg - 1) + blockLen alg * ((np + l) / blockLen alg) by
      omega, Nat.add_mul_div_left _ _ hb, Nat.add_comm]

/-! ## The engine makes these invocations -/

/-- The chaining value after invocations of the given numbers of blocks on the data, one after the other. -/
def runCalls (src : CompressSource) (alg : AlgId) : List Nat → Chain → List Byte → Chain
  | [], h, _ => h
  | k :: ks, h, data => runCalls src alg ks (compressBlocks src alg k h data) (data.drop (k * blockLen alg))

theorem runCalls_compressCalls (src : CompressSource) (alg : AlgId) (k : Nat) (h : Chain) (data : List Byte) :
    runCalls src alg (compressCalls k) h data = compressBlocks src alg k h data := by
  cases k <;> rfl

/-- Feeding bytes to a Context is making the invocations of `updateCalls` on the pending bytes and the data (R129). -/
theorem ctxUpdate_runs_updateCalls (src : CompressSource) (c : DigestCtx) (d : List Byte)
    (hp : c.pending.length < blockLen c.block.alg) :
    (ctxUpdate src c d).block.h =
      runCalls src c.block.alg (updateCalls c.block.alg c.pending.length d.length) c.block.h (c.pending ++ d) := by
  have hb := blockLen_pos c.block.alg
  by_cases hs : d.length < blockLen c.block.alg - c.pending.length
  · simp [ctxUpdate_short src c d hs, updateCalls, hs, runCalls]
  · rw [ctxUpdate_long src c d hs]
    simp only [updateCalls, if_neg hs, blockUpdate, ctxTopUp_alg]
    by_cases h0 : 0 < c.pending.length
    · simp only [ctxTopUp, if_pos h0, runCalls, runCalls_compressCalls, blockUpdate, List.length_append, List.length_take,
        List.length_drop]
      rw [show c.pending.length + min (blockLen c.block.alg - c.pending.length) d.length = blockLen c.block.alg by omega,
        Nat.div_self hb, Nat.one_mul,
        Nat.min_eq_left (Nat.div_mul_le_self _ _), Nat.mul_div_cancel _ hb,
        compressBlocks_take src _ _ _ _ _ le_rfl (by rw [List.length_drop]; exact Nat.div_mul_le_self _ _)]
      have hd : (c.pending ++ d).drop (blockLen c.block.alg) = d.drop (blockLen c.block.alg - c.pending.length) := by
        rw [List.drop_append, List.drop_of_length_le (by omega), List.nil_append]
      have ht : c.pending ++ d.take (blockLen c.block.alg - c.pending.length) = (c.pending ++ d).take (blockLen c.block.alg) := by
        rw [List.take_append, List.take_of_length_le (l := c.pending) (by omega)]
      rw [hd, ht, compressBlocks_take src _ _ _ _ _ (by omega) (by rw [List.length_append]; omega)]
    · have hn : c.pending = [] := List.length_eq_zero_iff.1 (by omega)
      simp only [ctxTopUp, if_neg h0, runCalls_compressCalls, List.length_take]
      rw [hn, List.nil_append]
      rw [Nat.min_eq_left (Nat.div_mul_le_self _ _), Nat.mul_div_cancel _ hb,
        compressBlocks_take src _ _ _ _ _ le_rfl (Nat.div_mul_le_self _ _)]

/-- A finish is making the invocations of `finishCalls`, one for each padding block (R131). -/
theorem finishCalls_eq_paddingBlocks (alg : AlgId) (pending : List Byte) (bits : Nat) :
    finishCalls alg pending.length = (paddingBlocks alg pending bits).map fun _ => 1 := by
  simp only [finishCalls, paddingBlocks, List.length_append, List.length_singleton]
  split <;> rfl

/-! ## The random source -/

/-- A request is answered with bytes exactly when `rngDelivers` says so, whatever its length. -/
theorem rngDelivers_iff {n : Nat} {s : State} : rngDelivers s = true ↔ ∃ rand s', rngFill n s = .ok rand s' := by
  unfold rngDelivers rngFill
  cases hs : s.rngScript with
  | nil => cases hf : Config.rngFails s.rngDraws <;> simp
  | cons x xs => cases x <;> simp


end Sys2Proof.Machine
end

