-- ==== Sys2Proof/Laws/Outcome.lean ====
section
/-! SUPPORT. The outcomes of any command, said once (60_exceptions.md R300, R304, R310). -/

namespace Sys2Proof.Machine

/-- The next states of a command: it took a fault of its own, or it completed, with an error only if it did nothing else. -/
abbrev CommandOutcome (i : Instr) (s t : State) : Prop :=
  (∃ c, c ≠ FaultCode.illegalCommand ∧ t = raiseFault c (instrHeader i) s) ∨
  ∃ s' e, t = State.complete s' e ∧ keepsRest s s' ∧ s'.cmdSeq = s.cmdSeq ∧
    e ∈ [ErrCode.ok, ErrCode.unspecified, ErrCode.keyRejectedRngFailed] ∧
    (e ≠ .ok → s'.slots = s.slots ∧ s'.mem = s.mem ∧ s'.res = s.res)

/-- The two checks of a finish raise `BAD_LENGTH` or `OVERFLOW`. -/
theorem blockFinishFault_cases {bc : BlockCtx} {n : Nat} {f : FaultCode} (h : blockFinishFault bc n = some f) :
    (blockLen bc.alg ≤ n ∧ f = .badLength) ∨ (n < blockLen bc.alg ∧ 2 ^ 64 ≤ finishBits bc n ∧ f = .overflow) := by
  unfold blockFinishFault at h
  split at h
  · rename_i h1; cases h; exact .inl ⟨h1, rfl⟩
  · rename_i h1
    split at h
    · rename_i h2; cases h; exact .inr ⟨by omega, h2, rfl⟩
    · cases h

/-- Both checks of a finish pass. -/
theorem blockFinishFault_none {bc : BlockCtx} {n : Nat} :
    blockFinishFault bc n = none ↔ n < blockLen bc.alg ∧ finishBits bc n < 2 ^ 64 := by
  unfold blockFinishFault
  by_cases h1 : blockLen bc.alg ≤ n
  · simp [h1]
  · by_cases h2 : 2 ^ 64 ≤ finishBits bc n
    · rw [if_neg h1, if_pos h2]; simp only [reduceCtorEq, false_iff]; omega
    · rw [if_neg h1, if_neg h2]; simp only [true_iff]; omega

theorem blockFinishFault_ne {bc : BlockCtx} {n : Nat} {f : FaultCode} (h : blockFinishFault bc n = some f) :
    f ≠ .illegalCommand := by
  rcases blockFinishFault_cases h with ⟨-, rfl⟩ | ⟨-, -, rfl⟩ <;> decide

theorem hmacSignFault_ne {c : HmacCtx} {f : FaultCode} (h : hmacSignFault c = some f) : f ≠ .illegalCommand := by
  unfold hmacSignFault at h
  split at h
  · rename_i f' hf
    cases h
    exact blockFinishFault_ne hf
  · exact blockFinishFault_ne h

theorem trap_next_cases {i : Instr} {c : FaultCode} {s t : State} {r : Result} (e : r = trap i c s) (h : r = .next t)
    (hc : c ≠ .illegalCommand) : CommandOutcome i s t := by
  rw [e, trap_eq_next] at h
  exact .inl ⟨c, hc, h⟩

theorem succeed_next_cases {i : Instr} {s s' t : State} {r : Result} (e : r = succeed s') (h : r = .next t)
    (hk : keepsRest s s') (hq : s'.cmdSeq = s.cmdSeq) : CommandOutcome i s t := by
  rw [e, succeed_eq_next] at h
  exact .inr ⟨s', .ok, h, hk, hq, by decide, fun hne => absurd rfl hne⟩

theorem fail_next_cases {i : Instr} {c : ErrCode} {s s' t : State} {r : Result} (e : r = failWith c s') (h : r = .next t)
    (hk : keepsRest s s') (hq : s'.cmdSeq = s.cmdSeq) (h1 : s'.slots = s.slots) (h2 : s'.mem = s.mem) (h3 : s'.res = s.res)
    (hc : c ∈ [ErrCode.ok, ErrCode.unspecified, ErrCode.keyRejectedRngFailed]) : CommandOutcome i s t := by
  rw [e, failWith_eq_next] at h
  exact .inr ⟨s', c, h, hk, hq, hc, fun _ => ⟨h1, h2, h3⟩⟩

/-! ## Each command -/

theorem execSlFree_outcome {rd : Slot} {s t : State} (h : execSlFree rd s = .next t) :
    CommandOutcome (.slFree rd) s t := by
  exact succeed_next_cases (execSlFree_cases rd s) h ⟨rfl, rfl, rfl, rfl, rfl, rfl, rfl⟩ rfl

theorem execDgInit_outcome {rd : Slot} {alg : AlgId} {s t : State} (h : execDgInit rd alg s = .next t) :
    CommandOutcome (.dgInit rd alg) s t := by
  exact succeed_next_cases (execDgInit_cases rd alg s) h ⟨rfl, rfl, rfl, rfl, rfl, rfl, rfl⟩ rfl

theorem execDgUpdate_outcome {rd : Slot} {addr len : Word} {s t : State} (h : execDgUpdate rd addr len s = .next t) :
    CommandOutcome (.dgUpdate rd addr len) s t := by
  rcases execDgUpdate_cases rd addr len s with
    ⟨-, e⟩ | ⟨c, hc, ⟨-, e⟩ | ⟨-, -, e⟩ | ⟨hv, hf, e⟩⟩
  · exact trap_next_cases e h (by decide)
  · exact trap_next_cases e h (by decide)
  · exact trap_next_cases e h (by decide)
  · exact succeed_next_cases e h (by simp [keepsRest]) (by simp)

theorem execDgFinish_outcome {rd rs1 : Slot} {s t : State} (h : execDgFinish rd rs1 s = .next t) :
    CommandOutcome (.dgFinish rd rs1) s t := by
  rcases execDgFinish_cases rd rs1 s with
    ⟨-, e⟩ | ⟨c, hc, ⟨f, hf, e⟩ | ⟨hf, e⟩⟩
  · exact trap_next_cases e h (by decide)
  · exact trap_next_cases e h (blockFinishFault_ne hf)
  · exact succeed_next_cases e h (by simp [keepsRest]) (by simp)

theorem execDgRead_outcome {rs1 : Slot} {addr : Word} {s t : State} (h : execDgRead rs1 addr s = .next t) :
    CommandOutcome (.dgRead rs1 addr) s t := by
  rcases execDgRead_cases rs1 addr s with
    ⟨-, e⟩ | ⟨d, hd, ⟨-, e⟩ | ⟨hv, e⟩⟩
  · exact trap_next_cases e h (by decide)
  · exact trap_next_cases e h (by decide)
  · exact succeed_next_cases e h (by simp [keepsRest]) (by simp)

theorem execCtVerify_outcome {rs1 : Slot} {addr len : Word} {s t : State} (h : execCtVerify rs1 addr len s = .next t) :
    CommandOutcome (.ctVerify rs1 addr len) s t := by
  rcases execCtVerify_cases rs1 addr len s with
    ⟨-, e⟩ | ⟨d, hd, ⟨-, e⟩ | ⟨hv, hn, e⟩ | ⟨hv, hl, hb, e⟩⟩
  · exact trap_next_cases e h (by decide)
  · exact trap_next_cases e h (by decide)
  · exact fail_next_cases e h ⟨rfl, rfl, rfl, rfl, rfl, rfl, rfl⟩ rfl rfl rfl rfl (by decide)
  · exact succeed_next_cases e h (by simp [keepsRest]) (by simp)

theorem execHmKey_outcome {rd : Slot} {alg : AlgId} {addr len : Word} {s t : State} (h : execHmKey rd alg addr len s = .next t) :
    CommandOutcome (.hmKey rd alg addr len) s t := by
  rcases execHmKey_cases rd alg addr len s with
    ⟨-, e⟩ | ⟨hv, e⟩
  · exact trap_next_cases e h (by decide)
  · exact succeed_next_cases e h (by simp [keepsRest]) (by simp)

theorem execHmInit_outcome {rd rs1 : Slot} {s t : State} (h : execHmInit rd rs1 s = .next t) :
    CommandOutcome (.hmInit rd rs1) s t := by
  rcases execHmInit_cases rd rs1 s with
    ⟨-, e⟩ | ⟨k, hk, e⟩
  · exact trap_next_cases e h (by decide)
  · exact succeed_next_cases e h (by simp [keepsRest]) (by simp)

theorem execHmUpdate_outcome {rd : Slot} {addr len : Word} {s t : State} (h : execHmUpdate rd addr len s = .next t) :
    CommandOutcome (.hmUpdate rd addr len) s t := by
  rcases execHmUpdate_cases rd addr len s with
    ⟨-, e⟩ | ⟨c, hc, ⟨-, e⟩ | ⟨-, -, e⟩ | ⟨hv, hf, e⟩⟩
  · exact trap_next_cases e h (by decide)
  · exact trap_next_cases e h (by decide)
  · exact trap_next_cases e h (by decide)
  · exact succeed_next_cases e h (by simp [keepsRest]) (by simp)

theorem execHmSign_outcome {rd rs1 : Slot} {s t : State} (h : execHmSign rd rs1 s = .next t) :
    CommandOutcome (.hmSign rd rs1) s t := by
  rcases execHmSign_cases rd rs1 s with
    ⟨-, e⟩ | ⟨c, hc, ⟨f, hf, e⟩ | ⟨hf, e⟩⟩
  · exact trap_next_cases e h (by decide)
  · exact trap_next_cases e h (hmacSignFault_ne hf)
  · exact succeed_next_cases e h (by simp [keepsRest]) (by simp)

theorem execHkExpand_outcome {rs1 : Slot} {tab n out outLen bigL : Word} {s t : State} (h : execHkExpand rs1 tab n out outLen bigL s = .next t) :
    CommandOutcome (.hkExpand rs1 tab n out outLen bigL) s t := by
  rcases execHkExpand_cases rs1 tab n out outLen bigL s with
    ⟨-, e⟩ | ⟨k, hk, ⟨-, e⟩ | ⟨hv, ⟨-, e⟩ | ⟨ho, ⟨-, e⟩ | ⟨hf, ⟨hn, e⟩ | ⟨hl, e⟩⟩⟩⟩⟩
  · exact trap_next_cases e h (by decide)
  · exact trap_next_cases e h (by decide)
  · exact trap_next_cases e h (by decide)
  · exact trap_next_cases e h (by decide)
  · exact fail_next_cases e h ⟨rfl, rfl, rfl, rfl, rfl, rfl, rfl⟩ rfl rfl rfl rfl (by decide)
  · exact succeed_next_cases e h (by simp [keepsRest]) (by simp)

theorem execLbParse_outcome {rd : Slot} {addr len n : Word} {s t : State} (h : execLbParse rd addr len n s = .next t) :
    CommandOutcome (.lbParse rd addr len n) s t := by
  rcases execLbParse_cases rd addr len n s with
    ⟨-, e⟩ | ⟨-, -, e⟩ | ⟨hm, hv, hn, e⟩ | ⟨hm, hv, h1, hn, e⟩
  · exact trap_next_cases e h (by decide)
  · exact trap_next_cases e h (by decide)
  · exact fail_next_cases e h ⟨rfl, rfl, rfl, rfl, rfl, rfl, rfl⟩ rfl rfl rfl rfl (by decide)
  · exact succeed_next_cases e h (by simp [keepsRest]) (by simp)

theorem execLbFormat_outcome {rs1 : Slot} {addr len : Word} {s t : State} (h : execLbFormat rs1 addr len s = .next t) :
    CommandOutcome (.lbFormat rs1 addr len) s t := by
  rcases execLbFormat_cases rs1 addr len s with
    ⟨-, e⟩ | ⟨a, ha, ⟨-, e⟩ | ⟨-, -, e⟩ | ⟨hl, hv, e⟩⟩
  · exact trap_next_cases e h (by decide)
  · exact trap_next_cases e h (by decide)
  · exact trap_next_cases e h (by decide)
  · exact succeed_next_cases e h (by simp [keepsRest]) (by simp)

theorem execLbEq_outcome {rs1 rs2 : Slot} {s t : State} (h : execLbEq rs1 rs2 s = .next t) :
    CommandOutcome (.lbEq rs1 rs2) s t := by
  rcases execLbEq_cases rs1 rs2 s with
    ⟨-, e⟩ | ⟨x, y, hx, hy, ⟨-, e⟩ | ⟨hl, e⟩⟩
  · exact trap_next_cases e h (by decide)
  · exact trap_next_cases e h (by decide)
  · exact succeed_next_cases e h (by simp [keepsRest]) (by simp)

theorem execLbLt_outcome {rs1 rs2 : Slot} {s t : State} (h : execLbLt rs1 rs2 s = .next t) :
    CommandOutcome (.lbLt rs1 rs2) s t := by
  rcases execLbLt_cases rs1 rs2 s with
    ⟨-, e⟩ | ⟨x, y, hx, hy, ⟨-, e⟩ | ⟨hl, e⟩⟩
  · exact trap_next_cases e h (by decide)
  · exact trap_next_cases e h (by decide)
  · exact succeed_next_cases e h (by simp [keepsRest]) (by simp)

theorem execLbZero_outcome {rs1 : Slot} {s t : State} (h : execLbZero rs1 s = .next t) :
    CommandOutcome (.lbZero rs1) s t := by
  rcases execLbZero_cases rs1 s with
    ⟨-, e⟩ | ⟨x, hx, e⟩
  · exact trap_next_cases e h (by decide)
  · exact succeed_next_cases e h (by simp [keepsRest]) (by simp)

theorem execLbEven_outcome {rs1 : Slot} {s t : State} (h : execLbEven rs1 s = .next t) :
    CommandOutcome (.lbEven rs1) s t := by
  rcases execLbEven_cases rs1 s with
    ⟨-, e⟩ | ⟨x, hx, e⟩
  · exact trap_next_cases e h (by decide)
  · exact succeed_next_cases e h (by simp [keepsRest]) (by simp)

theorem execLbEqlimb_outcome {rs1 : Slot} {lo hi : Word} {s t : State} (h : execLbEqlimb rs1 lo hi s = .next t) :
    CommandOutcome (.lbEqlimb rs1 lo hi) s t := by
  rcases execLbEqlimb_cases rs1 lo hi s with
    ⟨-, e⟩ | ⟨x, hx, ⟨-, -, e⟩ | ⟨hh, e⟩⟩
  · exact trap_next_cases e h (by decide)
  · exact trap_next_cases e h (by decide)
  · exact succeed_next_cases e h (by simp [keepsRest]) (by simp)

theorem execLbReduce_outcome {rd rs2 : Slot} {s t : State} (h : execLbReduce rd rs2 s = .next t) :
    CommandOutcome (.lbReduce rd rs2) s t := by
  rcases execLbReduce_cases rd rs2 s with
    ⟨-, e⟩ | ⟨x, y, hx, hy, ⟨-, e⟩ | ⟨hl, e⟩⟩
  · exact trap_next_cases e h (by decide)
  · exact trap_next_cases e h (by decide)
  · exact succeed_next_cases e h (by simp [keepsRest]) (by simp)

theorem execLbMinbits_outcome {rs1 : Slot} {s t : State} (h : execLbMinbits rs1 s = .next t) :
    CommandOutcome (.lbMinbits rs1) s t := by
  rcases execLbMinbits_cases rs1 s with
    ⟨-, e⟩ | ⟨x, hx, e⟩
  · exact trap_next_cases e h (by decide)
  · exact succeed_next_cases e h (by simp [keepsRest]) (by simp)

theorem execLbFold5_outcome {rs1 : Slot} {addr : Word} {s t : State} (h : execLbFold5 rs1 addr s = .next t) :
    CommandOutcome (.lbFold5 rs1 addr) s t := by
  rcases execLbFold5_cases rs1 addr s with
    ⟨-, e⟩ | ⟨x, hx, ⟨-, e⟩ | ⟨hv, e⟩⟩
  · exact trap_next_cases e h (by decide)
  · exact trap_next_cases e h (by decide)
  · exact succeed_next_cases e h (by simp [keepsRest]) (by simp)

theorem execEcNkey_outcome {rd : Slot} {alg : AlgId} {addr len : Word} {s t : State} (h : execEcNkey rd alg addr len s = .next t) :
    CommandOutcome (.ecNkey rd alg addr len) s t := by
  rcases execEcNkey_cases rd alg addr len s with
    ⟨-, e⟩ | ⟨-, -, e⟩ | ⟨hl, hv, ⟨hr, e⟩ | ⟨s', hr, e⟩ | ⟨rand, s', hr, e⟩⟩
  · exact trap_next_cases e h (by decide)
  · exact trap_next_cases e h (by decide)
  · exact absurd (e.symm.trans h) (by simp)
  · obtain rfl := rngFill_fail hr
    exact fail_next_cases e h ⟨rfl, rfl, rfl, rfl, rfl, rfl, rfl⟩ rfl rfl rfl rfl (by decide)
  · obtain rfl := (rngFill_ok hr).2
    exact succeed_next_cases e h (by simp [keepsRest]) (by simp)

theorem execEcNonce_outcome {rs1 : Slot} {ma ml d dl : Word} {s t : State} (h : execEcNonce rs1 ma ml d dl s = .next t) :
    CommandOutcome (.ecNonce rs1 ma ml d dl) s t := by
  rcases execEcNonce_cases rs1 ma ml d dl s with
    ⟨-, e⟩ | ⟨k, hk, ⟨-, e⟩ | ⟨hl, ⟨-, e⟩ | ⟨hv, ⟨-, e⟩ | ⟨ho, ⟨hr, e⟩ | ⟨s', hr, e⟩ | ⟨rand, s', hr, e⟩⟩⟩⟩⟩
  · exact trap_next_cases e h (by decide)
  · exact trap_next_cases e h (by decide)
  · exact trap_next_cases e h (by decide)
  · exact trap_next_cases e h (by decide)
  · exact absurd (e.symm.trans h) (by simp)
  · obtain rfl := rngFill_fail hr
    exact fail_next_cases e h ⟨rfl, rfl, rfl, rfl, rfl, rfl, rfl⟩ rfl rfl rfl rfl (by decide)
  · obtain rfl := (rngFill_ok hr).2
    exact succeed_next_cases e h (by simp [keepsRest]) (by simp)

theorem execSgFixed_outcome {rs1 rs2 : Slot} {addr : Word} {s t : State} (h : execSgFixed rs1 rs2 addr s = .next t) :
    CommandOutcome (.sgFixed rs1 rs2 addr) s t := by
  rcases execSgFixed_cases rs1 rs2 addr s with
    ⟨-, e⟩ | ⟨x, y, hx, hy, ⟨-, e⟩ | ⟨hl, ⟨-, e⟩ | ⟨hv, e⟩⟩⟩
  · exact trap_next_cases e h (by decide)
  · exact trap_next_cases e h (by decide)
  · exact trap_next_cases e h (by decide)
  · exact succeed_next_cases e h (by simp [keepsRest]) (by simp)

theorem execSgAsn1_outcome {rs1 rs2 : Slot} {addr : Word} {s t : State} (h : execSgAsn1 rs1 rs2 addr s = .next t) :
    CommandOutcome (.sgAsn1 rs1 rs2 addr) s t := by
  rcases execSgAsn1_cases rs1 rs2 addr s with
    ⟨-, e⟩ | ⟨x, y, hx, hy, ⟨-, e⟩ | ⟨hl, n, rv, sv, hn, hrv, hsv, ⟨-, e⟩ | ⟨-, ⟨-, e⟩ | ⟨-, ⟨-, e⟩ | ⟨hv, e⟩⟩⟩⟩⟩
  · exact trap_next_cases e h (by decide)
  · exact trap_next_cases e h (by decide)
  · exact trap_next_cases e h (by decide)
  · exact trap_next_cases e h (by decide)
  · exact trap_next_cases e h (by decide)
  · exact succeed_next_cases e h (by simp [keepsRest]) (by simp)

/-- Every next state of every command is one of these. -/
theorem exec_next_cases {i : Instr} {s t : State} (h : exec i s = .next t) : CommandOutcome i s t := by
  cases i with
  | slFree => exact execSlFree_outcome h
  | dgInit => exact execDgInit_outcome h
  | dgUpdate => exact execDgUpdate_outcome h
  | dgFinish => exact execDgFinish_outcome h
  | dgRead => exact execDgRead_outcome h
  | ctVerify => exact execCtVerify_outcome h
  | hmKey => exact execHmKey_outcome h
  | hmInit => exact execHmInit_outcome h
  | hmUpdate => exact execHmUpdate_outcome h
  | hmSign => exact execHmSign_outcome h
  | hkExpand => exact execHkExpand_outcome h
  | lbParse => exact execLbParse_outcome h
  | lbFormat => exact execLbFormat_outcome h
  | lbEq => exact execLbEq_outcome h
  | lbLt => exact execLbLt_outcome h
  | lbZero => exact execLbZero_outcome h
  | lbEven => exact execLbEven_outcome h
  | lbEqlimb => exact execLbEqlimb_outcome h
  | lbReduce => exact execLbReduce_outcome h
  | lbMinbits => exact execLbMinbits_outcome h
  | lbFold5 => exact execLbFold5_outcome h
  | ecNkey => exact execEcNkey_outcome h
  | ecNonce => exact execEcNonce_outcome h
  | sgFixed => exact execSgFixed_outcome h
  | sgAsn1 => exact execSgAsn1_outcome h

theorem isNext_of_trap {i : Instr} {c : FaultCode} {s : State} {r : Result} (e : r = trap i c s) : ∃ t, r = .next t := ⟨_, e⟩
theorem isNext_of_succeed {s : State} {r : Result} (e : r = succeed s) : ∃ t, r = .next t := ⟨_, e⟩
theorem isNext_of_failWith {c : ErrCode} {s : State} {r : Result} (e : r = failWith c s) : ∃ t, r = .next t := ⟨_, e⟩
theorem isNext_of_succeedMask {s : State} {b : Bool} {r : Result} (e : r = succeedMask s b) : ∃ t, r = .next t := ⟨_, e⟩

/-- A command completes or takes a fault of its own, unless it waits for ever for the random source. -/
abbrev StopsOnlyForRng (i : Instr) (s : State) (r : Result) : Prop :=
  (∃ t, r = .next t) ∨ (r = .fault .rngNeverAnswers ∧ s.rngScript.head? = some .never ∧ ((∃ rd alg addr len, i = .ecNkey rd alg addr len) ∨ (∃ rs1 ma ml d dl, i = .ecNonce rs1 ma ml d dl)))

theorem execSlFree_stop (rd : Slot) (s : State) : StopsOnlyForRng (.slFree rd) s (execSlFree rd s) := by
  exact .inl (isNext_of_succeed (execSlFree_cases rd s))

theorem execDgInit_stop (rd : Slot) (alg : AlgId) (s : State) : StopsOnlyForRng (.dgInit rd alg) s (execDgInit rd alg s) := by
  exact .inl (isNext_of_succeed (execDgInit_cases rd alg s))

theorem execDgUpdate_stop (rd : Slot) (addr : Word) (len : Word) (s : State) : StopsOnlyForRng (.dgUpdate rd addr len) s (execDgUpdate rd addr len s) := by
  rcases execDgUpdate_cases rd addr len s with
    ⟨-, e⟩ | ⟨c, hc, ⟨-, e⟩ | ⟨-, -, e⟩ | ⟨hv, hf, e⟩⟩
  · exact .inl (isNext_of_trap e)
  · exact .inl (isNext_of_trap e)
  · exact .inl (isNext_of_trap e)
  · exact .inl (isNext_of_succeed e)

theorem execDgFinish_stop (rd : Slot) (rs1 : Slot) (s : State) : StopsOnlyForRng (.dgFinish rd rs1) s (execDgFinish rd rs1 s) := by
  rcases execDgFinish_cases rd rs1 s with
    ⟨-, e⟩ | ⟨c, hc, ⟨f, hf, e⟩ | ⟨hf, e⟩⟩
  · exact .inl (isNext_of_trap e)
  · exact .inl (isNext_of_trap e)
  · exact .inl (isNext_of_succeed e)

theorem execDgRead_stop (rs1 : Slot) (addr : Word) (s : State) : StopsOnlyForRng (.dgRead rs1 addr) s (execDgRead rs1 addr s) := by
  rcases execDgRead_cases rs1 addr s with
    ⟨-, e⟩ | ⟨d, hd, ⟨-, e⟩ | ⟨hv, e⟩⟩
  · exact .inl (isNext_of_trap e)
  · exact .inl (isNext_of_trap e)
  · exact .inl (isNext_of_succeed e)

theorem execCtVerify_stop (rs1 : Slot) (addr : Word) (len : Word) (s : State) : StopsOnlyForRng (.ctVerify rs1 addr len) s (execCtVerify rs1 addr len s) := by
  rcases execCtVerify_cases rs1 addr len s with
    ⟨-, e⟩ | ⟨d, hd, ⟨-, e⟩ | ⟨hv, hn, e⟩ | ⟨hv, hl, hb, e⟩⟩
  · exact .inl (isNext_of_trap e)
  · exact .inl (isNext_of_trap e)
  · exact .inl (isNext_of_failWith e)
  · exact .inl (isNext_of_succeed e)

theorem execHmKey_stop (rd : Slot) (alg : AlgId) (addr : Word) (len : Word) (s : State) : StopsOnlyForRng (.hmKey rd alg addr len) s (execHmKey rd alg addr len s) := by
  rcases execHmKey_cases rd alg addr len s with
    ⟨-, e⟩ | ⟨hv, e⟩
  · exact .inl (isNext_of_trap e)
  · exact .inl (isNext_of_succeed e)

theorem execHmInit_stop (rd : Slot) (rs1 : Slot) (s : State) : StopsOnlyForRng (.hmInit rd rs1) s (execHmInit rd rs1 s) := by
  rcases execHmInit_cases rd rs1 s with
    ⟨-, e⟩ | ⟨k, hk, e⟩
  · exact .inl (isNext_of_trap e)
  · exact .inl (isNext_of_succeed e)

theorem execHmUpdate_stop (rd : Slot) (addr : Word) (len : Word) (s : State) : StopsOnlyForRng (.hmUpdate rd addr len) s (execHmUpdate rd addr len s) := by
  rcases execHmUpdate_cases rd addr len s with
    ⟨-, e⟩ | ⟨c, hc, ⟨-, e⟩ | ⟨-, -, e⟩ | ⟨hv, hf, e⟩⟩
  · exact .inl (isNext_of_trap e)
  · exact .inl (isNext_of_trap e)
  · exact .inl (isNext_of_trap e)
  · exact .inl (isNext_of_succeed e)

theorem execHmSign_stop (rd : Slot) (rs1 : Slot) (s : State) : StopsOnlyForRng (.hmSign rd rs1) s (execHmSign rd rs1 s) := by
  rcases execHmSign_cases rd rs1 s with
    ⟨-, e⟩ | ⟨c, hc, ⟨f, hf, e⟩ | ⟨hf, e⟩⟩
  · exact .inl (isNext_of_trap e)
  · exact .inl (isNext_of_trap e)
  · exact .inl (isNext_of_succeed e)

theorem execHkExpand_stop (rs1 : Slot) (tab : Word) (n : Word) (out : Word) (outLen : Word) (bigL : Word) (s : State) : StopsOnlyForRng (.hkExpand rs1 tab n out outLen bigL) s (execHkExpand rs1 tab n out outLen bigL s) := by
  rcases execHkExpand_cases rs1 tab n out outLen bigL s with
    ⟨-, e⟩ | ⟨k, hk, ⟨-, e⟩ | ⟨hv, ⟨-, e⟩ | ⟨ho, ⟨-, e⟩ | ⟨hf, ⟨hn, e⟩ | ⟨hl, e⟩⟩⟩⟩⟩
  · exact .inl (isNext_of_trap e)
  · exact .inl (isNext_of_trap e)
  · exact .inl (isNext_of_trap e)
  · exact .inl (isNext_of_trap e)
  · exact .inl (isNext_of_failWith e)
  · exact .inl (isNext_of_succeed e)

theorem execLbParse_stop (rd : Slot) (addr : Word) (len : Word) (n : Word) (s : State) : StopsOnlyForRng (.lbParse rd addr len n) s (execLbParse rd addr len n s) := by
  rcases execLbParse_cases rd addr len n s with
    ⟨-, e⟩ | ⟨-, -, e⟩ | ⟨hm, hv, hn, e⟩ | ⟨hm, hv, h1, hn, e⟩
  · exact .inl (isNext_of_trap e)
  · exact .inl (isNext_of_trap e)
  · exact .inl (isNext_of_failWith e)
  · exact .inl (isNext_of_succeed e)

theorem execLbFormat_stop (rs1 : Slot) (addr : Word) (len : Word) (s : State) : StopsOnlyForRng (.lbFormat rs1 addr len) s (execLbFormat rs1 addr len s) := by
  rcases execLbFormat_cases rs1 addr len s with
    ⟨-, e⟩ | ⟨a, ha, ⟨-, e⟩ | ⟨-, -, e⟩ | ⟨hl, hv, e⟩⟩
  · exact .inl (isNext_of_trap e)
  · exact .inl (isNext_of_trap e)
  · exact .inl (isNext_of_trap e)
  · exact .inl (isNext_of_succeed e)

theorem execLbEq_stop (rs1 : Slot) (rs2 : Slot) (s : State) : StopsOnlyForRng (.lbEq rs1 rs2) s (execLbEq rs1 rs2 s) := by
  rcases execLbEq_cases rs1 rs2 s with
    ⟨-, e⟩ | ⟨x, y, hx, hy, ⟨-, e⟩ | ⟨hl, e⟩⟩
  · exact .inl (isNext_of_trap e)
  · exact .inl (isNext_of_trap e)
  · exact .inl (isNext_of_succeedMask e)

theorem execLbLt_stop (rs1 : Slot) (rs2 : Slot) (s : State) : StopsOnlyForRng (.lbLt rs1 rs2) s (execLbLt rs1 rs2 s) := by
  rcases execLbLt_cases rs1 rs2 s with
    ⟨-, e⟩ | ⟨x, y, hx, hy, ⟨-, e⟩ | ⟨hl, e⟩⟩
  · exact .inl (isNext_of_trap e)
  · exact .inl (isNext_of_trap e)
  · exact .inl (isNext_of_succeedMask e)

theorem execLbZero_stop (rs1 : Slot) (s : State) : StopsOnlyForRng (.lbZero rs1) s (execLbZero rs1 s) := by
  rcases execLbZero_cases rs1 s with
    ⟨-, e⟩ | ⟨x, hx, e⟩
  · exact .inl (isNext_of_trap e)
  · exact .inl (isNext_of_succeedMask e)

theorem execLbEven_stop (rs1 : Slot) (s : State) : StopsOnlyForRng (.lbEven rs1) s (execLbEven rs1 s) := by
  rcases execLbEven_cases rs1 s with
    ⟨-, e⟩ | ⟨x, hx, e⟩
  · exact .inl (isNext_of_trap e)
  · exact .inl (isNext_of_succeedMask e)

theorem execLbEqlimb_stop (rs1 : Slot) (lo : Word) (hi : Word) (s : State) : StopsOnlyForRng (.lbEqlimb rs1 lo hi) s (execLbEqlimb rs1 lo hi s) := by
  rcases execLbEqlimb_cases rs1 lo hi s with
    ⟨-, e⟩ | ⟨x, hx, ⟨-, -, e⟩ | ⟨hh, e⟩⟩
  · exact .inl (isNext_of_trap e)
  · exact .inl (isNext_of_trap e)
  · exact .inl (isNext_of_succeedMask e)

theorem execLbReduce_stop (rd : Slot) (rs2 : Slot) (s : State) : StopsOnlyForRng (.lbReduce rd rs2) s (execLbReduce rd rs2 s) := by
  rcases execLbReduce_cases rd rs2 s with
    ⟨-, e⟩ | ⟨x, y, hx, hy, ⟨-, e⟩ | ⟨hl, e⟩⟩
  · exact .inl (isNext_of_trap e)
  · exact .inl (isNext_of_trap e)
  · exact .inl (isNext_of_succeed e)

theorem execLbMinbits_stop (rs1 : Slot) (s : State) : StopsOnlyForRng (.lbMinbits rs1) s (execLbMinbits rs1 s) := by
  rcases execLbMinbits_cases rs1 s with
    ⟨-, e⟩ | ⟨x, hx, e⟩
  · exact .inl (isNext_of_trap e)
  · exact .inl (isNext_of_succeed e)

theorem execLbFold5_stop (rs1 : Slot) (addr : Word) (s : State) : StopsOnlyForRng (.lbFold5 rs1 addr) s (execLbFold5 rs1 addr s) := by
  rcases execLbFold5_cases rs1 addr s with
    ⟨-, e⟩ | ⟨x, hx, ⟨-, e⟩ | ⟨hv, e⟩⟩
  · exact .inl (isNext_of_trap e)
  · exact .inl (isNext_of_trap e)
  · exact .inl (isNext_of_succeed e)

theorem execEcNkey_stop (rd : Slot) (alg : AlgId) (addr : Word) (len : Word) (s : State) : StopsOnlyForRng (.ecNkey rd alg addr len) s (execEcNkey rd alg addr len s) := by
  rcases execEcNkey_cases rd alg addr len s with
    ⟨-, e⟩ | ⟨-, -, e⟩ | ⟨hl, hv, ⟨hr, e⟩ | ⟨s', hr, e⟩ | ⟨rand, s', hr, e⟩⟩
  · exact .inl (isNext_of_trap e)
  · exact .inl (isNext_of_trap e)
  · exact .inr ⟨e, rngFill_never.1 hr, .inl ⟨_, _, _, _, rfl⟩⟩
  · exact .inl (isNext_of_failWith e)
  · exact .inl (isNext_of_succeed e)

theorem execEcNonce_stop (rs1 : Slot) (ma : Word) (ml : Word) (d : Word) (dl : Word) (s : State) : StopsOnlyForRng (.ecNonce rs1 ma ml d dl) s (execEcNonce rs1 ma ml d dl s) := by
  rcases execEcNonce_cases rs1 ma ml d dl s with
    ⟨-, e⟩ | ⟨k, hk, ⟨-, e⟩ | ⟨hl, ⟨-, e⟩ | ⟨hv, ⟨-, e⟩ | ⟨ho, ⟨hr, e⟩ | ⟨s', hr, e⟩ | ⟨rand, s', hr, e⟩⟩⟩⟩⟩
  · exact .inl (isNext_of_trap e)
  · exact .inl (isNext_of_trap e)
  · exact .inl (isNext_of_trap e)
  · exact .inl (isNext_of_trap e)
  · exact .inr ⟨e, rngFill_never.1 hr, .inr ⟨_, _, _, _, _, rfl⟩⟩
  · exact .inl (isNext_of_failWith e)
  · exact .inl (isNext_of_succeed e)

theorem execSgFixed_stop (rs1 : Slot) (rs2 : Slot) (addr : Word) (s : State) : StopsOnlyForRng (.sgFixed rs1 rs2 addr) s (execSgFixed rs1 rs2 addr s) := by
  rcases execSgFixed_cases rs1 rs2 addr s with
    ⟨-, e⟩ | ⟨x, y, hx, hy, ⟨-, e⟩ | ⟨hl, ⟨-, e⟩ | ⟨hv, e⟩⟩⟩
  · exact .inl (isNext_of_trap e)
  · exact .inl (isNext_of_trap e)
  · exact .inl (isNext_of_trap e)
  · exact .inl (isNext_of_succeed e)

theorem execSgAsn1_stop (rs1 : Slot) (rs2 : Slot) (addr : Word) (s : State) : StopsOnlyForRng (.sgAsn1 rs1 rs2 addr) s (execSgAsn1 rs1 rs2 addr s) := by
  rcases execSgAsn1_cases rs1 rs2 addr s with
    ⟨-, e⟩ | ⟨x, y, hx, hy, ⟨-, e⟩ | ⟨hl, n, rv, sv, hn, hrv, hsv, ⟨-, e⟩ | ⟨-, ⟨-, e⟩ | ⟨-, ⟨-, e⟩ | ⟨hv, e⟩⟩⟩⟩⟩
  · exact .inl (isNext_of_trap e)
  · exact .inl (isNext_of_trap e)
  · exact .inl (isNext_of_trap e)
  · exact .inl (isNext_of_trap e)
  · exact .inl (isNext_of_trap e)
  · exact .inl (isNext_of_succeed e)

/-- A command stops only when the random source never answers, and no command is refused. -/
theorem exec_stop (i : Instr) (s : State) : StopsOnlyForRng i s (exec i s) := by
  cases i with
  | slFree rd => exact execSlFree_stop _ s
  | dgInit rd alg => exact execDgInit_stop _ _ s
  | dgUpdate rd addr len => exact execDgUpdate_stop _ _ _ s
  | dgFinish rd rs1 => exact execDgFinish_stop _ _ s
  | dgRead rs1 addr => exact execDgRead_stop _ _ s
  | ctVerify rs1 addr len => exact execCtVerify_stop _ _ _ s
  | hmKey rd alg addr len => exact execHmKey_stop _ _ _ _ s
  | hmInit rd rs1 => exact execHmInit_stop _ _ s
  | hmUpdate rd addr len => exact execHmUpdate_stop _ _ _ s
  | hmSign rd rs1 => exact execHmSign_stop _ _ s
  | hkExpand rs1 tab n out outLen bigL => exact execHkExpand_stop _ _ _ _ _ _ s
  | lbParse rd addr len n => exact execLbParse_stop _ _ _ _ s
  | lbFormat rs1 addr len => exact execLbFormat_stop _ _ _ s
  | lbEq rs1 rs2 => exact execLbEq_stop _ _ s
  | lbLt rs1 rs2 => exact execLbLt_stop _ _ s
  | lbZero rs1 => exact execLbZero_stop _ s
  | lbEven rs1 => exact execLbEven_stop _ s
  | lbEqlimb rs1 lo hi => exact execLbEqlimb_stop _ _ _ s
  | lbReduce rd rs2 => exact execLbReduce_stop _ _ s
  | lbMinbits rs1 => exact execLbMinbits_stop _ s
  | lbFold5 rs1 addr => exact execLbFold5_stop _ _ s
  | ecNkey rd alg addr len => exact execEcNkey_stop _ _ _ _ s
  | ecNonce rs1 ma ml d dl => exact execEcNonce_stop _ _ _ _ _ s
  | sgFixed rs1 rs2 addr => exact execSgFixed_stop _ _ _ s
  | sgAsn1 rs1 rs2 addr => exact execSgAsn1_stop _ _ _ s

end Sys2Proof.Machine
end

