-- ==== Sys2Proof/Laws/PerInstr.lean ====
section
/-! SUPPORT. Statements for every command, one lemma per constructor: the header the encoder writes is legal and as many
operand words follow it as its opcode says (30_encoding.md R93, R94). -/

namespace Sys2Proof.Laws.HeaderLegal

/-- The encoder writes a legal header with the command's own opcode, and the operand words it calls for. -/
def Statement (i : Instr) : Prop :=
  legalHeader (instrHeader i) = true ∧ opOfByte (hdrOp (instrHeader i)) = some (instrOp i) ∧
    (instrOperands i).length = numOperandWords (instrOp i)

/-- A header made for an opcode with an algorithm in `sel` where the opcode has one, and 0 in every field it does not use. -/
theorem legal_makeHeader (o : Op) (rd rs1 rs2 sel : BitVec 4) (h1 : opUsesRd o = true ∨ rd = 0#4)
    (h2 : opUsesRs1 o = true ∨ rs1 = 0#4) (h3 : opUsesRs2 o = true ∨ rs2 = 0#4)
    (h4 : opUsesSel o = true ∧ sel.toNat ≤ 4 ∨ opUsesSel o = false ∧ sel = 0#4) :
    legalHeader (makeHeader (opByte o) rd rs1 rs2 sel) = true ∧
      opOfByte (hdrOp (makeHeader (opByte o) rd rs1 rs2 sel)) = some o := by
  refine ⟨legalHeader_iff.2 ⟨o, ?_⟩, by rw [hdrOp_makeHeader, opOfByte_opByte]⟩
  rw [decodeHeader_ok]
  simp only [hdrOp_makeHeader, hdrRd_makeHeader, hdrRs1_makeHeader, hdrRs2_makeHeader, hdrSel_makeHeader,
    hdrZero_makeHeader, opOfByte_opByte]
  refine ⟨trivial, trivial, h1, h2, h3, ?_, ?_⟩
  · rcases h4 with ⟨h, -⟩ | ⟨-, h⟩
    · exact .inl h
    · exact .inr h
  · rcases h4 with ⟨-, h⟩ | ⟨h, -⟩
    · exact fun _ => h
    · exact fun h' => absurd (h.symm.trans h') (by decide)

/-- Every algorithm identifier is at most 4. -/
theorem selOfAlg_le (a : AlgId) : (selOfAlg a).toNat ≤ 4 := by cases a <;> decide

theorem slFree (rd : Slot) : Statement (.slFree rd) :=
  let h := legal_makeHeader .slFree _ _ _ _ (.inl rfl) (.inr rfl) (.inr rfl) (.inr ⟨rfl, rfl⟩)
  ⟨h.1, h.2, rfl⟩

theorem dgInit (rd : Slot) (alg : AlgId) : Statement (.dgInit rd alg) :=
  let h := legal_makeHeader .dgInit _ _ _ _ (.inl rfl) (.inr rfl) (.inr rfl) (.inl ⟨rfl, selOfAlg_le alg⟩)
  ⟨h.1, h.2, rfl⟩

theorem dgUpdate (rd : Slot) (addr len : Word) : Statement (.dgUpdate rd addr len) :=
  let h := legal_makeHeader .dgUpdate _ _ _ _ (.inl rfl) (.inr rfl) (.inr rfl) (.inr ⟨rfl, rfl⟩)
  ⟨h.1, h.2, rfl⟩

theorem dgFinish (rd rs1 : Slot) : Statement (.dgFinish rd rs1) :=
  let h := legal_makeHeader .dgFinish _ _ _ _ (.inl rfl) (.inl rfl) (.inr rfl) (.inr ⟨rfl, rfl⟩)
  ⟨h.1, h.2, rfl⟩

theorem dgRead (rs1 : Slot) (addr : Word) : Statement (.dgRead rs1 addr) :=
  let h := legal_makeHeader .dgRead _ _ _ _ (.inr rfl) (.inl rfl) (.inr rfl) (.inr ⟨rfl, rfl⟩)
  ⟨h.1, h.2, rfl⟩

theorem ctVerify (rs1 : Slot) (addr len : Word) : Statement (.ctVerify rs1 addr len) :=
  let h := legal_makeHeader .ctVerify _ _ _ _ (.inr rfl) (.inl rfl) (.inr rfl) (.inr ⟨rfl, rfl⟩)
  ⟨h.1, h.2, rfl⟩

theorem hmKey (rd : Slot) (alg : AlgId) (addr len : Word) : Statement (.hmKey rd alg addr len) :=
  let h := legal_makeHeader .hmKey _ _ _ _ (.inl rfl) (.inr rfl) (.inr rfl) (.inl ⟨rfl, selOfAlg_le alg⟩)
  ⟨h.1, h.2, rfl⟩

theorem hmInit (rd rs1 : Slot) : Statement (.hmInit rd rs1) :=
  let h := legal_makeHeader .hmInit _ _ _ _ (.inl rfl) (.inl rfl) (.inr rfl) (.inr ⟨rfl, rfl⟩)
  ⟨h.1, h.2, rfl⟩

theorem hmUpdate (rd : Slot) (addr len : Word) : Statement (.hmUpdate rd addr len) :=
  let h := legal_makeHeader .hmUpdate _ _ _ _ (.inl rfl) (.inr rfl) (.inr rfl) (.inr ⟨rfl, rfl⟩)
  ⟨h.1, h.2, rfl⟩

theorem hmSign (rd rs1 : Slot) : Statement (.hmSign rd rs1) :=
  let h := legal_makeHeader .hmSign _ _ _ _ (.inl rfl) (.inl rfl) (.inr rfl) (.inr ⟨rfl, rfl⟩)
  ⟨h.1, h.2, rfl⟩

theorem hkExpand (rs1 : Slot) (tab nChunks out outLen bigL : Word) : Statement (.hkExpand rs1 tab nChunks out outLen bigL) :=
  let h := legal_makeHeader .hkExpand _ _ _ _ (.inr rfl) (.inl rfl) (.inr rfl) (.inr ⟨rfl, rfl⟩)
  ⟨h.1, h.2, rfl⟩

theorem lbParse (rd : Slot) (addr len numLimbs : Word) : Statement (.lbParse rd addr len numLimbs) :=
  let h := legal_makeHeader .lbParse _ _ _ _ (.inl rfl) (.inr rfl) (.inr rfl) (.inr ⟨rfl, rfl⟩)
  ⟨h.1, h.2, rfl⟩

theorem lbFormat (rs1 : Slot) (addr len : Word) : Statement (.lbFormat rs1 addr len) :=
  let h := legal_makeHeader .lbFormat _ _ _ _ (.inr rfl) (.inl rfl) (.inr rfl) (.inr ⟨rfl, rfl⟩)
  ⟨h.1, h.2, rfl⟩

theorem lbEq (rs1 rs2 : Slot) : Statement (.lbEq rs1 rs2) :=
  let h := legal_makeHeader .lbEq _ _ _ _ (.inr rfl) (.inl rfl) (.inl rfl) (.inr ⟨rfl, rfl⟩)
  ⟨h.1, h.2, rfl⟩

theorem lbLt (rs1 rs2 : Slot) : Statement (.lbLt rs1 rs2) :=
  let h := legal_makeHeader .lbLt _ _ _ _ (.inr rfl) (.inl rfl) (.inl rfl) (.inr ⟨rfl, rfl⟩)
  ⟨h.1, h.2, rfl⟩

theorem lbZero (rs1 : Slot) : Statement (.lbZero rs1) :=
  let h := legal_makeHeader .lbZero _ _ _ _ (.inr rfl) (.inl rfl) (.inr rfl) (.inr ⟨rfl, rfl⟩)
  ⟨h.1, h.2, rfl⟩

theorem lbEven (rs1 : Slot) : Statement (.lbEven rs1) :=
  let h := legal_makeHeader .lbEven _ _ _ _ (.inr rfl) (.inl rfl) (.inr rfl) (.inr ⟨rfl, rfl⟩)
  ⟨h.1, h.2, rfl⟩

theorem lbEqlimb (rs1 : Slot) (lo hi : Word) : Statement (.lbEqlimb rs1 lo hi) :=
  let h := legal_makeHeader .lbEqlimb _ _ _ _ (.inr rfl) (.inl rfl) (.inr rfl) (.inr ⟨rfl, rfl⟩)
  ⟨h.1, h.2, rfl⟩

theorem lbReduce (rd rs2 : Slot) : Statement (.lbReduce rd rs2) :=
  let h := legal_makeHeader .lbReduce _ _ _ _ (.inl rfl) (.inr rfl) (.inl rfl) (.inr ⟨rfl, rfl⟩)
  ⟨h.1, h.2, rfl⟩

theorem lbMinbits (rs1 : Slot) : Statement (.lbMinbits rs1) :=
  let h := legal_makeHeader .lbMinbits _ _ _ _ (.inr rfl) (.inl rfl) (.inr rfl) (.inr ⟨rfl, rfl⟩)
  ⟨h.1, h.2, rfl⟩

theorem lbFold5 (rs1 : Slot) (addr : Word) : Statement (.lbFold5 rs1 addr) :=
  let h := legal_makeHeader .lbFold5 _ _ _ _ (.inr rfl) (.inl rfl) (.inr rfl) (.inr ⟨rfl, rfl⟩)
  ⟨h.1, h.2, rfl⟩

theorem ecNkey (rd : Slot) (alg : AlgId) (addr len : Word) : Statement (.ecNkey rd alg addr len) :=
  let h := legal_makeHeader .ecNkey _ _ _ _ (.inl rfl) (.inr rfl) (.inr rfl) (.inl ⟨rfl, selOfAlg_le alg⟩)
  ⟨h.1, h.2, rfl⟩

theorem ecNonce (rs1 : Slot) (mdAddr mdLen dst dstLen : Word) : Statement (.ecNonce rs1 mdAddr mdLen dst dstLen) :=
  let h := legal_makeHeader .ecNonce _ _ _ _ (.inr rfl) (.inl rfl) (.inr rfl) (.inr ⟨rfl, rfl⟩)
  ⟨h.1, h.2, rfl⟩

theorem sgFixed (rs1 rs2 : Slot) (addr : Word) : Statement (.sgFixed rs1 rs2 addr) :=
  let h := legal_makeHeader .sgFixed _ _ _ _ (.inr rfl) (.inl rfl) (.inl rfl) (.inr ⟨rfl, rfl⟩)
  ⟨h.1, h.2, rfl⟩

theorem sgAsn1 (rs1 rs2 : Slot) (addr : Word) : Statement (.sgAsn1 rs1 rs2 addr) :=
  let h := legal_makeHeader .sgAsn1 _ _ _ _ (.inr rfl) (.inl rfl) (.inl rfl) (.inr ⟨rfl, rfl⟩)
  ⟨h.1, h.2, rfl⟩

end Sys2Proof.Laws.HeaderLegal
end

