-- ==== Sys2Proof/Laws/Step.lean ====
section
/-! SUPPORT. What one step of the machine can do, said once: later proofs cite these lemmas and never unfold the step. -/

namespace Sys2Proof.Machine

/-- Everything a word written to `CMD` can do (10_state.md R38). -/
theorem writeCmd_cases {w : Word} {s t : State} (h : writeCmd w s = .next t) :
    (s.fault ≠ 0#8 ∧ t = s) ∨
    (s.fault = 0#8 ∧ ∃ hdr tail, s.cmdBuf ++ [w] = hdr :: tail ∧
      ((legalHeader hdr = false ∧ t = raiseFault .illegalCommand hdr s) ∨
       (legalHeader hdr = true ∧ ∃ i, decodeRecord (hdr :: tail) = .ok i ∧ exec i { s with cmdBuf := [] } = .next t) ∨
       (legalHeader hdr = true ∧ (∃ e, decodeRecord (hdr :: tail) = .error e) ∧ t = { s with cmdBuf := hdr :: tail }))) := by
  unfold writeCmd at h
  by_cases hf : s.fault = 0#8
  · rw [if_neg (by simp [hf])] at h
    refine .inr ⟨hf, ?_⟩
    obtain ⟨hdr, tail, hb⟩ : ∃ hdr tail, s.cmdBuf ++ [w] = hdr :: tail := by
      cases hq : s.cmdBuf <;> simp
    refine ⟨hdr, tail, hb, ?_⟩
    rw [hb] at h
    simp only [List.headD_cons] at h
    cases hl : legalHeader hdr
    · simp [hl] at h; exact .inl ⟨rfl, h.symm⟩
    · simp only [hl, not_true_eq_false, if_false] at h
      cases hd : decodeRecord (hdr :: tail) with
      | ok i => rw [hd] at h; exact .inr (.inl ⟨rfl, i, rfl, h⟩)
      | error e => rw [hd] at h; simp at h; exact .inr (.inr ⟨rfl, ⟨e, rfl⟩, h.symm⟩)
  · simp [hf] at h; exact .inl ⟨hf, h.symm⟩

/-- Everything one step can do: wait, or answer the next action of the host. -/
theorem step_cases {s t : State} (h : step s = .next t) :
    (s.inbox = [] ∧ t = s) ∨
    (∃ a rest, s.inbox = a :: rest ∧
      ((∃ w, a = .regWrite 0 4 w ∧ writeCmd w { s with inbox := rest } = .next t) ∨
       (∃ off x, a = .regWrite off 4 x ∧ off ≠ 0 ∧ t = { s with inbox := rest }) ∨
       (∃ off, a = .regRead off 4 ∧ t = { s with inbox := rest, answers := .reg (readRegister s off) :: s.answers }) ∨
       (∃ b bs, a = .memWrite b bs ∧ b + bs.length ≤ s.cfg.memSize ∧ t = { s with inbox := rest, mem := memWriteBytes s.mem b bs }) ∨
       (∃ b n, a = .memRead b n ∧ b + n ≤ s.cfg.memSize ∧ t = { s with inbox := rest, answers := .bytes (memReadBytes s.mem b n) :: s.answers }) ∨
       (∃ m, a = .reset m ∧ t = State.assertReset { s with inbox := rest } m))) := by
  unfold step nextAction at h
  cases hin : s.inbox with
  | nil => rw [hin] at h; simp only [Host.Outcome.next.injEq] at h; exact .inl ⟨rfl, h.symm⟩
  | cons a rest =>
    rw [hin] at h
    refine .inr ⟨a, rest, rfl, ?_⟩
    simp only at h
    cases a with
    | regWrite off size x =>
      simp only [hostAct, hostRegWrite, registerAccessOk, cmdOffset] at h
      by_cases h1 : size = 4 ∧ off % 4 = 0
      · obtain ⟨rfl, h2⟩ := h1
        by_cases h3 : off = 0
        · subst h3; simp at h; exact .inl ⟨x, rfl, h⟩
        · simp [h2, h3] at h; exact .inr (.inl ⟨off, x, rfl, h3, h.symm⟩)
      · simp [h1] at h
    | regRead off size =>
      simp only [hostAct, hostRegRead, registerAccessOk] at h
      by_cases h1 : size = 4 ∧ off % 4 = 0
      · obtain ⟨rfl, h2⟩ := h1
        simp [h2] at h; exact .inr (.inr (.inl ⟨off, rfl, h.symm⟩))
      · simp [h1] at h
    | memWrite b bs =>
      simp only [hostAct, hostMemWrite, State.validRange] at h
      by_cases h1 : b + bs.length ≤ s.cfg.memSize
      · simp [h1] at h; exact .inr (.inr (.inr (.inl ⟨b, bs, rfl, h1, h.symm⟩)))
      · simp [h1] at h
    | memRead b n =>
      simp only [hostAct, hostMemRead, State.validRange] at h
      by_cases h1 : b + n ≤ s.cfg.memSize
      · simp [h1] at h; exact .inr (.inr (.inr (.inr (.inl ⟨b, n, rfl, h1, h.symm⟩))))
      · simp [h1] at h
    | reset m =>
      simp only [hostAct, Host.Outcome.next.injEq] at h
      exact .inr (.inr (.inr (.inr (.inr ⟨m, rfl, h.symm⟩))))


end Sys2Proof.Machine
end

