-- ==== Sys2Proof/Tests/Slice0.lean ====
section
/-! SUPPORT. Small tests of single steps, their expected results taken from spec/95_test_vectors.md (V.., P..) and from the rules by
hand, and one witness theorem for every statement with hypotheses. -/

open Sys2Proof Sys2Proof.Machine

namespace Sys2Proof.Tests

/-! ## Well-formedness: one ill-formed term for each check -/

/-- A well-formed record, DG_INIT s0, SHA256 (P1). -/
def okRecord : Record := { op := 0x10#8, rd := 0#4, rs1 := 0#4, rs2 := 0#4, sel := 1#4, zero := 0#8, operands := [] }

theorem test_wf_ok : okRecord.wellFormed = true := by decide
/-- V267: opcode `0x02` is not assigned. -/
theorem test_wf_opcode : Record.wellFormed { okRecord with op := 0x02#8 } = false := by decide
/-- V272: a reserved bit is set. -/
theorem test_wf_reserved : Record.wellFormed { okRecord with zero := 1#8 } = false := by decide
/-- V241: `rs1` is unused. -/
theorem test_wf_rs1 : Record.wellFormed { okRecord with rs1 := 1#4 } = false := by decide
/-- V279: `rs2` is unused. -/
theorem test_wf_rs2 : Record.wellFormed { okRecord with rs2 := 1#4 } = false := by decide
/-- V280: `rd` is unused by LB_EQ. -/
theorem test_wf_rd :
    Record.wellFormed { op := 0x32#8, rd := 1#4, rs1 := 1#4, rs2 := 2#4, sel := 0#4, zero := 0#8, operands := [] } = false := by
  decide
/-- V281: `sel` is unused by LB_EQ. -/
theorem test_wf_sel_unused :
    Record.wellFormed { op := 0x32#8, rd := 0#4, rs1 := 0#4, rs2 := 0#4, sel := 1#4, zero := 0#8, operands := [] } = false := by
  decide
/-- V274: 5 names no algorithm; 4 does. -/
theorem test_wf_sel_reserved :
    Record.wellFormed { okRecord with sel := 5#4 } = false ∧ Record.wellFormed { okRecord with sel := 4#4 } = true := by decide
/-- R94: DG_INIT takes no operand word. -/
theorem test_wf_operands : Record.wellFormed { okRecord with operands := [0#32] } = false := by decide
/-- R9: `MAX_LIMBS` is 1 to 255. -/
theorem test_wf_max_limbs :
    Config.wellFormed { State.reset.cfg with maxLimbs := 0 } = false ∧
    Config.wellFormed { State.reset.cfg with maxLimbs := 256 } = false ∧
    Config.wellFormed { State.reset.cfg with maxLimbs := 255 } = true := by decide
/-- R9: `MEM_SIZE` is 1 to 2^32. -/
theorem test_wf_mem_size :
    Config.wellFormed { State.reset.cfg with memSize := 0 } = false ∧
    Config.wellFormed { State.reset.cfg with memSize := 2 ^ 32 + 1 } = false ∧
    Config.wellFormed { State.reset.cfg with memSize := 2 ^ 32 } = true := by decide

/-! ## Decoding: V240 to V264, one record for every command -/

/-- V240: `SL_FREE s7`. -/
theorem test_decode_slFree :
    decodeRecord [0x00000701#32] = .ok (.slFree 7) ∧
    encode (.slFree 7) = [0x00000701#32] := by decide
/-- V241: `DG_INIT s15, SHA512_256`. -/
theorem test_decode_dgInit :
    decodeRecord [0x00400F10#32] = .ok (.dgInit 15 .sha512_256) ∧
    encode (.dgInit 15 .sha512_256) = [0x00400F10#32] := by decide
/-- V242: `DG_UPDATE s2, [0x1234, 0x56]`. -/
theorem test_decode_dgUpdate :
    decodeRecord [0x00000211#32, 0x00001234#32, 0x00000056#32] = .ok (.dgUpdate 2 0x1234#32 0x56#32) ∧
    encode (.dgUpdate 2 0x1234#32 0x56#32) = [0x00000211#32, 0x00001234#32, 0x00000056#32] := by decide
/-- V243: `DG_FINISH s5, s4`. -/
theorem test_decode_dgFinish :
    decodeRecord [0x00004512#32] = .ok (.dgFinish 5 4) ∧
    encode (.dgFinish 5 4) = [0x00004512#32] := by decide
/-- V244: `DG_READ s5, [0x2000]`. -/
theorem test_decode_dgRead :
    decodeRecord [0x00005013#32, 0x00002000#32] = .ok (.dgRead 5 0x2000#32) ∧
    encode (.dgRead 5 0x2000#32) = [0x00005013#32, 0x00002000#32] := by decide
/-- V245: `CT_VERIFY s5, [0x2000, 32]`. -/
theorem test_decode_ctVerify :
    decodeRecord [0x00005014#32, 0x00002000#32, 0x00000020#32] = .ok (.ctVerify 5 0x2000#32 32#32) ∧
    encode (.ctVerify 5 0x2000#32 32#32) = [0x00005014#32, 0x00002000#32, 0x00000020#32] := by decide
/-- V246: `HM_KEY s3, SHA1, [0x100, 20]`. -/
theorem test_decode_hmKey :
    decodeRecord [0x00000320#32, 0x00000100#32, 0x00000014#32] = .ok (.hmKey 3 .sha1 0x100#32 20#32) ∧
    encode (.hmKey 3 .sha1 0x100#32 20#32) = [0x00000320#32, 0x00000100#32, 0x00000014#32] := by decide
/-- V247: `HM_INIT s4, s3`. -/
theorem test_decode_hmInit :
    decodeRecord [0x00003421#32] = .ok (.hmInit 4 3) ∧
    encode (.hmInit 4 3) = [0x00003421#32] := by decide
/-- V248: `HM_UPDATE s4, [0x120, 8]`. -/
theorem test_decode_hmUpdate :
    decodeRecord [0x00000422#32, 0x00000120#32, 0x00000008#32] = .ok (.hmUpdate 4 0x120#32 8#32) ∧
    encode (.hmUpdate 4 0x120#32 8#32) = [0x00000422#32, 0x00000120#32, 0x00000008#32] := by decide
/-- V249: `HM_SIGN s9, s4`. -/
theorem test_decode_hmSign :
    decodeRecord [0x00004923#32] = .ok (.hmSign 9 4) ∧
    encode (.hmSign 9 4) = [0x00004923#32] := by decide
/-- V250: `HK_EXPAND s2, [0x200], 1, [0x300, 42], 42`. -/
theorem test_decode_hkExpand :
    decodeRecord [0x00002028#32, 0x00000200#32, 0x00000001#32, 0x00000300#32, 0x0000002A#32, 0x0000002A#32] = .ok (.hkExpand 2 0x200#32 1#32 0x300#32 42#32 42#32) ∧
    encode (.hkExpand 2 0x200#32 1#32 0x300#32 42#32 42#32) = [0x00002028#32, 0x00000200#32, 0x00000001#32, 0x00000300#32, 0x0000002A#32, 0x0000002A#32] := by decide
/-- V251: `LB_PARSE s1, [0x40, 32], 4`. -/
theorem test_decode_lbParse :
    decodeRecord [0x00000130#32, 0x00000040#32, 0x00000020#32, 0x00000004#32] = .ok (.lbParse 1 0x40#32 32#32 4#32) ∧
    encode (.lbParse 1 0x40#32 32#32 4#32) = [0x00000130#32, 0x00000040#32, 0x00000020#32, 0x00000004#32] := by decide
/-- V252: `LB_FORMAT s1, [0x80, 32]`. -/
theorem test_decode_lbFormat :
    decodeRecord [0x00001031#32, 0x00000080#32, 0x00000020#32] = .ok (.lbFormat 1 0x80#32 32#32) ∧
    encode (.lbFormat 1 0x80#32 32#32) = [0x00001031#32, 0x00000080#32, 0x00000020#32] := by decide
/-- V253: `LB_EQ s1, s2`. -/
theorem test_decode_lbEq :
    decodeRecord [0x00021032#32] = .ok (.lbEq 1 2) ∧
    encode (.lbEq 1 2) = [0x00021032#32] := by decide
/-- V254: `LB_LT s15, s0`. -/
theorem test_decode_lbLt :
    decodeRecord [0x0000F033#32] = .ok (.lbLt 15 0) ∧
    encode (.lbLt 15 0) = [0x0000F033#32] := by decide
/-- V255: `LB_ZERO s1`. -/
theorem test_decode_lbZero :
    decodeRecord [0x00001034#32] = .ok (.lbZero 1) ∧
    encode (.lbZero 1) = [0x00001034#32] := by decide
/-- V256: `LB_EVEN s1`. -/
theorem test_decode_lbEven :
    decodeRecord [0x00001035#32] = .ok (.lbEven 1) ∧
    encode (.lbEven 1) = [0x00001035#32] := by decide
/-- V257: `LB_EQLIMB s1, 0xFFFFFFFF, 0x7FFFFFFF`. -/
theorem test_decode_lbEqlimb :
    decodeRecord [0x00001036#32, 0xFFFFFFFF#32, 0x7FFFFFFF#32] = .ok (.lbEqlimb 1 0xFFFFFFFF#32 0x7FFFFFFF#32) ∧
    encode (.lbEqlimb 1 0xFFFFFFFF#32 0x7FFFFFFF#32) = [0x00001036#32, 0xFFFFFFFF#32, 0x7FFFFFFF#32] := by decide
/-- V258: `LB_REDUCE s1, s2`. -/
theorem test_decode_lbReduce :
    decodeRecord [0x00020137#32] = .ok (.lbReduce 1 2) ∧
    encode (.lbReduce 1 2) = [0x00020137#32] := by decide
/-- V259: `LB_MINBITS s1`. -/
theorem test_decode_lbMinbits :
    decodeRecord [0x00001038#32] = .ok (.lbMinbits 1) ∧
    encode (.lbMinbits 1) = [0x00001038#32] := by decide
/-- V260: `LB_FOLD5 s1, [0xC0]`. -/
theorem test_decode_lbFold5 :
    decodeRecord [0x00001039#32, 0x000000C0#32] = .ok (.lbFold5 1 0xC0#32) ∧
    encode (.lbFold5 1 0xC0#32) = [0x00001039#32, 0x000000C0#32] := by decide
/-- V261: `EC_NKEY s6, SHA384, [0x400, 48]`. -/
theorem test_decode_ecNkey :
    decodeRecord [0x00200640#32, 0x00000400#32, 0x00000030#32] = .ok (.ecNkey 6 .sha384 0x400#32 48#32) ∧
    encode (.ecNkey 6 .sha384 0x400#32 48#32) = [0x00200640#32, 0x00000400#32, 0x00000030#32] := by decide
/-- V262: `EC_NONCE s6, [0x420, 48], [0x460, 48]`. -/
theorem test_decode_ecNonce :
    decodeRecord [0x00006041#32, 0x00000420#32, 0x00000030#32, 0x00000460#32, 0x00000030#32] = .ok (.ecNonce 6 0x420#32 48#32 0x460#32 48#32) ∧
    encode (.ecNonce 6 0x420#32 48#32 0x460#32 48#32) = [0x00006041#32, 0x00000420#32, 0x00000030#32, 0x00000460#32, 0x00000030#32] := by decide
/-- V263: `SG_FIXED s1, s2, [0x500]`. -/
theorem test_decode_sgFixed :
    decodeRecord [0x00021048#32, 0x00000500#32] = .ok (.sgFixed 1 2 0x500#32) ∧
    encode (.sgFixed 1 2 0x500#32) = [0x00021048#32, 0x00000500#32] := by decide
/-- V264: `SG_ASN1 s1, s2, [0x580]`. -/
theorem test_decode_sgAsn1 :
    decodeRecord [0x00021049#32, 0x00000580#32] = .ok (.sgAsn1 1 2 0x580#32) ∧
    encode (.sgAsn1 1 2 0x580#32) = [0x00021049#32, 0x00000580#32] := by decide

/-- V240 to V264, the illegal variants: an unused field is not 0. -/
theorem test_decode_unused_1 :
    ([0x00001701#32, 0x00401F10#32, 0x00001211#32, 0x00014512#32, 0x00005113#32, 0x00005114#32,
      0x00001320#32, 0x00013421#32, 0x00001422#32, 0x00014923#32, 0x00002128#32, 0x00001130#32,
      0x00001131#32] : List Word).all (fun h => !legalHeader h) = true := by decide
theorem test_decode_unused_2 :
    ([0x00021132#32, 0x0000F133#32, 0x00001134#32, 0x00001135#32, 0x00001136#32, 0x00021137#32,
      0x00001138#32, 0x00001139#32, 0x00201640#32, 0x00006141#32, 0x00021148#32, 0x00021149#32] : List Word).all (fun h => !legalHeader h) = true := by decide
/-- V265 to V282: the further illegal headers. -/
theorem test_decode_illegal :
    ([0x00000000#32, 0xFFFFFFFF#32, 0x00000002#32, 0x00000015#32, 0x00000024#32, 0x0000003A#32,
      0x0000004A#32, 0x01000010#32, 0x80100010#32, 0x00500010#32, 0x00F00020#32, 0x00500040#32,
      0x00100011#32, 0x00100112#32, 0x00010010#32, 0x00021132#32, 0x00100032#32, 0x00001037#32] : List Word).all
        (fun h => !legalHeader h) = true := by decide
/-- Section 2.8, "Legal headers that look unusual". -/
theorem test_decode_unusual :
    decodeRecord [0x00400010#32] = .ok (.dgInit 0 .sha512_256) ∧ decodeRecord [0x00000010#32] = .ok (.dgInit 0 .sha1) ∧
    decodeRecord [0x0000FF12#32] = .ok (.dgFinish 15 15) ∧ decodeRecord [0x000FF032#32] = .ok (.lbEq 15 15) ∧
    decodeRecord [0x00000001#32] = .ok (.slFree 0) ∧ decodeRecord [0x00000032#32] = .ok (.lbEq 0 0) := by decide
/-- Section 2.8, "Decoding a word stream". -/
theorem test_decode_stream :
    decodeStream [0x00100010#32, 0x00000011#32, 0x00000100#32, 0x00000003#32, 0x00000112#32] =
      .ok (.dgInit 0 .sha256, [0x00000011#32, 0x00000100#32, 0x00000003#32, 0x00000112#32]) ∧
    decodeStream [0x00000011#32, 0x00000100#32, 0x00000003#32, 0x00000112#32] =
      .ok (.dgUpdate 0 0x100#32 3#32, [0x00000112#32]) ∧
    decodeStream [0x00000112#32] = .ok (.dgFinish 1 0, []) := by decide
/-- The table's numbering: the header in bits 31 to 0, each operand word above the last (V242), and operand words of zeros where
no bits are given. -/
theorem test_table_word :
    decodeTableWord 96 0x000000560000123400000211 = some (.dgUpdate 2 0x1234#32 0x56#32) ∧
    decodeTableWord 32 0x00000211 = some (.dgUpdate 2 0#32 0#32) ∧
    decodeTableWord 32 0x00001028 = some (.hkExpand 1 0#32 0#32 0#32 0#32 0#32) ∧
    decodeTableWord 32 0x00000002 = none := by decide
/-- The assembler's pseudo-instruction DIGEST (R105). -/
theorem test_pseudo :
    expandPseudo (.digest 0 .sha256 0x100#32 3#32) = [.dgInit 0 .sha256, .dgUpdate 0 0x100#32 3#32, .dgFinish 0 0] := by decide

/-! ## A small state -/

/-- The state a result gives, or the reset state when it gives none. -/
def after : Result → State
  | .next t => t
  | .fault _ => State.reset
  | .refused _ => State.reset

/-- Whether a result is a next state. -/
def isNext : Result → Bool
  | .next _ => true
  | .fault _ => false
  | .refused _ => false

/-- Eight words, all 0. -/
def zeroChain : Chain := .w32 (List.replicate 8 0#32)

/-- A BlockCtx of SHA256 after one block. -/
def padBlock : BlockCtx := { alg := .sha256, h := zeroChain, nblocks := 1#64 }

/-- The SHA256 Context of P1 before its finish. -/
def abcCtx : DigestCtx :=
  { block := { alg := .sha256, h := refInitialState .sha256, nblocks := 0#64 }, pending := [0x61#8, 0x62#8, 0x63#8] }

/-- A digest of 32 zero bytes. -/
def zeroDigest : DigestVal := { alg := .sha256, value := zeros 32 }

/-- A key whose pad contexts are `padBlock`. -/
def zeroKey : HmacKey := { alg := .sha256, inner := padBlock, outer := padBlock }

/-- An HMAC Context just started from `zeroKey`. -/
def zeroCtx : HmacCtx := { alg := .sha256, inner := { block := padBlock, pending := [] }, outer := padBlock }

/-- A state with one object of every kind: s0 a digest Context, s1 a digest, s2 a key, s3 an HMAC Context, s4 to s8 big integers
(5, 0), (7, 0), (0), (0, 1), (3, 0, 0), s9 a nonce key, the rest empty; byte `0x50` of `MEM` is 1. -/
def sample : State :=
  { State.reset with
    slots := #v[.digestCtx abcCtx, .digestVal zeroDigest, .hmacKey zeroKey, .hmacCtx zeroCtx, .limbs [5, 0], .limbs [7, 0],
      .limbs [0], .limbs [0, 1], .limbs [3, 0, 0], .nonceKey { alg := .sha256, value := zeros 32 },
      .empty, .empty, .empty, .empty, .empty, .empty]
    mem := [(0x50, 1#8)] }

theorem test_sample_inv : sample.Inv := by decide

/-- A state like `sample` with 32-bit limbs. -/
def sample32 : State := { sample with cfg := { sample.cfg with limbWidth := .w32 } }

theorem test_sample32_inv : sample32.Inv := by decide

/-- A state with an action of the host waiting. -/
def awaiting (a : HostAction) (s : State) : State := { s with inbox := [a] }

/-- A faulted state (BAD_ADDRESS of a DG_READ). -/
def faulted : State := { sample with fault := 0x03#8, faultCmd := 0x00001013#32, faultSeq := 2#32 }

theorem test_faulted_inv : faulted.Inv := by decide
/-! ## Single commands, their results from 95_test_vectors.md -/

/-- R290, V226: freeing empties the slot and counts, and freeing an empty slot is no error. -/
theorem test_slFree :
    (after (exec (.slFree 0) sample)).slot 0 = .empty ∧ (after (exec (.slFree 0) sample)).cmdSeq = 1#32 ∧
    (after (exec (.slFree 15) sample)).fault = 0#8 := by decide
/-- P1 step 1. -/
theorem test_dgInit :
    (after (exec (.dgInit 15 .sha256) sample)).slot 15 =
      .digestCtx
        { block :=
            { alg := .sha256
              h := .w32 [0x6a09e667#32, 0xbb67ae85#32, 0x3c6ef372#32, 0xa54ff53a#32, 0x510e527f#32, 0x9b05688c#32,
                0x1f83d9ab#32, 0x5be0cd19#32]
              nblocks := 0#64 }
          pending := [] } := by decide
/-- P1 step 3: two bytes more are pending, nothing is compressed. -/
theorem test_dgUpdate :
    (after (exec (.dgUpdate 0 0x101#32 2#32)
      (sample.setSlot 0 (.digestCtx { abcCtx with pending := [0x61#8] }) |>.store 0x101 [0x62#8, 0x63#8]))).slot 0 =
      .digestCtx abcCtx := by decide
/-- V163, V164: the range check at the top of `MEM`, for no byte. -/
theorem test_dgUpdate_range :
    (after (exec (.dgUpdate 0 0x10000#32 0#32) sample)).fault = 0x00#8 ∧
    (after (exec (.dgUpdate 0 0x10001#32 0#32) sample)).fault = 0x03#8 := by decide
/-- P1 step 4, V4. -/
theorem test_dgFinish :
    (after (exec (.dgFinish 1 0) sample)).slot 1 =
      .digestVal
        { alg := .sha256
          value := beBytes 32 0xba7816bf8f01cfea414140de5dae2223b00361a396177a9cb410ff61f20015ad } ∧
    (after (exec (.dgFinish 1 0) sample)).slot 0 = .empty := by decide +kernel
/-- V168: the source is checked, not the destination. -/
theorem test_dgFinish_kind :
    (after (exec (.dgFinish 0 1) sample)).fault = 0x02#8 ∧
    (after (exec (.dgFinish 0 1) sample)).faultCmd = 0x00001012#32 := by decide
/-- P1 step 5: the digest's length in `RES`, its bytes in order. -/
theorem test_dgRead :
    let s := sample.setSlot 1 (.digestVal { alg := .sha1, value := (List.range 20).map (BitVec.ofNat 8) })
    let t := after (exec (.dgRead 1 0x200#32) s)
    t.res = 20#64 ∧ memRead t.mem 0x201 = 1#8 ∧ memRead t.mem 0x213 = 19#8 ∧ memRead t.mem 0x214 = 0#8 := by decide
/-- V170, V171. -/
theorem test_dgRead_range :
    (after (exec (.dgRead 1 0xFFE0#32) sample)).fault = 0x00#8 ∧
    (after (exec (.dgRead 1 0xFFE1#32) sample)).fault = 0x03#8 := by decide
/-- R170: equal bytes, and one byte that differs (`MEM[0x50]`). -/
theorem test_ctVerify :
    (after (exec (.ctVerify 1 0x60#32 32#32) sample)).err = 0x00#8 ∧
    (after (exec (.ctVerify 1 0x31#32 32#32) sample)).err = 0x01#8 := by decide
/-- V172: a wrong length is an ordinary mismatch. -/
theorem test_ctVerify_length :
    (after (exec (.ctVerify 1 0x10000#32 0#32) sample)).err = 0x01#8 ∧
    (after (exec (.ctVerify 1 0x10000#32 0#32) sample)).fault = 0x00#8 := by decide

/-- The key of V31, RFC 4231 test case 1, as the spec gives it. -/
def rfcKey : HmacKey :=
  { alg := .sha256
    inner :=
      { alg := .sha256
        h := .w32 [0x2bb21804#32, 0x23b95bf9#32, 0xb4e8258c#32, 0xfab5e654#32, 0x11f2921e#32, 0x4feb78ee#32,
          0x9890e5fe#32, 0x64b78036#32]
        nblocks := 1#64 }
    outer :=
      { alg := .sha256
        h := .w32 [0x27e7739f#32, 0xd9562583#32, 0x56d666e2#32, 0x5f810de8#32, 0xec5e4f8a#32, 0x553d4fb8#32,
          0x3cff20ba#32, 0x10234b40#32]
        nblocks := 1#64 } }

/-- "Hi There". -/
def hiThere : List Byte := [0x48#8, 0x69#8, 0x20#8, 0x54#8, 0x68#8, 0x65#8, 0x72#8, 0x65#8]

/-- V31: both pad contexts. -/
theorem test_hmKey :
    (after (exec (.hmKey 3 .sha256 0x100#32 20#32) (sample.store 0x100 (List.replicate 20 0x0b#8)))).slot 3 =
      .hmacKey rfcKey := by decide +kernel
/-- V177, V178. -/
theorem test_hmKey_range :
    (after (exec (.hmKey 3 .sha256 0xFFFF#32 2#32) sample)).fault = 0x03#8 := by decide
/-- P2: the key stays, the Context starts from its inner pad. -/
theorem test_hmInit :
    (after (exec (.hmInit 4 3) (sample.setSlot 3 (.hmacKey rfcKey)))).slot 4 =
      .hmacCtx { alg := .sha256, inner := { block := rfcKey.inner, pending := [] }, outer := rfcKey.outer } ∧
    (after (exec (.hmInit 4 3) (sample.setSlot 3 (.hmacKey rfcKey)))).slot 3 = .hmacKey rfcKey := by decide
/-- V175: a digest is no key. -/
theorem test_hmInit_kind : (after (exec (.hmInit 2 1) sample)).fault = 0x02#8 := by decide
/-- P2: eight bytes pending in the inner Context. -/
theorem test_hmUpdate :
    (after (exec (.hmUpdate 3 0x120#32 8#32) (sample.store 0x120 hiThere))).slot 3 =
      .hmacCtx { zeroCtx with inner := { block := padBlock, pending := hiThere } } := by decide
/-- V179: a key is no Context. -/
theorem test_hmUpdate_kind : (after (exec (.hmUpdate 2 0#32 1#32) sample)).fault = 0x02#8 := by decide
/-- V31: the tag. -/
theorem test_hmSign :
    let s := sample.setSlot 4
      (.hmacCtx { alg := .sha256, inner := { block := rfcKey.inner, pending := hiThere }, outer := rfcKey.outer })
    (after (exec (.hmSign 5 4) s)).slot 5 =
      .digestVal
        { alg := .sha256
          value := beBytes 32 0xb0344c61d8db38535ca8afceaf0bf12b881dc200c9833da726e9376c2e32cff7 } ∧
    (after (exec (.hmSign 5 4) s)).slot 4 = .empty := by decide +kernel
/-- R169: the counter of the inner Context at its largest makes the bit length too long. -/
theorem test_hmSign_overflow :
    (after (exec (.hmSign 3 3) (sample.setSlot 3
      (.hmacCtx { zeroCtx with inner := { block := { padBlock with nblocks := BitVec.allOnes 64 }, pending := [] } })))).fault =
      0x05#8 := by decide
/-- V53: `T(1)` of RFC 5869 test case 1, its key and info in `MEM`, the table at `0x200`. -/
theorem test_hkExpand :
    let prk := beBytes 32 0x077709362c2e32df0ddc3f0dc47bba6390b6c73bb50f9c3122ec844ad7c2b3e5
    let s := (((sample.setSlot 2 (.hmacKey (hmacKeyNew .reference .sha256 prk))).store 0x200
      [0x40#8, 0x02#8, 0#8, 0#8, 10#8, 0#8, 0#8, 0#8]).store 0x240 (beBytes 10 0xf0f1f2f3f4f5f6f7f8f9))
    memReadBytes (after (exec (.hkExpand 2 0x200#32 1#32 0x300#32 32#32 32#32) s)).mem 0x300 33 =
      beBytes 32 0x3cb25f25faacd57a90434f64d0362f2a2d2d0a90cf1a5a4c5db02d56ecc4c5bf ++ [0#8] := by decide +kernel
/-- V183, V190, V191: unequal lengths are an error; output over the table, or over a chunk, is a fault found first. -/
theorem test_hkExpand_order :
    let s := sample.store 0x200 [0x40#8, 0x02#8, 0#8, 0#8, 3#8, 0#8, 0#8, 0#8]
    (after (exec (.hkExpand 2 0x200#32 1#32 0x300#32 42#32 41#32) s)).err = 0x01#8 ∧
    (after (exec (.hkExpand 2 0x200#32 1#32 0x204#32 42#32 42#32) s)).fault = 0x06#8 ∧
    (after (exec (.hkExpand 2 0x200#32 1#32 0x242#32 42#32 41#32) s)).fault = 0x06#8 := by decide
/-- V70, V71: the limbs needed are counted from the byte length. -/
theorem test_lbParse :
    (after (exec (.lbParse 4 0x40#32 9#32 2#32) (sample.store 0x40 ((List.range 9).map fun i => BitVec.ofNat 8 (i + 1))))).slot 4 =
      .limbs [0x0203040506070809, 0x01] ∧
    (after (exec (.lbParse 4 0x40#32 9#32 2#32) (sample32.store 0x40 ((List.range 9).map fun i => BitVec.ofNat 8 (i + 1))))).err =
      0x01#8 ∧
    (after (exec (.lbParse 4 0x40#32 9#32 3#32) (sample32.store 0x40 ((List.range 9).map fun i => BitVec.ofNat 8 (i + 1))))).slot 4 =
      .limbs [0x06070809, 0x02030405, 0x00000001] := by decide
/-- V196, V198: the number of limbs before the range, the range before the error. -/
theorem test_lbParse_order :
    (after (exec (.lbParse 1 0x10000#32 1#32 7#32) sample)).fault = 0x04#8 ∧
    (after (exec (.lbParse 1 0x10000#32 1#32 6#32) sample)).fault = 0x03#8 ∧
    (after (exec (.lbParse 1 0x10000#32 0#32 6#32) sample)).err = 0x01#8 := by decide
/-- R213: the most significant limb first, big-endian. -/
theorem test_lbFormat :
    memReadBytes (after (exec (.lbFormat 7 0x80#32 16#32) (sample.setSlot 7 (.limbs [0x0203040506070809, 0x01])))).mem 0x80 16 =
      [0#8, 0#8, 0#8, 0#8, 0#8, 0#8, 0#8, 1#8, 2#8, 3#8, 4#8, 5#8, 6#8, 7#8, 8#8, 9#8] := by decide
/-- V204, V205: the length before the range. -/
theorem test_lbFormat_order :
    (after (exec (.lbFormat 4 0xFFF8#32 8#32) sample)).fault = 0x04#8 ∧
    (after (exec (.lbFormat 4 0xFFF8#32 16#32) sample)).fault = 0x03#8 := by decide
/-- V95. -/
theorem test_lbEq :
    (after (exec (.lbEq 4 4) sample)).res = 0xFFFFFFFFFFFFFFFF#64 ∧ (after (exec (.lbEq 4 5) sample)).res = 0#64 ∧
    (after (exec (.lbEq 4 4) sample32)).res = 0xFFFFFFFF#64 := by decide
/-- V101, V203: another number of limbs, another kind. -/
theorem test_lbEq_checks :
    (after (exec (.lbEq 4 6) sample)).fault = 0x04#8 ∧ (after (exec (.lbEq 4 10) sample)).fault = 0x02#8 := by decide
/-- V96: the highest limb decides. -/
theorem test_lbLt :
    let s := sample.setSlot 4 (.limbs [2 ^ 64 - 1, 0])
    (after (exec (.lbLt 4 7) s)).res = 0xFFFFFFFFFFFFFFFF#64 ∧ (after (exec (.lbLt 7 4) s)).res = 0#64 ∧
    (after (exec (.lbLt 4 4) s)).res = 0#64 := by decide
/-- V97. -/
theorem test_lbZero :
    (after (exec (.lbZero 6) sample)).res = 0xFFFFFFFFFFFFFFFF#64 ∧ (after (exec (.lbZero 7) sample)).res = 0#64 := by decide
/-- V98: the parity of the least significant limb. -/
theorem test_lbEven :
    (after (exec (.lbEven 6) sample)).res = 0xFFFFFFFFFFFFFFFF#64 ∧
    (after (exec (.lbEven 7) sample)).res = 0xFFFFFFFFFFFFFFFF#64 ∧ (after (exec (.lbEven 8) sample)).res = 0#64 := by decide
/-- V99, V100: the scalar is `lo + hi * 2^32`. -/
theorem test_lbEqlimb :
    (after (exec (.lbEqlimb 4 5#32 0#32) sample)).res = 0xFFFFFFFFFFFFFFFF#64 ∧
    (after (exec (.lbEqlimb 7 0#32 0#32) sample)).res = 0#64 ∧
    (after (exec (.lbEqlimb 6 0#32 1#32) (sample.setSlot 6 (.limbs [2 ^ 32])))).res = 0xFFFFFFFFFFFFFFFF#64 := by decide
/-- V210. -/
theorem test_lbEqlimb_wide : (after (exec (.lbEqlimb 4 0#32 1#32) sample32)).fault = 0x09#8 := by decide
/-- V93, V94: one subtraction only, with a borrow between limbs. -/
theorem test_lbReduce :
    (after (exec (.lbReduce 5 4) (sample.setSlot 4 (.limbs [3, 0])))).slot 5 = .limbs [4, 0] ∧
    (after (exec (.lbReduce 5 4) ((sample.setSlot 4 (.limbs [3, 0])).setSlot 5 (.limbs [2, 1])))).slot 5 =
      .limbs [0xffffffffffffffff, 0] := by decide
/-- V91: equal to the modulus, and the modulus in the same slot. -/
theorem test_lbReduce_equal : (after (exec (.lbReduce 5 5) sample)).slot 5 = .limbs [0, 0] := by decide
/-- V84 to V87. -/
theorem test_lbMinbits :
    (after (exec (.lbMinbits 6) sample)).res = 0#64 ∧ (after (exec (.lbMinbits 7) sample)).res = 65#64 ∧
    (after (exec (.lbMinbits 4) sample)).res = 3#64 ∧
    (after (exec (.lbMinbits 6) (sample.setSlot 6 (.limbs [2 ^ 63])))).res = 64#64 := by decide
/-- V82: the first window is the short one. -/
theorem test_lbFold5 :
    let t := after (exec (.lbFold5 6 0xC0#32) (sample.setSlot 6 (.limbs [0x8000000000000001])))
    t.res = 13#64 ∧
    memReadBytes t.mem 0xC0 13 = [8#8, 0#8, 0#8, 0#8, 0#8, 0#8, 0#8, 0#8, 0#8, 0#8, 0#8, 0#8, 1#8] := by decide
/-- V207, V208. -/
theorem test_lbFold5_range :
    (after (exec (.lbFold5 4 0xFFE6#32) sample)).fault = 0x00#8 ∧
    (after (exec (.lbFold5 4 0xFFE7#32) sample)).fault = 0x03#8 := by decide
/-- V110, with the test source of R321. -/
theorem test_ecNkey :
    (after (exec (.ecNkey 6 .sha256 0x400#32 32#32)
      (({ sample with rngScript := testSourceAnswers 0 [32] }).store 0x400
        ((List.range 32).map fun i => BitVec.ofNat 8 (i + 1))))).slot 6 =
      .nonceKey
        { alg := .sha256
          value := beBytes 32 0x81893cbb67801df314f225efb3ef8e06cc8060a94ab14f1190a102290be4082b } := by decide +kernel
/-- V216, V219: the length before the range; a source that fails. -/
theorem test_ecNkey_checks :
    (after (exec (.ecNkey 6 .sha256 0x10000#32 0#32) sample)).fault = 0x04#8 ∧
    (after (exec (.ecNkey 6 .sha256 0x400#32 32#32) { sample with rngScript := [.fail] })).err = 0x14#8 := by decide
/-- V111. -/
theorem test_ecNonce :
    let key : NonceKey :=
      { alg := .sha256
        value := beBytes 32 0x81893cbb67801df314f225efb3ef8e06cc8060a94ab14f1190a102290be4082b }
    let s := (({ sample with rngScript := testSourceAnswers 32 [32] }).setSlot 6 (.nonceKey key)).store 0x480
      (beBytes 32 0xba7816bf8f01cfea414140de5dae2223b00361a396177a9cb410ff61f20015ad)
    memReadBytes (after (exec (.ecNonce 6 0x480#32 32#32 0x4C0#32 32#32) s)).mem 0x4C0 32 =
      beBytes 32 0x46c303f5fab1e281fcd7300b3434afdabdd9fa1ba6906eed0218d5712596f666 := by decide +kernel
/-- V220, V222, V223. -/
theorem test_ecNonce_checks :
    (after (exec (.ecNonce 9 0x420#32 31#32 0x10000#32 33#32) sample)).fault = 0x04#8 ∧
    (after (exec (.ecNonce 9 0x420#32 32#32 0x43F#32 32#32) sample)).fault = 0x06#8 ∧
    (after (exec (.ecNonce 9 0x420#32 32#32 0x440#32 32#32) { sample with rngScript := [.fail] })).err = 0x01#8 := by decide
/-- V133 for scalars of one limb: 8 bytes each. -/
theorem test_sgFixed :
    let t := after (exec (.sgFixed 6 4 0x500#32) ((sample.setSlot 6 (.limbs [1])).setSlot 4 (.limbs [0x80])))
    t.res = 16#64 ∧
    memReadBytes t.mem 0x500 16 =
      [0#8, 0#8, 0#8, 0#8, 0#8, 0#8, 0#8, 1#8, 0#8, 0#8, 0#8, 0#8, 0#8, 0#8, 0#8, 0x80#8] := by decide
/-- V147, V215. -/
theorem test_sgFixed_checks :
    (after (exec (.sgFixed 4 8 0x500#32) sample)).fault = 0x04#8 ∧
    (after (exec (.sgFixed 4 4 0xFFE1#32) sample)).fault = 0x03#8 := by decide
/-- V133: a content byte is put before `80`. -/
theorem test_sgAsn1 :
    let t := after (exec (.sgAsn1 6 4 0x500#32) ((sample.setSlot 6 (.limbs [1])).setSlot 4 (.limbs [0x80])))
    t.res = 9#64 ∧
    memReadBytes t.mem 0x500 9 = [0x30#8, 7#8, 2#8, 1#8, 1#8, 2#8, 2#8, 0#8, 0x80#8] := by decide
/-- V212, V144: zero before the range, and a body of 128 bytes. -/
theorem test_sgAsn1_checks :
    (after (exec (.sgAsn1 6 6 0x10000#32) sample)).fault = 0x07#8 ∧
    (after (exec (.sgAsn1 6 6 0x500#32) (sample.setSlot 6 (.limbs (List.replicate 7 (2 ^ 64 - 1) ++ [2 ^ 40 - 1]))))).fault =
      0x08#8 := by decide

/-! ## Single steps -/

/-- V265: an illegal header faults at once. -/
theorem test_step_illegal :
    let t := after (step (awaiting (.regWrite 0 4 0#32) sample))
    t.fault = 0x01#8 ∧ t.faultCmd = 0#32 ∧ t.faultSeq = 0#32 ∧ t.slot 0 = sample.slot 0 := by decide
/-- V242: a record that is not whole yet. -/
theorem test_step_partial :
    (after (step (awaiting (.regWrite 0 4 0x211#32) sample))).cmdBuf = [0x211#32] ∧
    statusWord (after (step (awaiting (.regWrite 0 4 0x211#32) sample))) = 4#32 := by decide
/-- The first instruction after reset: SL_FREE s7 (V240) is executed and counted. -/
theorem test_step_first :
    (after (step (State.reset.withFetchWord 32 0x00000701))).cmdSeq = 1#32 ∧
    (after (step (State.reset.withFetchWord 32 0x00000701))).inbox = [] := by decide
/-- DG_UPDATE s2, [0x1234, 0x56] (V242) after reset: the slot is empty, so it faults with its header. -/
theorem test_step_first_words :
    (after (step (State.reset.withFetchWord 96 0x000000560000123400000211))).fault = 0x02#8 ∧
    (after (step (State.reset.withFetchWord 96 0x000000560000123400000211))).faultCmd = 0x00000211#32 := by decide
/-- R36: `CONFIG` of the default parameters: 64, 6, 16, 1 from the lowest byte. -/
theorem test_step_config :
    (after (step (awaiting (.regRead 0x24 4) sample))).answers = [.reg 0x01100640#32] := by decide
/-- R340: reset clears a faulted engine. -/
theorem test_step_reset :
    let t := after (step (awaiting (.reset [(0x50, 2#8)]) faulted))
    t.fault = 0#8 ∧ t.slot 0 = .empty ∧ memRead t.mem 0x50 = 2#8 := by decide
/-- Every one of the 25 commands, zero operands, runs as the first instruction after reset. -/
theorem test_step_all :
    ([0x01, 0x10, 0x11, 0x12, 0x13, 0x14, 0x20, 0x21, 0x22, 0x23, 0x28, 0x30, 0x31, 0x32, 0x33, 0x34, 0x35, 0x36, 0x37, 0x38,
      0x39, 0x40, 0x41, 0x48, 0x49] : List Nat).all
        (fun w => (decodeTableWord 32 w).isSome && isNext (step (State.reset.withFetchWord 32 w))) = true := by
  decide +kernel

/-! ## Witnesses: for every statement with hypotheses, states and operands that meet them, at the bounds of each clause -/

/-- A result that is a next state, as an equation. -/
theorem next_after {r : Result} (h : isNext r = true) : r = .next (after r) := by
  cases r <;> first | rfl | cases h

theorem slot15_empty : sample.slot 15 = .empty := by decide

theorem witness_StepRunsDecodedRecord :
    let s := { awaiting (.regWrite 0x00 4 0x56#32) sample with cmdBuf := [0x211#32, 0x1234#32] }
    s.inbox = .regWrite 0x00 4 0x56#32 :: [] ∧ s.fault = 0#8 ∧
      decodeRecord (s.cmdBuf ++ [0x56#32]) = .ok (.dgUpdate 2 0x1234#32 0x56#32) := by decide

theorem witness_CommandPortProcedure :
    ((awaiting (.regWrite 0x00 4 0x211#32) faulted).inbox = .regWrite 0x00 4 0x211#32 :: [] ∧ faulted.fault ≠ 0#8) ∧
    (sample.fault = 0#8 ∧ sample.cmdBuf ++ [0x00500010#32] = 0x00500010#32 :: [] ∧ legalHeader 0x00500010#32 = false) ∧
    (sample.cmdBuf ++ [0x901#32] = 0x901#32 :: [] ∧ legalHeader 0x901#32 = true ∧
      opOfByte (hdrOp 0x901#32) = some .slFree ∧ ([] : List Word).length = numOperandWords .slFree) ∧
    (legalHeader 0x3028#32 = true ∧ opOfByte (hdrOp 0x3028#32) = some .hkExpand ∧
      [0x200#32, 1#32, 0x300#32, 42#32, 42#32].length = numOperandWords .hkExpand ∧
      [0x200#32, 1#32, 0x300#32, 42#32].length ≠ numOperandWords .hkExpand ∧
      ([] : List Word).length ≠ numOperandWords .hkExpand) := by decide

theorem witness_LegalHeaderByTable :
    legalHeader 0x00400010#32 = true ∧ legalHeader 0x00500010#32 = false ∧
    (awaiting (.regWrite 0x00 4 0x00500010#32) sample).inbox = .regWrite 0x00 4 0x00500010#32 :: [] ∧
    sample.fault = 0#8 ∧ sample.cmdBuf = [] := by decide

theorem witness_DecodeAcceptsExactlyWellFormed : decodeRecord [0x00400F10#32] = .ok (.dgInit 15 .sha512_256) := by decide

theorem witness_ResetLeaves :
    (awaiting (.reset [(0xFFFF, 7#8)]) faulted).inbox = .reset [(0xFFFF, 7#8)] :: [] ∧ 0xFFFF < faulted.cfg.memSize := by decide

theorem witness_StepKeepsInvariant :
    let s := awaiting (.regWrite 0x00 4 0x00000012#32) sample
    s.Inv ∧ step s = .next (after (step s)) := ⟨by decide, next_after (by decide +kernel)⟩

theorem witness_FaultedEngineIsHalted :
    faulted.fault ≠ 0#8 ∧
    (awaiting (.regWrite 0x00 4 0x901#32) faulted).inbox = .regWrite 0x00 4 0x901#32 :: [] ∧
    (0x28 % 4 = 0 ∧ (awaiting (.regRead 0x28 4) faulted).inbox = .regRead 0x28 4 :: []) ∧
    (0xFFFF + [7#8].length ≤ faulted.cfg.memSize ∧
      (awaiting (.memWrite 0xFFFF [7#8]) faulted).inbox = .memWrite 0xFFFF [7#8] :: []) ∧
    (0x10000 + 0 ≤ faulted.cfg.memSize ∧ (awaiting (.memRead 0x10000 0) faulted).inbox = .memRead 0x10000 0 :: []) := by decide

theorem witness_FaultRegistersAreSticky :
    let s := awaiting (.regWrite 0x00 4 0x901#32) sample
    let f := awaiting (.regWrite 0x00 4 0#32) sample
    let r := awaiting (.reset []) faulted
    step s = .next (after (step s)) ∧ step f = .next (after (step f)) ∧ step r = .next (after (step r)) ∧
    (after (step f)).fault ≠ 0#8 ∧
    (s.fault = 0#8 → s.faultCmd = 0#32 ∧ s.faultSeq = 0#32) ∧ (after (step s)).fault = 0#8 :=
  ⟨next_after (by decide), next_after (by decide), next_after (by decide), by decide, by decide, by decide⟩

theorem witness_FaultsArePrecise :
    sample.fault = 0#8 ∧ exec (.dgRead 15 0#32) sample = .next (after (exec (.dgRead 15 0#32) sample)) ∧
    (after (exec (.dgRead 15 0#32) sample)).fault ≠ 0#8 := ⟨by decide, next_after (by decide), by decide⟩

theorem witness_EveryCommandEnds :
    sample.fault = 0#8 ∧ ({ sample with rngScript := [.never] } : State).fault = 0#8 ∧
    exec (.ecNkey 6 .sha1 0#32 64#32) { sample with rngScript := [.never] } = .fault .rngNeverAnswers := by
  refine ⟨by decide, by decide, ?_⟩
  rfl

theorem witness_ErrorsChangeNothingElse :
    let s := { sample with rngScript := [.fail] }
    let i := Instr.ecNkey 6 .sha1 0#32 64#32
    s.fault = 0#8 ∧ exec i s = .next (after (exec i s)) ∧ (after (exec i s)).fault = 0#8 ∧ (after (exec i s)).err ≠ 0#8 :=
  ⟨by decide, next_after (by decide), by decide, by decide⟩

theorem witness_FirstFailingCheckDecides :
    ((awaiting (.regWrite 0x00 4 0x00500010#32) sample).inbox = .regWrite 0x00 4 0x00500010#32 :: [] ∧
      sample.cmdBuf ++ [0x00500010#32] = 0x00500010#32 :: [] ∧ legalHeader 0x00500010#32 = false) ∧
    sample.Inv ∧ sample.fault = 0#8 ∧ firstFault (.dgRead 15 0x10000#32) sample = some .badSlotKind ∧
    firstFault (.ecNonce 9 0x420#32 32#32 0x43F#32 32#32) sample = some .overlap ∧
    firstFault (.sgAsn1 6 6 0x10000#32) sample = some .zeroScalar ∧
    firstFault (.sgAsn1 4 5 0xFFF8#32) sample = none ∧
    exec (.sgAsn1 4 5 0xFFF8#32) sample = .next (after (exec (.sgAsn1 4 5 0xFFF8#32) sample)) :=
  ⟨by decide, by decide, by decide, by decide, by decide, by decide, by decide, next_after (by decide)⟩

theorem witness_RngIsAskedLast :
    let s := { sample with rngScript := [.fail, .never] }
    let i := Instr.ecNkey 6 .sha1 0xFFC0#32 64#32
    s.fault = 0#8 ∧ exec i s = .next (after (exec i s)) ∧ exec (.slFree 0) s = .next (after (exec (.slFree 0) s)) :=
  ⟨by decide, next_after (by decide), next_after (by decide)⟩

theorem witness_ResWrittenOnlyBy :
    sample.fault = 0#8 ∧ exec (.lbMinbits 7) sample = .next (after (exec (.lbMinbits 7) sample)) ∧
    (after (exec (.lbMinbits 7) sample)).res ≠ sample.res := ⟨by decide, next_after (by decide), by decide⟩

theorem witness_MemoryWrittenOnlyInRange :
    sample.Inv ∧ sample.fault = 0#8 ∧ exec (.dgRead 1 0x50#32) sample = .next (after (exec (.dgRead 1 0x50#32) sample)) ∧
    memRead (after (exec (.dgRead 1 0x50#32) sample)).mem 0x50 ≠ memRead sample.mem 0x50 ∧
    memRead (after (exec (.dgRead 1 0x31#32) sample)).mem 0x50 ≠ memRead sample.mem 0x50 :=
  ⟨by decide, by decide, next_after (by decide), by decide, by decide⟩

theorem witness_SlotsWrittenOnlyBy :
    exec (.hmInit 4 2) sample = .next (after (exec (.hmInit 4 2) sample)) := next_after (by decide)

theorem witness_StepTakesOneAction :
    let s := awaiting (.regRead 0x04 4) sample
    sample.inbox = [] ∧ s.inbox = .regRead 0x04 4 :: [] ∧ step s = .next (after (step s)) :=
  ⟨by decide, by decide, next_after (by decide)⟩

theorem witness_RegisterBlock :
    (∀ off ∈ [0x00, 0x04, 0x08, 0x0C, 0x10, 0x14, 0x18, 0x1C, 0x20, 0x24, 0x28, 0x2C],
      off % 4 = 0 ∧ (awaiting (.regRead off 4) sample).inbox = .regRead off 4 :: []) ∧
    (0x2C % 4 = 0 ∧ 0x28 < 0x2C) ∧
    (0x04 % 4 = 0 ∧ 0x04 ≠ 0x00 ∧ (awaiting (.regWrite 0x04 4 1#32) sample).inbox = .regWrite 0x04 4 1#32 :: []) := by decide

theorem witness_StatusAndConfigBits : sample.cfg.wellFormed = true ∧ sample32.cfg.wellFormed = true ∧ 3 ≤ 31 := by decide

theorem witness_MemoryWindow :
    let s := awaiting (.memWrite 0xFFFE [1#8, 2#8]) sample
    (s.inbox = .memWrite 0xFFFE [1#8, 2#8] :: [] ∧ Memory.wf s.mem ∧ 0xFFFE + [1#8, 2#8].length ≤ s.cfg.memSize) ∧
    ((awaiting (.memWrite 0xFFFF [1#8, 2#8]) sample).inbox = .memWrite 0xFFFF [1#8, 2#8] :: [] ∧
      sample.cfg.memSize < 0xFFFF + [1#8, 2#8].length) ∧
    ((awaiting (.memRead 0x10000 0) sample).inbox = .memRead 0x10000 0 :: [] ∧ 0x10000 + 0 ≤ sample.cfg.memSize) ∧
    ((awaiting (.memRead 0x10001 0) sample).inbox = .memRead 0x10001 0 :: [] ∧ sample.cfg.memSize < 0x10001 + 0) ∧
    ((2 ≠ 4 ∨ 0x04 % 4 ≠ 0) ∧ (awaiting (.regRead 0x04 2) sample).inbox = .regRead 0x04 2 :: []) ∧
    ((4 ≠ 4 ∨ 0x06 % 4 ≠ 0) ∧ (awaiting (.regWrite 0x06 4 0#32) sample).inbox = .regWrite 0x06 4 0#32 :: []) := by decide

theorem witness_SlFreeEmptiesSlot : ((15 : Slot), Kind.limbs) ∈ sources (.lbLt 4 15) := by decide

/-- A SHA256 Context with a given counter and 63 bytes pending. -/
def fullCtx (n : BitVec 64) : DigestCtx :=
  { block := { alg := .sha256, h := zeroChain, nblocks := n }, pending := zeros 63 }

theorem witness_DgUpdateFeedsBytes :
    (∀ c, sample.slot 15 ≠ .digestCtx c) ∧
    (sample.slot 0 = .digestCtx abcCtx ∧ abcCtx.pending.length < blockLen abcCtx.block.alg ∧
      sample.cfg.memSize < (0xFFFF#32).toNat + (2#32).toNat ∧ (0xFFFF#32).toNat + (1#32).toNat ≤ sample.cfg.memSize ∧
      abcCtx.block.nblocks.toNat + (abcCtx.pending.length + (1#32).toNat) / blockLen abcCtx.block.alg < 2 ^ 64) ∧
    (let c := fullCtx (BitVec.allOnes 64)
     (sample.setSlot 0 (.digestCtx c)).slot 0 = .digestCtx c ∧ c.pending.length < blockLen c.block.alg ∧
      2 ^ 64 ≤ c.block.nblocks.toNat + (c.pending.length + (1#32).toNat) / blockLen c.block.alg) :=
  ⟨by simp [slot15_empty], by decide, by decide⟩

theorem witness_DgFinishGivesDigest :
    (∀ c, sample.slot 15 ≠ .digestCtx c) ∧
    (let c := fullCtx (BitVec.ofNat 64 (2 ^ 55 - 1))
     (sample.setSlot 0 (.digestCtx c)).slot 0 = .digestCtx c ∧ c.pending.length < blockLen c.block.alg ∧
      (c.block.nblocks.toNat * blockLen c.block.alg + c.pending.length) * 8 < 2 ^ 64) ∧
    (let c := fullCtx (BitVec.ofNat 64 (2 ^ 55))
     (sample.setSlot 0 (.digestCtx c)).slot 0 = .digestCtx c ∧ c.pending.length < blockLen c.block.alg ∧
      2 ^ 64 ≤ (c.block.nblocks.toNat * blockLen c.block.alg + c.pending.length) * 8) ∧
    (1 : Slot) ≠ 0 :=
  ⟨by simp [slot15_empty], by decide, by decide, by decide⟩

theorem witness_DgReadStoresDigest :
    Memory.wf sample.mem ∧ (∀ d, sample.slot 15 ≠ .digestVal d) ∧
    sample.slot 1 = .digestVal zeroDigest ∧ zeroDigest.value.length = outputLen zeroDigest.alg ∧
    sample.cfg.memSize < (0xFFE1#32).toNat + outputLen zeroDigest.alg ∧
    (0xFFE0#32).toNat + outputLen zeroDigest.alg ≤ sample.cfg.memSize :=
  ⟨by decide, by simp [slot15_empty], by decide, by decide, by decide, by decide⟩

theorem witness_CtVerifyComparesBytes :
    (∀ d, sample.slot 15 ≠ .digestVal d) ∧
    sample.slot 1 = .digestVal zeroDigest ∧ zeroDigest.value.length = outputLen zeroDigest.alg ∧
    sample.cfg.memSize < (0xFFF0#32).toNat + (32#32).toNat ∧ (0xFFE0#32).toNat + (32#32).toNat ≤ sample.cfg.memSize ∧
    memReadBytes sample.mem (0xFFE0#32).toNat (32#32).toNat = zeroDigest.value ∧
    memReadBytes sample.mem (0x10000#32).toNat (0#32).toNat ≠ zeroDigest.value :=
  ⟨by simp [slot15_empty], by decide, by decide, by decide, by decide, by decide, by decide⟩

theorem witness_HmKeyBuildsPads :
    sample.cfg.memSize < (0xFFFF#32).toNat + (2#32).toNat ∧ (0x10000#32).toNat + (0#32).toNat ≤ sample.cfg.memSize := by decide

theorem witness_HmInitStartsContext :
    (∀ k, sample.slot 15 ≠ .hmacKey k) ∧ sample.slot 2 = .hmacKey zeroKey ∧ (4 : Slot) ≠ 2 :=
  ⟨by simp [slot15_empty], by decide, by decide⟩

theorem witness_HmUpdateFeedsInner :
    (∀ c, sample.slot 15 ≠ .hmacCtx c) ∧
    (sample.slot 3 = .hmacCtx zeroCtx ∧ zeroCtx.inner.pending.length < blockLen zeroCtx.inner.block.alg ∧
      sample.cfg.memSize < (0xFFFF#32).toNat + (2#32).toNat ∧ (0x10000#32).toNat + (0#32).toNat ≤ sample.cfg.memSize ∧
      zeroCtx.inner.block.nblocks.toNat +
        (zeroCtx.inner.pending.length + (0#32).toNat) / blockLen zeroCtx.inner.block.alg < 2 ^ 64) ∧
    (let c : HmacCtx := { zeroCtx with inner := fullCtx (BitVec.allOnes 64) }
     (sample.setSlot 3 (.hmacCtx c)).slot 3 = .hmacCtx c ∧ c.inner.pending.length < blockLen c.inner.block.alg ∧
      2 ^ 64 ≤ c.inner.block.nblocks.toNat + (c.inner.pending.length + (1#32).toNat) / blockLen c.inner.block.alg) :=
  ⟨by simp [slot15_empty], by decide, by decide⟩

theorem witness_HmSignGivesTag :
    (∀ c, sample.slot 15 ≠ .hmacCtx c) ∧
    (let c : HmacCtx := { zeroCtx with inner := fullCtx (BitVec.ofNat 64 (2 ^ 55 - 1)) }
     (sample.setSlot 3 (.hmacCtx c)).slot 3 = .hmacCtx c ∧ objOk sample.cfg (.hmacCtx c) = true ∧
      (c.inner.block.nblocks.toNat * blockLen c.alg + c.inner.pending.length) * 8 < 2 ^ 64) ∧
    (let c : HmacCtx := { zeroCtx with inner := fullCtx (BitVec.ofNat 64 (2 ^ 55)) }
     (sample.setSlot 3 (.hmacCtx c)).slot 3 = .hmacCtx c ∧ objOk sample.cfg (.hmacCtx c) = true ∧
      2 ^ 64 ≤ (c.inner.block.nblocks.toNat * blockLen c.alg + c.inner.pending.length) * 8) ∧
    (5 : Slot) ≠ 3 :=
  ⟨by simp [slot15_empty], by decide, by decide, by decide⟩

/-- The state of V183: one entry (`0x240`, 3) in the table at `0x200`. -/
def tableState : State := sample.store 0x200 [0x40#8, 0x02#8, 0#8, 0#8, 3#8, 0#8, 0#8, 0#8]

/-- The clauses of the statement about HK_EXPAND, for the tables, outputs and lengths of V183 to V191; the overflow clause follows. -/
theorem witness_HkExpandFillsOutput :
    Memory.wf tableState.mem ∧ (∀ k, tableState.slot 15 ≠ .hmacKey k) ∧
    tableState.slot 2 = .hmacKey zeroKey ∧ objOk tableState.cfg (.hmacKey zeroKey) = true ∧
    (List.range (1#32).toNat).map (fun j => tableState.chunkEntry (0x200#32).toNat j) = [⟨0x240, 3⟩] ∧
    ¬ (0xFFFC + 8 * (1#32).toNat ≤ tableState.cfg.memSize) ∧
    (∀ g ∈ [⟨0x200, 8⟩, ⟨0x300, 42⟩, (⟨0x240, 3⟩ : MemRange)], g.addr + g.len ≤ tableState.cfg.memSize) ∧
    (¬ ∀ g ∈ [⟨0x200, 8⟩, (⟨0x240, 3⟩ : MemRange)],
      ¬ ∃ a, (0x204 ≤ a ∧ a < 0x204 + 42) ∧ g.addr ≤ a ∧ a < g.addr + g.len) ∧
    (∀ g ∈ [⟨0x200, 8⟩, (⟨0x240, 3⟩ : MemRange)],
      ¬ ∃ a, (0x300 ≤ a ∧ a < 0x300 + 42) ∧ g.addr ≤ a ∧ a < g.addr + g.len) ∧
    (blockLen zeroKey.alg + (if outputLen zeroKey.alg < 42 then outputLen zeroKey.alg else 0) + 3 + 1) * 8 < 2 ^ 64 ∧
    (42#32 ≠ 41#32 ∧ 255 * outputLen zeroKey.alg < (8161#32).toNat) ∧ (8160#32).toNat ≤ 255 * outputLen zeroKey.alg := by
  refine ⟨by decide, ?_, by decide, by decide, by decide, by decide, by decide, ?_, ?_, by decide, by decide, by decide⟩
  · exact fun k h => absurd (slot15_empty.symm.trans h) (by simp)
  · intro h
    exact h ⟨0x200, 8⟩ (by simp) ⟨0x204, by decide, by decide, by decide⟩
  · intro g hg
    simp only [List.mem_cons, List.not_mem_nil, or_false] at hg
    rintro ⟨a, h1, h2⟩
    rcases hg with rfl | rfl <;> (simp only at h2; omega)

/-- A memory whose first `n` bytes are all ones. -/
def onesMemory (n : Nat) : Memory := (List.range n).map fun a => (a, 0xFF#8)

theorem onesMemory_wf (n : Nat) : Memory.wf (onesMemory n) := by
  refine ⟨?_, by simp [onesMemory, unlistedByte]⟩
  unfold onesMemory
  rw [List.pairwise_map]
  exact List.pairwise_lt_range

theorem onesMemory_read (n a : Nat) (h : a < n) : memRead (onesMemory n) a = 0xFF#8 := by
  have key : ∀ l : List Nat, a ∈ l → memRead (l.map fun k => (k, 0xFF#8)) a = 0xFF#8 := by
    intro l
    induction l with
    | nil => simp
    | cons k l ih =>
      intro hm
      simp only [List.map_cons, memRead]
      split
      · rfl
      · exact ih (by rcases List.mem_cons.1 hm with h | h; exacts [absurd h.symm ‹_›, h])
  exact key _ (List.mem_range.2 h)

/-- Entries of all-ones bytes: the largest address and the largest length. -/
theorem onesMemory_entry (s : State) (n tab j : Nat) (hm : s.mem = onesMemory n) (h : tab + 8 * j + 8 ≤ n) :
    s.chunkEntry tab j = ⟨2 ^ 32 - 1, 2 ^ 32 - 1⟩ := by
  have r : ∀ b, tab + 8 * j ≤ b → b < tab + 8 * j + 8 → memRead s.mem b = 0xFF#8 := fun b _ hb => by
    rw [hm]; exact onesMemory_read n b (by omega)
  have q : ∀ b, tab + 8 * j ≤ b → b + 4 ≤ tab + 8 * j + 8 → memReadBytes s.mem b 4 = [0xFF#8, 0xFF#8, 0xFF#8, 0xFF#8] := by
    intro b h1 h2
    show [memRead s.mem (b + 0), memRead s.mem (b + 1), memRead s.mem (b + 2), memRead s.mem (b + 3)] = _
    rw [r _ (by omega) (by omega), r _ (by omega) (by omega), r _ (by omega) (by omega), r _ (by omega) (by omega)]
  unfold State.chunkEntry
  rw [q _ (by omega) (by omega), q _ (by omega) (by omega)]
  rfl

/-- The overflow clause of HK_EXPAND: a table of 2^32 - 1 entries of 2^32 - 1 bytes each and no output, in a state whose memory is
larger than any configuration allows. -/
theorem witness_HkExpandFillsOutput_overflow : ∃ s : State,
    Memory.wf s.mem ∧ s.slot 2 = .hmacKey zeroKey ∧ objOk s.cfg (.hmacKey zeroKey) = true ∧
    (let chunks := (List.range (0xFFFFFFFF#32).toNat).map fun j => s.chunkEntry (0#32).toNat j
     let output := MemRange.mk (0#32).toNat (0#32).toNat
     let table := MemRange.mk (0#32).toNat (8 * (0xFFFFFFFF#32).toNat)
     (∀ g ∈ table :: output :: chunks, g.addr + g.len ≤ s.cfg.memSize) ∧
     (∀ g ∈ table :: chunks,
       ¬ ∃ a, (output.addr ≤ a ∧ a < output.addr + output.len) ∧ g.addr ≤ a ∧ a < g.addr + g.len) ∧
     ¬ (blockLen zeroKey.alg + (if outputLen zeroKey.alg < (0#32).toNat then outputLen zeroKey.alg else 0) +
         (chunks.map (·.len)).sum + 1) * 8 < 2 ^ 64) := by
  obtain ⟨n, hn⟩ : ∃ n, n = 2 ^ 35 := ⟨_, rfl⟩
  obtain ⟨c, hc⟩ : ∃ c, c = 2 ^ 32 - 1 := ⟨_, rfl⟩
  have hs : (0xFFFFFFFF#32).toNat = c := by rw [hc]; rfl
  let s : State := { sample with mem := onesMemory n, cfg := { sample.cfg with memSize := 2 ^ 40 } }
  have he : ∀ j, j < c → s.chunkEntry 0 j = ⟨2 ^ 32 - 1, 2 ^ 32 - 1⟩ := fun j hj => onesMemory_entry s n 0 j rfl (by omega)
  have hch : (List.range c).map (fun j => s.chunkEntry 0 j) = List.replicate c ⟨2 ^ 32 - 1, 2 ^ 32 - 1⟩ := by
    rw [List.map_congr_left (g := fun _ => (⟨2 ^ 32 - 1, 2 ^ 32 - 1⟩ : MemRange)) fun j hj => he j (List.mem_range.1 hj)]
    simp
  refine ⟨s, onesMemory_wf n, show sample.slot 2 = _ by decide, rfl, ?_⟩
  rw [hs, show (0#32).toNat = 0 from rfl, hch]
  have hcfg : s.cfg.memSize = 2 ^ 40 := rfl
  refine ⟨?_, ?_, ?_⟩
  · intro g hg
    rw [hcfg]
    simp only [List.mem_cons, List.mem_replicate] at hg
    rcases hg with rfl | rfl | ⟨-, rfl⟩ <;> simp only <;> omega
  · rintro g - ⟨a, h, -⟩
    simp at h
  · simp only [List.map_replicate, List.sum_replicate, smul_eq_mul]
    rw [hc]
    decide

theorem witness_LbParseReadsNumber :
    sample.cfg.maxLimbs < (7#32).toNat ∧ (6#32).toNat ≤ sample.cfg.maxLimbs ∧
    sample.cfg.memSize < (0xFFFF#32).toNat + (2#32).toNat ∧ (0x10000#32).toNat + (0#32).toNat ≤ sample.cfg.memSize ∧
    (0#32).toNat = 0 ∧
    ((0x40#32).toNat + (49#32).toNat ≤ sample.cfg.memSize ∧ (6#32).toNat < ((49#32).toNat + sample.limbBytes - 1) / sample.limbBytes) ∧
    (1 ≤ (48#32).toNat ∧ ((48#32).toNat + sample.limbBytes - 1) / sample.limbBytes ≤ (6#32).toNat) := by decide

theorem witness_LbFormatStoresNumber :
    Memory.wf sample.mem ∧ (∀ a, sample.slot 15 ≠ .limbs a) ∧
    sample.slot 4 = .limbs [5, 0] ∧ (∀ l ∈ [5, 0], l < 2 ^ sample.limbBits) ∧
    (15#32).toNat ≠ [5, 0].length * sample.limbBytes ∧ (16#32).toNat = [5, 0].length * sample.limbBytes ∧
    sample.cfg.memSize < (0xFFF1#32).toNat + (16#32).toNat ∧ (0xFFF0#32).toNat + (16#32).toNat ≤ sample.cfg.memSize :=
  ⟨by decide, by simp [slot15_empty], by decide, by decide, by decide, by decide, by decide, by decide⟩

theorem witness_ParseFormatRoundTrip :
    (let t := after (exec (.lbParse 4 0x50#32 1#32 2#32) sample)
     Memory.wf sample.mem ∧ sample.fault = 0#8 ∧ exec (.lbParse 4 0x50#32 1#32 2#32) sample = .next t ∧
     t.fault = 0#8 ∧ t.err = 0#8 ∧ (16#32).toNat = (2#32).toNat * sample.limbBytes ∧
     exec (.lbFormat 4 0xFFF0#32 16#32) t = .next (after (exec (.lbFormat 4 0xFFF0#32 16#32) t)) ∧
     (after (exec (.lbFormat 4 0xFFF0#32 16#32) t)).fault = 0#8) ∧
    ((6#32).toNat ≤ sample.cfg.maxLimbs ∧ (0x10000#32).toNat ≤ sample.cfg.memSize) :=
  ⟨⟨by decide, by decide, next_after (by decide), by decide, by decide, by decide, next_after (by decide), by decide⟩, by decide⟩

theorem witness_LbEqLbLtCompare :
    (∀ a, sample.slot 15 ≠ .limbs a) ∧
    sample.slot 4 = .limbs [5, 0] ∧ sample.slot 5 = .limbs [7, 0] ∧ sample.slot 6 = .limbs [0] ∧
    (∀ l ∈ [5, 0], l < 2 ^ sample.limbBits) ∧ (∀ l ∈ [7, 0], l < 2 ^ sample.limbBits) ∧ (∀ l ∈ [0], l < 2 ^ sample.limbBits) ∧
    [5, 0].length ≠ [0].length ∧ [5, 0].length = [7, 0].length :=
  ⟨by simp [slot15_empty], by decide, by decide, by decide, by decide, by decide, by decide, by decide, by decide⟩

theorem witness_LbZeroLbEvenTest :
    (∀ a, sample.slot 15 ≠ .limbs a) ∧ sample.slot 6 = .limbs [0] := ⟨by simp [slot15_empty], by decide⟩

theorem witness_LbEqlimbCompares :
    (∀ a, sample.slot 15 ≠ .limbs a) ∧
    (sample.slot 6 = .limbs [0] ∧ 1 ≤ [0].length ∧ (∀ l ∈ [0], l < 2 ^ sample.limbBits) ∧ sample.limbBits = 64) ∧
    (sample32.slot 6 = .limbs [0] ∧ (∀ l ∈ [0], l < 2 ^ sample32.limbBits) ∧ sample32.limbBits = 32 ∧ 1#32 ≠ 0#32) :=
  ⟨by simp [slot15_empty], by decide, by decide⟩

theorem witness_LbReduceSubtractsOnce :
    (∀ a, sample.slot 15 ≠ .limbs a) ∧ sample.slot 5 = .limbs [7, 0] ∧ sample.slot 4 = .limbs [5, 0] ∧ sample.slot 6 = .limbs [0] ∧
    (∀ l ∈ [7, 0], l < 2 ^ sample.limbBits) ∧ (∀ l ∈ [5, 0], l < 2 ^ sample.limbBits) ∧ (∀ l ∈ [0], l < 2 ^ sample.limbBits) ∧
    [7, 0].length ≠ [0].length ∧ [7, 0].length = [5, 0].length :=
  ⟨by simp [slot15_empty], by decide, by decide, by decide, by decide, by decide, by decide, by decide, by decide⟩

theorem witness_LbMinbitsFindsTopBit :
    (∀ a, sample.slot 15 ≠ .limbs a) ∧ (sample.slot 6 = .limbs [0] ∧ [0].length ≤ 255 ∧ ∀ l ∈ [0], l = 0) ∧
    (sample.setSlot 6 (.limbs [2 ^ 63])).slot 6 = .limbs [2 ^ 63] ∧ (∀ l ∈ [2 ^ 63], l < 2 ^ sample.limbBits) ∧
    ([2 ^ 63].getD 0 0).testBit 63 = true ∧ (∀ k' > 63, ([2 ^ 63].getD 0 0).testBit k' = false) ∧
    (∀ j' > 0, [2 ^ 63].getD j' 0 = 0) := by
  refine ⟨by simp [slot15_empty], by decide, by decide, by decide, by decide, fun k' hk => ?_, fun j' hj => ?_⟩
  · exact Nat.testBit_lt_two_pow (lt_of_lt_of_le (by decide) (Nat.pow_le_pow_right (by decide) hk))
  · cases j' with
    | zero => omega
    | succ j => rfl

theorem witness_LbFold5StoresWindows :
    Memory.wf sample.mem ∧ (∀ a, sample.slot 15 ≠ .limbs a) ∧
    sample.slot 4 = .limbs [5, 0] ∧ [5, 0].length ≤ 255 ∧ (∀ l ∈ [5, 0], l < 2 ^ sample.limbBits) ∧
    sample.cfg.memSize < (0xFFE7#32).toNat + ([5, 0].length * sample.limbBits + 4) / 5 ∧
    (0xFFE6#32).toNat + ([5, 0].length * sample.limbBits + 4) / 5 ≤ sample.cfg.memSize :=
  ⟨by decide, by simp [slot15_empty], by decide, by decide, by decide, by decide, by decide⟩

theorem witness_EcNkeyDerivesKey :
    ¬ (1 ≤ (0#32).toNat ∧ (0#32).toNat ≤ 64) ∧ ¬ (1 ≤ (65#32).toNat ∧ (65#32).toNat ≤ 64) ∧
    (1 ≤ (64#32).toNat ∧ (64#32).toNat ≤ 64) ∧ sample.cfg.memSize < (0xFFC1#32).toNat + (64#32).toNat ∧
    (0xFFC0#32).toNat + (64#32).toNat ≤ sample.cfg.memSize ∧ sample.rngScript = [] ∧
    ({ sample with rngScript := [.fail] } : State).rngScript = .fail :: [] ∧
    ({ sample with rngScript := [.ok [1#8]] } : State).rngScript = .ok [1#8] :: [] ∧
    ({ sample with rngScript := [.never] } : State).rngScript = .never :: [] := by decide

theorem witness_EcNonceFillsRequest :
    Memory.wf sample.mem ∧ (∀ k, sample.slot 15 ≠ .nonceKey k) ∧
    (let k : NonceKey := { alg := .sha256, value := zeros 32 }
     sample.slot 9 = .nonceKey k ∧ k.value.length = outputLen k.alg ∧
     (31#32).toNat ≠ outputLen k.alg ∧ (32#32).toNat = outputLen k.alg ∧
     ¬ ((0xFFE1#32).toNat + (32#32).toNat ≤ sample.cfg.memSize ∧ (0x440#32).toNat + (32#32).toNat ≤ sample.cfg.memSize) ∧
     ((0xFFE0#32).toNat + (32#32).toNat ≤ sample.cfg.memSize ∧ (0xFFC0#32).toNat + (32#32).toNat ≤ sample.cfg.memSize)) ∧
    (∃ a, ((0x43F#32).toNat ≤ a ∧ a < (0x43F#32).toNat + (32#32).toNat) ∧
      (0x420#32).toNat ≤ a ∧ a < (0x420#32).toNat + (32#32).toNat) ∧
    (¬ ∃ a, ((0x440#32).toNat ≤ a ∧ a < (0x440#32).toNat + (32#32).toNat) ∧
      (0x420#32).toNat ≤ a ∧ a < (0x420#32).toNat + (32#32).toNat) ∧
    sample.rngScript = [] ∧ ({ sample with rngScript := [.fail] } : State).rngScript = .fail :: [] ∧
    ({ sample with rngScript := [.ok []] } : State).rngScript = .ok [] :: [] ∧
    ({ sample with rngScript := [.never] } : State).rngScript = .never :: [] := by
  refine ⟨by decide, by simp [slot15_empty], by decide, ⟨0x43F, by decide, by decide, by decide⟩, ?_, by decide, by decide,
    by decide, by decide⟩
  rintro ⟨a, h1, h2⟩
  simp at h1 h2
  omega

theorem witness_SgFixedStoresScalars :
    Memory.wf sample.mem ∧ (∀ a, sample.slot 15 ≠ .limbs a) ∧
    sample.slot 4 = .limbs [5, 0] ∧ sample.slot 5 = .limbs [7, 0] ∧ sample.slot 6 = .limbs [0] ∧ [5, 0].length ≤ 255 ∧
    (∀ l ∈ [5, 0], l < 2 ^ sample.limbBits) ∧ (∀ l ∈ [7, 0], l < 2 ^ sample.limbBits) ∧ (∀ l ∈ [0], l < 2 ^ sample.limbBits) ∧
    [5, 0].length ≠ [0].length ∧ [5, 0].length = [7, 0].length ∧
    sample.cfg.memSize < (0xFFE1#32).toNat + 2 * ([5, 0].length * sample.limbBytes) ∧
    (0xFFE0#32).toNat + 2 * ([5, 0].length * sample.limbBytes) ≤ sample.cfg.memSize :=
  ⟨by decide, by simp [slot15_empty], by decide, by decide, by decide, by decide, by decide, by decide, by decide, by decide,
    by decide, by decide, by decide⟩

/-- V145 and V144 for `s`: 60 and 61 bytes of ones. -/
def limbs61 : List Nat := List.replicate 7 (2 ^ 64 - 1) ++ [2 ^ 40 - 1]
@[inherit_doc limbs61] def limbs60 : List Nat := List.replicate 7 (2 ^ 64 - 1) ++ [2 ^ 32 - 1]

theorem witness_SgAsn1StoresDer :
    Memory.wf sample.mem ∧ (∀ a, sample.slot 15 ≠ .limbs a) ∧
    (sample.slot 4 = .limbs [5, 0] ∧ sample.slot 6 = .limbs [0] ∧ [5, 0].length ≠ [0].length) ∧
    (limbsValue sample.limbBits [0] = 0 ∧ limbsValue sample.limbBits [5, 0] ≠ 0) ∧
    (let s := (sample.setSlot 4 (.limbs limbs61)).setSlot 5 (.limbs limbs60)
     s.slot 4 = .limbs limbs61 ∧ s.slot 5 = .limbs limbs60 ∧ limbs61.length = limbs60.length ∧
     (∀ l ∈ limbs61, l < 2 ^ s.limbBits) ∧ (∀ l ∈ limbs60, l < 2 ^ s.limbBits) ∧
     limbsValue s.limbBits limbs61 ≠ 0 ∧ limbsValue s.limbBits limbs60 ≠ 0 ∧
     (let l61 := (minimalBits (limbsValue s.limbBits limbs61) + 8) / 8
      let l60 := (minimalBits (limbsValue s.limbBits limbs60) + 8) / 8
      128 ≤ (2 + l61) + (2 + l61) ∧ (2 + l61) + (2 + l60) < 128 ∧
      s.cfg.memSize < (0xFF80#32).toNat + (2 + ((2 + l61) + (2 + l60))) ∧
      (0xFF7F#32).toNat + (2 + ((2 + l61) + (2 + l60))) ≤ s.cfg.memSize)) :=
  ⟨by decide, by simp [slot15_empty], by decide, by decide, by decide +kernel⟩

theorem witness_CompressIterates : ∀ b ∈ [zeros 64, List.replicate 64 1#8], b.length = blockLen .sha256 := by decide

theorem witness_FormatIsBigEndian :
    7 < [0#32, 1#32, 2#32, 3#32, 4#32, 5#32, 6#32, 7#32].length ∧ 0 < [5#64].length ∧ chainFits .sha256 zeroChain = true := by decide

theorem witness_ChunkingInvariance : (fullCtx 0#64).pending.length < blockLen (fullCtx 0#64).block.alg := by decide

theorem witness_PaddingLayout :
    (zeros 55).length < blockLen .sha256 ∧ (zeros 56).length < blockLen .sha256 ∧
    lenLen .sha256 - 8 ≤ 0 ∧ ((zeros 55).length + 1 + 0 + 8) % blockLen .sha256 = 0 ∧
    ((zeros 56).length + 1 + 63 + 8) % blockLen .sha256 = 0 := by decide

theorem witness_DigestIsHashOfPaddedMessage : 8 * (zeros 64).length < 2 ^ 64 := by decide

theorem witness_HmacIsRfc2104 :
    8 * (zeros 20).length < 2 ^ 64 ∧ 8 * (blockLen .sha256 + [hiThere, [], [1#8]].flatten.length) < 2 ^ 64 := by decide

theorem witness_HkdfIsRfc5869Expand :
    8 * (zeros 32).length < 2 ^ 64 ∧ 8 * (blockLen .sha256 + outputLen .sha256 + [hiThere, []].flatten.length + 1) < 2 ^ 64 ∧
    8160 ≤ 255 * outputLen .sha256 := by decide

theorem witness_NonceCompressesTwoBlocks :
    let k : NonceKey := { alg := .sha512, value := zeros 64 }
    k.value.length = outputLen k.alg ∧ (zeros 64).length = blockLen k.alg - outputLen k.alg ∧
    (zeros 64).length = outputLen k.alg := by decide

/-- Two states that differ in a limb and in `MEM`, and agree in everything public, also in what an SG_ASN1 of
s4 and s5 discloses. -/
theorem witness_ObservablesArePublic :
    let t := { ((sample.setSlot 4 (.limbs [6, 0])).setSlot 1 (.digestVal { alg := .sha256, value := List.replicate 32 9#8 })) with
      mem := [(0x51, 2#8)] }
    publicEq sample t ∧ sample ≠ t ∧
    disclosed (.sgAsn1 4 5 0x100#32) sample = .contents 1 1 ∧ disclosed (.sgAsn1 4 5 0x100#32) t = .contents 1 1 ∧
    disclosed (.lbLt 4 5) sample = disclosed (.lbLt 4 5) t ∧
    disclosed (.ctVerify 1 0x40#32 32#32) sample = .verdict false ∧ disclosed (.ctVerify 1 0x40#32 32#32) t = .verdict false ∧
    disclosed (.hkExpand 2 0x200#32 0#32 0x300#32 42#32 42#32) sample = .chunks [] ∧
    disclosed (.hkExpand 2 0x200#32 0#32 0x300#32 42#32 42#32) t = .chunks [] := by decide

/-- R170, R172, R351: CT_VERIFY lets its verdict out and nothing of the bytes where it does not compare them: another length, a
range outside `MEM`, no digest. -/
theorem test_verify_discloses_verdict_only :
    disclosed (.ctVerify 1 0x100#32 32#32) sample = .verdict true ∧ disclosed (.ctVerify 1 0x40#32 32#32) sample = .verdict false ∧
    disclosed (.ctVerify 1 0x100#32 31#32) sample = .nothing ∧ disclosed (.ctVerify 1 0x100#32 33#32) sample = .nothing ∧
    disclosed (.ctVerify 1 0xFFE1#32 32#32) sample = .nothing ∧ disclosed (.ctVerify 15 0x100#32 32#32) sample = .nothing := by
  decide

/-- R276, R350, R351: where SG_ASN1 writes no signature, its fault is all it discloses. -/
theorem test_asn1_discloses_outcome :
    disclosed (.sgAsn1 6 6 0x100#32) sample = .faultOf .zeroScalar ∧
    disclosed (.sgAsn1 4 8 0x100#32) sample = .faultOf .badLength := by decide

theorem witness_SealedObjectsStayInside :
    let t := sample.setSlot 0 (.digestCtx { abcCtx with pending := [1#8, 2#8, 3#8] })
    sealedEq sample t ∧ sample ≠ t ∧ exec (.dgRead 1 0x50#32) sample = .next (after (exec (.dgRead 1 0x50#32) sample)) ∧
    exec (.dgRead 1 0x50#32) t = .next (after (exec (.dgRead 1 0x50#32) t)) ∧ sealedOutput (.dgRead 1 0x50#32) = none :=
  ⟨by decide, by decide, next_after (by decide), next_after (by decide), rfl⟩

theorem witness_SealedObjectsStayInside_expand :
    let i := Instr.hkExpand 2 0x200#32 1#32 0x300#32 42#32 42#32
    let t := tableState.setSlot 2 (.hmacKey { zeroKey with inner := { padBlock with h := .w32 (List.replicate 8 1#32) } })
    sealedEq tableState t ∧ tableState ≠ t ∧ exec i tableState = .next (after (exec i tableState)) ∧
    exec i t = .next (after (exec i t)) ∧ sealedOutput i = some ⟨0x300, 42⟩ ∧
    ¬ ((⟨0x300, 42⟩ : MemRange).addr ≤ 0x32A ∧ 0x32A < 0x300 + 42) :=
  ⟨by decide, by decide, next_after (by decide), next_after (by decide), rfl, by decide⟩

theorem witness_SealedObjectsStayInside_nonce :
    let i := Instr.ecNonce 9 0x420#32 32#32 0x440#32 32#32
    let s := { sample with rngScript := [.ok []] }
    let t := s.setSlot 9 (.nonceKey { alg := .sha256, value := List.replicate 32 1#8 })
    sealedEq s t ∧ s ≠ t ∧ exec i s = .next (after (exec i s)) ∧ exec i t = .next (after (exec i t)) ∧
    sealedOutput i = some ⟨0x440, 32⟩ ∧ ¬ (0x440 ≤ 0x43F ∧ 0x43F < 0x440 + 32) :=
  ⟨by decide, by decide, next_after (by decide), next_after (by decide), rfl, by decide⟩

theorem witness_CompressionWorkByGuide :
    sample.Inv ∧ sample.fault = 0#8 ∧
    (let i := Instr.dgUpdate 0 0x100#32 125#32
     exec i sample = .next (after (exec i sample)) ∧ (after (exec i sample)).fault = 0#8 ∧ (after (exec i sample)).err = 0#8) ∧
    (let i := Instr.ctVerify 1 0x100#32 31#32
     exec i sample = .next (after (exec i sample)) ∧ (after (exec i sample)).err ≠ 0#8) ∧
    (let i := Instr.dgRead 15 0x100#32
     exec i sample = .next (after (exec i sample)) ∧ (after (exec i sample)).fault ≠ 0#8) :=
  ⟨by decide, by decide, ⟨next_after (by decide), by decide, by decide⟩, ⟨next_after (by decide), by decide⟩,
    next_after (by decide), by decide⟩

/-! ## The observed invocations (40_digest.md R129, R131, R141; the counts of R361 by hand) -/

/-- R129: 3 bytes are pending, 61 complete the block, and the 64 after them are one block more. -/
theorem test_update_invocations :
    (footprint (.dgUpdate 0 0x100#32 60#32) sample).compressions = [] ∧
    (footprint (.dgUpdate 0 0x100#32 61#32) sample).compressions = [1] ∧
    (footprint (.dgUpdate 0 0x100#32 253#32) sample).compressions = [1, 3] := by decide

/-- R131: 55 pending bytes leave room for the length, 56 do not (R140). -/
theorem test_finish_invocations :
    finishCalls .sha256 55 = [1] ∧ finishCalls .sha256 56 = [1, 1] ∧
    finishCalls .sha512 111 = [1] ∧ finishCalls .sha512 112 = [1, 1] := by decide

/-- R255, R258, R73: two blocks, one input and one output when the source answers; nothing but the request when it fails. -/
theorem test_nonce_footprint :
    footprint (.ecNonce 9 0x420#32 32#32 0x440#32 32#32) { sample with rngScript := [.fail] } =
      { compressions := [], reads := [], writes := [], rngRequest := some 32 } ∧
    footprint (.ecNonce 9 0x420#32 32#32 0x440#32 32#32) { sample with rngScript := [.ok []] } =
      { compressions := [1, 1], reads := [⟨0x420, 32⟩], writes := [⟨0x440, 32⟩], rngRequest := some 32 } :=
  ⟨by decide, by decide +kernel⟩

end Sys2Proof.Tests
end

section
/-! SUPPORT. Legal headers and their records read back (30_encoding.md R90 to R96): a legal header is the header of the
command decoded from it, and the decoder accepts it exactly with as many operand words as its opcode calls for. -/

namespace Sys2Proof

/-! ## The header of a decoded command -/

/-- An accepted header is put together again from the fields its opcode uses, the others being 0 (R91, R93). -/
theorem makeHeader_usedFields {hdr : Word} {o : Op} (h : decodeHeader hdr = .ok o) :
    makeHeader (opByte o) (if opUsesRd o then hdrRd hdr else 0#4) (if opUsesRs1 o then hdrRs1 hdr else 0#4)
      (if opUsesRs2 o then hdrRs2 hdr else 0#4) (if opUsesSel o then selOfAlg (hdrAlg hdr) else 0#4) = hdr := by
  obtain ⟨hop, hzero, hrd, hrs1, hrs2, hsel, hle⟩ := decodeHeader_ok.1 h
  have unused {u : Bool} {f : BitVec 4} (hf : u = true ∨ f = 0#4) : (if u then f else 0#4) = f := by
    rcases hf with rfl | rfl <;> simp
  have halg : opUsesSel o = true → selOfAlg (hdrAlg hdr) = hdrSel hdr := fun hs => by
    have hsome : (algOfSel (hdrSel hdr)).isSome = true := by simpa [algOfSel_isSome] using hle hs
    obtain ⟨a, ha⟩ := Option.isSome_iff_exists.1 hsome
    simpa [hdrAlg, ha] using selOfAlg_of_algOfSel ha
  apply header_eq_of_fields
  · rw [hdrOp_makeHeader]; exact opByte_of_opOfByte hop
  · rw [hdrRd_makeHeader]; exact unused hrd
  · rw [hdrRs1_makeHeader]; exact unused hrs1
  · rw [hdrRs2_makeHeader]; exact unused hrs2
  · rw [hdrSel_makeHeader]
    split
    · exact halg ‹_›
    · exact (hsel.resolve_left ‹_›).symm
  · rw [hdrZero_makeHeader, hzero]

/-- The command decoded under an accepted header has that header's opcode and exactly the words it was decoded from. -/
theorem encode_of_decodeOperands {o : Op} {hdr : Word} {ops : List Word} {i : Instr} (ho : decodeHeader hdr = .ok o)
    (h : decodeOperands o hdr ops = .ok i) : instrOp i = o ∧ encode i = hdr :: ops := by
  have hhdr := makeHeader_usedFields ho
  cases o
  case slFree | dgInit | dgFinish | hmInit | hmSign | lbEq | lbLt | lbZero | lbEven | lbReduce | lbMinbits =>
    obtain ⟨rfl, rfl⟩ := withNone_ok.1 h
    exact ⟨rfl, congrArg (· :: _) hhdr⟩
  case dgRead | lbFold5 | sgFixed | sgAsn1 =>
    obtain ⟨a, rfl, rfl⟩ := withOne_ok.1 h
    exact ⟨rfl, congrArg (· :: _) hhdr⟩
  case dgUpdate | ctVerify | hmKey | hmUpdate | lbFormat | lbEqlimb | ecNkey =>
    obtain ⟨a, b, rfl, rfl⟩ := withTwo_ok.1 h
    exact ⟨rfl, congrArg (· :: _) hhdr⟩
  case lbParse =>
    obtain ⟨a, b, c, rfl, rfl⟩ := withThree_ok.1 h
    exact ⟨rfl, congrArg (· :: _) hhdr⟩
  case ecNonce =>
    obtain ⟨a, b, c, d, rfl, rfl⟩ := withFour_ok.1 h
    exact ⟨rfl, congrArg (· :: _) hhdr⟩
  case hkExpand =>
    obtain ⟨a, b, c, d, e, rfl, rfl⟩ := withFive_ok.1 h
    exact ⟨rfl, congrArg (· :: _) hhdr⟩

/-! ## When decoding succeeds -/

theorem exists_withNone_ok {ops : List Word} {g : Instr} : (∃ i, withNone ops g = .ok i) ↔ ops.length = 0 := by
  simp [withNone_ok]

theorem exists_withOne_ok {ops : List Word} {f : Word → Instr} : (∃ i, withOne ops f = .ok i) ↔ ops.length = 1 := by
  simp [withOne_ok, List.length_eq_one_iff]

theorem exists_withTwo_ok {ops : List Word} {f : Word → Word → Instr} :
    (∃ i, withTwo ops f = .ok i) ↔ ops.length = 2 := by
  simp [withTwo_ok, List.length_eq_two]

theorem exists_withThree_ok {ops : List Word} {f : Word → Word → Word → Instr} :
    (∃ i, withThree ops f = .ok i) ↔ ops.length = 3 := by
  simp [withThree_ok, List.length_eq_three]

theorem exists_withFour_ok {ops : List Word} {f : Word → Word → Word → Word → Instr} :
    (∃ i, withFour ops f = .ok i) ↔ ops.length = 4 := by
  constructor
  · rintro ⟨i, h⟩
    obtain ⟨a, b, c, d, rfl, -⟩ := withFour_ok.1 h
    rfl
  · intro h
    match ops, h with
    | [a, b, c, d], _ => exact ⟨f a b c d, rfl⟩

theorem exists_withFive_ok {ops : List Word} {f : Word → Word → Word → Word → Word → Instr} :
    (∃ i, withFive ops f = .ok i) ↔ ops.length = 5 := by
  constructor
  · rintro ⟨i, h⟩
    obtain ⟨a, b, c, d, e, rfl, -⟩ := withFive_ok.1 h
    rfl
  · intro h
    match ops, h with
    | [a, b, c, d, e], _ => exact ⟨f a b c d e, rfl⟩

/-- The operands of an opcode decode exactly when they are as many as R101 says (R94). -/
theorem exists_decodeOperands_ok {o : Op} {hdr : Word} {ops : List Word} :
    (∃ i, decodeOperands o hdr ops = .ok i) ↔ ops.length = numOperandWords o := by
  cases o
  case slFree | dgInit | dgFinish | hmInit | hmSign | lbEq | lbLt | lbZero | lbEven | lbReduce | lbMinbits =>
    exact exists_withNone_ok
  case dgRead | lbFold5 | sgFixed | sgAsn1 => exact exists_withOne_ok
  case dgUpdate | ctVerify | hmKey | hmUpdate | lbFormat | lbEqlimb | ecNkey => exact exists_withTwo_ok
  case lbParse => exact exists_withThree_ok
  case ecNonce => exact exists_withFour_ok
  case hkExpand => exact exists_withFive_ok

/-! ## Whole records -/

theorem decodeRecord_cons {hdr : Word} {tail : List Word} {o : Op} (ho : decodeHeader hdr = .ok o) :
    decodeRecord (hdr :: tail) = decodeOperands o hdr tail := by
  simp only [decodeRecord, ho]

/-- A decoded record has a legal header, and its words are those of the decoded command. -/
theorem decodeRecord_cons_ok {hdr : Word} {tail : List Word} {i : Instr} (h : decodeRecord (hdr :: tail) = .ok i) :
    decodeHeader hdr = .ok (instrOp i) ∧ encode i = hdr :: tail := by
  cases ho : decodeHeader hdr with
  | error e => simp [decodeRecord, ho] at h
  | ok o =>
    rw [decodeRecord_cons ho] at h
    obtain ⟨rfl, henc⟩ := encode_of_decodeOperands ho h
    exact ⟨rfl, henc⟩

/-- Under an accepted header the record decodes exactly when it has all its operand words (R94). -/
theorem exists_decodeRecord_ok {hdr : Word} {tail : List Word} {o : Op} (ho : decodeHeader hdr = .ok o) :
    (∃ i, decodeRecord (hdr :: tail) = .ok i) ↔ tail.length = numOperandWords o := by
  rw [decodeRecord_cons ho]; exact exists_decodeOperands_ok

theorem recordLength_of_decodeHeader {hdr : Word} {o : Op} (ho : decodeHeader hdr = .ok o) :
    recordLength hdr = 1 + numOperandWords o := by
  simp only [recordLength, ho]

theorem recordLength_pos (hdr : Word) : 1 ≤ recordLength hdr := by
  unfold recordLength; split <;> omega

/-- A legal header is accepted with the opcode its low byte names. -/
theorem decodeHeader_of_legalHeader {hdr : Word} {o : Op} (hl : legalHeader hdr = true)
    (ho : opOfByte (hdrOp hdr) = some o) : decodeHeader hdr = .ok o := by
  obtain ⟨o', h⟩ := legalHeader_iff.1 hl
  have := (decodeHeader_ok.1 h).1
  rw [ho, Option.some.injEq] at this
  rw [this, h]

end Sys2Proof
end

section
/-! SUPPORT. One equation for each thing a step does with a register access of the host (10_state.md R37, R38), and the
bytes `MEM` holds after a reset that lists every byte. -/

namespace Sys2Proof.Machine

/-! ## A word written to the command port (10_state.md R38) -/

theorem writeCmd_of_faulted {w : Word} {s : State} (h : s.fault ≠ 0#8) : writeCmd w s = .next s := if_pos h

theorem writeCmd_of_illegal {w hdr : Word} {tail : List Word} {s : State} (hf : s.fault = 0#8)
    (hb : s.cmdBuf ++ [w] = hdr :: tail) (hl : legalHeader hdr = false) :
    writeCmd w s = .next (raiseFault .illegalCommand hdr s) := by
  simp [writeCmd, hf, hb, hl]

theorem writeCmd_of_complete {w hdr : Word} {tail : List Word} {i : Instr} {s : State} (hf : s.fault = 0#8)
    (hb : s.cmdBuf ++ [w] = hdr :: tail) (hd : decodeRecord (hdr :: tail) = .ok i) :
    writeCmd w s = exec i { s with cmdBuf := [] } := by
  have hl : legalHeader hdr = true := legalHeader_iff.2 ⟨_, (decodeRecord_cons_ok hd).1⟩
  simp [writeCmd, hf, hb, hl, hd]

theorem writeCmd_of_partial {w hdr : Word} {tail : List Word} {e : DecodeError} {s : State} (hf : s.fault = 0#8)
    (hb : s.cmdBuf ++ [w] = hdr :: tail) (hl : legalHeader hdr = true) (hd : decodeRecord (hdr :: tail) = .error e) :
    writeCmd w s = .next { s with cmdBuf := hdr :: tail } := by
  simp [writeCmd, hf, hb, hl, hd]

/-! ## Steps -/

theorem step_of_inbox {s : State} {a : HostAction} {rest : List HostAction} (h : s.inbox = a :: rest) :
    step s = hostAct a { s with inbox := rest } := by
  simp only [step, nextAction, h]

theorem step_regWrite_cmd {s : State} {w : Word} {rest : List HostAction} (h : s.inbox = .regWrite 0x00 4 w :: rest) :
    step s = writeCmd w { s with inbox := rest } := by
  rw [step_of_inbox h]; rfl

theorem step_regWrite_other {s : State} {off : Nat} {x : Word} {rest : List HostAction} (ha : off % 4 = 0)
    (hne : off ≠ 0x00) (h : s.inbox = .regWrite off 4 x :: rest) : step s = .next { s with inbox := rest } := by
  rw [step_of_inbox h]
  simp [hostAct, hostRegWrite, registerAccessOk, cmdOffset, ha, hne]

theorem step_regRead {s : State} {off : Nat} {rest : List HostAction} (ha : off % 4 = 0)
    (h : s.inbox = .regRead off 4 :: rest) :
    step s = .next { s with inbox := rest, answers := .reg (readRegister s off) :: s.answers } := by
  rw [step_of_inbox h]
  exact if_neg (by simp [registerAccessOk, ha])

theorem step_reset {s : State} {m : List Host.Cell} {rest : List HostAction} (h : s.inbox = .reset m :: rest) :
    step s = .next (State.assertReset { s with inbox := rest } m) := step_of_inbox h

/-! ## MEM after a reset -/

theorem memOfCells_concat (n : Nat) (cells : List Host.Cell) (c : Host.Cell) :
    memOfCells n (cells ++ [c]) =
      if c.1 < n then memWrite (memOfCells n cells) c.1 c.2 else memOfCells n cells := by
  simp [memOfCells, List.foldl_append]

/-- The cells that give the bytes at the addresses below `n` the values of a function. -/
def cellsBelow (n : Nat) (f : Nat → Byte) : List Host.Cell := (List.range n).map fun a => (a, f a)

/-- A reset that lists bytes of `MEM` leaves those bytes there (70_reset_and_hazards.md R340, U1). -/
theorem memRead_memOfCells_cellsBelow {n k a : Nat} (f : Nat → Byte) (hk : k ≤ n) (ha : a < k) :
    memRead (memOfCells n (cellsBelow k f)) a = f a := by
  induction k with
  | zero => omega
  | succ k ih =>
    have hcells : cellsBelow (k + 1) f = cellsBelow k f ++ [(k, f k)] := by simp [cellsBelow, List.range_succ]
    rw [hcells, memOfCells_concat, if_pos (by simpa using hk), memRead_memWrite (memOfCells_ok n _).1]
    split
    · subst a; rfl
    · exact ih (by omega) (by omega)

end Sys2Proof.Machine
end

section
/-! SUPPORT. One rule for each operation on the state: it keeps the invariant (10_state.md R29) when what it writes is legal. -/

namespace Sys2Proof.Machine

variable {s : State}

/-- A slot that is read holds a legal object. -/
theorem State.Inv.objOk_of_slot (h : s.Inv) {r : Slot} {o : Obj} (ho : s.slot r = o) : objOk s.cfg o = true := by
  obtain ⟨-, hslots, -⟩ := h
  exact ho ▸ hslots r

theorem State.Inv.partialOk_cmdBuf (h : s.Inv) : partialOk s.cmdBuf = true := by
  obtain ⟨-, -, -, -, -, -, -, -, -, hp⟩ := h
  exact hp

theorem State.Inv.setSlot (h : s.Inv) {o : Obj} (r : Slot) (ho : objOk s.cfg o = true) : (s.setSlot r o).Inv := by
  obtain ⟨hcfg, hslots, hrest⟩ := h
  refine ⟨hcfg, fun q => ?_, hrest⟩
  rw [State.slot_setSlot]
  split
  · exact ho
  · exact hslots q

theorem State.Inv.store (h : s.Inv) {a : Nat} {bs : List Byte} (hb : a + bs.length ≤ s.cfg.memSize) :
    (s.store a bs).Inv := by
  obtain ⟨hcfg, hslots, hwf, hbound, hrest⟩ := h
  exact ⟨hcfg, hslots, memWriteBytes_wf hwf a bs, memWriteBytes_bound hbound a bs hb, hrest⟩

theorem State.Inv.setRes (h : s.Inv) {v : BitVec 64} (hv : v.toNat < 2 ^ s.limbBits) : (s.setRes v).Inv := by
  obtain ⟨hcfg, hslots, hwf, hbound, -, hrest⟩ := h
  exact ⟨hcfg, hslots, hwf, hbound, hv, hrest⟩

theorem State.Inv.complete (h : s.Inv) {c : ErrCode} (hc : errByte c ∈ [0x00#8, 0x01#8, 0x14#8]) :
    (s.complete c).Inv := by
  obtain ⟨hcfg, hslots, hwf, hbound, hres, -, hrest⟩ := h
  exact ⟨hcfg, hslots, hwf, hbound, hres, hc, hrest⟩

theorem faultByte_le (c : FaultCode) : (faultByte c).toNat ≤ 9 := by cases c <;> decide

theorem State.Inv.raiseFault (h : s.Inv) (c : FaultCode) (hdr : Word) : (raiseFault c hdr s).Inv := by
  obtain ⟨hcfg, hslots, hwf, hbound, hres, herr, -⟩ := h
  exact ⟨hcfg, hslots, hwf, hbound, hres, herr, faultByte_le c, fun h0 => absurd h0 (faultByte_ne_zero c), fun _ => rfl, rfl⟩

/-- An engine that is not faulted may hold the beginning of a record (10_state.md R38). -/
theorem State.Inv.setCmdBuf (h : s.Inv) (hf : s.fault = 0#8) {buf : List Word} (hb : partialOk buf = true) :
    State.Inv { s with cmdBuf := buf } := by
  obtain ⟨hcfg, hslots, hwf, hbound, hres, herr, h9, h0, -, -⟩ := h
  exact ⟨hcfg, hslots, hwf, hbound, hres, herr, h9, h0, fun hne => absurd hf hne, hb⟩

theorem State.Inv.assertReset (h : s.Inv) (m : List Host.Cell) : (s.assertReset m).Inv := by
  obtain ⟨hcfg, -⟩ := h
  obtain ⟨hwf, hbound⟩ := memOfCells_ok s.cfg.memSize m
  refine ⟨hcfg, fun r => ?_, hwf, hbound, Nat.two_pow_pos _, by simp, by simp, fun _ => ⟨rfl, rfl⟩, fun _ => rfl, rfl⟩
  rw [State.assertReset_slot]
  rfl

/-- What is written to `RES` is `LIMB_BITS` wide (10_state.md R32). -/
theorem resOfNat_lt (w : LimbWidth) (n : Nat) : (resOfNat w n).toNat < 2 ^ w.bits :=
  calc (resOfNat w n).toNat ≤ n % 2 ^ w.bits := by rw [resOfNat, BitVec.toNat_ofNat]; exact Nat.mod_le _ _
    _ < 2 ^ w.bits := Nat.mod_lt _ (Nat.two_pow_pos _)

theorem limbMask_lt (w : LimbWidth) (b : Bool) : (limbMask w b).toNat < 2 ^ w.bits := by
  cases w <;> cases b <;> decide

/-- The limbs of a number are a legal object when there are 1 to `MAX_LIMBS` of them (10_state.md R27). -/
theorem objOk_limbsOfNat {cfg : Config} {n v : Nat} (h1 : 1 ≤ n) (hn : n ≤ cfg.maxLimbs) :
    objOk cfg (.limbs (limbsOfNat cfg.limbWidth.bits n v)) = true := by
  simp only [objOk, limbsOfNat_length, Bool.and_eq_true, decide_eq_true_eq, List.all_eq_true]
  exact ⟨⟨h1, hn⟩, limbsOfNat_lt _ _ _⟩

theorem one_le_ceilDiv {a b : Nat} (ha : 1 ≤ a) (hb : 0 < b) : 1 ≤ ceilDiv a b :=
  (Nat.one_le_div_iff hb).2 (by omega)

theorem hkdfLoop_length_le (src : CompressSource) (prk : HmacKey) (chunks : List (List Byte)) (bigL fuel n : Nat)
    (prev out : List Byte) (h : out.length ≤ bigL) :
    (hkdfLoop src prk chunks bigL fuel n prev out).length ≤ bigL := by
  induction fuel generalizing n prev out with
  | zero => exact h
  | succ fuel ih =>
    simp only [hkdfLoop]
    have hout : (out ++ (hkdfRound src prk chunks n prev).take (min (bigL - out.length) (outputLen prk.alg))).length
        ≤ bigL := by
      simp only [List.length_append, List.length_take]; omega
    split
    · exact hout
    · exact ih _ _ _ hout

/-- HKDF expansion gives no more bytes than asked for (42_hkdf.md R192). -/
theorem hkdfFill_length_le (src : CompressSource) (prk : HmacKey) (chunks : List (List Byte)) (bigL : Nat) :
    (hkdfFill src prk chunks bigL).length ≤ bigL :=
  hkdfLoop_length_le src prk chunks bigL 255 1 [] [] (Nat.zero_le _)

end Sys2Proof.Machine
end

section
/-! SUPPORT. What each command writes, said once as the sequence of its operations on the state, and what follows for every
command: its frame of slots, of `RES`, of the parameters, and the invariant. -/

namespace Sys2Proof.Machine

/-- `Effect i s s'`: running command `i` on `s`, the engine may hold `s'` just before the command completes. It has made at
most one request to the random source and then written slots the command is listed with (30_encoding.md R101), bytes inside
`MEM` (20_memory.md R64), and `RES` if the command is one that writes it (10_state.md R32). What is written is legal when
`s` satisfies the invariant. -/
inductive Effect (i : Instr) (s : State) : State → Prop
  | start : Effect i s s
  | askRng : Effect i s { s with rngScript := s.rngScript.tail, rngDraws := s.rngDraws + 1 }
  | setSlot {s' : State} {r : Slot} {o : Obj} (before : Effect i s s') (listed : r ∈ slotsWritten i)
      (legal : s.Inv → objOk s.cfg o = true) : Effect i s (s'.setSlot r o)
  | store {s' : State} {a : Nat} {bs : List Byte} (before : Effect i s s')
      (inside : s.Inv → a + bs.length ≤ s.cfg.memSize) : Effect i s (s'.store a bs)
  | setRes {s' : State} {v : BitVec 64} (before : Effect i s s') (listed : writesRes i = true)
      (fits : v.toNat < 2 ^ s.limbBits) : Effect i s (s'.setRes v)

section
variable {i : Instr} {s s' : State}

theorem Effect.cfg_eq (h : Effect i s s') : s'.cfg = s.cfg := by
  induction h with
  | start | askRng => rfl
  | setSlot _ _ _ ih | store _ _ ih | setRes _ _ _ ih => exact ih

theorem Effect.slot_eq {q : Slot} (h : Effect i s s') (hq : q ∉ slotsWritten i) : s'.slot q = s.slot q := by
  induction h with
  | start | askRng => rfl
  | setSlot _ listed _ ih =>
    have hne := ne_of_mem_of_not_mem listed hq
    rw [State.slot_setSlot_other _ _ _ _ hne.symm, ih]
  | store _ _ ih | setRes _ _ _ ih => exact ih

theorem Effect.res_eq (h : Effect i s s') (hw : writesRes i = false) : s'.res = s.res := by
  induction h with
  | start | askRng => rfl
  | setSlot _ _ _ ih | store _ _ ih => exact ih
  | setRes _ listed => exact absurd listed (by simp [hw])

theorem Effect.inv (h : Effect i s s') (hs : s.Inv) : s'.Inv := by
  induction h with
  | start | askRng => exact hs
  | setSlot before _ legal ih => exact ih.setSlot _ (by rw [before.cfg_eq]; exact legal hs)
  | store before inside ih => exact ih.store (by rw [before.cfg_eq]; exact inside hs)
  | setRes before _ fits ih => exact ih.setRes (by rw [State.limbBits, before.cfg_eq]; exact fits)

end

/-- A next state of a command: it took a fault, or it had its effect and completed with a code it may give (60_exceptions.md
R304, R311). -/
abbrev FaultsOrCompletes (i : Instr) (s t : State) : Prop :=
  (∃ c, t = raiseFault c (instrHeader i) s) ∨ ∃ s' e, t = State.complete s' e ∧ Effect i s s' ∧ errByte e ∈ errCodes i

/-- Every command may succeed. -/
theorem errByte_ok_mem_errCodes (i : Instr) : errByte .ok ∈ errCodes i := by cases i <;> exact List.mem_cons_self

/-- Every code of every command is one of the three that RHE produces (60_exceptions.md R311). -/
theorem errCodes_subset (i : Instr) : errCodes i ⊆ [0x00#8, 0x01#8, 0x14#8] := by cases i <;> simp [errCodes]

section
variable {i : Instr} {s s' t : State} {r : Result}

theorem FaultsOrCompletes.of_trap {c : FaultCode} (e : r = trap i c s) (h : r = .next t) : FaultsOrCompletes i s t :=
  .inl ⟨c, trap_eq_next.1 (e ▸ h)⟩

theorem FaultsOrCompletes.of_succeed (e : r = succeed s') (h : r = .next t) (he : Effect i s s') :
    FaultsOrCompletes i s t :=
  .inr ⟨s', .ok, succeed_eq_next.1 (e ▸ h), he, errByte_ok_mem_errCodes i⟩

theorem FaultsOrCompletes.of_failWith {c : ErrCode} (e : r = failWith c s') (h : r = .next t) (he : Effect i s s')
    (hc : errByte c ∈ errCodes i) : FaultsOrCompletes i s t :=
  .inr ⟨s', c, failWith_eq_next.1 (e ▸ h), he, hc⟩

/-- A comparison command has no effect but its mask in `RES` (43_limb.md R211). -/
theorem FaultsOrCompletes.of_succeedMask {b : Bool} (e : r = succeedMask s b) (h : r = .next t)
    (hw : writesRes i = true) : FaultsOrCompletes i s t :=
  .of_succeed e h (.setRes .start hw (limbMask_lt _ b))

end

/-! ## Each command -/

open FaultsOrCompletes

theorem execSlFree_effect {rd : Slot} {s t : State} (h : execSlFree rd s = .next t) :
    FaultsOrCompletes (.slFree rd) s t :=
  of_succeed (execSlFree_cases rd s) h (.setSlot .start (by simp [slotsWritten]) fun _ => rfl)

theorem execDgInit_effect {rd : Slot} {alg : AlgId} {s t : State} (h : execDgInit rd alg s = .next t) :
    FaultsOrCompletes (.dgInit rd alg) s t :=
  of_succeed (execDgInit_cases rd alg s) h
    (.setSlot .start (by simp [slotsWritten]) fun _ => digestCtxOk_ctxNew _ alg)

theorem execDgUpdate_effect {rd : Slot} {addr len : Word} {s t : State} (h : execDgUpdate rd addr len s = .next t) :
    FaultsOrCompletes (.dgUpdate rd addr len) s t := by
  rcases execDgUpdate_cases rd addr len s with ⟨-, e⟩ | ⟨c, hc, ⟨-, e⟩ | ⟨-, -, e⟩ | ⟨-, -, e⟩⟩
  · exact of_trap e h
  · exact of_trap e h
  · exact of_trap e h
  · exact of_succeed e h (.setSlot .start (by simp [slotsWritten]) fun hs =>
      digestCtxOk_ctxUpdate _ c _ (hs.objOk_of_slot hc))

theorem execDgFinish_effect {rd rs1 : Slot} {s t : State} (h : execDgFinish rd rs1 s = .next t) :
    FaultsOrCompletes (.dgFinish rd rs1) s t := by
  rcases execDgFinish_cases rd rs1 s with ⟨-, e⟩ | ⟨c, hc, ⟨f, -, e⟩ | ⟨-, e⟩⟩
  · exact of_trap e h
  · exact of_trap e h
  · exact of_succeed e h (.setSlot (.setSlot .start (by simp [slotsWritten]) fun _ => rfl) (by simp [slotsWritten])
      fun hs => beq_iff_eq.2 (ctxFinish_length _ c (hs.objOk_of_slot hc)))

theorem execDgRead_effect {rs1 : Slot} {addr : Word} {s t : State} (h : execDgRead rs1 addr s = .next t) :
    FaultsOrCompletes (.dgRead rs1 addr) s t := by
  rcases execDgRead_cases rs1 addr s with ⟨-, e⟩ | ⟨d, hd, ⟨-, e⟩ | ⟨hv, e⟩⟩
  · exact of_trap e h
  · exact of_trap e h
  · refine of_succeed e h (.setRes (.store .start fun hs => ?_) rfl (resOfNat_lt _ _))
    have hlen : d.value.length = outputLen d.alg := beq_iff_eq.1 (hs.objOk_of_slot hd)
    rw [hlen]
    exact State.validRange_iff.1 hv

theorem execCtVerify_effect {rs1 : Slot} {addr len : Word} {s t : State} (h : execCtVerify rs1 addr len s = .next t) :
    FaultsOrCompletes (.ctVerify rs1 addr len) s t := by
  rcases execCtVerify_cases rs1 addr len s with ⟨-, e⟩ | ⟨d, -, ⟨-, e⟩ | ⟨-, -, e⟩ | ⟨-, -, -, e⟩⟩
  · exact of_trap e h
  · exact of_trap e h
  · exact of_failWith e h .start (by simp [errCodes, errByte])
  · exact of_succeed e h .start

theorem execHmKey_effect {rd : Slot} {alg : AlgId} {addr len : Word} {s t : State}
    (h : execHmKey rd alg addr len s = .next t) : FaultsOrCompletes (.hmKey rd alg addr len) s t := by
  rcases execHmKey_cases rd alg addr len s with ⟨-, e⟩ | ⟨-, e⟩
  · exact of_trap e h
  · exact of_succeed e h (.setSlot .start (by simp [slotsWritten]) fun _ => objOk_hmacKeyNew _ _ _ _)

theorem execHmInit_effect {rd rs1 : Slot} {s t : State} (h : execHmInit rd rs1 s = .next t) :
    FaultsOrCompletes (.hmInit rd rs1) s t := by
  rcases execHmInit_cases rd rs1 s with ⟨-, e⟩ | ⟨k, hk, e⟩
  · exact of_trap e h
  · exact of_succeed e h (.setSlot .start (by simp [slotsWritten]) fun hs =>
      objOk_hmacCtxNew _ k (hs.objOk_of_slot hk))

theorem execHmUpdate_effect {rd : Slot} {addr len : Word} {s t : State} (h : execHmUpdate rd addr len s = .next t) :
    FaultsOrCompletes (.hmUpdate rd addr len) s t := by
  rcases execHmUpdate_cases rd addr len s with ⟨-, e⟩ | ⟨c, hc, ⟨-, e⟩ | ⟨-, -, e⟩ | ⟨-, -, e⟩⟩
  · exact of_trap e h
  · exact of_trap e h
  · exact of_trap e h
  · exact of_succeed e h (.setSlot .start (by simp [slotsWritten]) fun hs =>
      objOk_hmacCtxUpdate _ _ c _ (hs.objOk_of_slot hc))

theorem execHmSign_effect {rd rs1 : Slot} {s t : State} (h : execHmSign rd rs1 s = .next t) :
    FaultsOrCompletes (.hmSign rd rs1) s t := by
  rcases execHmSign_cases rd rs1 s with ⟨-, e⟩ | ⟨c, hc, ⟨f, -, e⟩ | ⟨-, e⟩⟩
  · exact of_trap e h
  · exact of_trap e h
  · exact of_succeed e h (.setSlot (.setSlot .start (by simp [slotsWritten]) fun _ => rfl) (by simp [slotsWritten])
      fun hs => objOk_hmacSign _ _ c (hs.objOk_of_slot hc))

theorem execHkExpand_effect {rs1 : Slot} {tab n out outLen bigL : Word} {s t : State}
    (h : execHkExpand rs1 tab n out outLen bigL s = .next t) :
    FaultsOrCompletes (.hkExpand rs1 tab n out outLen bigL) s t := by
  rcases execHkExpand_cases rs1 tab n out outLen bigL s with
    ⟨-, e⟩ | ⟨k, -, ⟨-, e⟩ | ⟨⟨-, hout, -⟩, ⟨-, e⟩ | ⟨-, ⟨-, e⟩ | ⟨-, ⟨-, e⟩ | ⟨⟨rfl, -⟩, e⟩⟩⟩⟩⟩
  · exact of_trap e h
  · exact of_trap e h
  · exact of_trap e h
  · exact of_trap e h
  · exact of_failWith e h .start (by simp [errCodes, errByte])
  · exact of_succeed e h (.store .start fun _ =>
      (Nat.add_le_add_left (hkdfFill_length_le _ _ _ _) _).trans (State.validRange_iff.1 hout))

theorem execLbParse_effect {rd : Slot} {addr len n : Word} {s t : State} (h : execLbParse rd addr len n s = .next t) :
    FaultsOrCompletes (.lbParse rd addr len n) s t := by
  rcases execLbParse_cases rd addr len n s with ⟨-, e⟩ | ⟨-, -, e⟩ | ⟨-, -, -, e⟩ | ⟨hmax, -, hlen, hneed, e⟩
  · exact of_trap e h
  · exact of_trap e h
  · exact of_failWith e h .start (by simp [errCodes, errByte])
  · have hbytes : 0 < s.limbBytes := by unfold State.limbBytes; cases s.cfg.limbWidth <;> decide
    exact of_succeed e h (.setSlot .start (by simp [slotsWritten]) fun _ =>
      objOk_limbsOfNat ((one_le_ceilDiv hlen hbytes).trans hneed) hmax)

theorem execLbFormat_effect {rs1 : Slot} {addr len : Word} {s t : State} (h : execLbFormat rs1 addr len s = .next t) :
    FaultsOrCompletes (.lbFormat rs1 addr len) s t := by
  rcases execLbFormat_cases rs1 addr len s with ⟨-, e⟩ | ⟨a, -, ⟨-, e⟩ | ⟨-, -, e⟩ | ⟨-, hv, e⟩⟩
  · exact of_trap e h
  · exact of_trap e h
  · exact of_trap e h
  · exact of_succeed e h (.store .start fun _ => by simpa using State.validRange_iff.1 hv)

theorem execLbEq_effect {rs1 rs2 : Slot} {s t : State} (h : execLbEq rs1 rs2 s = .next t) :
    FaultsOrCompletes (.lbEq rs1 rs2) s t := by
  rcases execLbEq_cases rs1 rs2 s with ⟨-, e⟩ | ⟨x, y, -, -, ⟨-, e⟩ | ⟨-, e⟩⟩
  · exact of_trap e h
  · exact of_trap e h
  · exact of_succeedMask e h rfl

theorem execLbLt_effect {rs1 rs2 : Slot} {s t : State} (h : execLbLt rs1 rs2 s = .next t) :
    FaultsOrCompletes (.lbLt rs1 rs2) s t := by
  rcases execLbLt_cases rs1 rs2 s with ⟨-, e⟩ | ⟨x, y, -, -, ⟨-, e⟩ | ⟨-, e⟩⟩
  · exact of_trap e h
  · exact of_trap e h
  · exact of_succeedMask e h rfl

theorem execLbZero_effect {rs1 : Slot} {s t : State} (h : execLbZero rs1 s = .next t) :
    FaultsOrCompletes (.lbZero rs1) s t := by
  rcases execLbZero_cases rs1 s with ⟨-, e⟩ | ⟨x, -, e⟩
  · exact of_trap e h
  · exact of_succeedMask e h rfl

theorem execLbEven_effect {rs1 : Slot} {s t : State} (h : execLbEven rs1 s = .next t) :
    FaultsOrCompletes (.lbEven rs1) s t := by
  rcases execLbEven_cases rs1 s with ⟨-, e⟩ | ⟨x, -, e⟩
  · exact of_trap e h
  · exact of_succeedMask e h rfl

theorem execLbEqlimb_effect {rs1 : Slot} {lo hi : Word} {s t : State} (h : execLbEqlimb rs1 lo hi s = .next t) :
    FaultsOrCompletes (.lbEqlimb rs1 lo hi) s t := by
  rcases execLbEqlimb_cases rs1 lo hi s with ⟨-, e⟩ | ⟨x, -, ⟨-, -, e⟩ | ⟨-, e⟩⟩
  · exact of_trap e h
  · exact of_trap e h
  · exact of_succeedMask e h rfl

theorem execLbReduce_effect {rd rs2 : Slot} {s t : State} (h : execLbReduce rd rs2 s = .next t) :
    FaultsOrCompletes (.lbReduce rd rs2) s t := by
  rcases execLbReduce_cases rd rs2 s with ⟨-, e⟩ | ⟨x, y, hx, -, ⟨-, e⟩ | ⟨-, e⟩⟩
  · exact of_trap e h
  · exact of_trap e h
  · refine of_succeed e h (.setSlot .start (by simp [slotsWritten]) fun hs => ?_)
    obtain ⟨⟨hone, hmax⟩, -⟩ : (1 ≤ x.length ∧ x.length ≤ s.cfg.maxLimbs) ∧ _ := by
      simpa [objOk] using hs.objOk_of_slot hx
    exact objOk_limbsOfNat hone hmax

theorem execLbMinbits_effect {rs1 : Slot} {s t : State} (h : execLbMinbits rs1 s = .next t) :
    FaultsOrCompletes (.lbMinbits rs1) s t := by
  rcases execLbMinbits_cases rs1 s with ⟨-, e⟩ | ⟨x, -, e⟩
  · exact of_trap e h
  · exact of_succeed e h (.setRes .start rfl (resOfNat_lt _ _))

theorem execLbFold5_effect {rs1 : Slot} {addr : Word} {s t : State} (h : execLbFold5 rs1 addr s = .next t) :
    FaultsOrCompletes (.lbFold5 rs1 addr) s t := by
  rcases execLbFold5_cases rs1 addr s with ⟨-, e⟩ | ⟨x, -, ⟨-, e⟩ | ⟨hv, e⟩⟩
  · exact of_trap e h
  · exact of_trap e h
  · exact of_succeed e h (.setRes (.store .start fun _ => by simpa using State.validRange_iff.1 hv) rfl (resOfNat_lt _ _))

theorem execEcNkey_effect {rd : Slot} {alg : AlgId} {addr len : Word} {s t : State}
    (h : execEcNkey rd alg addr len s = .next t) : FaultsOrCompletes (.ecNkey rd alg addr len) s t := by
  rcases execEcNkey_cases rd alg addr len s with
    ⟨-, e⟩ | ⟨-, -, e⟩ | ⟨-, -, ⟨-, e⟩ | ⟨s', hr, e⟩ | ⟨rand, s', hr, e⟩⟩
  · exact of_trap e h
  · exact of_trap e h
  · exact absurd (e.symm.trans h) (by simp)
  · obtain rfl := rngFill_fail hr
    exact of_failWith e h .askRng (by simp [errCodes, errByte])
  · obtain ⟨-, rfl⟩ := rngFill_ok hr
    exact of_succeed e h (.setSlot .askRng (by simp [slotsWritten]) fun _ =>
      beq_iff_eq.2 (nonceKeyNew_length _ alg _ rand))

theorem execEcNonce_effect {rs1 : Slot} {ma ml d dl : Word} {s t : State}
    (h : execEcNonce rs1 ma ml d dl s = .next t) : FaultsOrCompletes (.ecNonce rs1 ma ml d dl) s t := by
  rcases execEcNonce_cases rs1 ma ml d dl s with
    ⟨-, e⟩ | ⟨k, -, ⟨-, e⟩ | ⟨⟨-, hdl⟩, ⟨-, e⟩ | ⟨⟨-, hv⟩, ⟨-, e⟩ | ⟨-, ⟨-, e⟩ | ⟨s', hr, e⟩ | ⟨rand, s', hr, e⟩⟩⟩⟩⟩
  · exact of_trap e h
  · exact of_trap e h
  · exact of_trap e h
  · exact of_trap e h
  · exact absurd (e.symm.trans h) (by simp)
  · obtain rfl := rngFill_fail hr
    exact of_failWith e h .askRng (by simp [errCodes, errByte])
  · obtain ⟨-, rfl⟩ := rngFill_ok hr
    exact of_succeed e h (.store .askRng fun _ => by
      rw [nonceFill_length, ← hdl]; exact State.validRange_iff.1 hv)

theorem execSgFixed_effect {rs1 rs2 : Slot} {addr : Word} {s t : State} (h : execSgFixed rs1 rs2 addr s = .next t) :
    FaultsOrCompletes (.sgFixed rs1 rs2 addr) s t := by
  rcases execSgFixed_cases rs1 rs2 addr s with ⟨-, e⟩ | ⟨x, y, -, -, ⟨-, e⟩ | ⟨-, ⟨-, e⟩ | ⟨hv, e⟩⟩⟩
  · exact of_trap e h
  · exact of_trap e h
  · exact of_trap e h
  · exact of_succeed e h (.setRes (.store .start fun _ => by simpa using State.validRange_iff.1 hv) rfl (resOfNat_lt _ _))

theorem execSgAsn1_effect {rs1 rs2 : Slot} {addr : Word} {s t : State} (h : execSgAsn1 rs1 rs2 addr s = .next t) :
    FaultsOrCompletes (.sgAsn1 rs1 rs2 addr) s t := by
  rcases execSgAsn1_cases rs1 rs2 addr s with
    ⟨-, e⟩ | ⟨x, y, -, -, ⟨-, e⟩ | ⟨-, n, rv, sv, -, -, -, ⟨-, e⟩ | ⟨-, ⟨-, e⟩ | ⟨-, ⟨-, e⟩ | ⟨hv, e⟩⟩⟩⟩⟩
  · exact of_trap e h
  · exact of_trap e h
  · exact of_trap e h
  · exact of_trap e h
  · exact of_trap e h
  · exact of_succeed e h (.setRes (.store .start fun _ => by simpa using State.validRange_iff.1 hv) rfl (resOfNat_lt _ _))

/-! ## Any command -/

theorem exec_effect {i : Instr} {s t : State} (h : exec i s = .next t) : FaultsOrCompletes i s t := by
  cases i with
  | slFree => exact execSlFree_effect h
  | dgInit => exact execDgInit_effect h
  | dgUpdate => exact execDgUpdate_effect h
  | dgFinish => exact execDgFinish_effect h
  | dgRead => exact execDgRead_effect h
  | ctVerify => exact execCtVerify_effect h
  | hmKey => exact execHmKey_effect h
  | hmInit => exact execHmInit_effect h
  | hmUpdate => exact execHmUpdate_effect h
  | hmSign => exact execHmSign_effect h
  | hkExpand => exact execHkExpand_effect h
  | lbParse => exact execLbParse_effect h
  | lbFormat => exact execLbFormat_effect h
  | lbEq => exact execLbEq_effect h
  | lbLt => exact execLbLt_effect h
  | lbZero => exact execLbZero_effect h
  | lbEven => exact execLbEven_effect h
  | lbEqlimb => exact execLbEqlimb_effect h
  | lbReduce => exact execLbReduce_effect h
  | lbMinbits => exact execLbMinbits_effect h
  | lbFold5 => exact execLbFold5_effect h
  | ecNkey => exact execEcNkey_effect h
  | ecNonce => exact execEcNonce_effect h
  | sgFixed => exact execSgFixed_effect h
  | sgAsn1 => exact execSgAsn1_effect h

/-- Every command keeps the invariant (10_state.md R29). -/
theorem exec_inv {i : Instr} {s t : State} (hs : s.Inv) (h : exec i s = .next t) : t.Inv := by
  rcases exec_effect h with ⟨c, rfl⟩ | ⟨s', e, rfl, heff, herr⟩
  · exact hs.raiseFault c _
  · exact (heff.inv hs).complete (errCodes_subset i herr)

/-- A command that does not write `RES` leaves it as it was, whether it faults or completes. -/
theorem exec_res_eq {i : Instr} {s t : State} (hw : writesRes i = false) (h : exec i s = .next t) : t.res = s.res := by
  rcases exec_effect h with ⟨c, rfl⟩ | ⟨s', e, rfl, heff, -⟩
  · rfl
  · exact heff.res_eq hw

/-! ## The command port and the step -/

/-- A record that is not complete stays a beginning of a record with one more word (10_state.md R38). -/
theorem partialOk_of_decode_error {buf tail : List Word} {hdr w : Word} {e : DecodeError} (hp : partialOk buf = true)
    (hb : buf ++ [w] = hdr :: tail) (hl : legalHeader hdr = true) (hd : decodeRecord (hdr :: tail) = .error e) :
    partialOk (hdr :: tail) = true := by
  obtain ⟨o, ho⟩ := legalHeader_iff.1 hl
  have hne : tail.length ≠ numOperandWords o := fun hlen => by
    obtain ⟨i, hi⟩ := (exists_decodeRecord_ok ho).2 hlen
    simp [hd] at hi
  have hle : tail.length ≤ numOperandWords o := by
    cases buf with
    | nil =>
      obtain ⟨-, rfl⟩ := List.cons.inj hb
      exact Nat.zero_le _
    | cons hdr' buf =>
      obtain ⟨rfl, htail⟩ := List.cons.inj hb
      simp only [partialOk, recordLength_of_decodeHeader ho, Bool.and_eq_true, decide_eq_true_eq,
        List.length_cons] at hp
      have hlen : buf.length + 1 = tail.length := by simpa using congrArg List.length htail
      omega
  simp only [partialOk, hl, recordLength_of_decodeHeader ho, List.length_cons, Bool.true_and, decide_eq_true_eq]
  omega

/-- A word written to `CMD` keeps the invariant, whether it is ignored, faults, completes a record or is buffered. -/
theorem writeCmd_inv {w : Word} {s t : State} (hs : s.Inv) (h : writeCmd w s = .next t) : t.Inv := by
  rcases writeCmd_cases h with
    ⟨-, rfl⟩ | ⟨hf, hdr, tail, hb, ⟨-, rfl⟩ | ⟨-, i, -, hex⟩ | ⟨hl, ⟨e, hd⟩, rfl⟩⟩
  · exact hs
  · exact hs.raiseFault _ _
  · exact exec_inv (hs.setCmdBuf hf rfl) hex
  · exact hs.setCmdBuf hf (partialOk_of_decode_error hs.partialOk_cmdBuf hb hl hd)

end Sys2Proof.Machine
end

section
/-! The command port, reset and the register block: the statements of 10_state.md R35 to R41. -/

namespace Sys2Proof.Machine

/-- Settles O1, by the equation of a complete record at the command port. -/
theorem stepRunsDecodedRecord : Obligations.StepRunsDecodedRecord := by
  intro s w rest i hin hf hd
  obtain ⟨hdr, tail, hb⟩ : ∃ hdr tail, s.cmdBuf ++ [w] = hdr :: tail := List.exists_cons_of_ne_nil (by simp)
  rw [hb] at hd
  rw [step_regWrite_cmd hin]
  exact writeCmd_of_complete hf hb hd

/-- Settles O2: one equation of the command port for each arm, a record being complete exactly when it decodes. -/
theorem commandPortProcedure : Obligations.CommandPortProcedure := by
  intro s w rest hin
  rw [step_regWrite_cmd hin]
  refine ⟨fun hf => writeCmd_of_faulted hf, fun hf hdr tail hb => ⟨writeCmd_of_illegal hf hb, fun hl o ho => ?_⟩⟩
  have hdec := decodeHeader_of_legalHeader hl ho
  have hiff := exists_decodeRecord_ok (tail := tail) hdec
  constructor
  · intro hlen
    obtain ⟨i, hi⟩ := hiff.2 hlen
    obtain ⟨hop, henc⟩ := decodeRecord_cons_ok hi
    exact ⟨i, henc, Except.ok.inj (hop.symm.trans hdec), writeCmd_of_complete hf hb hi⟩
  · intro hlen
    cases hd : decodeRecord (hdr :: tail) with
    | ok i => exact absurd (hiff.1 ⟨i, hd⟩) hlen
    | error e => exact writeCmd_of_partial hf hb hl hd

/-- Settles O8: the fields of an asserted reset, and for the bytes of `MEM` a reset that lists each of them. -/
theorem resetLeaves : Obligations.ResetLeaves := by
  refine ⟨fun s m rest hin => ?_, fun s f rest => ?_, ?_⟩
  · exact ⟨_, step_reset hin, State.assertReset_slot _ m, rfl, rfl, rfl, rfl, rfl, rfl, rfl, rfl, rfl⟩
  · exact ⟨cellsBelow s.cfg.memSize f, _, step_reset rfl, fun a ha => memRead_memOfCells_cellsBelow f le_rfl ha⟩
  · exact ⟨State.reset_slot, rfl, rfl, rfl, rfl, rfl, rfl, rfl⟩

/-- Settles O9: every field of `State.reset`. -/
theorem resetSatisfiesInvariant : Obligations.ResetSatisfiesInvariant :=
  ⟨by decide, fun r => by rw [State.reset_slot]; rfl, State.reset_mem_wf, by simp [State.reset], by decide, by decide,
    by decide, by decide, by decide, rfl⟩

/-! ## Bits of the register words -/

/-- Only bits 1 and 2 of `STATUS` are ever 1 (R35). -/
theorem statusWord_getLsbD_of_three_le {s : State} {k : Nat} (hk : 3 ≤ k) : (statusWord s).getLsbD k = false := by
  have hlt : (statusWord s).toNat < 2 ^ 3 := by unfold statusWord; split <;> split <;> decide
  exact Nat.testBit_lt_two_pow (hlt.trans_le (Nat.pow_le_pow_right (by decide) hk))

theorem toNat_append_eq_add {m n : Nat} (x : BitVec m) (y : BitVec n) : (x ++ y).toNat = x.toNat * 2 ^ n + y.toNat := by
  rw [BitVec.toNat_append, ← Nat.shiftLeft_add_eq_or_of_lt y.isLt, Nat.shiftLeft_eq]

theorem configWord_toNat {c : Config} (h : c.wellFormed = true) :
    (configWord c).toNat = c.limbWidth.bits + c.maxLimbs * 2 ^ 8 + 16 * 2 ^ 16 + 1 * 2 ^ 24 := by
  have hmax : c.maxLimbs ≤ 255 := by
    simp only [Config.wellFormed, Bool.and_eq_true, decide_eq_true_eq] at h
    omega
  have hbits : c.limbWidth.bits < 256 := by cases c.limbWidth <;> decide
  simp only [configWord, toNat_append_eq_add, BitVec.toNat_ofNat, interfaceVersion, numSlots]
  omega

/-- Settles O23: the two flags decide the four values of `STATUS`, and each byte of `CONFIG` holds its number. -/
theorem statusAndConfigBits : Obligations.StatusAndConfigBits := by
  intro s
  obtain ⟨hbusy, hfaulted, hpartial⟩ : (statusWord s).getLsbD 0 = false ∧
      ((statusWord s).getLsbD 1 = true ↔ s.fault ≠ 0#8) ∧ ((statusWord s).getLsbD 2 = true ↔ s.cmdBuf ≠ []) := by
    by_cases hf : s.fault = 0#8 <;> by_cases hb : s.cmdBuf = [] <;> simp [statusWord, hf, hb]
  exact ⟨⟨hbusy, hfaulted, hpartial, fun _ => statusWord_getLsbD_of_three_le⟩,
    fun hcfg => ⟨configWord_toNat hcfg, BitVec.toNat_ofNat _ _⟩⟩

/-- The upper half of `RES`, which has one only with 64-bit limbs (R37). -/
theorem readRegister_resHi_toNat (s : State) :
    (readRegister s 0x20).toNat = if s.cfg.limbWidth = .w64 then s.res.toNat / 2 ^ 32 else 0 := by
  have hhigh : s.res.toNat / 2 ^ 32 < 2 ^ 32 := by have := s.res.isLt; omega
  cases hw : s.cfg.limbWidth
  · simp [readRegister, hw]
  · simpa [readRegister, hw, Nat.shiftRight_eq_div_pow] using hhigh

/-- Settles O22: a read answers `readRegister`, whose table is read off offset by offset. -/
theorem registerBlock : Obligations.RegisterBlock := by
  intro s off rest ha
  refine ⟨fun hin => ⟨_, step_regRead ha hin, ?_⟩, fun x hne hin => step_regWrite_other ha hne hin⟩
  refine ⟨?_, ?_, ?_, ?_, ?_, ?_, ?_, ?_, ?_, ?_, ?_⟩
  · rintro rfl; rfl
  · rintro rfl; exact BitVec.toNat_setWidth_of_le (b := s.err) (by decide)
  · rintro rfl; exact BitVec.toNat_setWidth_of_le (b := s.fault) (by decide)
  · rintro rfl; rfl
  · rintro rfl; rfl
  · rintro rfl; rfl
  · rintro rfl; simp [readRegister]
  · rintro rfl; exact readRegister_resHi_toNat s
  · rintro rfl; rfl
  · rintro rfl; simp [readRegister, memSizeWord]
  · rintro (rfl | h)
    · rfl
    · simp only [readRegister]
      repeat rw [if_neg (by omega)]

end Sys2Proof.Machine
end

section
/-! What every step keeps, when the fault registers change, and what a command may change: the statements of 10_state.md R29
to R34. -/

namespace Sys2Proof.Machine

/-- Settles O10, by the cases of a step; each command's part is `exec_inv`. -/
theorem stepKeepsInvariant : Obligations.StepKeepsInvariant := by
  intro s t hs h
  have taken (rest : List HostAction) : State.Inv { s with inbox := rest } := hs
  rcases step_cases h with ⟨-, rfl⟩ | ⟨a, rest, -, ⟨w, -, hw⟩ | ⟨off, x, -, -, rfl⟩ | ⟨off, -, rfl⟩ |
    ⟨b, bs, -, hb, rfl⟩ | ⟨b, n, -, -, rfl⟩ | ⟨m, -, rfl⟩⟩
  · exact hs
  · exact writeCmd_inv (taken rest) hw
  · exact hs
  · exact hs
  · exact (taken rest).store hb
  · exact hs
  · exact (taken rest).assertReset m

/-- Settles O20, by the frame of a command's effect; a fault changes no slot. -/
theorem slotsWrittenOnlyBy : Obligations.SlotsWrittenOnlyBy := by
  intro i s t h
  rcases exec_effect h with ⟨c, rfl⟩ | ⟨s', e, rfl, heff, -⟩
  · exact fun _ _ => rfl
  · exact fun _ hq => heff.slot_eq hq

/-- Settles O18: a fault, an error and a command that does not write `RES` all leave it. -/
theorem resWrittenOnlyBy : Obligations.ResWrittenOnlyBy := by
  intro i s t hf h hne
  refine ⟨?_, ?_⟩
  · by_contra hw
    exact hne (exec_res_eq (by simpa using hw) h)
  · rcases exec_next_cases h with ⟨c, -, rfl⟩ | ⟨s', e, rfl, hk, -, -, herr⟩
    · exact absurd rfl hne
    · obtain ⟨hfault, -⟩ := hk
      refine ⟨hfault.trans hf, ?_⟩
      by_cases he : e = .ok
      · rw [he]; rfl
      · obtain ⟨-, -, hres⟩ := herr he
        exact absurd hres hne

/-- Settles O14: `exec_stop` says when a command ends, and its outcome and its effect how. -/
theorem everyCommandEnds : Obligations.EveryCommandEnds := by
  intro i s hf
  rcases exec_stop i s with ⟨t, h⟩ | ⟨h, hnever, hi⟩
  · refine .inl ⟨t, h, ?_⟩
    rcases exec_next_cases h with ⟨c, -, rfl⟩ | ⟨s', e, rfl, ⟨hfault, -⟩, hseq, -, -⟩
    · exact .inl ⟨faultByte_ne_zero c, rfl, rfl⟩
    · have hnot : s'.fault = 0#8 := hfault.trans hf
      refine .inr ⟨hnot, congrArg (· + 1#32) hseq, ?_⟩
      rcases exec_effect h with ⟨c, heq⟩ | ⟨s'', e', heq, -, herr⟩
      · exact absurd ((congrArg State.fault heq).symm.trans hnot) (faultByte_ne_zero c)
      · rw [heq]; exact herr
  · refine .inr ⟨h, ?_, hnever⟩
    rcases hi with ⟨rd, alg, addr, len, rfl⟩ | ⟨rs1, ma, ml, d, dl, rfl⟩ <;> rfl

/-- A word written to `CMD` leaves the fault registers, or is where FAULT goes from 0 to a code (R34). -/
theorem writeCmd_faultRegisters {w : Word} {s t : State} (h : writeCmd w s = .next t) :
    (t.fault = s.fault ∧ t.faultCmd = s.faultCmd ∧ t.faultSeq = s.faultSeq) ∨
    (s.fault = 0#8 ∧ t.fault ≠ 0#8 ∧ t.faultSeq = s.cmdSeq ∧ ∃ tail, s.cmdBuf ++ [w] = t.faultCmd :: tail) := by
  rcases writeCmd_cases h with
    ⟨-, rfl⟩ | ⟨hf, hdr, tail, hb, ⟨-, rfl⟩ | ⟨-, i, hd, hex⟩ | ⟨-, -, rfl⟩⟩
  · exact .inl ⟨rfl, rfl, rfl⟩
  · exact .inr ⟨hf, faultByte_ne_zero .illegalCommand, rfl, tail, hb⟩
  · rcases exec_next_cases hex with ⟨c, -, rfl⟩ | ⟨s', e, rfl, ⟨hfault, hcmd, hseq, -⟩, -⟩
    · obtain ⟨hhdr, -⟩ := List.cons.inj (decodeRecord_cons_ok hd).2
      exact .inr ⟨hf, faultByte_ne_zero c, rfl, tail, by rw [hb, ← hhdr]; rfl⟩
    · exact .inl ⟨hfault, hcmd, hseq⟩
  · exact .inl ⟨rfl, rfl, rfl⟩

/-- Settles O12, by the cases of a step: only the command port and reset touch the fault registers. -/
theorem faultRegistersAreSticky : Obligations.FaultRegistersAreSticky := by
  intro s t h
  rw [and_iff_left_of_imp]
  · rcases step_cases h with ⟨-, rfl⟩ | ⟨a, rest, hin, ⟨w, rfl, hw⟩ | ⟨off, x, -, -, rfl⟩ | ⟨off, -, rfl⟩ |
      ⟨b, bs, -, -, rfl⟩ | ⟨b, n, -, -, rfl⟩ | ⟨m, rfl, rfl⟩⟩
    · exact .inl ⟨rfl, rfl, rfl⟩
    · rcases writeCmd_faultRegisters hw with hkept | ⟨hf, hne, hseq, tail, hb⟩
      · exact .inl hkept
      · exact .inr (.inl ⟨hf, hne, hseq, w, rest, tail, hin, hb⟩)
    · exact .inl ⟨rfl, rfl, rfl⟩
    · exact .inl ⟨rfl, rfl, rfl⟩
    · exact .inl ⟨rfl, rfl, rfl⟩
    · exact .inl ⟨rfl, rfl, rfl⟩
    · exact .inr (.inr ⟨⟨m, rest, hin⟩, rfl, rfl, rfl⟩)
  · rintro (⟨hfault, hcmd, hseq⟩ | ⟨-, hne, -⟩ | ⟨-, -, hcmd, hseq⟩) hz h0
    · rw [hcmd, hseq]
      exact hz (hfault ▸ h0)
    · exact absurd h0 hne
    · exact ⟨hcmd, hseq⟩

end Sys2Proof.Machine
end

section
/-! SUPPORT. Where a command changes `MEM` (20_memory.md R64, R73): each command's stores stand in the range its footprint lists. -/

namespace Sys2Proof.Machine

/-! ## Results that change `MEM` only in given ranges -/

/-- Every byte of `MEM` that a next state has changed lies in one of the ranges, and that range lies inside `MEM`. -/
def ChangesMemOnlyIn (gs : List MemRange) (s : State) (r : Result) : Prop :=
  ∀ t, r = .next t → ∀ a, memRead t.mem a ≠ memRead s.mem a →
    ∃ g ∈ gs, g.addr ≤ a ∧ a < g.addr + g.len ∧ g.addr + g.len ≤ s.cfg.memSize

section
variable {gs : List MemRange} {s s' : State}

/-- A result whose next state has the same `MEM` changes nothing anywhere. -/
theorem ChangesMemOnlyIn.of_mem_eq {r : Result} (h : ∀ t, r = .next t → t.mem = s.mem) : ChangesMemOnlyIn gs s r :=
  fun t ht a hne => absurd (by rw [h t ht]) hne

@[simp] theorem changesMemOnlyIn_trap (i : Instr) (c : FaultCode) : ChangesMemOnlyIn gs s (trap i c s) :=
  .of_mem_eq fun _ ht => by rw [trap_eq_next.1 ht, raiseFault_mem]

@[simp] theorem changesMemOnlyIn_fault (f : Fault) : ChangesMemOnlyIn gs s (.fault f) := .of_mem_eq nofun

theorem changesMemOnlyIn_failWith (c : ErrCode) (hm : s'.mem = s.mem) : ChangesMemOnlyIn gs s (failWith c s') :=
  .of_mem_eq fun _ ht => by rw [failWith_eq_next.1 ht, State.complete_mem, hm]

theorem changesMemOnlyIn_succeed (hm : s'.mem = s.mem) : ChangesMemOnlyIn gs s (succeed s') :=
  .of_mem_eq fun _ ht => by rw [succeed_eq_next.1 ht, State.complete_mem, hm]

@[simp] theorem changesMemOnlyIn_failWith_self (c : ErrCode) : ChangesMemOnlyIn gs s (failWith c s) :=
  changesMemOnlyIn_failWith c rfl

@[simp] theorem changesMemOnlyIn_succeed_self : ChangesMemOnlyIn gs s (succeed s) := changesMemOnlyIn_succeed rfl

@[simp] theorem changesMemOnlyIn_succeed_setSlot (r : Slot) (o : Obj) :
    ChangesMemOnlyIn gs s (succeed (s'.setSlot r o)) ↔ ChangesMemOnlyIn gs s (succeed s') := by
  simp [ChangesMemOnlyIn]

@[simp] theorem changesMemOnlyIn_succeed_setRes (v : BitVec 64) :
    ChangesMemOnlyIn gs s (succeed (s'.setRes v)) ↔ ChangesMemOnlyIn gs s (succeed s') := by
  simp [ChangesMemOnlyIn]

@[simp] theorem changesMemOnlyIn_succeedMask (b : Bool) : ChangesMemOnlyIn gs s (succeedMask s b) :=
  changesMemOnlyIn_succeed rfl

/-- A command that succeeds after storing bytes from the start of a valid range on, no more than the range is long. -/
theorem changesMemOnlyIn_succeed_of_store {g : MemRange} {bs : List Byte} (hg : g ∈ gs) (hv : s.validRange g = true)
    (hlen : bs.length ≤ g.len) (hm : s'.mem = memWriteBytes s.mem g.addr bs) : ChangesMemOnlyIn gs s (succeed s') := by
  intro t ht a hne
  rw [succeed_eq_next.1 ht, State.complete_mem, hm] at hne
  obtain ⟨hlo, hhi⟩ : g.addr ≤ a ∧ a < g.addr + bs.length :=
    Classical.byContradiction fun hout => hne (memRead_memWriteBytes_outside hout)
  exact ⟨g, hg, hlo, by omega, State.validRange_iff.1 hv⟩

end

/-! ## The commands that store -/

section
variable {gs : List MemRange} {s : State}

theorem execDgRead_changesMemOnlyIn (hs : s.Inv) (rs1 : Slot) (addr : Word) :
    ChangesMemOnlyIn (workOf (.dgRead rs1 addr) s).writes s (execDgRead rs1 addr s) := by
  rcases execDgRead_cases rs1 addr s with ⟨-, e⟩ | ⟨d, hd, ⟨-, e⟩ | ⟨hv, e⟩⟩ <;> rw [e]
  · exact changesMemOnlyIn_trap _ _
  · exact changesMemOnlyIn_trap _ _
  · have hlen : d.value.length = outputLen d.alg := beq_iff_eq.1 (hs.objOk_of_slot hd)
    exact changesMemOnlyIn_succeed_of_store (by simp [workOf, State.digestValIn_eq_some.2 hd]) hv hlen.le rfl

theorem execHkExpand_changesMemOnlyIn (rs1 : Slot) (tab n out outLen bigL : Word) :
    ChangesMemOnlyIn (workOf (.hkExpand rs1 tab n out outLen bigL) s).writes s
      (execHkExpand rs1 tab n out outLen bigL s) := by
  rcases execHkExpand_cases rs1 tab n out outLen bigL s with
    ⟨-, e⟩ | ⟨k, hk, ⟨-, e⟩ | ⟨⟨-, hv, -⟩, ⟨-, e⟩ | ⟨-, ⟨-, e⟩ | ⟨-, ⟨-, e⟩ | ⟨hok, e⟩⟩⟩⟩⟩ <;> rw [e]
  · exact changesMemOnlyIn_trap _ _
  · exact changesMemOnlyIn_trap _ _
  · exact changesMemOnlyIn_trap _ _
  · exact changesMemOnlyIn_trap _ _
  · exact changesMemOnlyIn_failWith _ rfl
  · have hwrites : wordRange out outLen ∈ (workOf (.hkExpand rs1 tab n out outLen bigL) s).writes := by
      simp [workOf, State.hmacKeyIn_eq_some.2 hk, hok]
    obtain ⟨rfl, -⟩ := hok
    exact changesMemOnlyIn_succeed_of_store hwrites hv (hkdfFill_length_le _ _ _ _) rfl

theorem execLbFormat_changesMemOnlyIn (rs1 : Slot) (addr len : Word) :
    ChangesMemOnlyIn (workOf (.lbFormat rs1 addr len) s).writes s (execLbFormat rs1 addr len s) := by
  rcases execLbFormat_cases rs1 addr len s with ⟨-, e⟩ | ⟨a, -, ⟨-, e⟩ | ⟨-, -, e⟩ | ⟨-, hv, e⟩⟩ <;> rw [e]
  · exact changesMemOnlyIn_trap _ _
  · exact changesMemOnlyIn_trap _ _
  · exact changesMemOnlyIn_trap _ _
  · exact changesMemOnlyIn_succeed_of_store (List.mem_singleton_self _) hv (beBytes_length _ _).le rfl

theorem execLbFold5_changesMemOnlyIn (rs1 : Slot) (addr : Word) :
    ChangesMemOnlyIn (workOf (.lbFold5 rs1 addr) s).writes s (execLbFold5 rs1 addr s) := by
  rcases execLbFold5_cases rs1 addr s with ⟨-, e⟩ | ⟨x, hx, ⟨-, e⟩ | ⟨hv, e⟩⟩ <;> rw [e]
  · exact changesMemOnlyIn_trap _ _
  · exact changesMemOnlyIn_trap _ _
  · exact changesMemOnlyIn_succeed_of_store (by simp [workOf, State.limbsIn_eq_some.2 hx]) hv (windows5_length _ _).le rfl

theorem execEcNonce_changesMemOnlyIn (rs1 : Slot) (ma ml d dl : Word) :
    ChangesMemOnlyIn (workOf (.ecNonce rs1 ma ml d dl) s).writes s (execEcNonce rs1 ma ml d dl s) := by
  rcases execEcNonce_cases rs1 ma ml d dl s with
    ⟨-, e⟩ | ⟨k, hk, ⟨-, e⟩ | ⟨⟨-, hdl⟩, ⟨-, e⟩ | ⟨⟨-, hv⟩, ⟨-, e⟩ | ⟨-, ⟨-, e⟩ | ⟨s', hr, e⟩ | ⟨rand, s', hr, e⟩⟩⟩⟩⟩ <;>
    rw [e]
  · exact changesMemOnlyIn_trap _ _
  · exact changesMemOnlyIn_trap _ _
  · exact changesMemOnlyIn_trap _ _
  · exact changesMemOnlyIn_trap _ _
  · exact changesMemOnlyIn_fault _
  · obtain rfl := rngFill_fail hr
    exact changesMemOnlyIn_failWith _ rfl
  · have hwrites : wordRange d dl ∈ (workOf (.ecNonce rs1 ma ml d dl) s).writes := by
      simp [workOf, State.nonceKeyIn_eq_some.2 hk, rngDelivers_iff.2 ⟨rand, s', hr⟩]
    obtain ⟨-, rfl⟩ := rngFill_ok hr
    exact changesMemOnlyIn_succeed_of_store hwrites hv (by rw [nonceFill_length, wordRange_len, hdl]) rfl

theorem execSgFixed_changesMemOnlyIn (rs1 rs2 : Slot) (addr : Word) :
    ChangesMemOnlyIn (workOf (.sgFixed rs1 rs2 addr) s).writes s (execSgFixed rs1 rs2 addr s) := by
  rcases execSgFixed_cases rs1 rs2 addr s with ⟨-, e⟩ | ⟨x, y, hx, -, ⟨-, e⟩ | ⟨-, ⟨-, e⟩ | ⟨hv, e⟩⟩⟩ <;> rw [e]
  · exact changesMemOnlyIn_trap _ _
  · exact changesMemOnlyIn_trap _ _
  · exact changesMemOnlyIn_trap _ _
  · exact changesMemOnlyIn_succeed_of_store (by simp [workOf, State.limbsIn_eq_some.2 hx]) hv
      (fixedSignature_length _ _ _).le rfl

theorem execSgAsn1_changesMemOnlyIn (rs1 rs2 : Slot) (addr : Word) :
    ChangesMemOnlyIn (workOf (.sgAsn1 rs1 rs2 addr) s).writes s (execSgAsn1 rs1 rs2 addr s) := by
  rcases execSgAsn1_cases rs1 rs2 addr s with
    ⟨-, e⟩ | ⟨x, y, hx, hy, ⟨-, e⟩ | ⟨-, n, rv, sv, rfl, rfl, rfl, ⟨-, e⟩ | ⟨-, ⟨-, e⟩ | ⟨-, ⟨-, e⟩ | ⟨hv, e⟩⟩⟩⟩⟩ <;> rw [e]
  · exact changesMemOnlyIn_trap _ _
  · exact changesMemOnlyIn_trap _ _
  · exact changesMemOnlyIn_trap _ _
  · exact changesMemOnlyIn_trap _ _
  · exact changesMemOnlyIn_trap _ _
  · exact changesMemOnlyIn_succeed_of_store (by simp [workOf, State.limbsPairIn_eq_some.2 ⟨hx, hy⟩]) hv
      (derSignature_length _ _ _).le rfl

/-! ## The commands that store nothing, so that the ranges may be any, or none -/

theorem execDgUpdate_keepsMem (rd : Slot) (addr len : Word) : ChangesMemOnlyIn gs s (execDgUpdate rd addr len s) := by
  rcases execDgUpdate_cases rd addr len s with ⟨-, e⟩ | ⟨c, -, ⟨-, e⟩ | ⟨-, -, e⟩ | ⟨-, -, e⟩⟩ <;> simp [e]

theorem execDgFinish_keepsMem (rd rs1 : Slot) : ChangesMemOnlyIn gs s (execDgFinish rd rs1 s) := by
  rcases execDgFinish_cases rd rs1 s with ⟨-, e⟩ | ⟨c, -, ⟨f, -, e⟩ | ⟨-, e⟩⟩ <;> simp [e]

theorem execCtVerify_keepsMem (rs1 : Slot) (addr len : Word) : ChangesMemOnlyIn gs s (execCtVerify rs1 addr len s) := by
  rcases execCtVerify_cases rs1 addr len s with ⟨-, e⟩ | ⟨d, -, ⟨-, e⟩ | ⟨-, -, e⟩ | ⟨-, -, -, e⟩⟩ <;> simp [e]

theorem execHmKey_keepsMem (rd : Slot) (alg : AlgId) (addr len : Word) : ChangesMemOnlyIn gs s (execHmKey rd alg addr len s) := by
  rcases execHmKey_cases rd alg addr len s with ⟨-, e⟩ | ⟨-, e⟩ <;> simp [e]

theorem execHmInit_keepsMem (rd rs1 : Slot) : ChangesMemOnlyIn gs s (execHmInit rd rs1 s) := by
  rcases execHmInit_cases rd rs1 s with ⟨-, e⟩ | ⟨k, -, e⟩ <;> simp [e]

theorem execHmUpdate_keepsMem (rd : Slot) (addr len : Word) : ChangesMemOnlyIn gs s (execHmUpdate rd addr len s) := by
  rcases execHmUpdate_cases rd addr len s with ⟨-, e⟩ | ⟨c, -, ⟨-, e⟩ | ⟨-, -, e⟩ | ⟨-, -, e⟩⟩ <;> simp [e]

theorem execHmSign_keepsMem (rd rs1 : Slot) : ChangesMemOnlyIn gs s (execHmSign rd rs1 s) := by
  rcases execHmSign_cases rd rs1 s with ⟨-, e⟩ | ⟨c, -, ⟨f, -, e⟩ | ⟨-, e⟩⟩ <;> simp [e]

theorem execLbParse_keepsMem (rd : Slot) (addr len n : Word) : ChangesMemOnlyIn gs s (execLbParse rd addr len n s) := by
  rcases execLbParse_cases rd addr len n s with ⟨-, e⟩ | ⟨-, -, e⟩ | ⟨-, -, -, e⟩ | ⟨-, -, -, -, e⟩ <;> simp [e]

theorem execLbEq_keepsMem (rs1 rs2 : Slot) : ChangesMemOnlyIn gs s (execLbEq rs1 rs2 s) := by
  rcases execLbEq_cases rs1 rs2 s with ⟨-, e⟩ | ⟨x, y, -, -, ⟨-, e⟩ | ⟨-, e⟩⟩ <;> simp [e]

theorem execLbLt_keepsMem (rs1 rs2 : Slot) : ChangesMemOnlyIn gs s (execLbLt rs1 rs2 s) := by
  rcases execLbLt_cases rs1 rs2 s with ⟨-, e⟩ | ⟨x, y, -, -, ⟨-, e⟩ | ⟨-, e⟩⟩ <;> simp [e]

theorem execLbZero_keepsMem (rs1 : Slot) : ChangesMemOnlyIn gs s (execLbZero rs1 s) := by
  rcases execLbZero_cases rs1 s with ⟨-, e⟩ | ⟨x, -, e⟩ <;> simp [e]

theorem execLbEven_keepsMem (rs1 : Slot) : ChangesMemOnlyIn gs s (execLbEven rs1 s) := by
  rcases execLbEven_cases rs1 s with ⟨-, e⟩ | ⟨x, -, e⟩ <;> simp [e]

theorem execLbEqlimb_keepsMem (rs1 : Slot) (lo hi : Word) : ChangesMemOnlyIn gs s (execLbEqlimb rs1 lo hi s) := by
  rcases execLbEqlimb_cases rs1 lo hi s with ⟨-, e⟩ | ⟨x, -, ⟨-, -, e⟩ | ⟨-, e⟩⟩ <;> simp [e]

theorem execLbReduce_keepsMem (rd rs2 : Slot) : ChangesMemOnlyIn gs s (execLbReduce rd rs2 s) := by
  rcases execLbReduce_cases rd rs2 s with ⟨-, e⟩ | ⟨x, y, -, -, ⟨-, e⟩ | ⟨-, e⟩⟩ <;> simp [e]

theorem execLbMinbits_keepsMem (rs1 : Slot) : ChangesMemOnlyIn gs s (execLbMinbits rs1 s) := by
  rcases execLbMinbits_cases rs1 s with ⟨-, e⟩ | ⟨x, -, e⟩ <;> simp [e]

theorem execEcNkey_keepsMem (rd : Slot) (alg : AlgId) (addr len : Word) :
    ChangesMemOnlyIn gs s (execEcNkey rd alg addr len s) := by
  rcases execEcNkey_cases rd alg addr len s with
    ⟨-, e⟩ | ⟨-, -, e⟩ | ⟨-, -, ⟨-, e⟩ | ⟨s', hr, e⟩ | ⟨rand, s', hr, e⟩⟩ <;> rw [e]
  · exact changesMemOnlyIn_trap _ _
  · exact changesMemOnlyIn_trap _ _
  · exact changesMemOnlyIn_fault _
  · obtain rfl := rngFill_fail hr
    exact changesMemOnlyIn_failWith _ rfl
  · obtain ⟨-, rfl⟩ := rngFill_ok hr
    exact changesMemOnlyIn_succeed rfl

/-! ## Any command -/

/-- Whatever a command does, it changes `MEM` only in the ranges its work lists as written. -/
theorem exec_changesMemOnlyIn (hs : s.Inv) (i : Instr) : ChangesMemOnlyIn (workOf i s).writes s (exec i s) := by
  cases i with
  | slFree rd => exact changesMemOnlyIn_succeed rfl
  | dgInit rd alg => exact changesMemOnlyIn_succeed rfl
  | dgUpdate rd addr len => exact execDgUpdate_keepsMem rd addr len
  | dgFinish rd rs1 => exact execDgFinish_keepsMem rd rs1
  | dgRead rs1 addr => exact execDgRead_changesMemOnlyIn hs rs1 addr
  | ctVerify rs1 addr len => exact execCtVerify_keepsMem rs1 addr len
  | hmKey rd alg addr len => exact execHmKey_keepsMem rd alg addr len
  | hmInit rd rs1 => exact execHmInit_keepsMem rd rs1
  | hmUpdate rd addr len => exact execHmUpdate_keepsMem rd addr len
  | hmSign rd rs1 => exact execHmSign_keepsMem rd rs1
  | hkExpand rs1 tab n out outLen bigL => exact execHkExpand_changesMemOnlyIn rs1 tab n out outLen bigL
  | lbParse rd addr len n => exact execLbParse_keepsMem rd addr len n
  | lbFormat rs1 addr len => exact execLbFormat_changesMemOnlyIn rs1 addr len
  | lbEq rs1 rs2 => exact execLbEq_keepsMem rs1 rs2
  | lbLt rs1 rs2 => exact execLbLt_keepsMem rs1 rs2
  | lbZero rs1 => exact execLbZero_keepsMem rs1
  | lbEven rs1 => exact execLbEven_keepsMem rs1
  | lbEqlimb rs1 lo hi => exact execLbEqlimb_keepsMem rs1 lo hi
  | lbReduce rd rs2 => exact execLbReduce_keepsMem rd rs2
  | lbMinbits rs1 => exact execLbMinbits_keepsMem rs1
  | lbFold5 rs1 addr => exact execLbFold5_changesMemOnlyIn rs1 addr
  | ecNkey rd alg addr len => exact execEcNkey_keepsMem rd alg addr len
  | ecNonce rs1 ma ml d dl => exact execEcNonce_changesMemOnlyIn rs1 ma ml d dl
  | sgFixed rs1 rs2 addr => exact execSgFixed_changesMemOnlyIn rs1 rs2 addr
  | sgAsn1 rs1 rs2 addr => exact execSgAsn1_changesMemOnlyIn rs1 rs2 addr

/-! ## The footprint -/

/-- The footprint of a command that did not fault is its work. -/
theorem footprint_eq_workOf {i : Instr} {t : State} (h : exec i s = .next t) (hf : t.fault = 0#8) :
    footprint i s = workOf i s := by
  simp [footprint, tookFault, h, hf]

/-- A command has at most one output range (R73). -/
theorem workOf_writes_length_le_one (i : Instr) (s : State) : (workOf i s).writes.length ≤ 1 := by
  cases i <;> simp only [workOf]
  case slFree | dgInit | ctVerify | hmKey | hmInit | lbEq | lbLt | lbZero | lbEven | lbEqlimb | lbReduce | lbMinbits =>
    exact Nat.zero_le _
  case lbFormat => exact le_rfl
  case dgUpdate | dgFinish | dgRead | hmUpdate | hmSign | lbParse | lbFold5 | ecNkey | sgFixed | sgAsn1 =>
    split <;> simp [noFootprint]
  case hkExpand | ecNonce =>
    split
    · exact Nat.zero_le _
    · split <;> simp [noFootprint]

theorem footprint_writes_length_le_one (i : Instr) (s : State) : (footprint i s).writes.length ≤ 1 := by
  unfold footprint
  split
  · exact Nat.zero_le _
  · exact workOf_writes_length_le_one i s

end

end Sys2Proof.Machine
end

section
/-! SUPPORT. One equation for each access through the memory window (20_memory.md R74) and each refused access of the register
block (R62), and what a command word leaves to the host. -/

namespace Sys2Proof.Machine

/-! ## The inbox, the parameters and the answers -/

/-- A word written to `CMD` leaves the inbox, the parameters and the answers alone. -/
theorem writeCmd_hostSide {w : Word} {s t : State} (h : writeCmd w s = .next t) :
    t.inbox = s.inbox ∧ t.cfg = s.cfg ∧ t.answers = s.answers := by
  rcases writeCmd_cases h with ⟨-, rfl⟩ | ⟨-, hdr, tail, -, ⟨-, rfl⟩ | ⟨-, i, -, hex⟩ | ⟨-, -, rfl⟩⟩
  · exact ⟨rfl, rfl, rfl⟩
  · exact ⟨rfl, rfl, rfl⟩
  · rcases exec_next_cases hex with ⟨c, -, rfl⟩ | ⟨s', e, rfl, ⟨-, -, -, -, hcfg, hin, hans⟩, -⟩
    · exact ⟨rfl, rfl, rfl⟩
    · exact ⟨hin, hcfg, hans⟩
  · exact ⟨rfl, rfl, rfl⟩

theorem step_of_inbox_nil {s : State} (h : s.inbox = []) : step s = .next s := by
  simp only [step, nextAction, h]

/-! ## The memory window -/

theorem step_memWrite_inside {s : State} {a : Nat} {bs : List Byte} {rest : List HostAction}
    (hin : s.inbox = .memWrite a bs :: rest) (hb : a + bs.length ≤ s.cfg.memSize) :
    step s = .next { s with inbox := rest, mem := memWriteBytes s.mem a bs } := by
  rw [step_of_inbox hin]
  exact if_neg (by simpa [State.validRange] using hb)

theorem step_memWrite_outside {s : State} {a : Nat} {bs : List Byte} {rest : List HostAction}
    (hin : s.inbox = .memWrite a bs :: rest) (hb : s.cfg.memSize < a + bs.length) :
    step s = .refused .hostAccessOutsideMem := by
  rw [step_of_inbox hin]
  exact if_pos (by simpa [State.validRange] using hb)

theorem step_memRead_inside {s : State} {a n : Nat} {rest : List HostAction}
    (hin : s.inbox = .memRead a n :: rest) (hb : a + n ≤ s.cfg.memSize) :
    step s = .next { s with inbox := rest, answers := .bytes (memReadBytes s.mem a n) :: s.answers } := by
  rw [step_of_inbox hin]
  exact if_neg (by simpa [State.validRange] using hb)

theorem step_memRead_outside {s : State} {a n : Nat} {rest : List HostAction}
    (hin : s.inbox = .memRead a n :: rest) (hb : s.cfg.memSize < a + n) : step s = .refused .hostAccessOutsideMem := by
  rw [step_of_inbox hin]
  exact if_pos (by simpa [State.validRange] using hb)

/-- An access of another size than one word, or of a word not aligned, is no register access (R62). -/
theorem registerAccessOk_eq_false {off size : Nat} (h : size ≠ 4 ∨ off % 4 ≠ 0) : registerAccessOk off size = false := by
  rcases h with h | h <;> simp [registerAccessOk, h]

theorem step_regRead_refused {s : State} {off size : Nat} {rest : List HostAction}
    (hshape : size ≠ 4 ∨ off % 4 ≠ 0) (hin : s.inbox = .regRead off size :: rest) :
    step s = .refused .registerAccessShape := by
  rw [step_of_inbox hin]
  exact if_pos (by simp [registerAccessOk_eq_false hshape])

theorem step_regWrite_refused {s : State} {off size : Nat} {x : Word} {rest : List HostAction}
    (hshape : size ≠ 4 ∨ off % 4 ≠ 0) (hin : s.inbox = .regWrite off size x :: rest) :
    step s = .refused .registerAccessShape := by
  rw [step_of_inbox hin]
  exact if_pos (by simp [registerAccessOk_eq_false hshape])

end Sys2Proof.Machine
end

section
/-! Where `MEM` is written, the host's actions in order, and the memory window: the statements of 20_memory.md R64 to R74. -/

namespace Sys2Proof.Machine

/-- Settles O19: a fault changes no byte of `MEM`, and a command that takes none stores in the range of its work. -/
theorem memoryWrittenOnlyInRange : Obligations.MemoryWrittenOnlyInRange := by
  intro i s t hs hf h
  refine ⟨footprint_writes_length_le_one i s, fun a hne => ?_⟩
  rcases exec_next_cases h with ⟨c, -, rfl⟩ | ⟨s', e, rfl, ⟨hfault, -⟩, -⟩
  · exact absurd rfl hne
  · rw [footprint_eq_workOf h (hfault.trans hf)]
    exact exec_changesMemOnlyIn hs i _ h a hne

/-- Settles O21, by the cases of a step: only a read of the host gives an answer, and only the step itself takes an action. -/
theorem stepTakesOneAction : Obligations.StepTakesOneAction := by
  refine ⟨fun s => step_of_inbox_nil, fun s t a rest hin h => ?_⟩
  rcases step_cases h with ⟨hnil, -⟩ | ⟨a', rest', hin', hact⟩
  · simp [hin] at hnil
  · obtain ⟨-, rfl⟩ := List.cons.inj (hin.symm.trans hin')
    rcases hact with ⟨w, -, hw⟩ | ⟨off, x, -, -, rfl⟩ | ⟨off, -, rfl⟩ | ⟨b, bs, -, -, rfl⟩ | ⟨b, n, -, -, rfl⟩ | ⟨m, -, rfl⟩
    · obtain ⟨hinbox, hcfg, hans⟩ := writeCmd_hostSide hw
      exact ⟨hinbox, hcfg, .inl hans⟩
    · exact ⟨rfl, rfl, .inl rfl⟩
    · exact ⟨rfl, rfl, .inr ⟨_, rfl⟩⟩
    · exact ⟨rfl, rfl, .inl rfl⟩
    · exact ⟨rfl, rfl, .inr ⟨_, rfl⟩⟩
    · exact ⟨rfl, rfl, .inl rfl⟩

/-- Settles O24: one equation of the step for each kind of access, and the laws of a stored byte string. -/
theorem memoryWindow : Obligations.MemoryWindow := by
  intro s rest
  refine ⟨fun a bs hin => ⟨fun hwf hb => ?_, step_memWrite_outside hin⟩,
    fun a n hin => ⟨step_memRead_inside hin, step_memRead_outside hin⟩,
    fun off size hshape => ⟨step_regRead_refused hshape, fun x => step_regWrite_refused hshape⟩⟩
  exact ⟨_, step_memWrite_inside hin hb, memReadBytes_memWriteBytes hwf a bs,
    fun x hout => memRead_memWriteBytes_outside hout, rfl⟩

end Sys2Proof.Machine
end

section
/-! SUPPORT. The header word as a number (30_encoding.md R91), the header and the operand words of a command decoded, and the
rows of the opcode map R101 as the formats of the opcodes. -/

namespace Sys2Proof

/-! ## The six fields of a header as numbers (R91) -/

/-- A field or-ed in above every bit set so far adds its value, shifted to its place. -/
theorem toNat_or_setWidth_shiftLeft {a : Word} {w k : Nat} {f : BitVec w} (ha : a.toNat < 2 ^ k) (hk : k + w ≤ 32) :
    (a ||| f.setWidth 32 <<< k).toNat = a.toNat + f.toNat * 2 ^ k := by
  have hshift : f.toNat * 2 ^ k < 2 ^ 32 := calc
    f.toNat * 2 ^ k < 2 ^ w * 2 ^ k := Nat.mul_lt_mul_of_pos_right f.isLt (by positivity)
    _ = 2 ^ (k + w) := by rw [Nat.add_comm, pow_add]
    _ ≤ 2 ^ 32 := Nat.pow_le_pow_right (by decide) hk
  rw [BitVec.toNat_or, BitVec.toNat_shiftLeft, BitVec.toNat_setWidth_of_le (by omega), Nat.shiftLeft_eq,
    Nat.mod_eq_of_lt hshift, Nat.or_comm, Nat.mul_comm, ← Nat.two_pow_add_eq_or_of_lt ha, Nat.add_comm]

theorem recordHeader_toNat (r : Record) :
    (recordHeader r).toNat = r.op.toNat + r.rd.toNat * 2 ^ 8 + r.rs1.toNat * 2 ^ 12 + r.rs2.toNat * 2 ^ 16 +
      r.sel.toNat * 2 ^ 20 + r.zero.toNat * 2 ^ 24 := by
  have hop : (r.op.setWidth 32).toNat = r.op.toNat := BitVec.toNat_setWidth_of_le (by decide)
  have hrd := toNat_or_setWidth_shiftLeft (a := r.op.setWidth 32) (k := 8) (f := r.rd) (by omega) (by decide)
  have hrs1 := toNat_or_setWidth_shiftLeft (k := 12) (f := r.rs1) (by rw [hrd]; omega) (by decide)
  have hrs2 := toNat_or_setWidth_shiftLeft (k := 16) (f := r.rs2) (by rw [hrs1]; omega) (by decide)
  have hsel := toNat_or_setWidth_shiftLeft (k := 20) (f := r.sel) (by rw [hrs2]; omega) (by decide)
  have hzero := toNat_or_setWidth_shiftLeft (k := 24) (f := r.zero) (by rw [hsel]; omega) (by decide)
  rw [recordHeader, makeHeader, hzero, hsel, hrs2, hrs1, hrd, hop]

/-- Bits of a word, read from its number. -/
theorem extractLsb'_eq_of_toNat {hdr : Word} {start len : Nat} {f : BitVec len}
    (h : hdr.toNat / 2 ^ start % 2 ^ len = f.toNat) : hdr.extractLsb' start len = f :=
  BitVec.eq_of_toNat_eq (by rw [BitVec.extractLsb'_toNat, Nat.shiftRight_eq_div_pow, h])

@[simp] theorem hdrOp_recordHeader (r : Record) : hdrOp (recordHeader r) = r.op :=
  extractLsb'_eq_of_toNat (by rw [recordHeader_toNat]; omega)

@[simp] theorem hdrRd_recordHeader (r : Record) : hdrRd (recordHeader r) = r.rd :=
  extractLsb'_eq_of_toNat (by rw [recordHeader_toNat]; omega)

@[simp] theorem hdrRs1_recordHeader (r : Record) : hdrRs1 (recordHeader r) = r.rs1 :=
  extractLsb'_eq_of_toNat (by rw [recordHeader_toNat]; omega)

@[simp] theorem hdrRs2_recordHeader (r : Record) : hdrRs2 (recordHeader r) = r.rs2 :=
  extractLsb'_eq_of_toNat (by rw [recordHeader_toNat]; omega)

@[simp] theorem hdrSel_recordHeader (r : Record) : hdrSel (recordHeader r) = r.sel :=
  extractLsb'_eq_of_toNat (by rw [recordHeader_toNat]; omega)

@[simp] theorem hdrZero_recordHeader (r : Record) : hdrZero (recordHeader r) = r.zero :=
  extractLsb'_eq_of_toNat (by rw [recordHeader_toNat]; omega)

/-- The raw record that a header word and the words after it are: any words are one. -/
def recordOfWords (hdr : Word) (ops : List Word) : Record :=
  { op := hdrOp hdr, rd := hdrRd hdr, rs1 := hdrRs1 hdr, rs2 := hdrRs2 hdr, sel := hdrSel hdr, zero := hdrZero hdr, operands := ops }

@[simp] theorem recordHeader_recordOfWords (hdr : Word) (ops : List Word) : recordHeader (recordOfWords hdr ops) = hdr :=
  header_eq_of_fields (hdrOp_recordHeader _) (hdrRd_recordHeader _) (hdrRs1_recordHeader _) (hdrRs2_recordHeader _)
    (hdrSel_recordHeader _) (hdrZero_recordHeader _)

/-! ## The header and the operand words of a command -/

/-- The header lemmas of the 25 commands, as one. -/
theorem headerLegal_instr (i : Instr) : Laws.HeaderLegal.Statement i := by
  cases i with
  | slFree rd => exact Laws.HeaderLegal.slFree rd
  | dgInit rd alg => exact Laws.HeaderLegal.dgInit rd alg
  | dgUpdate rd addr len => exact Laws.HeaderLegal.dgUpdate rd addr len
  | dgFinish rd rs1 => exact Laws.HeaderLegal.dgFinish rd rs1
  | dgRead rs1 addr => exact Laws.HeaderLegal.dgRead rs1 addr
  | ctVerify rs1 addr len => exact Laws.HeaderLegal.ctVerify rs1 addr len
  | hmKey rd alg addr len => exact Laws.HeaderLegal.hmKey rd alg addr len
  | hmInit rd rs1 => exact Laws.HeaderLegal.hmInit rd rs1
  | hmUpdate rd addr len => exact Laws.HeaderLegal.hmUpdate rd addr len
  | hmSign rd rs1 => exact Laws.HeaderLegal.hmSign rd rs1
  | hkExpand rs1 tab n out outLen bigL => exact Laws.HeaderLegal.hkExpand rs1 tab n out outLen bigL
  | lbParse rd addr len n => exact Laws.HeaderLegal.lbParse rd addr len n
  | lbFormat rs1 addr len => exact Laws.HeaderLegal.lbFormat rs1 addr len
  | lbEq rs1 rs2 => exact Laws.HeaderLegal.lbEq rs1 rs2
  | lbLt rs1 rs2 => exact Laws.HeaderLegal.lbLt rs1 rs2
  | lbZero rs1 => exact Laws.HeaderLegal.lbZero rs1
  | lbEven rs1 => exact Laws.HeaderLegal.lbEven rs1
  | lbEqlimb rs1 lo hi => exact Laws.HeaderLegal.lbEqlimb rs1 lo hi
  | lbReduce rd rs2 => exact Laws.HeaderLegal.lbReduce rd rs2
  | lbMinbits rs1 => exact Laws.HeaderLegal.lbMinbits rs1
  | lbFold5 rs1 addr => exact Laws.HeaderLegal.lbFold5 rs1 addr
  | ecNkey rd alg addr len => exact Laws.HeaderLegal.ecNkey rd alg addr len
  | ecNonce rs1 ma ml d dl => exact Laws.HeaderLegal.ecNonce rs1 ma ml d dl
  | sgFixed rs1 rs2 addr => exact Laws.HeaderLegal.sgFixed rs1 rs2 addr
  | sgAsn1 rs1 rs2 addr => exact Laws.HeaderLegal.sgAsn1 rs1 rs2 addr

@[simp] theorem decodeHeader_instrHeader (i : Instr) : decodeHeader (instrHeader i) = .ok (instrOp i) := by
  obtain ⟨hlegal, hop, -⟩ := headerLegal_instr i
  exact decodeHeader_of_legalHeader hlegal hop

@[simp] theorem instrOperands_length (i : Instr) : (instrOperands i).length = numOperandWords (instrOp i) := by
  obtain ⟨-, -, hlen⟩ := headerLegal_instr i
  exact hlen

@[simp] theorem hdrAlg_makeHeader_selOfAlg (op : BitVec 8) (rd rs1 rs2 : BitVec 4) (alg : AlgId) :
    hdrAlg (makeHeader op rd rs1 rs2 (selOfAlg alg)) = alg := by
  simp [hdrAlg]

/-- Each command is read back from its header, slots and algorithm, and from its operand words, by their number. -/
theorem decodeOperands_instr (i : Instr) : decodeOperands (instrOp i) (instrHeader i) (instrOperands i) = .ok i := by
  cases i
  case slFree | dgInit | dgFinish | hmInit | hmSign | lbEq | lbLt | lbZero | lbEven | lbReduce | lbMinbits =>
    exact withNone_ok.2 ⟨rfl, by simp [instrHeader]⟩
  case dgRead | lbFold5 | sgFixed | sgAsn1 => exact withOne_ok.2 ⟨_, rfl, by simp [instrHeader]⟩
  case dgUpdate | ctVerify | hmKey | hmUpdate | lbFormat | lbEqlimb | ecNkey =>
    exact withTwo_ok.2 ⟨_, _, rfl, by simp [instrHeader]⟩
  case lbParse => exact withThree_ok.2 ⟨_, _, _, rfl, by simp [instrHeader]⟩
  case ecNonce => exact withFour_ok.2 ⟨_, _, _, _, rfl, by simp [instrHeader]⟩
  case hkExpand => exact withFive_ok.2 ⟨_, _, _, _, _, rfl, by simp [instrHeader]⟩

@[simp] theorem decodeRecord_encode (i : Instr) : decodeRecord (encode i) = .ok i := by
  rw [encode, decodeRecord_cons (decodeHeader_instrHeader i), decodeOperands_instr]

/-- A command's words are as many as its header calls for (R94). -/
theorem encode_length (i : Instr) : (encode i).length = recordLength (instrHeader i) := by
  rw [recordLength_of_decodeHeader (decodeHeader_instrHeader i), encode, List.length_cons, instrOperands_length, Nat.add_comm]

theorem decodeStream_encode_append (i : Instr) (rest : List Word) : decodeStream (encode i ++ rest) = .ok (i, rest) := by
  have htake : (encode i ++ rest).take (recordLength (instrHeader i)) = encode i := List.take_left' (encode_length i)
  have hdrop : (encode i ++ rest).drop (recordLength (instrHeader i)) = rest := List.drop_left' (encode_length i)
  have hcons : encode i ++ rest = instrHeader i :: (instrOperands i ++ rest) := rfl
  rw [hcons] at htake hdrop ⊢
  simp only [decodeStream, htake, hdrop, decodeRecord_encode]

/-! ## The rows of the opcode map (R101) -/

theorem opOfByte_eq_some {b : BitVec 8} {o : Op} : opOfByte b = some o ↔ opByte o = b :=
  ⟨opByte_of_opOfByte, fun h => h ▸ opOfByte_opByte o⟩

/-- The row of R101 of an opcode, as the decoder's tables have it. -/
def opFormat (o : Op) : Format :=
  { op := opByte o, rd := opUsesRd o, rs1 := opUsesRs1 o, rs2 := opUsesRs2 o, sel := opUsesSel o, k := numOperandWords o }

theorem opFormat_mem_formats (o : Op) : opFormat o ∈ formats := by cases o <;> decide

/-- Each row of the opcode map is the row of the opcode its byte names. -/
theorem opFormat_of_mem_formats : ∀ f ∈ formats, (opOfByte f.op).map opFormat = some f := by decide

/-- The rows of the opcode map are those of the 25 opcodes. -/
theorem mem_formats_iff {f : Format} : f ∈ formats ↔ ∃ o, opFormat o = f := by
  constructor
  · intro hf
    obtain ⟨o, -, ho⟩ := Option.map_eq_some_iff.1 (opFormat_of_mem_formats f hf)
    exact ⟨o, ho⟩
  · rintro ⟨o, rfl⟩
    exact opFormat_mem_formats o

/-- The conditions (a) to (d) of R93 on a header, for one row of the opcode map. -/
def HeaderFits (hdr : Word) (f : Format) : Prop :=
  f.op = hdrOp hdr ∧ hdrZero hdr = 0#8 ∧
    (f.rd = false → hdrRd hdr = 0#4) ∧ (f.rs1 = false → hdrRs1 hdr = 0#4) ∧
    (f.rs2 = false → hdrRs2 hdr = 0#4) ∧ (f.sel = false → hdrSel hdr = 0#4) ∧
    (f.sel = true → (hdrSel hdr).toNat ≤ 4)

/-- The decoder accepts a header with an opcode exactly when the opcode's row fits it. -/
theorem decodeHeader_ok_iff_headerFits {hdr : Word} {o : Op} : decodeHeader hdr = .ok o ↔ HeaderFits hdr (opFormat o) := by
  simp only [decodeHeader_ok, HeaderFits, opFormat, opOfByte_eq_some, or_iff_not_imp_left, Bool.not_eq_true]

theorem legalHeader_iff_headerFits {hdr : Word} : legalHeader hdr = true ↔ ∃ f ∈ formats, HeaderFits hdr f := by
  simp [legalHeader_iff, decodeHeader_ok_iff_headerFits, mem_formats_iff]

/-! ## Well-formed records -/

/-- A format fits a record exactly when it fits its header and its operand words are as many as the format says. -/
theorem Record.fits_iff {r : Record} {f : Format} :
    r.fits f = true ↔ HeaderFits (recordHeader r) f ∧ r.operands.length = f.k := by
  have hsel : (if f.sel then decide (r.sel.toNat ≤ 4) else r.sel == 0#4) = true ↔
      (f.sel = false → r.sel = 0#4) ∧ (f.sel = true → r.sel.toNat ≤ 4) := by
    cases f.sel <;> simp
  simp only [Record.fits, Bool.and_eq_true, Bool.or_eq_true, beq_iff_eq, hsel, HeaderFits, hdrOp_recordHeader,
    hdrRd_recordHeader, hdrRs1_recordHeader, hdrRs2_recordHeader, hdrSel_recordHeader, hdrZero_recordHeader,
    or_iff_not_imp_left, Bool.not_eq_true, and_assoc]

/-- A record is well formed exactly when its header is accepted and as many operand words follow as its opcode says. -/
theorem Record.wellFormed_iff {r : Record} :
    r.wellFormed = true ↔ ∃ o, decodeHeader (recordHeader r) = .ok o ∧ r.operands.length = numOperandWords o := by
  simp [Record.wellFormed, Record.fits_iff, decodeHeader_ok_iff_headerFits, mem_formats_iff, opFormat]

/-- The words of a raw record decode exactly when it is well formed. -/
theorem exists_decodeRecord_recordWords {r : Record} :
    (∃ i, decodeRecord (recordWords r) = .ok i) ↔ r.wellFormed = true := by
  rw [Record.wellFormed_iff, recordWords]
  constructor
  · rintro ⟨i, h⟩
    obtain ⟨ho, -⟩ := decodeRecord_cons_ok h
    exact ⟨_, ho, (exists_decodeRecord_ok ho).1 ⟨i, h⟩⟩
  · rintro ⟨o, ho, hlen⟩
    exact (exists_decodeRecord_ok ho).2 hlen

end Sys2Proof
end

section
/-! The encoding: the statements of 30_encoding.md R90 to R103. -/

namespace Sys2Proof.Machine

/-- Settles O6: the header of a command is accepted with its opcode, and slots, algorithm and operand words are read back. -/
theorem decodeEncodeRoundTrip : Obligations.DecodeEncodeRoundTrip :=
  fun i rest => ⟨decodeRecord_encode i, decodeStream_encode_append i rest⟩

/-- Settles O4: each field is or-ed in above the ones before it, so the header is their sum, of which each is a digit. -/
theorem headerLayout : Obligations.HeaderLayout := fun r =>
  ⟨recordHeader_toNat r, hdrOp_recordHeader r, hdrRd_recordHeader r, hdrRs1_recordHeader r, hdrRs2_recordHeader r,
    hdrSel_recordHeader r, hdrZero_recordHeader r⟩

/-- Settles O5: the rows of R101 are the decoder's tables, and the port checks the header before anything else. -/
theorem legalHeaderByTable : Obligations.LegalHeaderByTable := by
  refine fun hdr => ⟨legalHeader_iff_headerFits, fun hillegal s rest hin hfault hbuf => ?_⟩
  have hfirst : s.cmdBuf ++ [hdr] = hdr :: [] := by rw [hbuf]; rfl
  rw [step_regWrite_cmd hin, writeCmd_of_illegal (s := { s with inbox := rest }) hfault hfirst hillegal]
  simp [raiseFault, faultByte, hbuf]

/-- Settles O7: any words are the words of a raw record, which decode exactly when the record is well formed. -/
theorem decodeAcceptsExactlyWellFormed : Obligations.DecodeAcceptsExactlyWellFormed := by
  intro ws
  constructor
  · constructor
    · rintro ⟨i, h⟩
      cases ws with
      | nil => cases h
      | cons hdr tail =>
        have hwords : recordWords (recordOfWords hdr tail) = hdr :: tail :=
          congrArg (· :: tail) (recordHeader_recordOfWords hdr tail)
        exact ⟨_, exists_decodeRecord_recordWords.1 ⟨i, hwords.symm ▸ h⟩, hwords⟩
    · rintro ⟨r, hwf, rfl⟩
      exact exists_decodeRecord_recordWords.2 hwf
  · intro i h
    cases ws with
    | nil => cases h
    | cons hdr tail => exact (decodeRecord_cons_ok h).2

/-- Settles O3: the encoder gives the spec's words, and decoding undoes encoding. -/
theorem workedEncodings : Obligations.WorkedEncodings := by
  have hHmKey : encode (.hmKey 3 .sha256 0x0100#32 20#32) = [0x00100320#32, 0x00000100#32, 0x00000014#32] := by decide
  have hLbLt : encode (.lbLt 1 2) = [0x00021033#32] := by decide
  have hFinishSame : encode (.dgFinish 0 0) = [0x00000012#32] := by decide
  have hFinish : encode (.dgFinish 5 4) = [0x00004512#32] := by decide
  exact ⟨hHmKey ▸ decodeRecord_encode _, hLbLt ▸ decodeRecord_encode _, hFinishSame ▸ decodeRecord_encode _,
    hFinish ▸ decodeRecord_encode _, hHmKey, hLbLt, hFinishSame, hFinish⟩

end Sys2Proof.Machine
end

section
/-! SUPPORT. One rule for each operation on the state: it stays inside the frame of a command (`changesOnly`) when what it
writes does. -/

namespace Sys2Proof.Machine

variable {rs : List Slot} {g : MemRange} {s t : State}

theorem changesOnly_refl (rs : List Slot) (g : MemRange) (s : State) : changesOnly rs g s s :=
  ⟨fun _ _ => rfl, fun _ _ => rfl, ⟨rfl, rfl, rfl, rfl, rfl, rfl, rfl⟩, rfl, rfl⟩

theorem changesOnly_setSlot {r : Slot} (h : changesOnly rs g s t) (hr : r ∈ rs) (o : Obj) :
    changesOnly rs g s (t.setSlot r o) := by
  obtain ⟨hslots, hrest⟩ := h
  refine ⟨fun q hq => ?_, hrest⟩
  rw [State.slot_setSlot_other t r q o fun hqr => hq (hqr ▸ hr), hslots q hq]

theorem changesOnly_setRes (h : changesOnly rs g s t) (v : BitVec 64) : changesOnly rs g s (t.setRes v) := h

theorem changesOnly_complete (h : changesOnly rs g s t) (c : ErrCode) : changesOnly rs g s (t.complete c) := h

theorem changesOnly_store {a : Nat} {bs : List Byte} (h : changesOnly rs g s t) (hlo : g.addr ≤ a)
    (hhi : a + bs.length ≤ g.addr + g.len) : changesOnly rs g s (t.store a bs) := by
  obtain ⟨hslots, hmem, hrest⟩ := h
  refine ⟨hslots, fun x hx => ?_, hrest⟩
  rw [State.store_mem, memRead_memWriteBytes_outside (by omega), hmem x hx]

end Sys2Proof.Machine
end

section
/-! SUPPORT. The functions of the digest engine in closed form (40_digest.md R124 to R140): an update compresses the whole blocks
of the pending bytes and the data, a finish those of the padded message. -/

namespace Sys2Proof.Machine

/-! ## Compressing and formatting (R124, R125) -/

/-- A call on several blocks is the single-block calls in order. -/
theorem compressBlocks_flatten (src : CompressSource) (alg : AlgId) (h : Chain) (blocks : List (List Byte))
    (hlen : ∀ b ∈ blocks, b.length = blockLen alg) :
    compressBlocks src alg blocks.length h blocks.flatten = blocks.foldl (compressBlock src alg) h := by
  induction blocks generalizing h with
  | nil => rfl
  | cons b bs ih =>
    have hb : b.length = blockLen alg := hlen b List.mem_cons_self
    rw [List.length_cons, List.flatten_cons, compressBlocks, List.take_left' hb, List.drop_left' hb, List.foldl_cons]
    exact ih _ fun x hx => hlen x (List.mem_cons_of_mem b hx)

/-- Element `j` of a list stands at place `n * j` of its encoding in `n` bytes for each element. -/
theorem take_drop_flatMap_of_length {α : Type} {f : α → List Byte} {n : Nat} (hf : ∀ x, (f x).length = n) (xs : List α)
    {j : Nat} (hj : j < xs.length) : ((xs.flatMap f).drop (n * j)).take n = f xs[j] := by
  induction xs generalizing j with
  | nil => exact absurd hj (Nat.not_lt_zero j)
  | cons x xs ih =>
    rw [List.flatMap_cons]
    cases j with
    | zero => exact List.take_left' (hf x)
    | succ j =>
      rw [Nat.mul_succ, Nat.add_comm, ← List.drop_drop, List.drop_left' (hf x)]
      exact ih (Nat.lt_of_succ_lt_succ hj)

/-- The number in place `j` of words formatted big-endian in `n` bytes each. -/
theorem beToNat_flatMap_beBytes {w n : Nat} (hw : 2 ^ w = 256 ^ n) (ws : List (BitVec w)) {j : Nat} (hj : j < ws.length) :
    beToNat (((ws.flatMap fun x => beBytes n x.toNat).drop (n * j)).take n) = ws[j].toNat := by
  rw [take_drop_flatMap_of_length (fun _ => beBytes_length _ _) ws hj, beToNat_beBytes,
    Nat.mod_eq_of_lt (hw ▸ ws[j].isLt)]

/-! ## Feeding a BlockCtx (R127) -/

theorem blockUpdate_of_length_lt (src : CompressSource) {bc : BlockCtx} {data : List Byte}
    (h : data.length < blockLen bc.alg) : blockUpdate src bc data = bc := by
  simp [blockUpdate, Nat.div_eq_of_lt h, compressBlocks]

/-- Bytes after the last whole block play no part. -/
theorem blockUpdate_take_wholeBlocks (src : CompressSource) {bc : BlockCtx} {b : Nat} (hb : blockLen bc.alg = b)
    (data : List Byte) : blockUpdate src bc (data.take (data.length / b * b)) = blockUpdate src bc data := by
  subst hb
  have hle : data.length / blockLen bc.alg * blockLen bc.alg ≤ data.length := Nat.div_mul_le_self _ _
  simp only [blockUpdate, List.length_take_of_le hle, Nat.mul_div_cancel _ (blockLen_pos bc.alg),
    compressBlocks_take src bc.alg _ _ bc.h data le_rfl hle]

/-- Whole blocks may be fed before the rest of the data. -/
theorem blockUpdate_append (src : CompressSource) {bc : BlockCtx} {xs : List Byte} (ys : List Byte)
    (hxs : blockLen bc.alg ∣ xs.length) : blockUpdate src bc (xs ++ ys) = blockUpdate src (blockUpdate src bc xs) ys := by
  have hlen : xs.length / blockLen bc.alg * blockLen bc.alg = xs.length := Nat.div_mul_cancel hxs
  simp only [blockUpdate, List.length_append, Nat.add_div_of_dvd_right hxs, compressBlocks_add,
    compressBlocks_append src bc.alg _ bc.h xs ys hlen.le, hlen, List.drop_left, BitVec.ofNat_add, BitVec.add_assoc]

/-- The bytes after the last whole block are the same when whole blocks are put in front. -/
theorem drop_wholeBlocks_append {b : Nat} {xs : List Byte} (ys : List Byte) (hxs : b ∣ xs.length) :
    (xs ++ ys).drop ((xs ++ ys).length / b * b) = ys.drop (ys.length / b * b) := by
  rw [List.length_append, Nat.add_div_of_dvd_right hxs, Nat.add_mul, Nat.div_mul_cancel hxs, List.drop_length_add_append]

/-! ## Feeding a DigestCtx (R129, R133) -/

/-- Completing the pending block feeds whole blocks of the pending bytes and the data, and leaves the rest of the data. -/
theorem ctxTopUp_feeds_wholeBlocks (src : CompressSource) {c : DigestCtx} {d : List Byte}
    (hp : c.pending.length < blockLen c.block.alg) (hd : ¬ d.length < blockLen c.block.alg - c.pending.length) :
    ∃ xs : List Byte, blockLen c.block.alg ∣ xs.length ∧ xs ++ (ctxTopUp src c d).2 = c.pending ++ d ∧
      (ctxTopUp src c d).1 = blockUpdate src c.block xs := by
  unfold ctxTopUp
  split
  · refine ⟨_, ?_, ?_, rfl⟩
    · rw [List.length_append, List.length_take_of_le (by omega), Nat.add_sub_cancel' hp.le]
    · rw [List.append_assoc, List.take_append_drop]
  · next h0 =>
    have hnil : c.pending = [] := List.length_eq_zero_iff.1 (by omega)
    exact ⟨[], ⟨0, rfl⟩, by simp [hnil], (blockUpdate_of_length_lt src (data := []) (blockLen_pos _)).symm⟩

/-- The second form of R129: the whole blocks of the pending bytes and the data are compressed, the rest stays pending. -/
theorem ctxUpdate_eq (src : CompressSource) {c : DigestCtx} (d : List Byte) (hp : c.pending.length < blockLen c.block.alg) :
    ctxUpdate src c d =
      { block := blockUpdate src c.block (c.pending ++ d)
        pending := (c.pending ++ d).drop ((c.pending ++ d).length / blockLen c.block.alg * blockLen c.block.alg) } := by
  by_cases hs : d.length < blockLen c.block.alg - c.pending.length
  · have hlt : (c.pending ++ d).length < blockLen c.block.alg := by rw [List.length_append]; omega
    rw [ctxUpdate_short src c d hs, blockUpdate_of_length_lt src hlt, Nat.div_eq_of_lt hlt, Nat.zero_mul, List.drop_zero]
  · obtain ⟨xs, hdvd, hxs, htop⟩ := ctxTopUp_feeds_wholeBlocks src hp hs
    rw [ctxUpdate_long src c d hs, blockUpdate_take_wholeBlocks src (by rw [ctxTopUp_alg]), htop, ← hxs,
      blockUpdate_append src _ hdvd, drop_wholeBlocks_append _ hdvd]

/-- Less than a block is pending after an update. -/
theorem ctxUpdate_pending_length_lt (src : CompressSource) {c : DigestCtx} (d : List Byte)
    (hp : c.pending.length < blockLen c.block.alg) :
    (ctxUpdate src c d).pending.length < blockLen (ctxUpdate src c d).block.alg := by
  rw [ctxUpdate_alg, ctxUpdate_eq src d hp, List.length_drop, ← Nat.mod_eq_sub_div_mul]
  exact Nat.mod_lt _ (blockLen_pos _)

/-- Two updates are one with the data of both (R133). -/
theorem ctxUpdate_append (src : CompressSource) {c : DigestCtx} (xs ys : List Byte)
    (hp : c.pending.length < blockLen c.block.alg) :
    ctxUpdate src c (xs ++ ys) = ctxUpdate src (ctxUpdate src c xs) ys := by
  have hle := Nat.div_mul_le_self (c.pending ++ xs).length (blockLen c.block.alg)
  have hcut : c.pending ++ (xs ++ ys) =
      (c.pending ++ xs).take ((c.pending ++ xs).length / blockLen c.block.alg * blockLen c.block.alg) ++
        ((ctxUpdate src c xs).pending ++ ys) := by
    rw [ctxUpdate_eq src xs hp, ← List.append_assoc, ← List.append_assoc, List.take_append_drop]
  have hdvd : blockLen c.block.alg ∣
      ((c.pending ++ xs).take ((c.pending ++ xs).length / blockLen c.block.alg * blockLen c.block.alg)).length := by
    rw [List.length_take_of_le hle]
    exact Nat.dvd_mul_left _ _
  have hblock : (ctxUpdate src c xs).block = blockUpdate src c.block (c.pending ++ xs) := by rw [ctxUpdate_eq src xs hp]
  rw [ctxUpdate_eq src (xs ++ ys) hp, hcut, blockUpdate_append src _ hdvd, drop_wholeBlocks_append _ hdvd,
    blockUpdate_take_wholeBlocks src rfl, ← hblock, ctxUpdate_eq src ys (ctxUpdate_pending_length_lt src xs hp), ctxUpdate_alg]

/-- A sequence of updates is one with the concatenation of the data (R133). -/
theorem foldl_ctxUpdate (src : CompressSource) {c : DigestCtx} (chunks : List (List Byte))
    (hp : c.pending.length < blockLen c.block.alg) :
    chunks.foldl (ctxUpdate src) c = ctxUpdate src c chunks.flatten := by
  induction chunks generalizing c with
  | nil => rw [List.foldl_nil, List.flatten_nil, ctxUpdate_short src c [] (Nat.sub_pos_of_lt hp), List.append_nil]
  | cons x xs ih =>
    rw [List.foldl_cons, List.flatten_cons, ctxUpdate_append src x _ hp, ih (ctxUpdate_pending_length_lt src x hp)]

/-! ## Padding and finishing (R131, R140) -/

theorem lenLen_lt_blockLen (alg : AlgId) : lenLen alg < blockLen alg := by cases alg <;> decide

theorem eight_le_lenLen (alg : AlgId) : 8 ≤ lenLen alg := by cases alg <;> decide

theorem ceilDiv_le_iff {a b c : Nat} (hb : 0 < b) : ceilDiv a b ≤ c ↔ a ≤ b * c := by
  rw [show ceilDiv a b = a ⌈/⌉ b from (Nat.ceilDiv_eq_add_pred_div a b).symm, ceilDiv_le_iff_le_mul hb]

/-- The blocks of a padded message have room for the bytes, `0x80` and the length field. -/
theorem le_padCount_mul_blockLen (alg : AlgId) (n : Nat) : n + 1 + lenLen alg ≤ padCount alg n * blockLen alg := by
  rw [Nat.mul_comm]
  exact (ceilDiv_le_iff (blockLen_pos alg)).1 le_rfl

/-- No fewer blocks have that room. -/
theorem padCount_le {alg : AlgId} {n k : Nat} (h : n + 1 + lenLen alg ≤ blockLen alg * k) : padCount alg n ≤ k :=
  (ceilDiv_le_iff (blockLen_pos alg)).2 h

theorem padCount_mul_blockLen_add (alg : AlgId) (k n : Nat) : padCount alg (k * blockLen alg + n) = k + padCount alg n := by
  have hb := blockLen_pos alg
  rw [padCount, padCount, ceilDiv, ceilDiv, Nat.add_comm k, ← Nat.add_mul_div_right _ _ hb]
  congr 1
  omega

theorem paddedMessage_length (alg : AlgId) (data : List Byte) (bits : Nat) :
    (paddedMessage alg data bits).length = padCount alg data.length * blockLen alg := by
  have hroom := le_padCount_mul_blockLen alg data.length
  have hfield := eight_le_lenLen alg
  simp only [paddedMessage, List.length_append, List.length_singleton, zeros_length, beBytes_length]
  omega

theorem zeros_add (m n : Nat) : zeros (m + n) = zeros m ++ zeros n :=
  List.replicate_add m n _

theorem paddingBlocks_of_short {alg : AlgId} {pending : List Byte} {bits : Nat}
    (h : ¬ blockLen alg - lenLen alg < pending.length + 1) :
    paddingBlocks alg pending bits =
      [pending ++ [0x80#8] ++ zeros (blockLen alg - 8 - (pending.length + 1)) ++ beBytes 8 bits] := by
  simp only [paddingBlocks, List.length_append, List.length_singleton]
  exact if_neg h

theorem paddingBlocks_of_long {alg : AlgId} {pending : List Byte} {bits : Nat}
    (h : blockLen alg - lenLen alg < pending.length + 1) :
    paddingBlocks alg pending bits =
      [pending ++ [0x80#8] ++ zeros (blockLen alg - (pending.length + 1)), zeros (blockLen alg - 8) ++ beBytes 8 bits] := by
  simp only [paddingBlocks, List.length_append, List.length_singleton]
  exact if_pos h

/-- The padding blocks are whole blocks. -/
theorem length_of_mem_paddingBlocks {alg : AlgId} {pending b : List Byte} {bits : Nat} (hp : pending.length < blockLen alg)
    (hb : b ∈ paddingBlocks alg pending bits) : b.length = blockLen alg := by
  have hfield := eight_le_lenLen alg
  have hlt := lenLen_lt_blockLen alg
  by_cases h : blockLen alg - lenLen alg < pending.length + 1
  · rw [paddingBlocks_of_long h, List.mem_pair] at hb
    rcases hb with rfl | rfl <;>
      simp only [List.length_append, List.length_singleton, zeros_length, beBytes_length] <;> omega
  · rw [paddingBlocks_of_short h, List.mem_singleton] at hb
    subst hb
    simp only [List.length_append, List.length_singleton, zeros_length, beBytes_length]
    omega

/-- There are as many padding blocks as R140 counts. -/
theorem paddingBlocks_length {alg : AlgId} {pending : List Byte} (bits : Nat) (hp : pending.length < blockLen alg) :
    (paddingBlocks alg pending bits).length = padCount alg pending.length := by
  rw [padCount, ← finishCalls_sum hp, finishCalls_eq_paddingBlocks alg pending bits]
  simp

/-- The padding blocks one after the other are the padded message. -/
theorem paddingBlocks_flatten {alg : AlgId} {pending : List Byte} (bits : Nat) (hp : pending.length < blockLen alg) :
    (paddingBlocks alg pending bits).flatten = paddedMessage alg pending bits := by
  have hfield := eight_le_lenLen alg
  have hlt := lenLen_lt_blockLen alg
  rw [paddedMessage, ← paddingBlocks_length bits hp]
  by_cases h : blockLen alg - lenLen alg < pending.length + 1
  · have hfill : 2 * blockLen alg - pending.length - 9 = (blockLen alg - (pending.length + 1)) + (blockLen alg - 8) := by
      omega
    simp [paddingBlocks_of_long h, hfill, zeros_add]
  · have hfill : blockLen alg - pending.length - 9 = blockLen alg - 8 - (pending.length + 1) := by omega
    simp [paddingBlocks_of_short h, hfill]

/-- The zero fill of R140 is the least that leaves room for the length field and completes a block. -/
theorem paddedMessage_length_le {alg : AlgId} {data : List Byte} (bits : Nat) {z : Nat} (hz : lenLen alg - 8 ≤ z)
    (hwhole : (data.length + 1 + z + 8) % blockLen alg = 0) :
    (paddedMessage alg data bits).length ≤ data.length + 1 + z + 8 := by
  have hfield := eight_le_lenLen alg
  obtain ⟨k, hk⟩ := Nat.dvd_of_mod_eq_zero hwhole
  rw [paddedMessage_length, hk, Nat.mul_comm]
  exact Nat.mul_le_mul_left _ (padCount_le (by omega))

/-- A finish compresses the padded message in one call, formats and cuts (R131 as R140 has it). -/
theorem blockFinish_eq (src : CompressSource) {bc : BlockCtx} {pending : List Byte} (hp : pending.length < blockLen bc.alg) :
    blockFinish src bc pending =
      { alg := bc.alg, value := finishBytes src bc.alg bc.h pending (finishBits bc pending.length) } := by
  rw [blockFinish, ← compressBlocks_flatten src bc.alg bc.h _ (fun _ => length_of_mem_paddingBlocks hp),
    paddingBlocks_length _ hp, paddingBlocks_flatten _ hp, finishBytes]

/-- Whole blocks of a message may be compressed before its padding is made up. -/
theorem finishBytes_drop_wholeBlocks (src : CompressSource) (alg : AlgId) (h : Chain) {data : List Byte} (bits : Nat) {k : Nat}
    (hk : k * blockLen alg ≤ data.length) :
    finishBytes src alg (compressBlocks src alg k h data) (data.drop (k * blockLen alg)) bits =
      finishBytes src alg h data bits := by
  have hcount : padCount alg data.length = k + padCount alg (data.drop (k * blockLen alg)).length := by
    rw [← padCount_mul_blockLen_add, List.length_drop, Nat.add_sub_cancel' hk]
  have hmsg : paddedMessage alg data bits =
      data.take (k * blockLen alg) ++ paddedMessage alg (data.drop (k * blockLen alg)) bits := by
    have hfill : padCount alg data.length * blockLen alg - data.length - 9 =
        padCount alg (data.drop (k * blockLen alg)).length * blockLen alg - (data.drop (k * blockLen alg)).length - 9 := by
      rw [hcount, Nat.add_mul, List.length_drop]
      omega
    rw [paddedMessage, paddedMessage, hfill]
    simp only [← List.append_assoc, List.take_append_drop]
  have htake : (data.take (k * blockLen alg)).length = k * blockLen alg := List.length_take_of_le hk
  rw [finishBytes, finishBytes, hcount, compressBlocks_add, hmsg, compressBlocks_append src alg k h _ _ htake.ge,
    compressBlocks_take src alg k _ h data le_rfl hk, List.drop_left' htake]

/-- The counter counts the whole blocks of an update that does not carry it to 2^64. -/
theorem blockUpdate_nblocks_toNat (src : CompressSource) {bc : BlockCtx} {data : List Byte}
    (hfit : bc.nblocks.toNat + data.length / blockLen bc.alg < 2 ^ 64) :
    (blockUpdate src bc data).nblocks.toNat = bc.nblocks.toNat + data.length / blockLen bc.alg := by
  rw [blockUpdate, BitVec.toNat_add, BitVec.toNat_ofNat, Nat.add_mod_mod, Nat.mod_eq_of_lt hfit]

/-- Finishing after an update hashes the pending bytes and the data as they come after the blocks already counted. -/
theorem ctxFinish_ctxUpdate (src : CompressSource) {c : DigestCtx} (d : List Byte)
    (hp : c.pending.length < blockLen c.block.alg)
    (hfit : c.block.nblocks.toNat + (c.pending ++ d).length / blockLen c.block.alg < 2 ^ 64) :
    ctxFinish src (ctxUpdate src c d) =
      { alg := c.block.alg
        value := finishBytes src c.block.alg c.block.h (c.pending ++ d) (finishBits c.block (c.pending ++ d).length) } := by
  have hle := Nat.div_mul_le_self (c.pending ++ d).length (blockLen c.block.alg)
  have hbits : finishBits (ctxUpdate src c d).block (ctxUpdate src c d).pending.length =
      finishBits c.block (c.pending ++ d).length := by
    rw [ctxUpdate_eq src d hp, finishBits, finishBits, blockUpdate_nblocks_toNat src hfit, blockUpdate_alg, List.length_drop,
      Nat.add_mul c.block.nblocks.toNat, Nat.add_assoc, Nat.add_sub_cancel' hle]
  rw [ctxFinish, blockFinish_eq src (ctxUpdate_pending_length_lt src d hp), hbits, ctxUpdate_alg, ctxUpdate_eq src d hp,
    blockUpdate, finishBytes_drop_wholeBlocks src _ _ _ hle]

/-- The one-shot digest is the hash of the padded message (R139). -/
theorem digest_eq_hashOf (src : CompressSource) (alg : AlgId) {data : List Byte} (hbits : 8 * data.length < 2 ^ 64) :
    digest src alg data = { alg := alg, value := hashOf src alg data } := by
  have hfit : 0 + data.length / blockLen alg < 2 ^ 64 := by
    have hblocks : data.length / blockLen alg ≤ data.length := Nat.div_le_self _ _
    omega
  have hcount : finishBits (ctxNew src alg).block data.length = 8 * data.length := by
    simp [finishBits, blockNew, Nat.mul_comm]
  rw [digest, ctxFinish_ctxUpdate src data (c := ctxNew src alg) (blockLen_pos alg) hfit, ctxNew_pending, List.nil_append,
    hcount]
  rfl

end Sys2Proof.Machine
end

section
/-! SUPPORT. One equation for each end of the digest commands (40_digest.md R136 to R138). -/

namespace Sys2Proof.Machine

variable {s : State}

theorem updateFits_iff {c : DigestCtx} {len : Nat} :
    updateFits c len = true ↔ c.block.nblocks.toNat + (c.pending.length + len) / blockLen c.block.alg < 2 ^ 64 := by
  rw [updateFits, decide_eq_true_iff]

theorem execDgUpdate_of_badSlotKind {rd : Slot} {addr len : Word} (hkind : ∀ c, s.slot rd ≠ .digestCtx c) :
    execDgUpdate rd addr len s = trap (.dgUpdate rd addr len) .badSlotKind s := by
  simp [execDgUpdate, State.digestCtxIn_eq_none.2 hkind]

theorem execDgUpdate_of_badAddress {rd : Slot} {addr len : Word} {c : DigestCtx} (hc : s.slot rd = .digestCtx c)
    (hout : s.cfg.memSize < addr.toNat + len.toNat) :
    execDgUpdate rd addr len s = trap (.dgUpdate rd addr len) .badAddress s := by
  simp only [execDgUpdate, State.digestCtxIn_eq_some.2 hc, State.validRange_iff]
  exact if_pos hout.not_ge

theorem execDgUpdate_of_overflow {rd : Slot} {addr len : Word} {c : DigestCtx} (hc : s.slot rd = .digestCtx c)
    (hin : addr.toNat + len.toNat ≤ s.cfg.memSize)
    (hover : 2 ^ 64 ≤ c.block.nblocks.toNat + (c.pending.length + len.toNat) / blockLen c.block.alg) :
    execDgUpdate rd addr len s = trap (.dgUpdate rd addr len) .overflow s := by
  simp only [execDgUpdate, State.digestCtxIn_eq_some.2 hc, State.validRange_iff, updateFits_iff]
  exact (if_neg (not_not.2 hin)).trans (if_pos hover.not_gt)

theorem execDgUpdate_of_fits {rd : Slot} {addr len : Word} {c : DigestCtx} (hc : s.slot rd = .digestCtx c)
    (hin : addr.toNat + len.toNat ≤ s.cfg.memSize)
    (hfit : c.block.nblocks.toNat + (c.pending.length + len.toNat) / blockLen c.block.alg < 2 ^ 64) :
    execDgUpdate rd addr len s =
      succeed (s.setSlot rd (.digestCtx (ctxUpdate s.cfg.compress c (memReadBytes s.mem addr.toNat len.toNat)))) := by
  simp only [execDgUpdate, State.digestCtxIn_eq_some.2 hc, State.validRange_iff, updateFits_iff]
  exact (if_neg (not_not.2 hin)).trans (if_neg (not_not.2 hfit))

theorem execDgFinish_of_badSlotKind {rd rs1 : Slot} (hkind : ∀ c, s.slot rs1 ≠ .digestCtx c) :
    execDgFinish rd rs1 s = trap (.dgFinish rd rs1) .badSlotKind s := by
  simp [execDgFinish, State.digestCtxIn_eq_none.2 hkind]

theorem execDgFinish_of_fault {rd rs1 : Slot} {c : DigestCtx} {f : FaultCode} (hc : s.slot rs1 = .digestCtx c)
    (hf : blockFinishFault c.block c.pending.length = some f) :
    execDgFinish rd rs1 s = trap (.dgFinish rd rs1) f s := by
  simp [execDgFinish, State.digestCtxIn_eq_some.2 hc, hf]

theorem execDgFinish_of_fits {rd rs1 : Slot} {c : DigestCtx} (hc : s.slot rs1 = .digestCtx c)
    (hf : blockFinishFault c.block c.pending.length = none) :
    execDgFinish rd rs1 s =
      succeed ((s.setSlot rs1 .empty).setSlot rd (.digestVal (ctxFinish s.cfg.compress c))) := by
  simp [execDgFinish, State.digestCtxIn_eq_some.2 hc, hf]

/-- With less than a block pending, the one fault of a finish is `OVERFLOW` (R131, R134). -/
theorem blockFinishFault_overflow {bc : BlockCtx} {n : Nat} (hn : n < blockLen bc.alg) (hover : 2 ^ 64 ≤ finishBits bc n) :
    blockFinishFault bc n = some .overflow := by
  rw [blockFinishFault, if_neg hn.not_ge, if_pos hover]

theorem execDgRead_of_badSlotKind {rs1 : Slot} {addr : Word} (hkind : ∀ d, s.slot rs1 ≠ .digestVal d) :
    execDgRead rs1 addr s = trap (.dgRead rs1 addr) .badSlotKind s := by
  simp [execDgRead, State.digestValIn_eq_none.2 hkind]

theorem execDgRead_of_badAddress {rs1 : Slot} {addr : Word} {d : DigestVal} (hd : s.slot rs1 = .digestVal d)
    (hout : s.cfg.memSize < addr.toNat + outputLen d.alg) :
    execDgRead rs1 addr s = trap (.dgRead rs1 addr) .badAddress s := by
  simp [execDgRead, State.digestValIn_eq_some.2 hd, State.validRange, hout]

theorem execDgRead_of_inside {rs1 : Slot} {addr : Word} {d : DigestVal} (hd : s.slot rs1 = .digestVal d)
    (hin : addr.toNat + outputLen d.alg ≤ s.cfg.memSize) :
    execDgRead rs1 addr s =
      succeed ((s.store addr.toNat d.value).setRes (resOfNat s.cfg.limbWidth (outputLen d.alg))) := by
  simp [execDgRead, State.digestValIn_eq_some.2 hd, State.validRange, hin]

/-- A number of 32 bits stands in `RES` as it is, whatever the limb width (10_state.md R32). -/
theorem resOfNat_toNat {w : LimbWidth} {n : Nat} (hn : n < 2 ^ 32) : (resOfNat w n).toNat = n := by
  cases w <;> simp only [resOfNat, LimbWidth.bits, BitVec.toNat_ofNat] <;> omega

theorem outputLen_lt_two_pow (alg : AlgId) : outputLen alg < 2 ^ 32 := by cases alg <;> decide

end Sys2Proof.Machine
end

section
/-! The digest engine and the digest commands: the statements of 40_digest.md. -/

namespace Sys2Proof.Machine

/-- Settles O50, by induction on the blocks. -/
theorem compressIterates : Obligations.CompressIterates := compressBlocks_flatten

/-- Settles O51: every word takes as many bytes as its width says, so word `j` stands at `j` times that width. -/
theorem formatIsBigEndian : Obligations.FormatIsBigEndian :=
  ⟨fun ws _ hj => beToNat_flatMap_beBytes (by decide) ws hj, fun ws _ hj => beToNat_flatMap_beBytes (by decide) ws hj,
    fun _ _ => formatChain_length⟩

/-- Settles O52: two updates are one with the data of both, so by induction any sequence of updates is one. -/
theorem chunkingInvariance : Obligations.ChunkingInvariance := fun src _ chunks hp =>
  ⟨foldl_ctxUpdate src chunks hp, congrArg (ctxFinish src) (foldl_ctxUpdate src chunks hp)⟩

/-- Settles O53: the zeros of one or of two padding blocks are the fill of the padded message, whose length is the least
multiple of the block length with room for the length field. -/
theorem paddingLayout : Obligations.PaddingLayout := fun _ _ bits hp =>
  ⟨paddingBlocks_flatten bits hp, fun _ => length_of_mem_paddingBlocks hp, paddingBlocks_length bits hp,
    fun _ => paddedMessage_length_le bits⟩

/-- Settles O54: the update compresses the whole blocks of the padded message that hold data alone, the finish the others. -/
theorem digestIsHashOfPaddedMessage : Obligations.DigestIsHashOfPaddedMessage := fun src alg _ => digest_eq_hashOf src alg

/-- Settles O26: the command has no check to fail, and writes its destination alone. -/
theorem dgInitMakesContext : Obligations.DgInitMakesContext := fun s rd alg =>
  ⟨rfl, _, execDgInit_cases rd alg s, State.slot_setSlot_same s rd _,
    changesOnly_complete (changesOnly_setSlot (changesOnly_refl _ _ s) List.mem_cons_self _) .ok, rfl, rfl, rfl⟩

/-- Settles O27, by one equation of the command for each clause and the closed form of the update. -/
theorem dgUpdateFeedsBytes : Obligations.DgUpdateFeedsBytes := by
  intro s rd addr len
  refine ⟨rfl, execDgUpdate_of_badSlotKind, fun c hc hp => ?_⟩
  intro data k
  have hk : k = (c.pending.length + len.toNat) / blockLen c.block.alg := by
    simp only [k, data, List.length_append, memReadBytes_length]
  refine ⟨execDgUpdate_of_badAddress hc, fun hin hover => execDgUpdate_of_overflow hc hin (hk ▸ hover), fun hin hfit => ?_⟩
  refine ⟨_, _, execDgUpdate_of_fits hc hin (hk ▸ hfit), State.slot_setSlot_same s rd _, ?_⟩
  rw [ctxUpdate_eq _ _ hp]
  have hle : k * blockLen c.block.alg ≤ data.length := Nat.div_mul_le_self _ _
  exact ⟨rfl, (compressBlocks_take _ _ k _ _ data le_rfl hle).symm, blockUpdate_nblocks_toNat _ hfit, rfl,
    changesOnly_complete (changesOnly_setSlot (changesOnly_refl _ _ s) List.mem_cons_self _) .ok, rfl, rfl, rfl⟩

/-- Settles O28, by one equation of the command for each clause and the closed form of the finish. -/
theorem dgFinishGivesDigest : Obligations.DgFinishGivesDigest := by
  intro s rd rs1
  refine ⟨rfl, execDgFinish_of_badSlotKind, fun c hc hp => ⟨fun hover => ?_, fun hbits => ?_⟩⟩
  · exact execDgFinish_of_fault hc (blockFinishFault_overflow hp hover)
  · refine ⟨_, execDgFinish_of_fits hc (blockFinishFault_none.2 ⟨hp, hbits⟩), ?_, fun hne => ?_, ?_, rfl, rfl, rfl⟩
    · rw [State.complete_slot, State.slot_setSlot_same, ctxFinish, blockFinish_eq _ hp, finishBits]
    · rw [State.complete_slot, State.slot_setSlot_other _ _ _ _ hne.symm, State.slot_setSlot_same]
    · have hempty : changesOnly [rd, rs1] noRange s (s.setSlot rs1 .empty) :=
        changesOnly_setSlot (changesOnly_refl _ _ s) (by simp) _
      exact changesOnly_complete (changesOnly_setSlot hempty (by simp) _) .ok

/-- Settles O29, by one equation of the command for each clause and the laws of a stored byte string. -/
theorem dgReadStoresDigest : Obligations.DgReadStoresDigest := by
  intro s rs1 addr hwf
  refine ⟨rfl, execDgRead_of_badSlotKind, fun d hd hlen => ⟨execDgRead_of_badAddress hd, fun hin => ?_⟩⟩
  refine ⟨_, execDgRead_of_inside hd hin, ?_, resOfNat_toNat (outputLen_lt_two_pow d.alg), ?_, rfl, rfl⟩
  · rw [← hlen]
    exact memReadBytes_memWriteBytes hwf addr.toNat d.value
  · have hstore : changesOnly [] ⟨addr.toNat, outputLen d.alg⟩ s (s.store addr.toNat d.value) :=
      changesOnly_store (changesOnly_refl _ _ s) le_rfl (hlen ▸ le_rfl)
    exact changesOnly_complete (changesOnly_setRes hstore _) .ok

end Sys2Proof.Machine
end

section
/-! SUPPORT. The functions of HMAC in closed form (41_hmac.md R160 to R165): a key is two pad blocks compressed, and a finish
after a pad block hashes the block and the data after it. -/

namespace Sys2Proof.Machine

/-! ## Hashes and the padded key (R162, R171) -/

theorem finishBytes_length (src : CompressSource) {alg : AlgId} {h : Chain} (hf : chainFits alg h = true) (data : List Byte)
    (bits : Nat) : (finishBytes src alg h data bits).length = outputLen alg := by
  rw [finishBytes, List.length_take, formatChain_length (chainFits_compressBlocks src alg _ h _ hf)]
  exact Nat.min_eq_left (outputLen_le_chainingLen alg)

theorem hashOf_length (src : CompressSource) (alg : AlgId) (data : List Byte) :
    (hashOf src alg data).length = outputLen alg := finishBytes_length src (chainFits_initialState src alg) data _

/-- The engine's padded key is `K0` of RFC 2104: the digest of a long key is its hash. -/
theorem hmacPaddedKey_eq_hmacBlockKey (src : CompressSource) (alg : AlgId) {key : List Byte} (hkey : 8 * key.length < 2 ^ 64) :
    hmacPaddedKey src alg key = hmacBlockKey src alg key := by
  rw [hmacPaddedKey, hmacBlockKey, digest_eq_hashOf src alg hkey]

theorem hmacBlockKey_length (src : CompressSource) (alg : AlgId) {key : List Byte} (hkey : 8 * key.length < 2 ^ 64) :
    (hmacBlockKey src alg key).length = blockLen alg :=
  hmacPaddedKey_eq_hmacBlockKey src alg hkey ▸ hmacPaddedKey_length src alg key

/-! ## One block fed to a fresh BlockCtx (R162) -/

theorem blockUpdate_blockNew (src : CompressSource) {alg : AlgId} {block : List Byte} (hb : block.length = blockLen alg) :
    blockUpdate src (blockNew src alg) block =
      { alg := alg, h := compressBlock src alg (initialState src alg) block, nblocks := 1#64 } := by
  have hone : block.length / blockLen alg = 1 := by rw [hb, Nat.div_self (blockLen_pos alg)]
  simp [blockUpdate, blockNew, hone, compressBlocks, List.take_of_length_le hb.le]

/-- The finish after one compressed block is the hash of that block and the data after it. -/
theorem finishBytes_blockUpdate_blockNew (src : CompressSource) {alg : AlgId} {block : List Byte}
    (hb : block.length = blockLen alg) (data : List Byte) :
    finishBytes src alg (blockUpdate src (blockNew src alg) block).h data
        (finishBits (blockUpdate src (blockNew src alg) block) data.length) = hashOf src alg (block ++ data) := by
  have hle : 1 * blockLen alg ≤ (block ++ data).length := by simp [hb]
  have hbits : finishBits (blockUpdate src (blockNew src alg) block) data.length = 8 * (block ++ data).length := by
    simp [blockUpdate_blockNew src hb, finishBits, hb, Nat.mul_comm]
  rw [hbits, hashOf, ← finishBytes_drop_wholeBlocks src alg _ _ hle, blockUpdate_blockNew src hb, Nat.one_mul,
    List.drop_left' hb]
  simp [compressBlocks, List.take_left' hb]

theorem blockFinish_after_block (src : CompressSource) {alg : AlgId} {block pending : List Byte}
    (hb : block.length = blockLen alg) (hp : pending.length < blockLen alg) :
    blockFinish src (blockUpdate src (blockNew src alg) block) pending =
      { alg := alg, value := hashOf src alg (block ++ pending) } := by
  rw [blockFinish_eq src hp, ← finishBytes_blockUpdate_blockNew src hb]
  rfl

theorem ctxFinish_after_block (src : CompressSource) {alg : AlgId} {block data : List Byte}
    (hb : block.length = blockLen alg) (hbits : 8 * (blockLen alg + data.length) < 2 ^ 64) :
    ctxFinish src (ctxUpdate src { block := blockUpdate src (blockNew src alg) block, pending := [] } data) =
      { alg := alg, value := hashOf src alg (block ++ data) } := by
  have hfit : (blockUpdate src (blockNew src alg) block).nblocks.toNat + data.length / blockLen alg < 2 ^ 64 := by
    have hblocks : data.length / blockLen alg ≤ data.length := Nat.div_le_self _ _
    rw [blockUpdate_blockNew src hb, BitVec.toNat_ofNat]
    omega
  rw [← finishBytes_blockUpdate_blockNew src hb]
  exact ctxFinish_ctxUpdate src data (blockLen_pos alg) hfit

/-! ## Keys, Contexts and the tag (R162 to R165) -/

/-- Toggling the inner pad block by `IPAD ^ OPAD` gives the outer one. -/
theorem map_xor_ipad_xor_opad (k0 : List Byte) :
    (k0.map (· ^^^ ipad)).map (· ^^^ (ipad ^^^ opad)) = k0.map (· ^^^ opad) := by
  have hbyte (b : Byte) : b ^^^ ipad ^^^ (ipad ^^^ opad) = b ^^^ opad := by
    rw [BitVec.xor_assoc, ← BitVec.xor_assoc ipad, BitVec.xor_self, BitVec.zero_xor]
  simp [Function.comp_def, hbyte]

theorem hmacKeyNew_eq (src : CompressSource) (alg : AlgId) {key : List Byte} (hkey : 8 * key.length < 2 ^ 64) :
    hmacKeyNew src alg key =
      { alg := alg
        inner := blockUpdate src (blockNew src alg) ((hmacBlockKey src alg key).map (· ^^^ 0x36#8))
        outer := blockUpdate src (blockNew src alg) ((hmacBlockKey src alg key).map (· ^^^ 0x5C#8)) } := by
  rw [hmacKeyNew, hmacPaddedKey_eq_hmacBlockKey src alg hkey, map_xor_ipad_xor_opad, ipad, opad]

/-- Updates of an HMAC Context are updates of its inner Context. -/
theorem foldl_hmacCtxUpdate (src : CompressSource) (c : HmacCtx) (chunks : List (List Byte)) :
    chunks.foldl (hmacCtxUpdate src) c = { c with inner := chunks.foldl (ctxUpdate src) c.inner } := by
  induction chunks generalizing c with
  | nil => rfl
  | cons d ds ih => exact ih (hmacCtxUpdate src c d)

/-- The tag of the data fed to a Context whose two block Contexts have compressed one block each: two nested hashes. -/
theorem hmacSign_of_padBlocks (src : CompressSource) {alg : AlgId} {ib ob : List Byte} (hib : ib.length = blockLen alg)
    (hob : ob.length = blockLen alg) {chunks : List (List Byte)}
    (hbits : 8 * (blockLen alg + chunks.flatten.length) < 2 ^ 64) :
    hmacSign src (chunks.foldl (hmacCtxUpdate src) (hmacCtxNew
        { alg := alg, inner := blockUpdate src (blockNew src alg) ib, outer := blockUpdate src (blockNew src alg) ob })) =
      { alg := alg, value := hashOf src alg (ob ++ hashOf src alg (ib ++ chunks.flatten)) } := by
  have hpend : (hashOf src alg (ib ++ chunks.flatten)).length < blockLen alg :=
    (hashOf_length src alg _).trans_lt (outputLen_lt_blockLen alg)
  have hinner : ctxFinish src (chunks.foldl (ctxUpdate src) { block := blockUpdate src (blockNew src alg) ib, pending := [] }) =
      { alg := alg, value := hashOf src alg (ib ++ chunks.flatten) } := by
    rw [foldl_ctxUpdate, ctxFinish_after_block src hib hbits]
    exact blockLen_pos alg
  rw [foldl_hmacCtxUpdate, ← blockFinish_after_block src hob hpend]
  exact congrArg (fun d : DigestVal => blockFinish src _ d.value) hinner

/-! ## The finish of a Context that satisfies the invariant (R26, R165) -/

theorem objOk_hmacCtx_iff {cfg : Config} {c : HmacCtx} :
    objOk cfg (.hmacCtx c) = true ↔
      c.inner.block.alg = c.alg ∧ digestCtxOk c.inner = true ∧ padBlockOk c.alg c.outer = true := by
  simp [objOk, and_assoc]

/-- The outer finish never overflows: its bit length is `(block_len + output_len) * 8`. -/
theorem outerFinish_fits {alg : AlgId} {b : BlockCtx} (hb : padBlockOk alg b = true) :
    outputLen alg < blockLen b.alg ∧ finishBits b (outputLen alg) = (1 * blockLen alg + outputLen alg) * 8 ∧
      finishBits b (outputLen alg) < 2 ^ 64 := by
  obtain ⟨rfl, -, hn⟩ := padBlockOk_iff.1 hb
  have hbits : finishBits b (outputLen b.alg) = (1 * blockLen b.alg + outputLen b.alg) * 8 := by rw [finishBits, hn]; rfl
  refine ⟨outputLen_lt_blockLen b.alg, hbits, hbits ▸ ?_⟩
  cases b.alg <;> decide

variable {cfg : Config} {c : HmacCtx}

theorem hmacSign_eq (src : CompressSource) (hok : objOk cfg (.hmacCtx c) = true) :
    hmacSign src c =
      { alg := c.alg
        value := finishBytes src c.alg c.outer.h
          (finishBytes src c.alg c.inner.block.h c.inner.pending (finishBits c.inner.block c.inner.pending.length))
          ((1 * blockLen c.alg + outputLen c.alg) * 8) } := by
  obtain ⟨halg, hinner, houter⟩ := objOk_hmacCtx_iff.1 hok
  obtain ⟨hlt, hbits, -⟩ := outerFinish_fits houter
  obtain ⟨hoalg, -, -⟩ := padBlockOk_iff.1 houter
  have hlen : (ctxFinish src c.inner).value.length = outputLen c.alg := halg ▸ ctxFinish_length src c.inner hinner
  rw [hmacSign, blockFinish_eq src (hlen ▸ hlt), hlen, hbits, hoalg, ctxFinish,
    blockFinish_eq src (digestCtxOk_iff.1 hinner).2, halg]

theorem hmacSignFault_overflow (hok : objOk cfg (.hmacCtx c) = true)
    (hover : 2 ^ 64 ≤ finishBits c.inner.block c.inner.pending.length) : hmacSignFault c = some .overflow := by
  obtain ⟨-, hinner, -⟩ := objOk_hmacCtx_iff.1 hok
  rw [hmacSignFault, blockFinishFault_overflow (digestCtxOk_iff.1 hinner).2 hover]

theorem hmacSignFault_none (hok : objOk cfg (.hmacCtx c) = true)
    (hfit : finishBits c.inner.block c.inner.pending.length < 2 ^ 64) : hmacSignFault c = none := by
  obtain ⟨halg, hinner, houter⟩ := objOk_hmacCtx_iff.1 hok
  obtain ⟨hlt, -, hbits⟩ := outerFinish_fits houter
  rw [hmacSignFault, blockFinishFault_none.2 ⟨(digestCtxOk_iff.1 hinner).2, hfit⟩, halg]
  exact blockFinishFault_none.2 ⟨hlt, hbits⟩

end Sys2Proof.Machine
end

section
/-! SUPPORT. What CT_VERIFY's accumulated difference says (41_hmac.md R170), and one equation for each end of CT_VERIFY and of
the HMAC commands (R166 to R170). -/

namespace Sys2Proof.Machine

/-- Bytes or-ed together are 0 exactly when each is. -/
theorem foldl_or_eq_zero {xs : List Byte} {acc : Byte} :
    xs.foldl (· ||| ·) acc = 0#8 ↔ acc = 0#8 ∧ ∀ x ∈ xs, x = 0#8 := by
  induction xs generalizing acc with
  | nil => simp
  | cons x xs ih => rw [List.foldl_cons, ih, BitVec.or_eq_zero_iff, List.forall_mem_cons, and_assoc]

/-- Byte strings of one length have no difference exactly when they are equal. -/
theorem byteDifference_eq_zero {xs ys : List Byte} (hlen : xs.length = ys.length) :
    byteDifference xs ys = 0#8 ↔ xs = ys := by
  rw [byteDifference, foldl_or_eq_zero]
  induction xs generalizing ys with
  | nil => simp [List.eq_nil_of_length_eq_zero hlen.symm]
  | cons x xs ih =>
    cases ys with
    | nil => cases hlen
    | cons y ys =>
      have htail := ih (Nat.succ.inj hlen)
      rw [eq_self, true_and] at htail
      rw [eq_self, true_and, List.zipWith_cons_cons, List.forall_mem_cons, BitVec.xor_eq_zero_iff, htail, List.cons.injEq]

variable {s : State}

theorem execCtVerify_of_badSlotKind {rs1 : Slot} {addr len : Word} (hkind : ∀ d, s.slot rs1 ≠ .digestVal d) :
    execCtVerify rs1 addr len s = trap (.ctVerify rs1 addr len) .badSlotKind s := by
  simp [execCtVerify, State.digestValIn_eq_none.2 hkind]

theorem execCtVerify_of_badAddress {rs1 : Slot} {addr len : Word} {d : DigestVal} (hd : s.slot rs1 = .digestVal d)
    (hout : s.cfg.memSize < addr.toNat + len.toNat) :
    execCtVerify rs1 addr len s = trap (.ctVerify rs1 addr len) .badAddress s := by
  simp only [execCtVerify, State.digestValIn_eq_some.2 hd, State.validRange_iff]
  exact if_pos hout.not_ge

/-- Inside `MEM` the command completes, with a code that says whether the bytes are the value; bytes of another length are not. -/
theorem execCtVerify_of_inside {rs1 : Slot} {addr len : Word} {d : DigestVal} (hd : s.slot rs1 = .digestVal d)
    (hlen : d.value.length = outputLen d.alg) (hin : addr.toNat + len.toNat ≤ s.cfg.memSize) :
    execCtVerify rs1 addr len s =
      .next (s.complete (if memReadBytes s.mem addr.toNat len.toNat = d.value then .ok else .unspecified)) := by
  simp only [execCtVerify, State.digestValIn_eq_some.2 hd, State.validRange_iff]
  refine (if_neg (not_not.2 hin)).trans ?_
  by_cases hl : len.toNat = outputLen d.alg
  · have heq : byteDifference d.value (s.bytesAt (wordRange addr len)) = 0#8 ↔
        memReadBytes s.mem addr.toNat len.toNat = d.value :=
      (byteDifference_eq_zero (by rw [State.bytesAt_length, hlen]; exact hl.symm)).trans eq_comm
    rw [if_neg (not_not.2 hl), ite_not]
    simp only [heq]
    split <;> rfl
  · have hne : memReadBytes s.mem addr.toNat len.toNat ≠ d.value := fun heq =>
      hl (by rw [← hlen, ← heq, memReadBytes_length])
    rw [if_pos hl, if_neg hne, failWith]

theorem execHmKey_of_badAddress {rd : Slot} {alg : AlgId} {addr len : Word} (hout : s.cfg.memSize < addr.toNat + len.toNat) :
    execHmKey rd alg addr len s = trap (.hmKey rd alg addr len) .badAddress s := by
  simp only [execHmKey, State.validRange_iff]
  exact if_pos hout.not_ge

theorem execHmKey_of_inside {rd : Slot} {alg : AlgId} {addr len : Word} (hin : addr.toNat + len.toNat ≤ s.cfg.memSize) :
    execHmKey rd alg addr len s =
      succeed (s.setSlot rd (.hmacKey (hmacKeyNew s.cfg.compress alg (memReadBytes s.mem addr.toNat len.toNat)))) := by
  simp only [execHmKey, State.validRange_iff]
  exact if_neg (not_not.2 hin)

theorem execHmInit_of_badSlotKind {rd rs1 : Slot} (hkind : ∀ k, s.slot rs1 ≠ .hmacKey k) :
    execHmInit rd rs1 s = trap (.hmInit rd rs1) .badSlotKind s := by
  simp [execHmInit, State.hmacKeyIn_eq_none.2 hkind]

theorem execHmInit_of_key {rd rs1 : Slot} {k : HmacKey} (hk : s.slot rs1 = .hmacKey k) :
    execHmInit rd rs1 s = succeed (s.setSlot rd (.hmacCtx (hmacCtxNew k))) := by
  simp [execHmInit, State.hmacKeyIn_eq_some.2 hk]

theorem execHmUpdate_of_badSlotKind {rd : Slot} {addr len : Word} (hkind : ∀ c, s.slot rd ≠ .hmacCtx c) :
    execHmUpdate rd addr len s = trap (.hmUpdate rd addr len) .badSlotKind s := by
  simp [execHmUpdate, State.hmacCtxIn_eq_none.2 hkind]

theorem execHmUpdate_of_badAddress {rd : Slot} {addr len : Word} {c : HmacCtx} (hc : s.slot rd = .hmacCtx c)
    (hout : s.cfg.memSize < addr.toNat + len.toNat) :
    execHmUpdate rd addr len s = trap (.hmUpdate rd addr len) .badAddress s := by
  simp only [execHmUpdate, State.hmacCtxIn_eq_some.2 hc, State.validRange_iff]
  exact if_pos hout.not_ge

theorem execHmUpdate_of_overflow {rd : Slot} {addr len : Word} {c : HmacCtx} (hc : s.slot rd = .hmacCtx c)
    (hin : addr.toNat + len.toNat ≤ s.cfg.memSize)
    (hover : 2 ^ 64 ≤ c.inner.block.nblocks.toNat + (c.inner.pending.length + len.toNat) / blockLen c.inner.block.alg) :
    execHmUpdate rd addr len s = trap (.hmUpdate rd addr len) .overflow s := by
  simp only [execHmUpdate, State.hmacCtxIn_eq_some.2 hc, State.validRange_iff, updateFits_iff]
  exact (if_neg (not_not.2 hin)).trans (if_pos hover.not_gt)

theorem execHmUpdate_of_fits {rd : Slot} {addr len : Word} {c : HmacCtx} (hc : s.slot rd = .hmacCtx c)
    (hin : addr.toNat + len.toNat ≤ s.cfg.memSize)
    (hfit : c.inner.block.nblocks.toNat + (c.inner.pending.length + len.toNat) / blockLen c.inner.block.alg < 2 ^ 64) :
    execHmUpdate rd addr len s =
      succeed (s.setSlot rd (.hmacCtx (hmacCtxUpdate s.cfg.compress c (memReadBytes s.mem addr.toNat len.toNat)))) := by
  simp only [execHmUpdate, State.hmacCtxIn_eq_some.2 hc, State.validRange_iff, updateFits_iff]
  exact (if_neg (not_not.2 hin)).trans (if_neg (not_not.2 hfit))

theorem execHmSign_of_badSlotKind {rd rs1 : Slot} (hkind : ∀ c, s.slot rs1 ≠ .hmacCtx c) :
    execHmSign rd rs1 s = trap (.hmSign rd rs1) .badSlotKind s := by
  simp [execHmSign, State.hmacCtxIn_eq_none.2 hkind]

theorem execHmSign_of_fault {rd rs1 : Slot} {c : HmacCtx} {f : FaultCode} (hc : s.slot rs1 = .hmacCtx c)
    (hf : hmacSignFault c = some f) : execHmSign rd rs1 s = trap (.hmSign rd rs1) f s := by
  simp [execHmSign, State.hmacCtxIn_eq_some.2 hc, hf]

theorem execHmSign_of_fits {rd rs1 : Slot} {c : HmacCtx} (hc : s.slot rs1 = .hmacCtx c) (hf : hmacSignFault c = none) :
    execHmSign rd rs1 s =
      succeed ((s.setSlot rs1 .empty).setSlot rd (.digestVal (hmacSign s.cfg.compress c))) := by
  simp [execHmSign, State.hmacCtxIn_eq_some.2 hc, hf]

end Sys2Proof.Machine
end

section
/-! HMAC and CT_VERIFY: the statements of 41_hmac.md. -/

namespace Sys2Proof.Machine

/-- Settles O30: at equal lengths the accumulated difference is 0 for equal bytes alone, and at other lengths no bytes are equal. -/
theorem ctVerifyComparesBytes : Obligations.CtVerifyComparesBytes := by
  intro s rs1 addr len
  refine ⟨rfl, execCtVerify_of_badSlotKind, fun d hd hlen => ⟨execCtVerify_of_badAddress hd, fun hin => ?_⟩⟩
  refine ⟨_, execCtVerify_of_inside hd hlen hin, fun heq => ?_, fun hne => ?_,
    changesOnly_complete (changesOnly_refl _ _ s) _, rfl, rfl⟩
  · rw [if_pos heq]; rfl
  · rw [if_neg hne]; rfl

/-- Settles O31: the two pads are one block each, fed to fresh block Contexts. -/
theorem hmKeyBuildsPads : Obligations.HmKeyBuildsPads := by
  intro s rd alg addr len
  refine ⟨rfl, execHmKey_of_badAddress, fun hin => ?_⟩
  intro src k0
  have hkey : 8 * (memReadBytes s.mem addr.toNat len.toNat).length < 2 ^ 64 := by
    have hword : len.toNat < 2 ^ 32 := len.isLt
    rw [memReadBytes_length]
    omega
  have hk0 : k0.length = blockLen alg := hmacBlockKey_length src alg hkey
  refine ⟨_, execHmKey_of_inside hin, hk0, ?_,
    changesOnly_complete (changesOnly_setSlot (changesOnly_refl _ _ s) List.mem_cons_self _) .ok, rfl, rfl, rfl⟩
  rw [State.complete_slot, State.slot_setSlot_same, hmacKeyNew_eq src alg hkey,
    blockUpdate_blockNew src ((List.length_map _).trans hk0), blockUpdate_blockNew src ((List.length_map _).trans hk0)]

/-- Settles O32: the command writes its destination alone, so a key elsewhere stays. -/
theorem hmInitStartsContext : Obligations.HmInitStartsContext := by
  intro s rd rs1
  refine ⟨rfl, execHmInit_of_badSlotKind, fun k hk => ?_⟩
  refine ⟨_, execHmInit_of_key hk, State.slot_setSlot_same s rd _, fun hne => ?_,
    changesOnly_complete (changesOnly_setSlot (changesOnly_refl _ _ s) List.mem_cons_self _) .ok, rfl, rfl, rfl⟩
  rw [State.complete_slot, State.slot_setSlot_other _ _ _ _ hne.symm, hk]

/-- Settles O33, by one equation of the command for each clause and the closed form of the update of the inner Context. -/
theorem hmUpdateFeedsInner : Obligations.HmUpdateFeedsInner := by
  intro s rd addr len
  refine ⟨rfl, execHmUpdate_of_badSlotKind, fun c hc hp => ?_⟩
  intro b data k
  have hk : k = (c.inner.pending.length + len.toNat) / blockLen b.alg := by
    simp only [k, data, List.length_append, memReadBytes_length]
  refine ⟨execHmUpdate_of_badAddress hc, fun hin hover => execHmUpdate_of_overflow hc hin (hk ▸ hover), fun hin hfit => ?_⟩
  refine ⟨_, _, execHmUpdate_of_fits hc hin (hk ▸ hfit), State.slot_setSlot_same s rd _, ?_⟩
  rw [hmacCtxUpdate, ctxUpdate_eq _ _ hp]
  have hle : k * blockLen b.alg ≤ data.length := Nat.div_mul_le_self _ _
  exact ⟨rfl, rfl, rfl, (compressBlocks_take _ _ k _ _ data le_rfl hle).symm, blockUpdate_nblocks_toNat _ hfit, rfl,
    changesOnly_complete (changesOnly_setSlot (changesOnly_refl _ _ s) List.mem_cons_self _) .ok, rfl, rfl, rfl⟩

/-- Settles O34: under the object invariant the inner finish alone can overflow, and both finishes have the form of R140. -/
theorem hmSignGivesTag : Obligations.HmSignGivesTag := by
  intro s rd rs1
  refine ⟨rfl, execHmSign_of_badSlotKind, fun c hc hok => ?_⟩
  intro src b bits
  obtain ⟨halg, -, -⟩ := objOk_hmacCtx_iff.1 hok
  have hbits : finishBits c.inner.block c.inner.pending.length = bits := by rw [finishBits, halg]
  refine ⟨fun hover => execHmSign_of_fault hc (hmacSignFault_overflow hok (hbits ▸ hover)), fun hfit => ?_⟩
  refine ⟨_, execHmSign_of_fits hc (hmacSignFault_none hok (hbits ▸ hfit)), ?_, fun hne => ?_, ?_, rfl, rfl, rfl⟩
  · rw [State.complete_slot, State.slot_setSlot_same, hmacSign_eq src hok, hbits]
  · rw [State.complete_slot, State.slot_setSlot_other _ _ _ _ hne.symm, State.slot_setSlot_same]
  · have hempty : changesOnly [rd, rs1] noRange s (s.setSlot rs1 .empty) :=
      changesOnly_setSlot (changesOnly_refl _ _ s) (by simp) _
    exact changesOnly_complete (changesOnly_setSlot hempty (by simp) _) .ok

/-- Settles O55: the two pad blocks are compressed before any data, and any sequence of updates is one. -/
theorem hmacIsRfc2104 : Obligations.HmacIsRfc2104 := by
  intro src alg key chunks hkey hbits
  have hk0 := hmacBlockKey_length src alg hkey
  rw [hmacKeyNew_eq src alg hkey,
    hmacSign_of_padBlocks src ((List.length_map _).trans hk0) ((List.length_map _).trans hk0) hbits, hmacOf]

end Sys2Proof.Machine
end

section
/-! SUPPORT. The chunk table of HK_EXPAND (42_hkdf.md R193): little-endian numbers, byte by byte. -/

namespace Sys2Proof.Machine

theorem leToNat_lt (bs : List Byte) : leToNat bs < 256 ^ bs.length := by
  induction bs with
  | nil => exact Nat.one_pos
  | cons b bs ih =>
    have hb : b.toNat < 256 := b.isLt
    rw [leToNat, List.length_cons, pow_succ]
    omega

theorem leToNat_memReadBytes_four (m : Memory) (a : Nat) :
    leToNat (memReadBytes m a 4) =
      (memRead m a).toNat + 2 ^ 8 * (memRead m (a + 1)).toNat + 2 ^ 16 * (memRead m (a + 2)).toNat +
        2 ^ 24 * (memRead m (a + 3)).toNat := by
  have hbytes : memReadBytes m a 4 = [memRead m a, memRead m (a + 1), memRead m (a + 2), memRead m (a + 3)] := rfl
  rw [hbytes]
  simp only [leToNat]
  omega

theorem leToNat_memReadBytes_four_lt (m : Memory) (a : Nat) : leToNat (memReadBytes m a 4) < 2 ^ 32 :=
  (leToNat_lt _).trans_eq (by rw [memReadBytes_length]; decide)

end Sys2Proof.Machine
end

section
/-! SUPPORT. HKDF expansion in closed form (42_hkdf.md R192 to R195): a round is one HMAC over the previous output, the chunks and
the counter, and the loop gives the first bytes of the rounds' outputs put together. -/

namespace Sys2Proof.Machine

/-! ## One round -/

/-- What round `n` feeds to the HMAC, in order: the previous output from the second round on, the chunks, the counter byte. -/
def hkdfFeeds (chunks : List (List Byte)) (n : Nat) (prev : List Byte) : List (List Byte) :=
  (if 1 < n then [prev] else []) ++ chunks ++ [[BitVec.ofNat 8 n]]

theorem hkdfRound_eq (src : CompressSource) (prk : HmacKey) (chunks : List (List Byte)) (n : Nat) (prev : List Byte) :
    hkdfRound src prk chunks n prev =
      (hmacSign src ((hkdfFeeds chunks n prev).foldl (hmacCtxUpdate src) (hmacCtxNew prk))).value := by
  rw [hkdfRound, hkdfFeeds]
  split <;> simp only [List.nil_append, List.cons_append, List.foldl_cons, List.foldl_append, List.foldl_nil]

theorem objOk_hmacKey_iff {cfg : Config} {k : HmacKey} :
    objOk cfg (.hmacKey k) = true ↔ padBlockOk k.alg k.inner = true ∧ padBlockOk k.alg k.outer = true := by
  simp [objOk]

theorem hkdfRound_length (src : CompressSource) {prk : HmacKey} (hprk : padBlockOk prk.alg prk.outer = true)
    (chunks : List (List Byte)) (n : Nat) (prev : List Byte) :
    (hkdfRound src prk chunks n prev).length = outputLen prk.alg := by
  obtain ⟨halg, hfits, -⟩ := padBlockOk_iff.1 hprk
  rw [hkdfRound_eq, foldl_hmacCtxUpdate]
  exact halg ▸ blockFinish_length src prk.outer _ (halg ▸ hfits)

/-! ## The loop -/

/-- The output of round `n` after all earlier rounds; before the first it is empty. -/
def hkdfOutput (src : CompressSource) (prk : HmacKey) (chunks : List (List Byte)) : Nat → List Byte
  | 0 => []
  | n + 1 => hkdfRound src prk chunks (n + 1) (hkdfOutput src prk chunks n)

theorem hkdfOutput_succ_length (src : CompressSource) {prk : HmacKey} (hprk : padBlockOk prk.alg prk.outer = true)
    (chunks : List (List Byte)) (n : Nat) : (hkdfOutput src prk chunks (n + 1)).length = outputLen prk.alg :=
  hkdfRound_length src hprk chunks _ _

/-- After `n` rounds the loop appends the outputs of the next ones, up to `L` bytes, when the rounds left are enough. -/
theorem hkdfLoop_eq_take (src : CompressSource) {prk : HmacKey} (hprk : padBlockOk prk.alg prk.outer = true)
    (chunks : List (List Byte)) {bigL fuel n : Nat} {out : List Byte} (hout : out.length ≤ bigL)
    (hfuel : bigL ≤ out.length + fuel * outputLen prk.alg) :
    hkdfLoop src prk chunks bigL fuel (n + 1) (hkdfOutput src prk chunks n) out =
      (out ++ (List.range' (n + 1) fuel).flatMap (hkdfOutput src prk chunks)).take bigL := by
  induction fuel generalizing n out with
  | zero =>
    have hfull : out.length = bigL := by omega
    rw [hkdfLoop, ← hfull, List.take_left]
  | succ fuel ih =>
    have hlen := hkdfOutput_succ_length src hprk chunks n
    have hround : out ++ (hkdfOutput src prk chunks (n + 1)).take (min (bigL - out.length) (outputLen prk.alg)) =
        (out ++ hkdfOutput src prk chunks (n + 1)).take bigL := by
      rw [List.take_append, List.take_of_length_le hout, ← List.take_take, List.take_of_length_le hlen.le]
    rw [hkdfLoop, ← hkdfOutput, hround, List.range'_succ, List.flatMap_cons, ← List.append_assoc, List.length_take]
    rcases le_or_gt bigL (out ++ hkdfOutput src prk chunks (n + 1)).length with hfull | hmore
    · rw [if_pos (min_eq_left hfull), List.take_append_of_le_length hfull]
    · rw [if_neg (mt min_eq_left_iff.1 hmore.not_ge), List.take_of_length_le hmore.le]
      refine ih hmore.le ?_
      rw [List.length_append, hlen, Nat.add_assoc, Nat.add_comm (outputLen _), ← Nat.succ_mul]
      exact hfuel

/-- `HkdfFill` gives the first `L` bytes of the 255 rounds' outputs (R192, R194). -/
theorem hkdfFill_eq_take (src : CompressSource) {prk : HmacKey} (hprk : padBlockOk prk.alg prk.outer = true)
    (chunks : List (List Byte)) {bigL : Nat} (hL : bigL ≤ 255 * outputLen prk.alg) :
    hkdfFill src prk chunks bigL =
      ((List.range 255).flatMap fun j => hkdfOutput src prk chunks (j + 1)).take bigL := by
  have hrange : List.range' 1 255 = (List.range 255).map (· + 1) := by
    simp only [List.range'_eq_map_range, Nat.add_comm]
  have hloop := hkdfLoop_eq_take src hprk chunks (n := 0) (out := []) (Nat.zero_le bigL) (by simpa using hL)
  rw [List.nil_append, Nat.zero_add, hrange, List.flatMap_map] at hloop
  exact hloop

/-- The 255 rounds give `255 * output_len` bytes, so the fill is as long as asked for. -/
theorem hkdfFill_length (src : CompressSource) {prk : HmacKey} (hprk : padBlockOk prk.alg prk.outer = true)
    (chunks : List (List Byte)) {bigL : Nat} (hL : bigL ≤ 255 * outputLen prk.alg) :
    (hkdfFill src prk chunks bigL).length = bigL := by
  have hstream : ((List.range 255).flatMap fun j => hkdfOutput src prk chunks (j + 1)).length = 255 * outputLen prk.alg := by
    simp only [List.length_flatMap, hkdfOutput_succ_length src hprk, List.map_const', List.sum_replicate, List.length_range,
      smul_eq_mul]
  rw [hkdfFill_eq_take src hprk chunks hL, List.length_take_of_le (hstream ▸ hL)]

/-! ## A key made from bytes (R195) -/

theorem padBlockOk_outer_hmacKeyNew (src : CompressSource) (alg : AlgId) (key : List Byte) :
    padBlockOk alg (hmacKeyNew src alg key).outer = true :=
  padBlockOk_blockUpdate src alg _ (by simp [hmacPaddedKey_length])

theorem hkdfT_length_le (src : CompressSource) (alg : AlgId) (key info : List Byte) (n : Nat) :
    (hkdfT src alg key info n).length ≤ outputLen alg := by
  cases n with
  | zero => exact Nat.zero_le _
  | succ n => exact (hashOf_length src alg _).le

/-- The rounds' outputs are RFC 5869's `T(1), T(2), ...`, however the info is cut into chunks. -/
theorem hkdfOutput_hmacKeyNew (src : CompressSource) (alg : AlgId) {key : List Byte} {chunks : List (List Byte)}
    (hkey : 8 * key.length < 2 ^ 64) (hbits : 8 * (blockLen alg + outputLen alg + chunks.flatten.length + 1) < 2 ^ 64)
    (n : Nat) : hkdfOutput src (hmacKeyNew src alg key) chunks n = hkdfT src alg key chunks.flatten n := by
  induction n with
  | zero => rfl
  | succ n ih =>
    have hfeeds : (hkdfFeeds chunks (n + 1) (hkdfT src alg key chunks.flatten n)).flatten =
        hkdfT src alg key chunks.flatten n ++ chunks.flatten ++ [BitVec.ofNat 8 (n + 1)] := by
      cases n <;> simp [hkdfFeeds, hkdfT]
    have hprev := hkdfT_length_le src alg key chunks.flatten n
    rw [hkdfOutput, ih, hkdfRound_eq, hmacIsRfc2104 src alg key _ hkey, hfeeds, hkdfT]
    rw [hfeeds]
    simp only [List.length_append, List.length_singleton]
    omega

end Sys2Proof.Machine
end

section
/-! SUPPORT. One equation for each end of HK_EXPAND (42_hkdf.md R196). -/

namespace Sys2Proof.Machine

/-- Every range HK_EXPAND checks: the table, the output, the chunks. -/
def expandRanges (s : State) (tab n out outLen : Word) : List MemRange :=
  tableRange tab n :: wordRange out outLen :: s.chunkRanges tab n

theorem expandOverlaps_eq_false_iff {out table : MemRange} {chunks : List MemRange} :
    expandOverlaps out table chunks = false ↔
      ∀ g ∈ table :: chunks, ¬ ∃ a, (out.addr ≤ a ∧ a < out.addr + out.len) ∧ g.addr ≤ a ∧ a < g.addr + g.len := by
  simp only [expandOverlaps, ← List.any_cons, List.any_eq_false, rangesOverlap_iff]

theorem expandFits_iff {alg : AlgId} {chunks : List MemRange} {bigL : Nat} :
    expandFits alg chunks bigL = true ↔
      (blockLen alg + (if outputLen alg < bigL then outputLen alg else 0) + (chunks.map (·.len)).sum + 1) * 8 < 2 ^ 64 := by
  rw [expandFits, decide_eq_true_iff]

section
variable {s : State} {rs1 : Slot} {tab n out outLen bigL : Word}

theorem expandRanges_inside_iff :
    (∀ g ∈ expandRanges s tab n out outLen, g.addr + g.len ≤ s.cfg.memSize) ↔
      s.validRange (tableRange tab n) = true ∧ s.validRange (wordRange out outLen) = true ∧
        (s.chunkRanges tab n).all s.validRange = true := by
  simp only [expandRanges, List.forall_mem_cons, List.all_eq_true, State.validRange_iff]

theorem execHkExpand_of_badSlotKind (hkind : ∀ k, s.slot rs1 ≠ .hmacKey k) :
    execHkExpand rs1 tab n out outLen bigL s = trap (.hkExpand rs1 tab n out outLen bigL) .badSlotKind s := by
  simp [execHkExpand, State.hmacKeyIn_eq_none.2 hkind]

variable {k : HmacKey} (hk : s.slot rs1 = .hmacKey k)
include hk

theorem execHkExpand_of_badAddress
    (hout : ¬ ∀ g ∈ expandRanges s tab n out outLen, g.addr + g.len ≤ s.cfg.memSize) :
    execHkExpand rs1 tab n out outLen bigL s = trap (.hkExpand rs1 tab n out outLen bigL) .badAddress s := by
  rw [expandRanges_inside_iff, not_and_or, not_and_or] at hout
  simp only [execHkExpand, State.hmacKeyIn_eq_some.2 hk]
  rcases hout with htable | houtput | hchunks
  · rw [if_pos htable]
  · rw [if_pos houtput, ite_self]
  · rw [if_pos hchunks, ite_self, ite_self]

variable (hin : ∀ g ∈ expandRanges s tab n out outLen, g.addr + g.len ≤ s.cfg.memSize)
include hin

/-- With every range inside `MEM`, the checks that are left. -/
theorem execHkExpand_of_inside :
    execHkExpand rs1 tab n out outLen bigL s =
      if expandOverlaps (wordRange out outLen) (tableRange tab n) (s.chunkRanges tab n) then
        trap (.hkExpand rs1 tab n out outLen bigL) .overlap s
      else if ¬ expandFits k.alg (s.chunkRanges tab n) bigL.toNat then
        trap (.hkExpand rs1 tab n out outLen bigL) .overflow s
      else if outLen ≠ bigL then failWith .unspecified s
      else if 255 * outputLen k.alg < bigL.toNat then failWith .unspecified s
      else succeed (s.store out.toNat
        (hkdfFill s.cfg.compress k ((s.chunkRanges tab n).map s.bytesAt) bigL.toNat)) := by
  obtain ⟨htable, houtput, hchunks⟩ := expandRanges_inside_iff.1 hin
  simp only [execHkExpand, State.hmacKeyIn_eq_some.2 hk]
  rw [if_neg (not_not.2 htable), if_neg (not_not.2 houtput), if_neg (not_not.2 hchunks)]

theorem execHkExpand_of_overlap
    (hover : ¬ expandOverlaps (wordRange out outLen) (tableRange tab n) (s.chunkRanges tab n) = false) :
    execHkExpand rs1 tab n out outLen bigL s = trap (.hkExpand rs1 tab n out outLen bigL) .overlap s := by
  rw [execHkExpand_of_inside hk hin, if_pos (Bool.not_eq_false _ ▸ hover)]

variable (hapart : expandOverlaps (wordRange out outLen) (tableRange tab n) (s.chunkRanges tab n) = false)
include hapart

theorem execHkExpand_of_overflow (hfits : ¬ expandFits k.alg (s.chunkRanges tab n) bigL.toNat = true) :
    execHkExpand rs1 tab n out outLen bigL s = trap (.hkExpand rs1 tab n out outLen bigL) .overflow s := by
  rw [execHkExpand_of_inside hk hin, hapart, if_neg Bool.false_ne_true, if_pos hfits]

variable (hfits : expandFits k.alg (s.chunkRanges tab n) bigL.toNat = true)
include hfits

theorem execHkExpand_of_unspecified (hlen : outLen ≠ bigL ∨ 255 * outputLen k.alg < bigL.toNat) :
    execHkExpand rs1 tab n out outLen bigL s = failWith .unspecified s := by
  rw [execHkExpand_of_inside hk hin, hapart, if_neg Bool.false_ne_true, if_neg (not_not.2 hfits)]
  rcases hlen with hne | hlong
  · rw [if_pos hne]
  · rw [if_pos hlong, ite_self]

theorem execHkExpand_of_fits (heq : outLen = bigL) (hle : bigL.toNat ≤ 255 * outputLen k.alg) :
    execHkExpand rs1 tab n out outLen bigL s =
      succeed (s.store out.toNat
        (hkdfFill s.cfg.compress k ((s.chunkRanges tab n).map s.bytesAt) bigL.toNat)) := by
  rw [execHkExpand_of_inside hk hin, hapart, if_neg Bool.false_ne_true, if_neg (not_not.2 hfits), if_neg (not_not.2 heq),
    if_neg hle.not_gt]

end

end Sys2Proof.Machine
end

section
/-! HKDF expansion: the statements of 42_hkdf.md. -/

namespace Sys2Proof.Machine

/-- Settles O36: a little-endian number of four bytes is their sum by weight, and below `256 ^ 4`. -/
theorem chunkTableEntry : Obligations.ChunkTableEntry := by
  intro s tab j
  refine ⟨?_, leToNat_memReadBytes_four_lt _ _, leToNat_memReadBytes_four_lt _ _⟩
  rw [State.chunkEntry, leToNat_memReadBytes_four, leToNat_memReadBytes_four]
  rfl

/-- Settles O35: one equation of the command for each clause; the fill is as long as the output range, so it reads back whole. -/
theorem hkExpandFillsOutput : Obligations.HkExpandFillsOutput := by
  intro s rs1 tab n out outLen bigL hwf
  refine ⟨rfl, execHkExpand_of_badSlotKind, fun k hk hok => ?_⟩
  intro o fits inMem apart
  have hapartIff : expandOverlaps (wordRange out outLen) (tableRange tab n) (s.chunkRanges tab n) = false ↔ apart :=
    expandOverlaps_eq_false_iff
  have hfitsIff : expandFits k.alg (s.chunkRanges tab n) bigL.toNat = true ↔ fits := expandFits_iff
  rw [← hapartIff, ← hfitsIff]
  refine ⟨execHkExpand_of_badAddress hk, execHkExpand_of_overlap hk, execHkExpand_of_overflow hk,
    execHkExpand_of_unspecified hk, fun hin hapart hfits heq hle => ?_⟩
  obtain ⟨-, hprk⟩ := objOk_hmacKey_iff.1 hok
  have hlen := hkdfFill_length s.cfg.compress hprk ((s.chunkRanges tab n).map s.bytesAt) hle
  refine ⟨_, execHkExpand_of_fits hk hin hapart hfits heq hle, ?_, ?_, rfl, rfl, rfl⟩
  · have hread := memReadBytes_memWriteBytes hwf out.toNat
      (hkdfFill s.cfg.compress k ((s.chunkRanges tab n).map s.bytesAt) bigL.toNat)
    rw [hlen] at hread
    exact hread
  · exact changesOnly_complete (changesOnly_store (changesOnly_refl _ _ s) le_rfl (by rw [hlen, heq])) .ok

/-- Settles O56: each round is an HMAC over `T(n-1)`, the info and the counter, and the loop takes the first `L` bytes. -/
theorem hkdfIsRfc5869Expand : Obligations.HkdfIsRfc5869Expand := by
  intro src alg key chunks bigL hkey hbits hL
  rw [hkdfFill_eq_take src (padBlockOk_outer_hmacKeyNew src alg key) chunks hL, hkdfStream]
  simp only [hkdfOutput_hmacKeyNew src alg hkey hbits]

end Sys2Proof.Machine
end

section
/-! SUPPORT. Big integers as numbers (43_limb.md R210 to R223): their limbs, their bytes, the position of their top bit and
their base-32 digits. -/

namespace Sys2Proof.Machine

/-! ## The limb width -/

theorem State.limbBits_eq (s : State) : s.limbBits = 8 * s.limbBytes := by
  rw [State.limbBits, State.limbBytes]
  cases s.cfg.limbWidth <;> rfl

theorem State.limbBytes_pos (s : State) : 0 < s.limbBytes := by
  rw [State.limbBytes]
  cases s.cfg.limbWidth <;> decide

theorem State.le_limbBits (s : State) : 32 ≤ s.limbBits := by
  rw [State.limbBits]
  cases s.cfg.limbWidth <;> decide

theorem State.limbBits_pos (s : State) : 0 < s.limbBits := Nat.zero_lt_of_lt s.le_limbBits

theorem State.limbBits_le (s : State) : s.limbBits ≤ 64 := by
  rw [State.limbBits]
  cases s.cfg.limbWidth <;> decide

theorem State.limbBits_eq_32_iff {s : State} : s.limbBits = 32 ↔ s.cfg.limbWidth = .w32 := by
  rw [State.limbBits]
  cases s.cfg.limbWidth <;> decide

theorem State.two_pow_limbBits (s : State) : 2 ^ s.limbBits = 256 ^ s.limbBytes := by
  rw [s.limbBits_eq, pow_mul]
  rfl

/-- A scalar that passes the check of R219 is one limb. -/
theorem scalarOfWords_lt {s : State} {lo hi : Word} (h : s.limbBits = 64 ∨ hi = 0#32) :
    scalarOfWords lo hi < 2 ^ s.limbBits := by
  have hlo : lo.toNat < 2 ^ 32 := lo.isLt
  rw [scalarOfWords]
  rcases h with h64 | rfl
  · have hhi : hi.toNat < 2 ^ 32 := hi.isLt
    rw [h64]
    omega
  · rw [BitVec.toNat_ofNat, Nat.zero_mod, Nat.zero_mul, Nat.add_zero]
    exact hlo.trans_le (Nat.pow_le_pow_right (by decide) s.le_limbBits)

theorem limbMask_toNat (w : LimbWidth) (b : Bool) : (limbMask w b).toNat = if b then 2 ^ w.bits - 1 else 0 := by
  cases w <;> cases b <;> rfl

/-! ## Limbs and the number they stand for (R210) -/

section
variable {w : Nat} {ls : List Nat}

theorem limbsValue_limbsOfNat_of_lt {n v : Nat} (h : v < 2 ^ (w * n)) : limbsValue w (limbsOfNat w n v) = v := by
  rw [limbsValue_limbsOfNat, Nat.mod_eq_of_lt h]

/-- The least significant limb is the low `w` bits of the number, the others are the rest. -/
theorem limbsValue_cons_mod {l : Nat} (hl : l < 2 ^ w) : limbsValue w (l :: ls) % 2 ^ w = l := by
  rw [limbsValue, Nat.add_mul_mod_self_left, Nat.mod_eq_of_lt hl]

theorem limbsValue_cons_div {l : Nat} (hl : l < 2 ^ w) : limbsValue w (l :: ls) / 2 ^ w = limbsValue w ls := by
  rw [limbsValue, Nat.add_mul_div_left _ _ (Nat.two_pow_pos w), Nat.div_eq_of_lt hl, Nat.zero_add]

/-- Big integers of one length are equal as numbers exactly when they are equal limb by limb (R215). -/
theorem limbsValue_eq_iff {xs ys : List Nat} (hx : ∀ l ∈ xs, l < 2 ^ w) (hy : ∀ l ∈ ys, l < 2 ^ w)
    (hlen : xs.length = ys.length) : limbsValue w xs = limbsValue w ys ↔ xs = ys := by
  refine ⟨fun h => ?_, congrArg _⟩
  rw [← limbsOfNat_limbsValue w xs hx, h, hlen, limbsOfNat_limbsValue w ys hy]

theorem limbsValue_eq_zero_iff : limbsValue w ls = 0 ↔ ∀ l ∈ ls, l = 0 := by
  induction ls with
  | nil => simp [limbsValue]
  | cons l ls ih => simp [limbsValue, ih]

/-- The parity of a big integer is that of its least significant limb (R218). -/
theorem limbsValue_mod_two (hw : 0 < w) : limbsValue w ls % 2 = ls.headD 0 % 2 := by
  cases ls with
  | nil => rfl
  | cons l ls =>
    have heven : 2 ∣ 2 ^ w * limbsValue w ls := (dvd_pow_self 2 hw.ne').mul_right _
    rw [limbsValue, List.headD_cons]
    omega

/-- A big integer is a number of one limb exactly when that is its least significant limb and the others are 0 (R219). -/
theorem limbsValue_eq_limb_iff {b : Nat} (hls : ∀ l ∈ ls, l < 2 ^ w) (hb : b < 2 ^ w) :
    limbsValue w ls = b ↔ ls.headD 0 = b ∧ ∀ l ∈ ls.tail, l = 0 := by
  cases ls with
  | nil => simp [limbsValue]
  | cons l ls =>
    have hl : l < 2 ^ w := hls l List.mem_cons_self
    rw [List.headD_cons, List.tail_cons, ← limbsValue_eq_zero_iff (w := w)]
    constructor
    · rintro rfl
      have hlow := limbsValue_cons_mod (ls := ls) hl
      have hupper := limbsValue_cons_div (ls := ls) hl
      rw [Nat.mod_eq_of_lt hb] at hlow
      rw [Nat.div_eq_of_lt hb] at hupper
      exact ⟨hlow.symm, hupper.symm⟩
    · rintro ⟨rfl, hupper⟩
      rw [limbsValue, hupper, Nat.mul_zero, Nat.add_zero]

theorem reduceOnce_le (r m : Nat) : reduceOnce r m ≤ r := by
  rw [reduceOnce]
  split <;> omega

/-! ## Big-endian bytes (R212 to R214) -/

theorem memReadBytes_memWriteBytes_of_length {m : Memory} (h : Memory.wf m) (a : Nat) {bs : List Byte} {n : Nat}
    (hn : bs.length = n) : memReadBytes (memWriteBytes m a bs) a n = bs := hn ▸ memReadBytes_memWriteBytes h a bs

/-- A byte string of no more bytes than the limbs have is read in whole. -/
theorem limbsValue_parse {s : State} {n : Nat} {bs : List Byte} (h : bs.length ≤ n * s.limbBytes) :
    limbsValue s.limbBits (limbsOfNat s.limbBits n (beToNat bs)) = beToNat bs := by
  refine limbsValue_limbsOfNat_of_lt ?_
  rw [pow_mul, s.two_pow_limbBits, ← pow_mul, Nat.mul_comm _ n]
  exact (beToNat_lt bs).trans_le (Nat.pow_le_pow_right (by decide) h)

/-- The bytes of a number in two parts. -/
theorem beBytes_add (m n v : Nat) : beBytes (m + n) v = beBytes m (v / 256 ^ n) ++ beBytes n v := by
  induction n generalizing v with
  | zero => simp [beBytes]
  | succ n ih =>
    rw [← Nat.add_assoc, beBytes, ih, beBytes, List.append_assoc, Nat.div_div_eq_div_mul, pow_succ']

theorem beBytes_mod (n v : Nat) : beBytes n (v % 256 ^ n) = beBytes n v := by
  have h := beBytes_beToNat (beBytes n v)
  rwa [beBytes_length, beToNat_beBytes] at h

/-- The bytes of a big integer are those of its limbs, from the most significant down (R213). -/
theorem beBytes_limbsValue {k : Nat} (hw : 2 ^ w = 256 ^ k) (hls : ∀ l ∈ ls, l < 2 ^ w) :
    beBytes (ls.length * k) (limbsValue w ls) = ls.reverse.flatMap (beBytes k) := by
  induction ls with
  | nil => simp [beBytes]
  | cons l ls ih =>
    obtain ⟨hl, hls⟩ := List.forall_mem_cons.1 hls
    rw [List.length_cons, Nat.succ_mul, beBytes_add, ← beBytes_mod k (limbsValue w (l :: ls)), ← hw,
      limbsValue_cons_div hl, limbsValue_cons_mod hl, ih hls, List.reverse_cons, List.flatMap_append, List.flatMap_singleton]

/-- A byte string written back in more bytes is padded with zeros on the left (R214). -/
theorem beBytes_beToNat_of_le {n : Nat} {bs : List Byte} (h : bs.length ≤ n) :
    beBytes n (beToNat bs) = List.replicate (n - bs.length) 0x00#8 ++ bs := by
  have hzero : beToNat (zeros (n - bs.length)) = 0 := by
    rw [zeros]
    induction n - bs.length with
    | zero => rfl
    | succ k ih => rw [List.replicate_succ', beToNat_snoc, ih]; rfl
  have hpadded := beBytes_beToNat (zeros (n - bs.length) ++ bs)
  rwa [List.length_append, zeros_length, Nat.sub_add_cancel h, beToNat_append, hzero, Nat.mul_zero, Nat.zero_add] at hpadded

/-! ## The top set bit (R221) -/

theorem minimalBits_le_iff {v n : Nat} : minimalBits v ≤ n ↔ v < 2 ^ n := by
  rw [minimalBits]
  split
  case isTrue h => simp [h]
  case isFalse h => rw [← Nat.log2_lt h]; omega

/-- A limb above which all are 0 bounds the big integer from both sides. -/
theorem limbsValue_bounds {j k : Nat} (hls : ∀ l ∈ ls, l < 2 ^ w) (hlo : 2 ^ k ≤ ls.getD j 0)
    (hhi : ls.getD j 0 < 2 ^ (k + 1)) (hzero : ∀ j' > j, ls.getD j' 0 = 0) :
    2 ^ (w * j + k) ≤ limbsValue w ls ∧ limbsValue w ls < 2 ^ (w * j + (k + 1)) := by
  induction ls generalizing j with
  | nil => exact absurd hlo (Nat.two_pow_pos k).not_ge
  | cons l ls ih =>
    obtain ⟨hl, hls⟩ := List.forall_mem_cons.1 hls
    cases j with
    | zero =>
      have hupper : limbsValue w ls = 0 := limbsValue_eq_zero_iff.2 fun x hx => by
        obtain ⟨i, hi, rfl⟩ := List.getElem_of_mem hx
        rw [← List.getD_eq_getElem _ 0 hi]
        exact hzero (i + 1) (Nat.succ_pos i)
      rw [limbsValue, hupper, Nat.mul_zero, Nat.add_zero, Nat.mul_zero, Nat.zero_add, Nat.zero_add]
      exact ⟨hlo, hhi⟩
    | succ j =>
      obtain ⟨hge, hlt⟩ := ih hls hlo hhi fun j' hj' => hzero (j' + 1) (Nat.succ_lt_succ hj')
      have hshift (e : Nat) : 2 ^ (w * (j + 1) + e) = 2 ^ (w * j + e) * 2 ^ w := by
        rw [← pow_add, Nat.mul_succ, Nat.add_right_comm]
      rw [← limbsValue_cons_div hl] at hge hlt
      rw [hshift, hshift]
      exact ⟨(Nat.le_div_iff_mul_le (Nat.two_pow_pos w)).1 hge, (Nat.div_lt_iff_lt_mul (Nat.two_pow_pos w)).1 hlt⟩

/-- A set bit above which none is set bounds the limb from both sides. -/
theorem topBit_bounds {x k : Nat} (hset : x.testBit k = true) (hclear : ∀ k' > k, x.testBit k' = false) :
    2 ^ k ≤ x ∧ x < 2 ^ (k + 1) :=
  ⟨Nat.ge_two_pow_of_testBit hset, Nat.lt_pow_two_of_testBit x fun i hi => hclear i hi⟩

theorem minimalBits_limbsValue {j k : Nat} (hls : ∀ l ∈ ls, l < 2 ^ w) (hset : (ls.getD j 0).testBit k = true)
    (hclear : ∀ k' > k, (ls.getD j 0).testBit k' = false) (hzero : ∀ j' > j, ls.getD j' 0 = 0) :
    minimalBits (limbsValue w ls) = w * j + (k + 1) := by
  obtain ⟨hlo, hhi⟩ := topBit_bounds hset hclear
  obtain ⟨hge, hlt⟩ := limbsValue_bounds hls hlo hhi hzero
  have hmore : ¬ minimalBits (limbsValue w ls) ≤ w * j + k := fun h => (minimalBits_le_iff.1 h).not_ge hge
  have hle := minimalBits_le_iff.2 hlt
  omega

/-! ## The base-32 digits (R222, R223) -/

/-- The low `n` base-32 digits of a number, the most significant first, one byte each. -/
def base32Digits (n v : Nat) : List Byte :=
  (List.range n).map fun j => BitVec.ofNat 8 (v / 2 ^ (5 * (n - 1 - j)) % 32)

theorem windows5_eq (w : Nat) (ls : List Nat) : windows5 w ls = base32Digits (numWindows w ls.length) (limbsValue w ls) := rfl

theorem base32Digits_succ (n v : Nat) : base32Digits (n + 1) v = base32Digits n (v / 32) ++ [BitVec.ofNat 8 (v % 32)] := by
  rw [base32Digits, base32Digits, List.range_succ, List.map_append, List.map_singleton]
  congr 1
  · refine List.map_congr_left fun j hj => ?_
    have hexp : 5 * (n + 1 - 1 - j) = 5 + 5 * (n - 1 - j) := by
      have := List.mem_range.1 hj
      omega
    rw [hexp, pow_add, ← Nat.div_div_eq_div_mul]
    rfl
  · simp

theorem digit_toNat (v : Nat) : (BitVec.ofNat 8 (v % 32)).toNat = v % 32 := by
  rw [BitVec.toNat_ofNat]
  omega

theorem toNat_lt_of_mem_base32Digits {n v : Nat} {d : Byte} (hd : d ∈ base32Digits n v) : d.toNat < 32 := by
  obtain ⟨j, -, rfl⟩ := List.mem_map.1 hd
  rw [digit_toNat]
  exact Nat.mod_lt _ (by decide)

theorem foldl_base32Digits (n v : Nat) :
    (base32Digits n v).foldl (fun acc d => 32 * acc + d.toNat) 0 = v % 32 ^ n := by
  induction n generalizing v with
  | zero => simp [base32Digits, Nat.mod_one]
  | succ n ih =>
    rw [base32Digits_succ, List.foldl_append, ih, List.foldl_cons, List.foldl_nil, digit_toNat, pow_succ', Nat.mod_mul,
      Nat.add_comm]

/-- The windows are all digits of the number. -/
theorem foldl_windows5 (hls : ∀ l ∈ ls, l < 2 ^ w) :
    (windows5 w ls).foldl (fun acc d => 32 * acc + d.toNat) 0 = limbsValue w ls := by
  have hbits : w * ls.length ≤ 5 * numWindows w ls.length := by
    rw [Nat.mul_comm w]
    exact (ceilDiv_le_iff (by decide)).1 le_rfl
  rw [windows5_eq, foldl_base32Digits, Nat.mod_eq_of_lt]
  calc limbsValue w ls < 2 ^ (w * ls.length) := limbsValue_lt w ls hls
    _ ≤ 2 ^ (5 * numWindows w ls.length) := Nat.pow_le_pow_right (by decide) hbits
    _ = 32 ^ numWindows w ls.length := pow_mul 2 5 _

end

end Sys2Proof.Machine
end

section
/-! SUPPORT. One equation for each end of the limb commands (43_limb.md R212 to R223). -/

namespace Sys2Proof.Machine

variable {s : State}

theorem trap_ne_next_of_fault_eq_zero {i : Instr} {c : FaultCode} {t : State} (hf : t.fault = 0#8) :
    trap i c s ≠ .next t := fun h => faultByte_ne_zero c (by rw [← hf, trap_eq_next.1 h, raiseFault_fault])

/-! ## LB_PARSE and LB_FORMAT (R212, R213) -/

section
variable {rd : Slot} {addr len n : Word}

theorem execLbParse_of_badLength (hmax : s.cfg.maxLimbs < n.toNat) :
    execLbParse rd addr len n s = trap (.lbParse rd addr len n) .badLength s := by
  rw [execLbParse, if_pos hmax]

theorem execLbParse_of_badAddress (hmax : n.toNat ≤ s.cfg.maxLimbs) (hout : s.cfg.memSize < addr.toNat + len.toNat) :
    execLbParse rd addr len n s = trap (.lbParse rd addr len n) .badAddress s := by
  rw [execLbParse, if_neg hmax.not_gt, if_pos (mt State.validRange_iff.1 hout.not_ge)]

theorem execLbParse_of_unspecified (hmax : n.toNat ≤ s.cfg.maxLimbs) (hin : addr.toNat + len.toNat ≤ s.cfg.memSize)
    (hlen : len.toNat = 0 ∨ n.toNat < ceilDiv len.toNat s.limbBytes) :
    execLbParse rd addr len n s = failWith .unspecified s := by
  rw [execLbParse, if_neg hmax.not_gt, if_neg (not_not.2 (State.validRange_iff.2 hin))]
  rcases hlen with hempty | hshort
  · rw [if_pos (Nat.lt_one_iff.2 hempty)]
  · rw [if_pos hshort, ite_self]

theorem execLbParse_of_fits (hmax : n.toNat ≤ s.cfg.maxLimbs) (hin : addr.toNat + len.toNat ≤ s.cfg.memSize)
    (hlen : 1 ≤ len.toNat) (hneed : ceilDiv len.toNat s.limbBytes ≤ n.toNat) :
    execLbParse rd addr len n s = succeed (s.setSlot rd
      (.limbs (limbsOfNat s.limbBits n.toNat (beToNat (memReadBytes s.mem addr.toNat len.toNat))))) := by
  rw [execLbParse, if_neg hmax.not_gt, if_neg (not_not.2 (State.validRange_iff.2 hin)), if_neg hlen.not_gt,
    if_neg hneed.not_gt]
  rfl

/-- What LB_PARSE must have met, and what it left, when it neither faulted nor failed. -/
theorem execLbParse_ok {t : State} (h : execLbParse rd addr len n s = .next t) (hf : t.fault = 0#8)
    (he : t.err = 0#8) :
    len.toNat ≤ n.toNat * s.limbBytes ∧
      t = (s.setSlot rd (.limbs (limbsOfNat s.limbBits n.toNat
        (beToNat (memReadBytes s.mem addr.toNat len.toNat))))).complete .ok := by
  rcases execLbParse_cases rd addr len n s with
    ⟨-, e⟩ | ⟨-, -, e⟩ | ⟨-, -, -, e⟩ | ⟨-, -, -, hneed, e⟩ <;> rw [e] at h
  · exact absurd h (trap_ne_next_of_fault_eq_zero hf)
  · exact absurd h (trap_ne_next_of_fault_eq_zero hf)
  · rw [failWith_eq_next.1 h, State.complete_err] at he
    cases he
  · exact ⟨Nat.mul_comm n.toNat _ ▸ (ceilDiv_le_iff s.limbBytes_pos).1 hneed, succeed_eq_next.1 h⟩

variable {rs1 : Slot}

theorem execLbFormat_of_badSlotKind (hkind : ∀ a, s.slot rs1 ≠ .limbs a) :
    execLbFormat rs1 addr len s = trap (.lbFormat rs1 addr len) .badSlotKind s := by
  rw [execLbFormat, State.limbsIn_eq_none.2 hkind]

variable {a : List Nat} (ha : s.slot rs1 = .limbs a)
include ha

theorem execLbFormat_of_badLength (hlen : len.toNat ≠ a.length * s.limbBytes) :
    execLbFormat rs1 addr len s = trap (.lbFormat rs1 addr len) .badLength s := by
  simp only [execLbFormat, State.limbsIn_eq_some.2 ha]
  rw [if_pos hlen]

variable (hlen : len.toNat = a.length * s.limbBytes)
include hlen

theorem execLbFormat_of_badAddress (hout : s.cfg.memSize < addr.toNat + len.toNat) :
    execLbFormat rs1 addr len s = trap (.lbFormat rs1 addr len) .badAddress s := by
  simp only [execLbFormat, State.limbsIn_eq_some.2 ha]
  rw [if_neg (not_not.2 hlen), if_pos (mt State.validRange_iff.1 hout.not_ge)]

theorem execLbFormat_of_inside (hin : addr.toNat + len.toNat ≤ s.cfg.memSize) :
    execLbFormat rs1 addr len s = succeed (s.store addr.toNat (beBytes len.toNat (limbsValue s.limbBits a))) := by
  simp only [execLbFormat, State.limbsIn_eq_some.2 ha]
  rw [if_neg (not_not.2 hlen), if_neg (not_not.2 (State.validRange_iff.2 hin))]

end

/-- What LB_FORMAT left when it did not fault. -/
theorem execLbFormat_ok {rs1 : Slot} {addr len : Word} {a : List Nat} {t : State} (ha : s.slot rs1 = .limbs a)
    (h : execLbFormat rs1 addr len s = .next t) (hf : t.fault = 0#8) :
    t = (s.store addr.toNat (beBytes len.toNat (limbsValue s.limbBits a))).complete .ok := by
  rcases execLbFormat_cases rs1 addr len s with ⟨-, e⟩ | ⟨x, hx, ⟨-, e⟩ | ⟨-, -, e⟩ | ⟨-, -, e⟩⟩ <;> rw [e] at h
  · exact absurd h (trap_ne_next_of_fault_eq_zero hf)
  · exact absurd h (trap_ne_next_of_fault_eq_zero hf)
  · exact absurd h (trap_ne_next_of_fault_eq_zero hf)
  · cases ha.symm.trans hx
    exact succeed_eq_next.1 h

/-! ## The commands on two big integers (R215, R216, R220) -/

section
variable {rs1 rs2 : Slot}

section
variable (hkind : (∀ a, s.slot rs1 ≠ .limbs a) ∨ ∀ b, s.slot rs2 ≠ .limbs b)
include hkind

theorem execLbEq_of_badSlotKind : execLbEq rs1 rs2 s = trap (.lbEq rs1 rs2) .badSlotKind s := by
  rw [execLbEq, State.limbsPairIn_eq_none.2 hkind]

theorem execLbLt_of_badSlotKind : execLbLt rs1 rs2 s = trap (.lbLt rs1 rs2) .badSlotKind s := by
  rw [execLbLt, State.limbsPairIn_eq_none.2 hkind]

theorem execLbReduce_of_badSlotKind : execLbReduce rs1 rs2 s = trap (.lbReduce rs1 rs2) .badSlotKind s := by
  rw [execLbReduce, State.limbsPairIn_eq_none.2 hkind]

end

variable {a b : List Nat} (ha : s.slot rs1 = .limbs a) (hb : s.slot rs2 = .limbs b)
include ha hb

theorem execLbEq_of_limbs :
    execLbEq rs1 rs2 s = if a.length ≠ b.length then trap (.lbEq rs1 rs2) .badLength s
      else succeedMask s (decide (limbsValue s.limbBits a = limbsValue s.limbBits b)) := by
  simp only [execLbEq, State.limbsPairIn_eq_some.2 ⟨ha, hb⟩]

theorem execLbLt_of_limbs :
    execLbLt rs1 rs2 s = if a.length ≠ b.length then trap (.lbLt rs1 rs2) .badLength s
      else succeedMask s (decide (limbsValue s.limbBits a < limbsValue s.limbBits b)) := by
  simp only [execLbLt, State.limbsPairIn_eq_some.2 ⟨ha, hb⟩]

theorem execLbReduce_of_limbs :
    execLbReduce rs1 rs2 s = if a.length ≠ b.length then trap (.lbReduce rs1 rs2) .badLength s
      else succeed (s.setSlot rs1 (.limbs (limbsOfNat s.limbBits a.length
        (reduceOnce (limbsValue s.limbBits a) (limbsValue s.limbBits b))))) := by
  simp only [execLbReduce, State.limbsPairIn_eq_some.2 ⟨ha, hb⟩]

end

/-! ## The commands on one big integer (R217 to R219, R221, R223) -/

section
variable {rs1 : Slot} {addr lo hi : Word}

section
variable (hkind : ∀ a, s.slot rs1 ≠ .limbs a)
include hkind

theorem execLbZero_of_badSlotKind : execLbZero rs1 s = trap (.lbZero rs1) .badSlotKind s := by
  rw [execLbZero, State.limbsIn_eq_none.2 hkind]

theorem execLbEven_of_badSlotKind : execLbEven rs1 s = trap (.lbEven rs1) .badSlotKind s := by
  rw [execLbEven, State.limbsIn_eq_none.2 hkind]

theorem execLbEqlimb_of_badSlotKind : execLbEqlimb rs1 lo hi s = trap (.lbEqlimb rs1 lo hi) .badSlotKind s := by
  rw [execLbEqlimb, State.limbsIn_eq_none.2 hkind]

theorem execLbMinbits_of_badSlotKind : execLbMinbits rs1 s = trap (.lbMinbits rs1) .badSlotKind s := by
  rw [execLbMinbits, State.limbsIn_eq_none.2 hkind]

theorem execLbFold5_of_badSlotKind : execLbFold5 rs1 addr s = trap (.lbFold5 rs1 addr) .badSlotKind s := by
  rw [execLbFold5, State.limbsIn_eq_none.2 hkind]

end

variable {a : List Nat} (ha : s.slot rs1 = .limbs a)
include ha

theorem execLbZero_of_limbs : execLbZero rs1 s = succeedMask s (decide (limbsValue s.limbBits a = 0)) := by
  simp only [execLbZero, State.limbsIn_eq_some.2 ha]

theorem execLbEven_of_limbs : execLbEven rs1 s = succeedMask s (decide (limbsValue s.limbBits a % 2 = 0)) := by
  simp only [execLbEven, State.limbsIn_eq_some.2 ha]

theorem execLbEqlimb_of_badOperand (hbits : s.limbBits = 32) (hhi : hi ≠ 0#32) :
    execLbEqlimb rs1 lo hi s = trap (.lbEqlimb rs1 lo hi) .badOperand s := by
  simp only [execLbEqlimb, State.limbsIn_eq_some.2 ha]
  rw [if_pos ⟨State.limbBits_eq_32_iff.1 hbits, hhi⟩]

theorem execLbEqlimb_of_limb (h : s.limbBits = 64 ∨ hi = 0#32) :
    execLbEqlimb rs1 lo hi s = succeedMask s (decide (limbsValue s.limbBits a = scalarOfWords lo hi)) := by
  simp only [execLbEqlimb, State.limbsIn_eq_some.2 ha, ← State.limbBits_eq_32_iff]
  exact if_neg fun ⟨h32, hhi⟩ => h.elim (fun h64 => by omega) hhi

theorem execLbMinbits_of_limbs :
    execLbMinbits rs1 s = succeed (s.setRes (resOfNat s.cfg.limbWidth (minimalBits (limbsValue s.limbBits a)))) := by
  simp only [execLbMinbits, State.limbsIn_eq_some.2 ha]

theorem execLbFold5_of_badAddress (hout : s.cfg.memSize < addr.toNat + numWindows s.limbBits a.length) :
    execLbFold5 rs1 addr s = trap (.lbFold5 rs1 addr) .badAddress s := by
  simp only [execLbFold5, State.limbsIn_eq_some.2 ha]
  rw [if_pos (mt State.validRange_iff.1 hout.not_ge)]

theorem execLbFold5_of_inside (hin : addr.toNat + numWindows s.limbBits a.length ≤ s.cfg.memSize) :
    execLbFold5 rs1 addr s = succeed ((s.store addr.toNat (windows5 s.limbBits a)).setRes
      (resOfNat s.cfg.limbWidth (numWindows s.limbBits a.length))) := by
  simp only [execLbFold5, State.limbsIn_eq_some.2 ha]
  rw [if_neg (not_not.2 (State.validRange_iff.2 hin))]

end

/-- A comparison completes with its answer as a mask in `RES` and changes nothing else (R211). -/
theorem succeedMask_completes (s : State) {b : Bool} {p : Prop} [Decidable p] (hb : b = true ↔ p) :
    ∃ t, succeedMask s b = .next t ∧ t.res.toNat = (if p then 2 ^ s.limbBits - 1 else 0) ∧
      changesOnly [] noRange s t ∧ completedWith .ok s t := by
  refine ⟨_, rfl, ?_, changesOnly_complete (changesOnly_setRes (changesOnly_refl _ _ s) _) .ok, rfl, rfl⟩
  rw [State.complete_res, State.setRes_res, limbMask_toNat, State.limbBits]
  simp only [hb]

end Sys2Proof.Machine
end

section
/-! The limb commands: the statements of 43_limb.md. -/

namespace Sys2Proof.Machine

/-- Settles O37: bytes no longer than the limbs make a number below their capacity, so no bit of it is cut off. -/
theorem lbParseReadsNumber : Obligations.LbParseReadsNumber := by
  intro s rd addr len n
  refine ⟨rfl, execLbParse_of_badLength, execLbParse_of_badAddress, execLbParse_of_unspecified, fun hmax hin hlen hneed => ?_⟩
  have hfits : (memReadBytes s.mem addr.toNat len.toNat).length ≤ n.toNat * s.limbBytes := by
    rw [memReadBytes_length, Nat.mul_comm]
    exact (ceilDiv_le_iff s.limbBytes_pos).1 hneed
  exact ⟨_, _, execLbParse_of_fits hmax hin hlen hneed, State.slot_setSlot_same s rd _, limbsOfNat_length _ _ _,
    limbsOfNat_lt _ _ _, limbsValue_parse hfits,
    changesOnly_complete (changesOnly_setSlot (changesOnly_refl _ _ s) List.mem_cons_self _) .ok, rfl, rfl, rfl⟩

/-- Settles O38, by one equation of the command for each clause and the bytes of a big integer limb by limb. -/
theorem lbFormatStoresNumber : Obligations.LbFormatStoresNumber := by
  intro s rs1 addr len hwf
  refine ⟨rfl, execLbFormat_of_badSlotKind, fun a ha hlimbs => ⟨execLbFormat_of_badLength ha, execLbFormat_of_badAddress ha,
    fun hlen hin => ?_⟩⟩
  have hbytes := beBytes_length len.toNat (limbsValue s.limbBits a)
  refine ⟨_, execLbFormat_of_inside ha hlen hin, ?_,
    changesOnly_complete (changesOnly_store (changesOnly_refl _ _ s) le_rfl (Nat.add_le_add_left hbytes.le _)) .ok,
    rfl, rfl, rfl⟩
  rw [State.complete_mem, State.store_mem, memReadBytes_memWriteBytes_of_length hwf addr.toNat hbytes, hlen,
    beBytes_limbsValue s.two_pow_limbBits hlimbs]

/-- Settles O39: the limbs hold the number in whole, and its bytes in a greater width start with zeros. -/
theorem parseFormatRoundTrip : Obligations.ParseFormatRoundTrip := by
  refine ⟨fun s t u rd a b len n width hwf _ hparse hft het hwidth hformat hfu => ?_, fun s rd a n hmax hin => ?_⟩
  · obtain ⟨hfits, rfl⟩ := execLbParse_ok hparse hft het
    rw [execLbFormat_ok ((State.complete_slot _ _ _).trans (State.slot_setSlot_same s rd _)) hformat hfu]
    have hlen := memReadBytes_length s.mem a.toNat len.toNat
    have hpadded := beBytes_beToNat_of_le (hlen.trans_le (hfits.trans_eq hwidth.symm))
    rw [hlen] at hpadded
    simp only [State.complete_mem, State.store_mem, State.setSlot_mem, State.complete_limbBits, State.setSlot_limbBits,
      limbsValue_parse (hlen.trans_le hfits)]
    rw [memReadBytes_memWriteBytes_of_length hwf b.toNat (beBytes_length _ _), hpadded]
  · exact execLbParse_of_unspecified hmax hin (.inl rfl)

/-- Settles O40: big integers of one length are equal as numbers exactly when they are equal limb by limb. -/
theorem lbEqLbLtCompare : Obligations.LbEqLbLtCompare := by
  intro s rs1 rs2
  refine ⟨rfl, rfl, fun hkind => ⟨execLbEq_of_badSlotKind hkind, execLbLt_of_badSlotKind hkind⟩,
    fun a b ha hb hla hlb => ⟨fun hlen => ⟨?_, ?_⟩, fun hlen => ⟨?_, ?_⟩⟩⟩
  · exact (execLbEq_of_limbs ha hb).trans (if_pos hlen)
  · exact (execLbLt_of_limbs ha hb).trans (if_pos hlen)
  · rw [exec, execLbEq_of_limbs ha hb, if_neg (not_not.2 hlen)]
    exact succeedMask_completes s (decide_eq_true_iff.trans (limbsValue_eq_iff hla hlb hlen))
  · rw [exec, execLbLt_of_limbs ha hb, if_neg (not_not.2 hlen)]
    exact succeedMask_completes s decide_eq_true_iff

/-- Settles O41: a big integer is 0 when every limb is, and its parity is that of its least significant limb. -/
theorem lbZeroLbEvenTest : Obligations.LbZeroLbEvenTest := by
  intro s rs1
  refine ⟨rfl, rfl, fun hkind => ⟨execLbZero_of_badSlotKind hkind, execLbEven_of_badSlotKind hkind⟩,
    fun a ha => ⟨?_, ?_⟩⟩
  · rw [exec, execLbZero_of_limbs ha]
    exact succeedMask_completes s (by simp [limbsValue_eq_zero_iff])
  · rw [exec, execLbEven_of_limbs ha]
    have heven : decide (limbsValue s.limbBits a % 2 = 0) = true ↔ ¬ (a.headD 0).testBit 0 = true := by
      rw [decide_eq_true_iff, limbsValue_mod_two s.limbBits_pos, Nat.testBit_zero, decide_eq_true_iff]
      omega
    simpa only [ite_not] using succeedMask_completes s heven

/-- Settles O42: a number of one limb is that limb under zeros. -/
theorem lbEqlimbCompares : Obligations.LbEqlimbCompares := by
  intro s rs1 lo hi
  refine ⟨rfl, execLbEqlimb_of_badSlotKind, fun a ha _ hla => ⟨execLbEqlimb_of_badOperand ha, fun hscalar => ?_⟩⟩
  change ∃ t, execLbEqlimb rs1 lo hi s = .next t ∧ _
  rw [execLbEqlimb_of_limb ha hscalar]
  refine succeedMask_completes s ?_
  rw [decide_eq_true_iff, limbsValue_eq_limb_iff hla (scalarOfWords_lt hscalar), List.all_eq_true, scalarOfWords]
  simp only [beq_iff_eq]

/-- Settles O43: the value left is at most the first operand, so it stands in as many limbs. -/
theorem lbReduceSubtractsOnce : Obligations.LbReduceSubtractsOnce := by
  intro s rd rs2
  refine ⟨rfl, execLbReduce_of_badSlotKind, fun r m hr hm hlr hlm => ?_⟩
  intro rv mv
  refine ⟨fun hlen => (execLbReduce_of_limbs hr hm).trans (if_pos hlen), fun hlen => ?_⟩
  have hlt : reduceOnce rv mv < 2 ^ (s.limbBits * r.length) := (reduceOnce_le rv mv).trans_lt (limbsValue_lt _ r hlr)
  exact ⟨_, _, (execLbReduce_of_limbs hr hm).trans (if_neg (not_not.2 hlen)), State.slot_setSlot_same s rd _,
    limbsOfNat_length _ _ _, limbsOfNat_lt _ _ _, limbsValue_limbsOfNat_of_lt hlt,
    changesOnly_complete (changesOnly_setSlot (changesOnly_refl _ _ s) List.mem_cons_self _) .ok, rfl, rfl, rfl⟩

/-- Settles O44: the top set bit bounds the number from both sides, and the bit length is far below what `RES` can hold. -/
theorem lbMinbitsFindsTopBit : Obligations.LbMinbitsFindsTopBit := by
  intro s rs1
  refine ⟨rfl, execLbMinbits_of_badSlotKind, fun a ha hlen hla => ?_⟩
  have hbits : minimalBits (limbsValue s.limbBits a) < 2 ^ 32 := by
    have hle := minimalBits_le_iff.2 (limbsValue_lt s.limbBits a hla)
    have hcap : s.limbBits * a.length ≤ 64 * 255 := Nat.mul_le_mul s.limbBits_le hlen
    omega
  refine ⟨_, execLbMinbits_of_limbs ha, fun hzero => ?_, fun j k hset hclear hupper => ?_,
    changesOnly_complete (changesOnly_setRes (changesOnly_refl _ _ s) _) .ok, rfl, rfl⟩
  · exact (resOfNat_toNat hbits).trans (if_pos (limbsValue_eq_zero_iff.2 hzero))
  · exact (resOfNat_toNat hbits).trans (minimalBits_limbsValue hla hset hclear hupper)

/-- Settles O45: the windows are as many base-32 digits as the limbs' bits need, so they are all digits of the number. -/
theorem lbFold5StoresWindows : Obligations.LbFold5StoresWindows := by
  intro s rs1 addr hwf
  refine ⟨rfl, execLbFold5_of_badSlotKind, fun a ha hlen hla => ?_⟩
  intro nw
  refine ⟨execLbFold5_of_badAddress ha, fun hin => ?_⟩
  have hcount : nw < 2 ^ 32 := by
    have hcap : a.length * s.limbBits ≤ 255 * 64 := Nat.mul_le_mul hlen s.limbBits_le
    omega
  have hwindows := windows5_length s.limbBits a
  exact ⟨_, _, execLbFold5_of_inside ha hin,
    memReadBytes_memWriteBytes_of_length hwf addr.toNat hwindows, fun w hw => toNat_lt_of_mem_base32Digits hw, foldl_windows5 hla,
    resOfNat_toNat hcount,
    changesOnly_complete (changesOnly_setRes (changesOnly_store (changesOnly_refl _ _ s) le_rfl
      (Nat.add_le_add_left hwindows.le _)) _) .ok, rfl, rfl⟩

end Sys2Proof.Machine
end

section
/-! SUPPORT. The two functions of nonce generation in closed form (44_ecdsa_nonce.md R252, R254): each hashes the bytes it was fed
one after the other, and a message of one block and a digest is two blocks with its padding. -/

namespace Sys2Proof.Machine

/-! ## Hashing what was fed -/

/-- A finish after updates of a fresh Context is the hash of all the data (R133, R139). -/
theorem ctxFinish_foldl_ctxNew (src : CompressSource) (alg : AlgId) {chunks : List (List Byte)} {data : List Byte}
    (hdata : chunks.flatten = data) (hbits : 8 * data.length < 2 ^ 64) :
    ctxFinish src (chunks.foldl (ctxUpdate src) (ctxNew src alg)) = { alg := alg, value := hashOf src alg data } := by
  rw [foldl_ctxUpdate src (c := ctxNew src alg) chunks (blockLen_pos alg), hdata, ← digest_eq_hashOf src alg hbits, digest]

/-- The nonce key is the hash of the random bytes and the seed (R252). -/
theorem nonceKeyNew_eq (src : CompressSource) (alg : AlgId) {seed rand : List Byte}
    (hbits : 8 * (rand ++ seed).length < 2 ^ 64) :
    nonceKeyNew src alg seed rand = { alg := alg, value := hashOf src alg (rand ++ seed) } :=
  congrArg (fun v : DigestVal => { alg := alg, value := v.value : NonceKey })
    (ctxFinish_foldl_ctxNew src alg (chunks := [rand, seed]) (by simp) hbits)

/-- The message of NonceFill is far below the bit-length bound of a finish. -/
theorem nonceFill_bits_lt (alg : AlgId) : 8 * (blockLen alg + outputLen alg) < 2 ^ 64 := by cases alg <;> decide

/-- The random bytes fill the first block up from the key (R254). -/
theorem key_append_rand_length {k : NonceKey} {rand : List Byte} (hk : k.value.length = outputLen k.alg)
    (hrand : rand.length = blockLen k.alg - outputLen k.alg) : (k.value ++ rand).length = blockLen k.alg := by
  rw [List.length_append, hk, hrand, Nat.add_sub_cancel' (outputLen_lt_blockLen k.alg).le]

/-- NonceFill is the hash of key, random bytes and message digest (R254). -/
theorem nonceFill_eq_hashOf (src : CompressSource) {k : NonceKey} {md rand : List Byte}
    (hk : k.value.length = outputLen k.alg) (hrand : rand.length = blockLen k.alg - outputLen k.alg)
    (hmd : md.length = outputLen k.alg) : nonceFill src k md rand = hashOf src k.alg (k.value ++ rand ++ md) := by
  have hbits : 8 * (k.value ++ rand ++ md).length < 2 ^ 64 := by
    rw [List.length_append, key_append_rand_length hk hrand, hmd]
    exact nonceFill_bits_lt k.alg
  exact congrArg DigestVal.value (ctxFinish_foldl_ctxNew src k.alg (chunks := [k.value, rand, md]) (by simp) hbits)

/-! ## One block and a digest after it -/

/-- A digest and its padding fill one block. -/
theorem padCount_outputLen (alg : AlgId) : padCount alg (outputLen alg) = 1 := by cases alg <;> decide

/-- A padded digest is one block. -/
theorem paddedMessage_digest {alg : AlgId} {md : List Byte} (hmd : md.length = outputLen alg) (bits : Nat) :
    paddedMessage alg md bits = md ++ [0x80#8] ++ zeros (blockLen alg - outputLen alg - 9) ++ beBytes 8 bits ∧
      (paddedMessage alg md bits).length = blockLen alg := by
  rw [paddedMessage_length, paddedMessage, hmd, padCount_outputLen, Nat.one_mul]
  exact ⟨rfl, rfl⟩

variable {alg : AlgId} {block md : List Byte} (hb : block.length = blockLen alg)
include hb

theorem padCount_block_append (data : List Byte) :
    padCount alg (block ++ data).length = 1 + padCount alg data.length := by
  rw [List.length_append, hb, ← padCount_mul_blockLen_add, Nat.one_mul]

/-- A whole block in front of the data stands in front of the padded data. -/
theorem paddedMessage_block_append (data : List Byte) (bits : Nat) :
    paddedMessage alg (block ++ data) bits = block ++ paddedMessage alg data bits := by
  have hfill : padCount alg (block ++ data).length * blockLen alg - (block ++ data).length - 9 =
      padCount alg data.length * blockLen alg - data.length - 9 := by
    rw [padCount_block_append hb, Nat.add_mul, Nat.one_mul, List.length_append, hb, Nat.add_sub_add_left]
  simp only [paddedMessage, hfill, List.append_assoc]

/-- The hash of one block and a digest is two compressions. -/
theorem hashOf_block_append_digest (src : CompressSource) (hmd : md.length = outputLen alg) :
    hashOf src alg (block ++ md) =
      (formatChain (compressBlock src alg (compressBlock src alg (initialState src alg) block)
        (paddedMessage alg md (8 * (blockLen alg + outputLen alg))))).take (outputLen alg) := by
  obtain ⟨-, hlast⟩ := paddedMessage_digest hmd (8 * (blockLen alg + outputLen alg))
  have hblocks := compressBlocks_flatten src alg (initialState src alg)
    [block, paddedMessage alg md (8 * (blockLen alg + outputLen alg))] (by simp [hb, hlast])
  rw [hashOf, finishBytes, paddedMessage_block_append hb, padCount_block_append hb, List.length_append, hb, hmd,
    padCount_outputLen]
  simpa using congrArg (fun h => (formatChain h).take (outputLen alg)) hblocks

end Sys2Proof.Machine
end

section
/-! SUPPORT. A command that ends with a request to the random source (60_exceptions.md R312, R320, R321), and one equation for each
end of EC_NKEY and EC_NONCE (44_ecdsa_nonce.md R253, R255). -/

namespace Sys2Proof.Machine

/-! ## The random source -/

/-- The state after one request to the random source. -/
def State.afterRequest (s : State) : State := { s with rngScript := s.rngScript.tail, rngDraws := s.rngDraws + 1 }

/-- The bytes an answer delivers are those it lists, as far as it lists any. -/
theorem isRngAnswer_rngBytes (draw n : Nat) (listed : List Byte) : isRngAnswer listed (rngBytes draw n listed) n :=
  ⟨by simp [rngBytes], fun j hn hj => by simp [rngBytes, hn, hj]⟩

variable {s : State} {n : Nat}

theorem rngFill_of_nil (hs : s.rngScript = []) :
    rngFill n s = .fail s.afterRequest ∨ rngFill n s = .ok (rngBytes s.rngDraws n []) s.afterRequest := by
  rw [rngFill, hs]
  cases Config.rngFails s.rngDraws <;> simp [State.afterRequest, hs]

theorem rngFill_of_ok {bs : List Byte} {rest : List RngAnswer} (hs : s.rngScript = .ok bs :: rest) :
    rngFill n s = .ok (rngBytes s.rngDraws n bs) s.afterRequest := by
  simp [rngFill, State.afterRequest, hs]

theorem rngFill_of_fail {rest : List RngAnswer} (hs : s.rngScript = .fail :: rest) :
    rngFill n s = .fail s.afterRequest := by
  simp [rngFill, State.afterRequest, hs]

/-- The frame of what a command does after its request is its frame with one request made. -/
theorem changesOnly_afterRequest {rs : List Slot} {g : MemRange} {t : State} (h : changesOnly rs g s.afterRequest t) :
    keepsSlotsExcept rs s t ∧ keepsMemExcept g s t ∧ keepsRest s t ∧ asksRngOnce s t := h

/-! ## The end of a command that asks -/

/-- How a command ends that has passed its checks and asks for random bytes: a failed request is an error of the command. -/
def endWithReply (c : ErrCode) (effect : List Byte → State → State) : RngReply → Result
  | .never => .fault .rngNeverAnswers
  | .fail t => failWith c t
  | .ok rand t => succeed (effect rand t)

/-- A command asks once and ends with an error that changes nothing else (R310, R320). -/
def failsAfterRequest (c : ErrCode) (s : State) (r : Result) : Prop :=
  ∃ t, r = .next t ∧ (∀ q : Slot, t.slot q = s.slot q) ∧ keepsMem s t ∧ t.res = s.res ∧ keepsRest s t ∧ asksRngOnce s t ∧
    completedWith c s t

theorem failsAfterRequest_failWith (c : ErrCode) (s : State) : failsAfterRequest c s (failWith c s.afterRequest) :=
  ⟨_, rfl, fun _ => rfl, fun _ => rfl, rfl, ⟨rfl, rfl, rfl, rfl, rfl, rfl, rfl⟩, ⟨rfl, rfl⟩, rfl, rfl⟩

/-- The script decides how a command that asks for `n` bytes ends: all that depends on the command is what it does with them. -/
theorem endWithReply_by_script {c : ErrCode} {effect : List Byte → State → State} {r : Result}
    (hr : r = endWithReply c effect (rngFill n s)) {answered : List Byte → Prop}
    (hanswered : ∀ rand, rand.length = n → r = succeed (effect rand s.afterRequest) → answered rand) :
    (∀ rest, s.rngScript = .fail :: rest → failsAfterRequest c s r) ∧
    (∀ bs rest, s.rngScript = .ok bs :: rest → ∃ rand, isRngAnswer bs rand n ∧ answered rand) ∧
    (s.rngScript = [] → failsAfterRequest c s r ∨ ∃ rand, isRngAnswer [] rand n ∧ answered rand) ∧
    (∀ rest, s.rngScript = .never :: rest → r = .fault .rngNeverAnswers) := by
  have hfail (h : rngFill n s = .fail s.afterRequest) : failsAfterRequest c s r := by
    rw [hr, h]
    exact failsAfterRequest_failWith c s
  have hok {listed : List Byte} (h : rngFill n s = .ok (rngBytes s.rngDraws n listed) s.afterRequest) :
      ∃ rand, isRngAnswer listed rand n ∧ answered rand := by
    have hanswer := isRngAnswer_rngBytes s.rngDraws n listed
    exact ⟨_, hanswer, hanswered _ hanswer.1 (by rw [hr, h, endWithReply])⟩
  refine ⟨fun rest hs => hfail (rngFill_of_fail hs), fun bs rest hs => hok (rngFill_of_ok hs),
    fun hs => (rngFill_of_nil hs).imp hfail hok, fun rest hs => ?_⟩
  rw [hr, rngFill_never.2 (by rw [hs, List.head?_cons]), endWithReply]

/-! ## EC_NKEY (R253) -/

variable {rd : Slot} {alg : AlgId} {addr len : Word}

theorem execEcNkey_of_badLength (hlen : ¬ (1 ≤ len.toNat ∧ len.toNat ≤ 64)) :
    execEcNkey rd alg addr len s = trap (.ecNkey rd alg addr len) .badLength s :=
  if_pos (by rw [maxOutputLen]; omega)

/-- With a seed of 1 to 64 bytes, the check that is left. -/
theorem execEcNkey_of_length (hlen : 1 ≤ len.toNat ∧ len.toNat ≤ 64) :
    execEcNkey rd alg addr len s =
      if s.cfg.memSize < addr.toNat + len.toNat then trap (.ecNkey rd alg addr len) .badAddress s
      else endWithReply .keyRejectedRngFailed
        (fun rand t => t.setSlot rd
          (.nonceKey (nonceKeyNew s.cfg.compress alg (memReadBytes s.mem addr.toNat len.toNat) rand)))
        (rngFill len.toNat s) := by
  have hin : ¬ (len.toNat < 1 ∨ maxOutputLen < len.toNat) := by rw [maxOutputLen]; omega
  rw [execEcNkey, if_neg hin]
  simp only [State.validRange_iff, wordRange_addr, wordRange_len, not_le]
  cases rngFill len.toNat s <;> rfl

/-! ## EC_NONCE (R255) -/

section
variable {rs1 : Slot} {ma ml d dl : Word}

theorem execEcNonce_of_badSlotKind (hkind : ∀ k, s.slot rs1 ≠ .nonceKey k) :
    execEcNonce rs1 ma ml d dl s = trap (.ecNonce rs1 ma ml d dl) .badSlotKind s := by
  simp [execEcNonce, State.nonceKeyIn_eq_none.2 hkind]

variable {k : NonceKey} (hk : s.slot rs1 = .nonceKey k)
include hk

theorem execEcNonce_of_badLength (hlen : ml.toNat ≠ outputLen k.alg ∨ dl.toNat ≠ outputLen k.alg) :
    execEcNonce rs1 ma ml d dl s = trap (.ecNonce rs1 ma ml d dl) .badLength s := by
  simp only [execEcNonce, State.nonceKeyIn_eq_some.2 hk]
  rcases hlen with hml | hdl
  · rw [if_pos hml]
  · rw [if_pos hdl, ite_self]

variable (hml : ml.toNat = outputLen k.alg) (hdl : dl.toNat = outputLen k.alg)
include hml hdl

/-- With both lengths `output_len`, the checks that are left. -/
theorem execEcNonce_of_lengths :
    execEcNonce rs1 ma ml d dl s =
      if ¬ (ma.toNat + ml.toNat ≤ s.cfg.memSize ∧ d.toNat + dl.toNat ≤ s.cfg.memSize) then
        trap (.ecNonce rs1 ma ml d dl) .badAddress s
      else if rangesOverlap (wordRange d dl) (wordRange ma ml) then trap (.ecNonce rs1 ma ml d dl) .overlap s
      else endWithReply .unspecified
        (fun rand t => t.store d.toNat (nonceFill s.cfg.compress k (memReadBytes s.mem ma.toNat ml.toNat) rand))
        (rngFill (blockLen k.alg - outputLen k.alg) s) := by
  simp only [execEcNonce, State.nonceKeyIn_eq_some.2 hk, State.validRange_iff, wordRange_addr, wordRange_len]
  rw [if_neg (not_not.2 hml), if_neg (not_not.2 hdl)]
  by_cases hmd : ma.toNat + ml.toNat ≤ s.cfg.memSize
  · simp only [hmd, not_true_eq_false, if_false, true_and]
    cases rngFill (blockLen k.alg - outputLen k.alg) s <;> rfl
  · rw [if_pos hmd, if_pos fun hin => hmd hin.1]

end

end Sys2Proof.Machine
end

section
/-! Nonce generation: the statements of 44_ecdsa_nonce.md. -/

namespace Sys2Proof.Machine

/-- Settles O57: key and random bytes are one block exactly, and a digest with its padding is another. -/
theorem nonceCompressesTwoBlocks : Obligations.NonceCompressesTwoBlocks := by
  intro src k md rand hk hrand hmd
  have hb := key_append_rand_length hk hrand
  obtain ⟨hlast, -⟩ := paddedMessage_digest hmd (8 * (blockLen k.alg + outputLen k.alg))
  refine ⟨?_, ?_, ?_⟩
  · rw [padCount_block_append hb, hmd, padCount_outputLen]
  · rw [paddedMessage_block_append hb, List.take_left' hb]
  · rw [nonceFill_eq_hashOf src hk hrand hmd, hashOf_block_append_digest hb src hmd, hlast]

/-- Settles O46: the checks one by one, then the reply of the random source; the key is the hash of its bytes and the seed. -/
theorem ecNkeyDerivesKey : Obligations.EcNkeyDerivesKey := by
  intro s rd alg addr len
  refine ⟨rfl, execEcNkey_of_badLength, fun hlen hout => (execEcNkey_of_length hlen).trans (if_pos hout), fun hlen hin => ?_⟩
  refine endWithReply_by_script ((execEcNkey_of_length hlen).trans (if_neg hin.not_gt)) fun rand hrand hr => ?_
  have hbits : 8 * (rand ++ memReadBytes s.mem addr.toNat len.toNat).length < 2 ^ 64 := by
    rw [List.length_append, hrand, memReadBytes_length]
    omega
  rw [nonceKeyNew_eq _ _ hbits] at hr
  have hframe := changesOnly_setSlot (changesOnly_refl [rd] noRange s.afterRequest) List.mem_cons_self
    (.nonceKey ⟨alg, hashOf s.cfg.compress alg (rand ++ memReadBytes s.mem addr.toNat len.toNat)⟩)
  obtain ⟨hslots, -, hrest, hrng⟩ := changesOnly_afterRequest (changesOnly_complete hframe .ok)
  exact ⟨_, hr, State.slot_setSlot_same _ rd _, hslots, fun _ => rfl, rfl, hrest, hrng, rfl, rfl⟩

/-- Settles O47: the checks one by one, then the reply of the random source; the seed is as long as the output range, so it reads
back whole. -/
theorem ecNonceFillsRequest : Obligations.EcNonceFillsRequest := by
  intro s rs1 ma ml d dl hwf
  refine ⟨rfl, execEcNonce_of_badSlotKind, fun k hk hval => ?_⟩
  intro o md inMem overlap failed answered
  have hinside (hml : ml.toNat = o) (hdl : dl.toNat = o) (hin : inMem) :=
    (execEcNonce_of_lengths (ma := ma) (d := d) hk hml hdl).trans (if_neg (not_not.2 hin))
  refine ⟨execEcNonce_of_badLength hk, fun hml hdl hout => (execEcNonce_of_lengths hk hml hdl).trans (if_pos hout),
    fun hml hdl hin hover => (hinside hml hdl hin).trans (if_pos (rangesOverlap_iff.2 hover)),
    fun hml hdl hin hapart => ?_⟩
  have hreply := (hinside hml hdl hin).trans (if_neg (mt rangesOverlap_iff.1 hapart))
  refine endWithReply_by_script (answered := answered) hreply fun rand hrand hr => ?_
  rw [nonceFill_eq_hashOf _ hval hrand ((memReadBytes_length _ _ _).trans hml)] at hr
  have hlen := hashOf_length s.cfg.compress k.alg (k.value ++ rand ++ md)
  have hframe := changesOnly_store (g := ⟨d.toNat, o⟩) (changesOnly_refl [] _ s.afterRequest) le_rfl
    (Nat.add_le_add_left hlen.le d.toNat)
  obtain ⟨hslots, hmem, hrest, hrng⟩ := changesOnly_afterRequest (changesOnly_complete hframe .ok)
  exact ⟨_, hr, memReadBytes_memWriteBytes_of_length hwf d.toNat hlen, fun q => hslots q List.not_mem_nil, hmem, rfl, hrest, hrng,
    rfl, rfl⟩

end Sys2Proof.Machine
end

section
/-! SUPPORT. The contents octets of a DER integer in closed form (45_sig_format.md R272, R273): the big-endian bytes of the number
in `ceil((minimal_bits + 1) / 8)` bytes, the fewest whose first bit is 0. -/

namespace Sys2Proof.Machine

/-! ## Byte strings -/

/-- Reading across a boundary. -/
theorem memReadBytes_add (m : Memory) (a p q : Nat) :
    memReadBytes m a (p + q) = memReadBytes m a p ++ memReadBytes m (a + p) q := by
  simp [memReadBytes, List.range_add, Nat.add_assoc]

/-- Two byte strings stored one after the other read back each at its place. -/
theorem memReadBytes_memWriteBytes_append {m : Memory} (h : Memory.wf m) (a : Nat) {xs ys : List Byte} {p q : Nat}
    (hp : xs.length = p) (hq : ys.length = q) :
    memReadBytes (memWriteBytes m a (xs ++ ys)) a p = xs ∧ memReadBytes (memWriteBytes m a (xs ++ ys)) (a + p) q = ys := by
  have hlen : (xs ++ ys).length = p + q := by rw [List.length_append, hp, hq]
  have hread := memReadBytes_memWriteBytes_of_length h a hlen
  rw [memReadBytes_add] at hread
  exact List.append_inj hread (by rw [memReadBytes_length, hp])

/-- The most significant byte of a number in front of the others. -/
theorem beBytes_succ_eq_cons (n v : Nat) : beBytes (n + 1) v = BitVec.ofNat 8 (v / 256 ^ n) :: beBytes n v := by
  rw [Nat.add_comm, beBytes_add]
  rfl

/-- The low bytes of a number, its high bytes dropped. -/
theorem beBytes_drop {k n : Nat} (h : k ≤ n) (v : Nat) : (beBytes n v).drop (n - k) = beBytes k v := by
  obtain ⟨d, rfl⟩ := Nat.exists_eq_add_of_le' h
  rw [Nat.add_sub_cancel, beBytes_add, List.drop_left' (beBytes_length _ _)]

theorem beToNat_beBytes_of_lt {n v : Nat} (h : v < 256 ^ n) : beToNat (beBytes n v) = v := by
  rw [beToNat_beBytes, Nat.mod_eq_of_lt h]

/-- The top bit of a byte, tested by a mask. -/
theorem byte_and_0x80_ne_zero_iff : ∀ b : Byte, b &&& 0x80#8 ≠ 0#8 ↔ 128 ≤ b.toNat := by decide

/-- A big integer is a number of as many bytes as its limbs have. -/
theorem limbsValue_lt_bytes {s : State} {ls : List Nat} (h : ∀ l ∈ ls, l < 2 ^ s.limbBits) :
    limbsValue s.limbBits ls < 256 ^ (ls.length * s.limbBytes) := by
  have hlt := limbsValue_lt s.limbBits ls h
  rwa [pow_mul, s.two_pow_limbBits, ← pow_mul, Nat.mul_comm s.limbBytes] at hlt

/-! ## The length of the contents (R273) -/

/-- The number of contents octets: one bit more than the number has, in whole bytes. -/
def derContentsLen (v : Nat) : Nat := (minimalBits v + 8) / 8

/-- The number fits in the contents with their first bit 0. -/
theorem lt_of_derContentsLen_eq_succ {v m : Nat} (h : derContentsLen v = m + 1) : v < 128 * 256 ^ m := by
  have hbits : minimalBits v ≤ 7 + 8 * m := by
    rw [derContentsLen] at h
    omega
  rw [minimalBits_le_iff, pow_add, pow_mul] at hbits
  exact hbits

theorem exists_derContentsLen_eq_succ (v : Nat) : ∃ m, derContentsLen v = m + 1 :=
  Nat.exists_eq_add_one.2 (Nat.div_pos (by omega) (by decide))

theorem lt_pow_derContentsLen (v : Nat) : v < 256 ^ derContentsLen v := by
  obtain ⟨m, hm⟩ := exists_derContentsLen_eq_succ v
  have hlt := lt_of_derContentsLen_eq_succ hm
  rw [hm, pow_succ']
  omega

/-- The first contents octet is below 128, so the INTEGER is not negative (R272). -/
theorem beBytes_derContentsLen_headD_lt (v : Nat) : ((beBytes (derContentsLen v) v).headD 0xFF#8).toNat < 128 := by
  obtain ⟨m, hm⟩ := exists_derContentsLen_eq_succ v
  have hlt := lt_of_derContentsLen_eq_succ hm
  rw [hm, beBytes_succ_eq_cons, List.headD_cons, BitVec.toNat_ofNat]
  exact (Nat.mod_le _ _).trans_lt (Nat.div_lt_of_lt_mul (Nat.mul_comm 128 _ ▸ hlt))

/-! ## The contents (R273): `Nat.log 256 v` is the place of the most significant byte that is not 0 -/

section
variable {n v : Nat} (hv : v ≠ 0)
include hv

theorem pow_log_le_and_lt : 256 ^ Nat.log 256 v ≤ v ∧ v < 256 * 256 ^ Nat.log 256 v :=
  ⟨Nat.pow_log_le_self 256 hv, pow_succ' 256 _ ▸ Nat.lt_pow_succ_log_self (by decide) v⟩

/-- One byte more than the significant ones, when the first of these has its top bit set. -/
theorem derContentsLen_eq : derContentsLen v = Nat.log 256 v + if 128 * 256 ^ Nat.log 256 v ≤ v then 2 else 1 := by
  obtain ⟨hlo, hhi⟩ := pow_log_le_and_lt hv
  have hbits (e : Nat) : minimalBits v ≤ e + 8 * Nat.log 256 v ↔ v < 2 ^ e * 256 ^ Nat.log 256 v := by
    rw [minimalBits_le_iff, pow_add, pow_mul]
    rfl
  have hbits0 := hbits 0
  have hbits7 := hbits 7
  have hbits8 := hbits 8
  rw [derContentsLen]
  split <;> omega

/-- The most significant byte that is not 0. -/
theorem topByte_toNat : (BitVec.ofNat 8 (v / 256 ^ Nat.log 256 v)).toNat = v / 256 ^ Nat.log 256 v := by
  obtain ⟨-, hhi⟩ := pow_log_le_and_lt hv
  rw [BitVec.toNat_ofNat, Nat.mod_eq_of_lt]
  exact Nat.div_lt_of_lt_mul (Nat.mul_comm 256 _ ▸ hhi)

/-- Leading zero bytes end where the most significant byte that is not 0 stands. -/
theorem findIdx_beBytes_ne_zero (hn : Nat.log 256 v ≤ n) :
    (beBytes (n + 1) v).findIdx (· != 0x00#8) = n - Nat.log 256 v := by
  obtain ⟨hlo, -⟩ := pow_log_le_and_lt hv
  refine (List.findIdx_eq (by rw [beBytes_length]; omega)).2 ⟨?_, fun j hj => ?_⟩
  · rw [beBytes_getElem, Nat.add_sub_cancel, Nat.sub_sub_self hn, bne_iff_ne, ne_eq, ← BitVec.toNat_inj, topByte_toNat hv]
    exact (Nat.div_pos hlo (by positivity)).ne'
  · have hplace : v < 256 ^ (n + 1 - 1 - j) := Nat.lt_pow_of_log_lt (by decide) (by omega)
    rw [beBytes_getElem, Nat.div_eq_of_lt hplace]
    rfl

/-- Stripping zeros and putting one back where the top bit asks for it leaves the number in `derContentsLen` bytes. -/
theorem derContents_eq (hlt : v < 256 ^ n) : derContents n v = beBytes (derContentsLen v) v := by
  have hlog : Nat.log 256 v < n := Nat.log_lt_of_lt_pow hv hlt
  have hpos : 0 < 256 ^ Nat.log 256 v := Nat.pow_pos (by decide)
  have hpadded : 0x00#8 :: beBytes n v = beBytes (n + 1) v := by rw [beBytes_succ_eq_cons, Nat.div_eq_of_lt hlt]
  have htop : (beBytes (n + 1) v).getD (n - Nat.log 256 v) 0x00#8 &&& 0x80#8 ≠ 0#8 ↔ 128 * 256 ^ Nat.log 256 v ≤ v := by
    rw [List.getD_eq_getElem _ _ (by rw [beBytes_length]; omega), beBytes_getElem, Nat.add_sub_cancel, Nat.sub_sub_self hlog.le,
      byte_and_0x80_ne_zero_iff, topByte_toNat hv, Nat.le_div_iff_mul_le hpos]
  have hlen := derContentsLen_eq hv
  have hle : derContentsLen v ≤ n + 1 := by split at hlen <;> omega
  rw [← beBytes_drop hle]
  simp only [derContents, hpadded, findIdx_beBytes_ne_zero hv hlog.le, htop]
  congr 1
  rw [hlen]
  split <;> omega

end

/-! ## The whole encoding (R272, R274) -/

section
variable {n r v : Nat} (hr0 : r ≠ 0) (hv0 : v ≠ 0) (hr : r < 256 ^ n) (hv : v < 256 ^ n)
include hr0 hv0 hr hv

theorem derBodyLen_eq : derBodyLen n r v = (2 + derContentsLen r) + (2 + derContentsLen v) := by
  rw [derBodyLen, integerTlv_length, integerTlv_length, derContents_eq hr0 hr, derContents_eq hv0 hv, beBytes_length,
    beBytes_length]

/-- A body in short form has contents in short form. -/
theorem derShort_iff : derShort n r v = true ↔ (2 + derContentsLen r) + (2 + derContentsLen v) < 128 := by
  simp only [derShort, derBodyLen_eq hr0 hv0 hr hv, derContents_eq hr0 hr, derContents_eq hv0 hv, beBytes_length,
    Bool.and_eq_true, decide_eq_true_eq]
  omega

theorem derSignature_eq :
    derSignature n r v =
      [0x30#8, BitVec.ofNat 8 ((2 + derContentsLen r) + (2 + derContentsLen v))] ++
        ([0x02#8, BitVec.ofNat 8 (derContentsLen r)] ++ beBytes (derContentsLen r) r) ++
        ([0x02#8, BitVec.ofNat 8 (derContentsLen v)] ++ beBytes (derContentsLen v) v) := by
  simp [derSignature, integerTlv, derSequenceTag, derIntegerTag, derBodyLen_eq hr0 hv0 hr hv, derContents_eq hr0 hr,
    derContents_eq hv0 hv]

end

end Sys2Proof.Machine
end

section
/-! SUPPORT. One equation for each end of the signature formatter's commands (45_sig_format.md R271, R274). -/

namespace Sys2Proof.Machine

variable {s : State} {rs1 rs2 : Slot} {addr : Word}

/-- A command that stores a byte string and writes a number to `RES` changes nothing else (R271, R274). -/
theorem changesOnly_store_setRes_complete (s : State) (a : Nat) (res : BitVec 64) {bs : List Byte} {n : Nat}
    (hn : bs.length = n) : changesOnly [] ⟨a, n⟩ s (((s.store a bs).setRes res).complete .ok) :=
  changesOnly_complete (changesOnly_setRes (changesOnly_store (changesOnly_refl _ _ s) le_rfl
    (Nat.add_le_add_left hn.le a)) _) .ok

section
variable (hkind : (∀ r, s.slot rs1 ≠ .limbs r) ∨ ∀ v, s.slot rs2 ≠ .limbs v)
include hkind

theorem execSgFixed_of_badSlotKind : execSgFixed rs1 rs2 addr s = trap (.sgFixed rs1 rs2 addr) .badSlotKind s := by
  rw [execSgFixed, State.limbsPairIn_eq_none.2 hkind]

theorem execSgAsn1_of_badSlotKind : execSgAsn1 rs1 rs2 addr s = trap (.sgAsn1 rs1 rs2 addr) .badSlotKind s := by
  rw [execSgAsn1, State.limbsPairIn_eq_none.2 hkind]

end

variable {r v : List Nat} (hr : s.slot rs1 = .limbs r) (hv : s.slot rs2 = .limbs v)
include hr hv

theorem execSgFixed_of_badLength (hlen : r.length ≠ v.length) :
    execSgFixed rs1 rs2 addr s = trap (.sgFixed rs1 rs2 addr) .badLength s := by
  simp only [execSgFixed, State.limbsPairIn_eq_some.2 ⟨hr, hv⟩]
  rw [if_pos hlen]

theorem execSgAsn1_of_badLength (hlen : r.length ≠ v.length) :
    execSgAsn1 rs1 rs2 addr s = trap (.sgAsn1 rs1 rs2 addr) .badLength s := by
  simp only [execSgAsn1, State.limbsPairIn_eq_some.2 ⟨hr, hv⟩]
  rw [if_pos hlen]

variable (hlen : r.length = v.length)
include hlen

/-- With both scalars of one length, the check that is left. -/
theorem execSgFixed_of_lengths :
    execSgFixed rs1 rs2 addr s =
      if s.cfg.memSize < addr.toNat + 2 * (r.length * s.limbBytes) then trap (.sgFixed rs1 rs2 addr) .badAddress s
      else succeed ((s.store addr.toNat
          (fixedSignature (r.length * s.limbBytes) (limbsValue s.limbBits r) (limbsValue s.limbBits v))).setRes
        (resOfNat s.cfg.limbWidth (2 * (r.length * s.limbBytes)))) := by
  simp only [execSgFixed, State.limbsPairIn_eq_some.2 ⟨hr, hv⟩, State.validRange_iff, not_le]
  rw [if_neg (not_not.2 hlen)]

theorem execSgAsn1_of_zeroScalar (hzero : limbsValue s.limbBits r = 0 ∨ limbsValue s.limbBits v = 0) :
    execSgAsn1 rs1 rs2 addr s = trap (.sgAsn1 rs1 rs2 addr) .zeroScalar s := by
  simp only [execSgAsn1, State.limbsPairIn_eq_some.2 ⟨hr, hv⟩]
  rw [if_neg (not_not.2 hlen), if_pos hzero]

/-- With both scalars of one length and neither 0, the checks that are left. -/
theorem execSgAsn1_of_scalars (hlr : ∀ l ∈ r, l < 2 ^ s.limbBits) (hlv : ∀ l ∈ v, l < 2 ^ s.limbBits) {rv sv body : Nat}
    (hrv : limbsValue s.limbBits r = rv) (hsv : limbsValue s.limbBits v = sv) (hrv0 : rv ≠ 0) (hsv0 : sv ≠ 0)
    (hbody : (2 + derContentsLen rv) + (2 + derContentsLen sv) = body) :
    execSgAsn1 rs1 rs2 addr s =
      if 128 ≤ body then trap (.sgAsn1 rs1 rs2 addr) .derTooLong s
      else if s.cfg.memSize < addr.toNat + (2 + body) then trap (.sgAsn1 rs1 rs2 addr) .badAddress s
      else succeed ((s.store addr.toNat (derSignature (r.length * s.limbBytes) rv sv)).setRes
        (resOfNat s.cfg.limbWidth (2 + body))) := by
  subst hrv hsv hbody
  have hltr := limbsValue_lt_bytes hlr
  have hltv := limbsValue_lt_bytes hlv
  rw [← hlen] at hltv
  simp only [execSgAsn1, State.limbsPairIn_eq_some.2 ⟨hr, hv⟩, derShort_iff hrv0 hsv0 hltr hltv,
    derBodyLen_eq hrv0 hsv0 hltr hltv, State.validRange_iff, not_lt, not_le]
  rw [if_neg (not_not.2 hlen), if_neg (not_or.2 ⟨hrv0, hsv0⟩)]

end Sys2Proof.Machine
end

section
/-! The signature formatter: the statements of 45_sig_format.md. -/

namespace Sys2Proof.Machine

/-- Settles O48: the two halves of what is stored are the scalars in the width of their limbs, which holds them whole. -/
theorem sgFixedStoresScalars : Obligations.SgFixedStoresScalars := by
  intro s rs1 rs2 addr hwf
  refine ⟨rfl, execSgFixed_of_badSlotKind, fun r v hr hv hcount hlr hlv => ?_⟩
  intro n
  refine ⟨execSgFixed_of_badLength hr hv, fun hlen hout => (execSgFixed_of_lengths hr hv hlen).trans (if_pos hout),
    fun hlen hin => ?_⟩
  have hltr := limbsValue_lt_bytes hlr
  have hltv := limbsValue_lt_bytes hlv
  rw [← hlen] at hltv
  have hres : 2 * n < 2 ^ 32 := by
    have hcap : r.length * s.limbBits ≤ 255 * 64 := Nat.mul_le_mul hcount s.limbBits_le
    rw [s.limbBits_eq, Nat.mul_left_comm] at hcap
    omega
  obtain ⟨hreadr, hreadv⟩ := memReadBytes_memWriteBytes_append hwf addr.toNat
    (beBytes_length n (limbsValue s.limbBits r)) (beBytes_length n (limbsValue s.limbBits v))
  exact ⟨_, (execSgFixed_of_lengths hr hv hlen).trans (if_neg hin.not_gt),
    (congrArg beToNat hreadr).trans (beToNat_beBytes_of_lt hltr), (congrArg beToNat hreadv).trans (beToNat_beBytes_of_lt hltv),
    resOfNat_toNat hres, changesOnly_store_setRes_complete s _ _ (fixedSignature_length _ _ _), rfl, rfl⟩

/-- Settles O49: the contents of each INTEGER are its scalar in the fewest bytes whose first bit is 0, and the checks of the
command are those of the lengths that follow from it. -/
theorem sgAsn1StoresDer : Obligations.SgAsn1StoresDer := by
  intro s rs1 rs2 addr hwf
  refine ⟨rfl, execSgAsn1_of_badSlotKind, fun r v hr hv hlr hlv => ?_⟩
  intro rv sv lr ls body
  have hends (hlen : r.length = v.length) (hrv : rv ≠ 0) (hsv : sv ≠ 0) :=
    execSgAsn1_of_scalars (addr := addr) hr hv hlen hlr hlv (rv := rv) (sv := sv) (body := body) rfl rfl hrv hsv rfl
  refine ⟨execSgAsn1_of_badLength hr hv, execSgAsn1_of_zeroScalar hr hv,
    fun hlen hrv hsv hlong => (hends hlen hrv hsv).trans (if_pos hlong),
    fun hlen hrv hsv hshort hout => (hends hlen hrv hsv).trans ((if_neg hshort.not_ge).trans (if_pos hout)),
    fun hlen hrv hsv hshort hin => ?_⟩
  have hltr : rv < 256 ^ (r.length * s.limbBytes) := limbsValue_lt_bytes hlr
  have hltv : sv < 256 ^ (r.length * s.limbBytes) := hlen ▸ limbsValue_lt_bytes hlv
  have hstored : (derSignature (r.length * s.limbBytes) rv sv).length = 2 + body := by
    rw [derSignature_length, derBodyLen_eq hrv hsv hltr hltv]
    rfl
  have hres : 2 + body < 2 ^ 32 := by omega
  exact ⟨_, beBytes lr rv, beBytes ls sv, (hends hlen hrv hsv).trans ((if_neg hshort.not_ge).trans (if_neg hin.not_gt)),
    (memReadBytes_memWriteBytes_of_length hwf _ hstored).trans (derSignature_eq hrv hsv hltr hltv),
    beBytes_length _ _, beToNat_beBytes_of_lt (lt_pow_derContentsLen rv), beBytes_derContentsLen_headD_lt rv,
    beBytes_length _ _, beToNat_beBytes_of_lt (lt_pow_derContentsLen sv), beBytes_derContentsLen_headD_lt sv,
    resOfNat_toNat hres, changesOnly_store_setRes_complete s _ _ hstored, rfl, rfl⟩

end Sys2Proof.Machine
end

section
/-! SUPPORT. The first fault check of a command (60_exceptions.md R309): its source slots must hold the kinds it requires. -/

namespace Sys2Proof.Machine

theorem objIs_empty (k : Kind) : objIs k .empty = false := by cases k <;> rfl

variable {i : Instr} {s : State}

/-- A slot that fails the one kind check of a command holds no object of that kind. -/
theorem slot_ne_of_sourcesOk_eq_false (h : sourcesOk i s = false) {r : Slot} {k : Kind} (hsrc : sources i = [(r, k)])
    {α : Type} {mk : α → Obj} (hmk : ∀ x, objIs k (mk x) = true) (x : α) : s.slot r ≠ mk x := by
  intro hx
  simp [sourcesOk, hsrc, hx, hmk] at h

/-- One of the two slots of a command on two big integers holds none when a kind check fails. -/
theorem slot_ne_limbs_of_sourcesOk_eq_false (h : sourcesOk i s = false) {a b : Slot}
    (hsrc : sources i = [(a, .limbs), (b, .limbs)]) :
    (∀ x, s.slot a ≠ .limbs x) ∨ ∀ y, s.slot b ≠ .limbs y := by
  by_contra hboth
  obtain ⟨⟨x, hx⟩, y, hy⟩ : (∃ x, s.slot a = .limbs x) ∧ ∃ y, s.slot b = .limbs y := by simpa using hboth
  simp [sourcesOk, hsrc, hx, hy, objIs] at h

/-- A command one of whose source slots holds another kind than it requires faults with `BAD_SLOT_KIND` (10_state.md R30). -/
theorem exec_of_sourcesOk_eq_false (h : sourcesOk i s = false) : exec i s = trap i .badSlotKind s := by
  have hone {r k} := slot_ne_of_sourcesOk_eq_false h (r := r) (k := k)
  have htwo {a b} := slot_ne_limbs_of_sourcesOk_eq_false h (a := a) (b := b)
  cases i with
  | slFree | dgInit | hmKey | lbParse | ecNkey => simp [sourcesOk, sources] at h
  | dgUpdate => exact execDgUpdate_of_badSlotKind (hone rfl fun _ => rfl)
  | dgFinish => exact execDgFinish_of_badSlotKind (hone rfl fun _ => rfl)
  | dgRead => exact execDgRead_of_badSlotKind (hone rfl fun _ => rfl)
  | ctVerify => exact execCtVerify_of_badSlotKind (hone rfl fun _ => rfl)
  | hmInit => exact execHmInit_of_badSlotKind (hone rfl fun _ => rfl)
  | hmUpdate => exact execHmUpdate_of_badSlotKind (hone rfl fun _ => rfl)
  | hmSign => exact execHmSign_of_badSlotKind (hone rfl fun _ => rfl)
  | hkExpand => exact execHkExpand_of_badSlotKind (hone rfl fun _ => rfl)
  | lbFormat => exact execLbFormat_of_badSlotKind (hone rfl fun _ => rfl)
  | lbEq => exact execLbEq_of_badSlotKind (htwo rfl)
  | lbLt => exact execLbLt_of_badSlotKind (htwo rfl)
  | lbZero => exact execLbZero_of_badSlotKind (hone rfl fun _ => rfl)
  | lbEven => exact execLbEven_of_badSlotKind (hone rfl fun _ => rfl)
  | lbEqlimb => exact execLbEqlimb_of_badSlotKind (hone rfl fun _ => rfl)
  | lbReduce => exact execLbReduce_of_badSlotKind (htwo rfl)
  | lbMinbits => exact execLbMinbits_of_badSlotKind (hone rfl fun _ => rfl)
  | lbFold5 => exact execLbFold5_of_badSlotKind (hone rfl fun _ => rfl)
  | ecNonce => exact execEcNonce_of_badSlotKind (hone rfl fun _ => rfl)
  | sgFixed => exact execSgFixed_of_badSlotKind (htwo rfl)
  | sgAsn1 => exact execSgAsn1_of_badSlotKind (htwo rfl)

/-- An empty slot satisfies no kind check. -/
theorem sourcesOk_of_empty {r : Slot} {k : Kind} (hempty : s.slot r = .empty) (hmem : (r, k) ∈ sources i) :
    sourcesOk i s = false :=
  List.all_eq_false.2 ⟨(r, k), hmem, by simp [hempty, objIs_empty]⟩

end Sys2Proof.Machine
end

section
/-! SUPPORT. What two states that differ at most inside keys, Contexts and nonce keys (46_system.md R292) have in common: which
sources a command finds, and every check it makes on them. -/

namespace Sys2Proof.Machine

section
variable {s t : State} (h : sealedEq s t) (r : Slot)
include h

/-- The public part of a slot's object is the same in both states. -/
theorem sealedEq.publicObj_eq : publicObj (s.slot r) = publicObj (t.slot r) := by
  obtain ⟨hslots, -⟩ := h
  rcases hslots r with heq | ⟨-, -, hpub⟩
  · rw [heq]
  · exact hpub

/-- An object that is no key, Context or nonce key stands in a slot of both states or of neither. -/
theorem sealedEq.slot_eq_iff {o : Obj} (ho : sealedObj o = false) : t.slot r = o ↔ s.slot r = o := by
  obtain ⟨hslots, -⟩ := h
  rcases hslots r with heq | ⟨hs, ht, -⟩
  · rw [heq]
  · exact iff_of_false (fun e => by simp [e, ho] at ht) (fun e => by simp [e, ho] at hs)

theorem sealedEq.digestValIn_eq : t.digestValIn r = s.digestValIn r :=
  Option.ext fun d => by rw [State.digestValIn_eq_some, State.digestValIn_eq_some, h.slot_eq_iff r rfl]

theorem sealedEq.limbsIn_eq : t.limbsIn r = s.limbsIn r :=
  Option.ext fun ls => by rw [State.limbsIn_eq_some, State.limbsIn_eq_some, h.slot_eq_iff r rfl]

theorem sealedEq.limbsPairIn_eq (a b : Slot) : t.limbsPairIn a b = s.limbsPairIn a b := by
  rw [State.limbsPairIn, State.limbsPairIn, h.limbsIn_eq, h.limbsIn_eq]

/-- A source slot of a sealed kind holds such an object in both states, with the same public part, or in neither: the public
part says the kind. -/
theorem sealedEq.source_cases {α : Type} {mk : α → Obj} {read : State → Slot → Option α}
    (hread : ∀ u x, read u r = some x ↔ u.slot r = mk x)
    (hkind : ∀ x o, publicObj (mk x) = publicObj o → ∃ y, o = mk y) :
    (read s r = none ∧ read t r = none) ∨
    ∃ x y, read s r = some x ∧ read t r = some y ∧ publicObj (mk x) = publicObj (mk y) := by
  have hpub := h.publicObj_eq r
  cases hs : read s r with
  | some x =>
    rw [(hread s x).1 hs] at hpub
    obtain ⟨y, hy⟩ := hkind x _ hpub
    exact .inr ⟨x, y, rfl, (hread t y).2 hy, hy ▸ hpub⟩
  | none =>
    refine .inl ⟨rfl, Option.eq_none_iff_forall_ne_some.2 fun y ht => ?_⟩
    rw [(hread t y).1 ht] at hpub
    obtain ⟨x, hx⟩ := hkind y _ hpub.symm
    simp [(hread s x).2 hx] at hs

theorem sealedEq.digestCtxIn_cases :
    (s.digestCtxIn r = none ∧ t.digestCtxIn r = none) ∨
    ∃ c d, s.digestCtxIn r = some c ∧ t.digestCtxIn r = some d ∧ publicObj (.digestCtx c) = publicObj (.digestCtx d) :=
  h.source_cases r (fun _ _ => State.digestCtxIn_eq_some) fun _ o ho => by cases o <;> simp [publicObj] at ho ⊢

theorem sealedEq.hmacKeyIn_cases :
    (s.hmacKeyIn r = none ∧ t.hmacKeyIn r = none) ∨
    ∃ k l, s.hmacKeyIn r = some k ∧ t.hmacKeyIn r = some l ∧ publicObj (.hmacKey k) = publicObj (.hmacKey l) :=
  h.source_cases r (fun _ _ => State.hmacKeyIn_eq_some) fun _ o ho => by cases o <;> simp [publicObj] at ho ⊢

theorem sealedEq.hmacCtxIn_cases :
    (s.hmacCtxIn r = none ∧ t.hmacCtxIn r = none) ∨
    ∃ c d, s.hmacCtxIn r = some c ∧ t.hmacCtxIn r = some d ∧ publicObj (.hmacCtx c) = publicObj (.hmacCtx d) :=
  h.source_cases r (fun _ _ => State.hmacCtxIn_eq_some) fun _ o ho => by cases o <;> simp [publicObj] at ho ⊢

theorem sealedEq.nonceKeyIn_cases :
    (s.nonceKeyIn r = none ∧ t.nonceKeyIn r = none) ∨
    ∃ k l, s.nonceKeyIn r = some k ∧ t.nonceKeyIn r = some l ∧ publicObj (.nonceKey k) = publicObj (.nonceKey l) :=
  h.source_cases r (fun _ _ => State.nonceKeyIn_eq_some) fun _ o ho => by cases o <;> simp [publicObj] at ho ⊢

end

/-! ## The checks on a source look at its public part only -/

theorem blockFinishFault_eq_of_public {b b' : BlockCtx} (halg : b.alg = b'.alg) (hn : b.nblocks = b'.nblocks) (n : Nat) :
    blockFinishFault b n = blockFinishFault b' n := by
  unfold blockFinishFault finishBits
  rw [halg, hn]

section
variable {c d : DigestCtx} (hpub : publicObj (.digestCtx c) = publicObj (.digestCtx d))
include hpub

theorem updateFits_eq_of_public (len : Nat) : updateFits c len = updateFits d len := by
  obtain ⟨halg, hn, hlen⟩ := PublicObj.digestCtx.inj hpub
  simp only [updateFits, halg, hn, hlen]

theorem finishFault_eq_of_public :
    blockFinishFault c.block c.pending.length = blockFinishFault d.block d.pending.length := by
  obtain ⟨halg, hn, hlen⟩ := PublicObj.digestCtx.inj hpub
  rw [hlen, blockFinishFault_eq_of_public halg hn]

end

section
variable {c d : HmacCtx} (hpub : publicObj (.hmacCtx c) = publicObj (.hmacCtx d))
include hpub

/-- The inner Contexts of two HMAC Contexts with the same public part have the same public part. -/
theorem publicObj_inner_eq : publicObj (.digestCtx c.inner) = publicObj (.digestCtx d.inner) := by
  obtain ⟨-, halg, -, hn, -, hlen⟩ := PublicObj.hmacCtx.inj hpub
  rw [publicObj, publicObj, halg, hn, hlen]

theorem hmacSignFault_eq_of_public : hmacSignFault c = hmacSignFault d := by
  obtain ⟨-, hinner, houter, -, hn, -⟩ := PublicObj.hmacCtx.inj hpub
  rw [hmacSignFault, hmacSignFault, finishFault_eq_of_public (publicObj_inner_eq hpub), hinner,
    blockFinishFault_eq_of_public houter hn]

end

end Sys2Proof.Machine
end

section
/-! SUPPORT. Two runs of one command, in lockstep, on states that differ at most inside keys, Contexts and nonce keys (46_system.md
R292): what the host can see of the two results outside the slots, with one rule for each way a command ends. -/

namespace Sys2Proof.Machine

/-- Two states that look the same from outside the slots: their registers hold the same, and so does `MEM`, but for an output
range if one is given. -/
def LooksSame (out : Option MemRange) (s t : State) : Prop :=
  sameRegisters s t ∧ (out = none → s.mem = t.mem) ∧
  ∀ g, out = some g → ∀ a : Nat, ¬ (g.addr ≤ a ∧ a < g.addr + g.len) → memRead s.mem a = memRead t.mem a

/-- Two results of a command that look the same from outside the slots: both stop for one reason, or both next states do. -/
inductive ResultsLookSame (out : Option MemRange) : Result → Result → Prop
  | next {s t : State} (h : LooksSame out s t) : ResultsLookSame out (.next s) (.next t)
  | stop (f : Fault) : ResultsLookSame out (.fault f) (.fault f)

section
variable {out : Option MemRange} {s : State} {v : Vector Obj 16}

/-- The slots are not looked at. -/
theorem LooksSame.slots : LooksSame out s { s with slots := v } :=
  ⟨⟨rfl, rfl, rfl, rfl, rfl, rfl, rfl, rfl⟩, fun _ => rfl, fun _ _ _ _ => rfl⟩

/-- Bytes stored from the start of the output range on are not looked at, if they fit. -/
theorem LooksSame.store_output {g : MemRange} {bs bs' : List Byte} (hbs : bs.length ≤ g.len) (hbs' : bs'.length ≤ g.len) :
    LooksSame (some g) (s.store g.addr bs) (State.store { s with slots := v } g.addr bs') := by
  refine ⟨⟨rfl, rfl, rfl, rfl, rfl, rfl, rfl, rfl⟩, nofun, ?_⟩
  rintro _ ⟨⟩ a ha
  rw [State.store_mem, State.store_mem, memRead_memWriteBytes_outside (by omega), memRead_memWriteBytes_outside (by omega)]

theorem LooksSame.complete {t : State} (h : LooksSame out s t) (c : ErrCode) :
    LooksSame out (s.complete c) (t.complete c) := by
  obtain ⟨⟨hres, -, hfault, hcmd, hseq, hcount, hrest⟩, hmem⟩ := h
  exact ⟨⟨hres, rfl, hfault, hcmd, hseq, congrArg (· + 1#32) hcount, hrest⟩, hmem⟩

section
variable {i : Instr} {c : FaultCode} {e : ErrCode}

theorem ResultsLookSame.of_trap : ResultsLookSame out (trap i c s) (trap i c { s with slots := v }) := .next .slots

theorem ResultsLookSame.of_failWith : ResultsLookSame out (failWith e s) (failWith e { s with slots := v }) := .next .slots

theorem ResultsLookSame.of_succeed {t : State} (h : LooksSame out s t) : ResultsLookSame out (succeed s) (succeed t) :=
  .next (h.complete .ok)

theorem ResultsLookSame.of_succeed_slots : ResultsLookSame out (succeed s) (succeed { s with slots := v }) := .next .slots

theorem ResultsLookSame.of_succeedMask {b : Bool} :
    ResultsLookSame out (succeedMask s b) (succeedMask { s with slots := v } b) :=
  .next .slots

/-- A condition that decides both runs. -/
theorem ResultsLookSame.of_ite {p : Prop} [Decidable p] {x y x' y' : Result} (hp : ResultsLookSame out x x')
    (hn : ¬ p → ResultsLookSame out y y') : ResultsLookSame out (if p then x else y) (if p then x' else y') := by
  by_cases h : p
  · simpa only [if_pos h] using hp
  · simpa only [if_neg h] using hn h

/-- A fault check that both runs make alike (60_exceptions.md R309). -/
theorem ResultsLookSame.of_check {p : Prop} [Decidable p] {x x' : Result} (h : ResultsLookSame out x x') :
    ResultsLookSame out (if p then trap i c s else x) (if p then trap i c { s with slots := v } else x') :=
  .of_ite .of_trap fun _ => h

/-- A recoverable error that both runs end with or neither (R310). -/
theorem ResultsLookSame.of_error {p : Prop} [Decidable p] {x x' : Result} (h : ResultsLookSame out x x') :
    ResultsLookSame out (if p then failWith e s else x) (if p then failWith e { s with slots := v } else x') :=
  .of_ite .of_failWith fun _ => h

end

/-- The random source answers both runs alike. -/
theorem rngFill_slots_cases (n : Nat) (s : State) (v : Vector Obj 16) :
    (rngFill n s = .never ∧ rngFill n { s with slots := v } = .never) ∨
    (rngFill n s = .fail s.afterRequest ∧
      rngFill n { s with slots := v } = .fail (State.afterRequest { s with slots := v })) ∨
    ∃ rand, rngFill n s = .ok rand s.afterRequest ∧
      rngFill n { s with slots := v } = .ok rand (State.afterRequest { s with slots := v }) := by
  simp only [rngFill, State.afterRequest]
  cases s.rngScript with
  | nil => cases Config.rngFails s.rngDraws <;> simp
  | cons answer _ => cases answer <;> simp

/-- Both runs end alike after a request to the random source, if its bytes have effects that look the same. -/
theorem ResultsLookSame.of_endWithReply {n : Nat} {c : ErrCode} {effect effect' : List Byte → State → State}
    (h : ∀ rand, LooksSame out (effect rand s.afterRequest) (effect' rand { s.afterRequest with slots := v })) :
    ResultsLookSame out (endWithReply c effect (rngFill n s)) (endWithReply c effect' (rngFill n { s with slots := v })) := by
  rcases rngFill_slots_cases n s v with ⟨hs, ht⟩ | ⟨hs, ht⟩ | ⟨rand, hs, ht⟩ <;> rw [hs, ht]
  · exact .stop _
  · exact .of_failWith
  · exact .of_succeed (h rand)

end

/-! ## Each command -/

section
variable {out : Option MemRange} {s : State} {v : Vector Obj 16}

theorem execEcNkey_resultsLookSame (rd : Slot) (alg : AlgId) (addr len : Word) :
    ResultsLookSame out (execEcNkey rd alg addr len s) (execEcNkey rd alg addr len { s with slots := v }) := by
  by_cases hlen : 1 ≤ len.toNat ∧ len.toNat ≤ 64
  · rw [execEcNkey_of_length hlen, execEcNkey_of_length hlen]
    exact .of_check <| .of_endWithReply fun _ => .slots
  · rw [execEcNkey_of_badLength hlen, execEcNkey_of_badLength hlen]
    exact .of_trap

variable (h : sealedEq s { s with slots := v })
include h

theorem execDgUpdate_resultsLookSame (rd : Slot) (addr len : Word) :
    ResultsLookSame out (execDgUpdate rd addr len s) (execDgUpdate rd addr len { s with slots := v }) := by
  unfold execDgUpdate
  rcases h.digestCtxIn_cases rd with ⟨hs, ht⟩ | ⟨c, d, hs, ht, hpub⟩ <;> simp only [hs, ht]
  · exact .of_trap
  · rw [updateFits_eq_of_public hpub]
    exact .of_check <| .of_check .of_succeed_slots

theorem execDgFinish_resultsLookSame (rd rs1 : Slot) :
    ResultsLookSame out (execDgFinish rd rs1 s) (execDgFinish rd rs1 { s with slots := v }) := by
  unfold execDgFinish
  rcases h.digestCtxIn_cases rs1 with ⟨hs, ht⟩ | ⟨c, d, hs, ht, hpub⟩ <;> simp only [hs, ht]
  · exact .of_trap
  · rw [finishFault_eq_of_public hpub]
    cases blockFinishFault d.block d.pending.length with
    | some f => exact .of_trap
    | none => exact .of_succeed_slots

theorem execDgRead_resultsLookSame (rs1 : Slot) (addr : Word) :
    ResultsLookSame out (execDgRead rs1 addr s) (execDgRead rs1 addr { s with slots := v }) := by
  unfold execDgRead
  rw [h.digestValIn_eq rs1]
  cases s.digestValIn rs1 with
  | none => exact .of_trap
  | some d => exact .of_check .of_succeed_slots

theorem execCtVerify_resultsLookSame (rs1 : Slot) (addr len : Word) :
    ResultsLookSame out (execCtVerify rs1 addr len s) (execCtVerify rs1 addr len { s with slots := v }) := by
  unfold execCtVerify
  rw [h.digestValIn_eq rs1]
  cases s.digestValIn rs1 with
  | none => exact .of_trap
  | some d => exact .of_check <| .of_error <| .of_error .of_succeed_slots

theorem execHmInit_resultsLookSame (rd rs1 : Slot) :
    ResultsLookSame out (execHmInit rd rs1 s) (execHmInit rd rs1 { s with slots := v }) := by
  unfold execHmInit
  rcases h.hmacKeyIn_cases rs1 with ⟨hs, ht⟩ | ⟨k, l, hs, ht, -⟩ <;> simp only [hs, ht]
  · exact .of_trap
  · exact .of_succeed_slots

theorem execHmUpdate_resultsLookSame (rd : Slot) (addr len : Word) :
    ResultsLookSame out (execHmUpdate rd addr len s) (execHmUpdate rd addr len { s with slots := v }) := by
  unfold execHmUpdate
  rcases h.hmacCtxIn_cases rd with ⟨hs, ht⟩ | ⟨c, d, hs, ht, hpub⟩ <;> simp only [hs, ht]
  · exact .of_trap
  · rw [updateFits_eq_of_public (publicObj_inner_eq hpub)]
    exact .of_check <| .of_check .of_succeed_slots

theorem execHmSign_resultsLookSame (rd rs1 : Slot) :
    ResultsLookSame out (execHmSign rd rs1 s) (execHmSign rd rs1 { s with slots := v }) := by
  unfold execHmSign
  rcases h.hmacCtxIn_cases rs1 with ⟨hs, ht⟩ | ⟨c, d, hs, ht, hpub⟩ <;> simp only [hs, ht]
  · exact .of_trap
  · rw [hmacSignFault_eq_of_public hpub]
    cases hmacSignFault d with
    | some f => exact .of_trap
    | none => exact .of_succeed_slots

/-- The two outputs are as long as the range asked for, or shorter, whatever the keys. -/
theorem execHkExpand_resultsLookSame (rs1 : Slot) (tab n out outLen bigL : Word) :
    ResultsLookSame (some (wordRange out outLen)) (execHkExpand rs1 tab n out outLen bigL s)
      (execHkExpand rs1 tab n out outLen bigL { s with slots := v }) := by
  unfold execHkExpand
  rcases h.hmacKeyIn_cases rs1 with ⟨hs, ht⟩ | ⟨k, l, hs, ht, hpub⟩ <;> simp only [hs, ht]
  · exact .of_trap
  · obtain ⟨halg, -⟩ := PublicObj.hmacKey.inj hpub
    rw [halg]
    refine .of_check <| .of_check <| .of_check <| .of_check <| .of_check <| .of_ite .of_failWith fun hlen =>
      .of_error <| .of_succeed ?_
    obtain rfl := not_not.1 hlen
    exact .store_output (hkdfFill_length_le _ _ _ _) (hkdfFill_length_le _ _ _ _)

theorem execLbFormat_resultsLookSame (rs1 : Slot) (addr len : Word) :
    ResultsLookSame out (execLbFormat rs1 addr len s) (execLbFormat rs1 addr len { s with slots := v }) := by
  unfold execLbFormat
  rw [h.limbsIn_eq rs1]
  cases s.limbsIn rs1 with
  | none => exact .of_trap
  | some a => exact .of_check <| .of_check .of_succeed_slots

theorem execLbEq_resultsLookSame (rs1 rs2 : Slot) :
    ResultsLookSame out (execLbEq rs1 rs2 s) (execLbEq rs1 rs2 { s with slots := v }) := by
  unfold execLbEq
  rw [h.limbsPairIn_eq rs1 rs2]
  cases s.limbsPairIn rs1 rs2 with
  | none => exact .of_trap
  | some ab => exact .of_check .of_succeedMask

theorem execLbLt_resultsLookSame (rs1 rs2 : Slot) :
    ResultsLookSame out (execLbLt rs1 rs2 s) (execLbLt rs1 rs2 { s with slots := v }) := by
  unfold execLbLt
  rw [h.limbsPairIn_eq rs1 rs2]
  cases s.limbsPairIn rs1 rs2 with
  | none => exact .of_trap
  | some ab => exact .of_check .of_succeedMask

theorem execLbZero_resultsLookSame (rs1 : Slot) :
    ResultsLookSame out (execLbZero rs1 s) (execLbZero rs1 { s with slots := v }) := by
  unfold execLbZero
  rw [h.limbsIn_eq rs1]
  cases s.limbsIn rs1 with
  | none => exact .of_trap
  | some a => exact .of_succeedMask

theorem execLbEven_resultsLookSame (rs1 : Slot) :
    ResultsLookSame out (execLbEven rs1 s) (execLbEven rs1 { s with slots := v }) := by
  unfold execLbEven
  rw [h.limbsIn_eq rs1]
  cases s.limbsIn rs1 with
  | none => exact .of_trap
  | some a => exact .of_succeedMask

theorem execLbEqlimb_resultsLookSame (rs1 : Slot) (lo hi : Word) :
    ResultsLookSame out (execLbEqlimb rs1 lo hi s) (execLbEqlimb rs1 lo hi { s with slots := v }) := by
  unfold execLbEqlimb
  rw [h.limbsIn_eq rs1]
  cases s.limbsIn rs1 with
  | none => exact .of_trap
  | some a => exact .of_check .of_succeedMask

theorem execLbReduce_resultsLookSame (rd rs2 : Slot) :
    ResultsLookSame out (execLbReduce rd rs2 s) (execLbReduce rd rs2 { s with slots := v }) := by
  unfold execLbReduce
  rw [h.limbsPairIn_eq rd rs2]
  cases s.limbsPairIn rd rs2 with
  | none => exact .of_trap
  | some rm => exact .of_check .of_succeed_slots

theorem execLbMinbits_resultsLookSame (rs1 : Slot) :
    ResultsLookSame out (execLbMinbits rs1 s) (execLbMinbits rs1 { s with slots := v }) := by
  unfold execLbMinbits
  rw [h.limbsIn_eq rs1]
  cases s.limbsIn rs1 with
  | none => exact .of_trap
  | some a => exact .of_succeed_slots

theorem execLbFold5_resultsLookSame (rs1 : Slot) (addr : Word) :
    ResultsLookSame out (execLbFold5 rs1 addr s) (execLbFold5 rs1 addr { s with slots := v }) := by
  unfold execLbFold5
  rw [h.limbsIn_eq rs1]
  cases s.limbsIn rs1 with
  | none => exact .of_trap
  | some a => exact .of_check .of_succeed_slots

/-- The two outputs are as long as the range asked for, whatever the nonce keys. -/
theorem execEcNonce_resultsLookSame (rs1 : Slot) (ma ml d dl : Word) :
    ResultsLookSame (some (wordRange d dl)) (execEcNonce rs1 ma ml d dl s)
      (execEcNonce rs1 ma ml d dl { s with slots := v }) := by
  rcases h.nonceKeyIn_cases rs1 with ⟨hs, ht⟩ | ⟨k, l, hs, ht, hpub⟩
  · rw [execEcNonce_of_badSlotKind (State.nonceKeyIn_eq_none.1 hs), execEcNonce_of_badSlotKind (State.nonceKeyIn_eq_none.1 ht)]
    exact .of_trap
  have halg : k.alg = l.alg := PublicObj.nonceKey.inj hpub
  have hk := State.nonceKeyIn_eq_some.1 hs
  have hl := State.nonceKeyIn_eq_some.1 ht
  by_cases hlen : ml.toNat = outputLen k.alg ∧ dl.toNat = outputLen k.alg
  · obtain ⟨hml, hdl⟩ := hlen
    rw [execEcNonce_of_lengths hk hml hdl, execEcNonce_of_lengths hl (halg ▸ hml) (halg ▸ hdl), halg]
    refine .of_check <| .of_check <| .of_endWithReply fun _ => .store_output ?_ ?_
    · rw [nonceFill_length, wordRange_len, hdl]
    · rw [nonceFill_length, wordRange_len, hdl, halg]
  · rw [not_and_or] at hlen
    rw [execEcNonce_of_badLength hk hlen, execEcNonce_of_badLength hl (halg ▸ hlen)]
    exact .of_trap

theorem execSgFixed_resultsLookSame (rs1 rs2 : Slot) (addr : Word) :
    ResultsLookSame out (execSgFixed rs1 rs2 addr s) (execSgFixed rs1 rs2 addr { s with slots := v }) := by
  unfold execSgFixed
  rw [h.limbsPairIn_eq rs1 rs2]
  cases s.limbsPairIn rs1 rs2 with
  | none => exact .of_trap
  | some rv => exact .of_check <| .of_check .of_succeed_slots

theorem execSgAsn1_resultsLookSame (rs1 rs2 : Slot) (addr : Word) :
    ResultsLookSame out (execSgAsn1 rs1 rs2 addr s) (execSgAsn1 rs1 rs2 addr { s with slots := v }) := by
  unfold execSgAsn1
  rw [h.limbsPairIn_eq rs1 rs2]
  cases s.limbsPairIn rs1 rs2 with
  | none => exact .of_trap
  | some rv => exact .of_check <| .of_check <| .of_check <| .of_check .of_succeed_slots

end

/-! ## Any command -/

/-- Two runs of a command on states that differ at most inside keys, Contexts and nonce keys look the same from outside the
slots, but for the output range of a command that has one. -/
theorem exec_resultsLookSame {s t : State} (h : sealedEq s t) (i : Instr) :
    ResultsLookSame (sealedOutput i) (exec i s) (exec i t) := by
  obtain ⟨v, rfl⟩ : ∃ v, t = { s with slots := v } := ⟨t.slots, h.2⟩
  cases i with
  | slFree => exact .of_succeed_slots
  | dgInit => exact .of_succeed_slots
  | dgUpdate rd addr len => exact execDgUpdate_resultsLookSame h rd addr len
  | dgFinish rd rs1 => exact execDgFinish_resultsLookSame h rd rs1
  | dgRead rs1 addr => exact execDgRead_resultsLookSame h rs1 addr
  | ctVerify rs1 addr len => exact execCtVerify_resultsLookSame h rs1 addr len
  | hmKey => exact .of_check .of_succeed_slots
  | hmInit rd rs1 => exact execHmInit_resultsLookSame h rd rs1
  | hmUpdate rd addr len => exact execHmUpdate_resultsLookSame h rd addr len
  | hmSign rd rs1 => exact execHmSign_resultsLookSame h rd rs1
  | hkExpand rs1 tab n out outLen bigL => exact execHkExpand_resultsLookSame h rs1 tab n out outLen bigL
  | lbParse => exact .of_check <| .of_check <| .of_error <| .of_error .of_succeed_slots
  | lbFormat rs1 addr len => exact execLbFormat_resultsLookSame h rs1 addr len
  | lbEq rs1 rs2 => exact execLbEq_resultsLookSame h rs1 rs2
  | lbLt rs1 rs2 => exact execLbLt_resultsLookSame h rs1 rs2
  | lbZero rs1 => exact execLbZero_resultsLookSame h rs1
  | lbEven rs1 => exact execLbEven_resultsLookSame h rs1
  | lbEqlimb rs1 lo hi => exact execLbEqlimb_resultsLookSame h rs1 lo hi
  | lbReduce rd rs2 => exact execLbReduce_resultsLookSame h rd rs2
  | lbMinbits rs1 => exact execLbMinbits_resultsLookSame h rs1
  | lbFold5 rs1 addr => exact execLbFold5_resultsLookSame h rs1 addr
  | ecNkey rd alg addr len => exact execEcNkey_resultsLookSame rd alg addr len
  | ecNonce rs1 ma ml d dl => exact execEcNonce_resultsLookSame h rs1 ma ml d dl
  | sgFixed rs1 rs2 addr => exact execSgFixed_resultsLookSame h rs1 rs2 addr
  | sgAsn1 rs1 rs2 addr => exact execSgAsn1_resultsLookSame h rs1 rs2 addr

end Sys2Proof.Machine
end

section
/-! The system command, and what stays in the slots: the statements of 46_system.md. -/

namespace Sys2Proof.Machine

/-- Settles O25: the command has no check to fail and writes its slot alone; an empty slot then fails every kind check. -/
theorem slFreeEmptiesSlot : Obligations.SlFreeEmptiesSlot := fun s rd =>
  have hempty := State.slot_setSlot_same s rd .empty
  ⟨rfl, _, execSlFree_cases rd s, hempty,
    changesOnly_complete (changesOnly_setSlot (changesOnly_refl _ _ s) List.mem_cons_self _) .ok, rfl, ⟨rfl, rfl⟩,
    fun _ _ hmem => exec_of_sourcesOk_eq_false (sourcesOk_of_empty hempty hmem)⟩

/-- Settles O59, by running the command on both states in lockstep: every check looks at the public parts only. -/
theorem sealedObjectsStayInside : Obligations.SealedObjectsStayInside := by
  intro i s t s' t' h hs ht
  have hsame := exec_resultsLookSame h i
  rw [hs, ht] at hsame
  cases hsame with
  | next hlooks => exact hlooks

end Sys2Proof.Machine
end

section
/-! SUPPORT. The fault checks of a command, made in the order of their table (60_exceptions.md R309): the first that fails
decides the fault, and a command that passes them all takes none and may then ask the random source (R312, R320). -/

namespace Sys2Proof.Machine

/-- How a command ends that takes no fault: it has asked the random source for nothing, or once if it is one that may ask
(R320). -/
def EndsUnfaulted (i : Instr) (s : State) (r : Result) : Prop :=
  ∀ t, r = .next t → t.fault = s.fault ∧ (keepsRng s t ∨ asksRng i = true ∧ asksRngOnce s t)

/-- `MakesChecks i s cs r`: with the result `r`, command `i` has made the checks `cs` in order on `s`. The first that fails is
the fault it takes; when none fails it takes none. Without the invariant it may also take some other fault (log entry 14). -/
inductive MakesChecks (i : Instr) (s : State) : List (Bool × FaultCode) → Result → Prop
  | nil {r : Result} (h : EndsUnfaulted i s r) : MakesChecks i s [] r
  | cons {passed : Bool} {c : FaultCode} {cs : List (Bool × FaultCode)} {r : Result}
      (hfail : passed = false → r = trap i c s) (hpass : passed = true → MakesChecks i s cs r) :
      MakesChecks i s ((passed, c) :: cs) r
  | noInv {cs : List (Bool × FaultCode)} {c : FaultCode} (h : ¬ s.Inv) : MakesChecks i s cs (trap i c s)

section
variable {i : Instr} {s : State} {r : Result}

/-! ## What the checks decide -/

/-- The fault of the first failing check of a list. -/
def firstFailing (cs : List (Bool × FaultCode)) : Option FaultCode := (cs.find? fun p => !p.1).map Prod.snd

theorem firstFault_eq_firstFailing (i : Instr) (s : State) : firstFault i s = firstFailing (faultChecks i s) := rfl

theorem firstFailing_cons_true (c : FaultCode) (cs : List (Bool × FaultCode)) :
    firstFailing ((true, c) :: cs) = firstFailing cs := rfl

theorem firstFailing_cons_false (c : FaultCode) (cs : List (Bool × FaultCode)) :
    firstFailing ((false, c) :: cs) = some c := rfl

/-- The first check that fails decides the fault, and a command that fails none takes none. -/
theorem MakesChecks.trap_or_endsUnfaulted {cs : List (Bool × FaultCode)} (h : MakesChecks i s cs r) :
    (∃ c, (s.Inv → firstFailing cs = some c) ∧ r = trap i c s) ∨ (firstFailing cs = none ∧ EndsUnfaulted i s r) := by
  induction h with
  | nil h => exact .inr ⟨rfl, h⟩
  | noInv hn => exact .inl ⟨_, fun hs => absurd hs hn, rfl⟩
  | @cons passed c _ _ hfail _ ih =>
    cases passed with
    | false => exact .inl ⟨c, fun _ => firstFailing_cons_false c _, hfail rfl⟩
    | true => rw [firstFailing_cons_true]; exact ih rfl

/-! ## The ends of a command past its checks -/

theorem EndsUnfaulted.of_succeed {s' : State} (hfault : s'.fault = s.fault) (hrng : keepsRng s s') :
    EndsUnfaulted i s (succeed s') := by
  intro t ht
  obtain rfl := succeed_eq_next.1 ht
  exact ⟨hfault, .inl hrng⟩

theorem EndsUnfaulted.of_succeedMask {b : Bool} : EndsUnfaulted i s (succeedMask s b) := .of_succeed rfl ⟨rfl, rfl⟩

/-- A recoverable error is no fault (R310). -/
theorem EndsUnfaulted.of_error {p : Prop} [Decidable p] {e : ErrCode} (h : EndsUnfaulted i s r) :
    EndsUnfaulted i s (if p then failWith e s else r) := by
  split
  · intro t ht
    obtain rfl := failWith_eq_next.1 ht
    exact ⟨rfl, .inl ⟨rfl, rfl⟩⟩
  · exact h

/-- The one request to the random source comes after the checks. -/
theorem EndsUnfaulted.of_endWithReply {n : Nat} {e : ErrCode} {effect : List Byte → State → State}
    (hasks : asksRng i = true) (hfault : ∀ rand, (effect rand s.afterRequest).fault = s.fault)
    (hrng : ∀ rand, keepsRng s.afterRequest (effect rand s.afterRequest)) :
    EndsUnfaulted i s (endWithReply e effect (rngFill n s)) := by
  intro t ht
  cases hreply : rngFill n s with
  | never => simp [hreply, endWithReply] at ht
  | fail s' =>
    obtain rfl := rngFill_fail hreply
    rw [hreply, endWithReply, failWith_eq_next] at ht
    exact ht ▸ ⟨rfl, .inr ⟨hasks, rfl, rfl⟩⟩
  | ok rand s' =>
    obtain rfl := (rngFill_ok hreply).2
    rw [hreply, endWithReply, succeed_eq_next] at ht
    exact ht ▸ ⟨hfault rand, .inr ⟨hasks, hrng rand⟩⟩

/-! ## The checks as a command writes them -/

section
variable {c : FaultCode} {cs : List (Bool × FaultCode)} {p : Prop} [Decidable p]

/-- A check written as the condition under which it fails. -/
theorem MakesChecks.check {passed : Bool} (hp : p ↔ passed = false) (h : MakesChecks i s cs r) :
    MakesChecks i s ((passed, c) :: cs) (if p then trap i c s else r) :=
  .cons (fun hf => if_pos (hp.2 hf)) fun ht => by rwa [if_neg (by simp [hp, ht])]

/-- A check written as the table has it. -/
theorem MakesChecks.check_not {passed : Bool} (h : MakesChecks i s cs r) :
    MakesChecks i s ((passed, c) :: cs) (if ¬ passed then trap i c s else r) :=
  .check (Bool.not_eq_true _).to_iff h

/-- Two checks of the table with one fault, written as one. -/
theorem MakesChecks.check_both {passed passed' : Bool} (hp : p ↔ passed = false ∨ passed' = false)
    (h : MakesChecks i s cs r) :
    MakesChecks i s ((passed, c) :: (passed', c) :: cs) (if p then trap i c s else r) :=
  .cons (fun hf => if_pos (hp.2 (.inl hf))) fun ht => .check (by simp [hp, ht]) h

end

end

end Sys2Proof.Machine
end

section
/-! SUPPORT. Each command, once its source slots hold the kinds it requires, makes the field checks of its row of the table
(60_exceptions.md R309) in order. -/

namespace Sys2Proof.Machine

/-- A command makes the field checks of its row of the table. -/
abbrev FollowsTable (i : Instr) (s : State) : Prop := MakesChecks i s (fieldChecks i s) (exec i s)

/-! ## The source slots -/

/-- A source slot that passes its kind check. -/
theorem objIs_of_sourcesOk {i : Instr} {s : State} (h : sourcesOk i s = true) {r : Slot} {k : Kind}
    (hmem : (r, k) ∈ sources i) : objIs k (s.slot r) = true := List.all_eq_true.1 h _ hmem

section
variable {o : Obj}

theorem objIs_digestCtx : objIs .digestCtx o = true ↔ ∃ c, o = .digestCtx c := by cases o <;> simp [objIs]
theorem objIs_digestVal : objIs .digestVal o = true ↔ ∃ d, o = .digestVal d := by cases o <;> simp [objIs]
theorem objIs_hmacKey : objIs .hmacKey o = true ↔ ∃ k, o = .hmacKey k := by cases o <;> simp [objIs]
theorem objIs_hmacCtx : objIs .hmacCtx o = true ↔ ∃ c, o = .hmacCtx c := by cases o <;> simp [objIs]
theorem objIs_limbs : objIs .limbs o = true ↔ ∃ a, o = .limbs a := by cases o <;> simp [objIs]
theorem objIs_nonceKey : objIs .nonceKey o = true ↔ ∃ k, o = .nonceKey k := by cases o <;> simp [objIs]

end

/-- The two source slots of a command on two big integers. -/
theorem limbs_of_sourcesOk {i : Instr} {s : State} (h : sourcesOk i s = true) {a b : Slot}
    (hsrc : sources i = [(a, .limbs), (b, .limbs)]) : ∃ x y, s.slot a = .limbs x ∧ s.slot b = .limbs y := by
  obtain ⟨x, hx⟩ := objIs_limbs.1 (objIs_of_sourcesOk h (r := a) (k := .limbs) (by simp [hsrc]))
  obtain ⟨y, hy⟩ := objIs_limbs.1 (objIs_of_sourcesOk h (r := b) (k := .limbs) (by simp [hsrc]))
  exact ⟨x, y, hx, hy⟩

variable {s : State} {rd rs1 rs2 : Slot} {alg : AlgId} {addr len lo hi : Word}

/-! ## The digest and HMAC commands -/

theorem dgUpdate_followsTable {c : DigestCtx} (hc : s.slot rd = .digestCtx c) : FollowsTable (.dgUpdate rd addr len) s := by
  simp only [FollowsTable, fieldChecks, counterFits, slotDigestCtx, exec, execDgUpdate, hc, State.digestCtxIn_eq_some.2 hc]
  exact .check_not <| .check_not <| .nil <| .of_succeed rfl ⟨rfl, rfl⟩

theorem hmUpdate_followsTable {c : HmacCtx} (hc : s.slot rd = .hmacCtx c) : FollowsTable (.hmUpdate rd addr len) s := by
  simp only [FollowsTable, fieldChecks, counterFits, slotDigestCtx, exec, execHmUpdate, hc, State.hmacCtxIn_eq_some.2 hc]
  exact .check_not <| .check_not <| .nil <| .of_succeed rfl ⟨rfl, rfl⟩

/-- A finish checks the bit length alone, except for what the invariant excludes (log entry 14). -/
theorem MakesChecks.of_finish {i : Instr} {bc : BlockCtx} {n : Nat} {fault : Option FaultCode} {s' : State}
    (hover : s.Inv → 2 ^ 64 ≤ finishBits bc n → fault = some .overflow)
    (hnone : s.Inv → finishBits bc n < 2 ^ 64 → fault = none)
    (hfits : fault = none → finishBits bc n < 2 ^ 64) (hs' : s'.fault = s.fault ∧ keepsRng s s') :
    MakesChecks i s [(decide (finishBits bc n < 2 ^ 64), .overflow)]
      (match fault with
       | some f => trap i f s
       | none => succeed s') := by
  cases fault with
  | none => exact .cons (fun hf => absurd (hfits rfl) (of_decide_eq_false hf)) fun _ => .nil (.of_succeed hs'.1 hs'.2)
  | some f =>
    by_cases hs : s.Inv
    · refine .cons (fun hf => ?_) fun ht => nomatch hnone hs (of_decide_eq_true ht)
      rw [Option.some.inj (hover hs (Nat.le_of_not_lt (of_decide_eq_false hf)))]
    · exact .noInv hs

theorem dgFinish_followsTable {c : DigestCtx} (hc : s.slot rs1 = .digestCtx c) : FollowsTable (.dgFinish rd rs1) s := by
  have hlt (hs : s.Inv) : c.pending.length < blockLen c.block.alg := (digestCtxOk_iff.1 (hs.objOk_of_slot hc)).2
  simp only [FollowsTable, fieldChecks, bitLengthFits, slotDigestCtx, exec, execDgFinish, hc, State.digestCtxIn_eq_some.2 hc]
  exact .of_finish (fun hs => blockFinishFault_overflow (hlt hs)) (fun hs hfit => blockFinishFault_none.2 ⟨hlt hs, hfit⟩)
    (fun hnone => (blockFinishFault_none.1 hnone).2) ⟨rfl, rfl, rfl⟩

/-- A sign that takes no fault has passed the check of its inner finish (41_hmac.md R165). -/
theorem inner_fits_of_hmacSignFault_none {c : HmacCtx} (h : hmacSignFault c = none) :
    finishBits c.inner.block c.inner.pending.length < 2 ^ 64 := by
  unfold hmacSignFault at h
  split at h
  · cases h
  · rename_i hinner
    exact (blockFinishFault_none.1 hinner).2

theorem hmSign_followsTable {c : HmacCtx} (hc : s.slot rs1 = .hmacCtx c) : FollowsTable (.hmSign rd rs1) s := by
  simp only [FollowsTable, fieldChecks, bitLengthFits, slotDigestCtx, exec, execHmSign, hc, State.hmacCtxIn_eq_some.2 hc]
  exact .of_finish (fun hs => hmacSignFault_overflow (hs.objOk_of_slot hc))
    (fun hs => hmacSignFault_none (hs.objOk_of_slot hc)) inner_fits_of_hmacSignFault_none ⟨rfl, rfl, rfl⟩

theorem dgRead_followsTable {d : DigestVal} (hd : s.slot rs1 = .digestVal d) : FollowsTable (.dgRead rs1 addr) s := by
  simp only [FollowsTable, fieldChecks, slotAlg, exec, execDgRead, hd, State.digestValIn_eq_some.2 hd]
  exact .check_not <| .nil <| .of_succeed rfl ⟨rfl, rfl⟩

theorem ctVerify_followsTable {d : DigestVal} (hd : s.slot rs1 = .digestVal d) : FollowsTable (.ctVerify rs1 addr len) s := by
  simp only [FollowsTable, fieldChecks, exec, execCtVerify, State.digestValIn_eq_some.2 hd]
  exact .check_not <| .nil <| .of_error <| .of_error <| .of_succeed rfl ⟨rfl, rfl⟩

theorem hmInit_followsTable {k : HmacKey} (hk : s.slot rs1 = .hmacKey k) : FollowsTable (.hmInit rd rs1) s := by
  simp only [FollowsTable, fieldChecks, exec, execHmInit, State.hmacKeyIn_eq_some.2 hk]
  exact .nil <| .of_succeed rfl ⟨rfl, rfl⟩

theorem hkExpand_followsTable {tab n out outLen bigL : Word} {k : HmacKey} (hk : s.slot rs1 = .hmacKey k) :
    FollowsTable (.hkExpand rs1 tab n out outLen bigL) s := by
  simp only [FollowsTable, fieldChecks, slotAlg, exec, execHkExpand, hk, State.hmacKeyIn_eq_some.2 hk]
  exact .check_not <| .check_not <| .check_not <| .check (by simp) <|
    .check_not <| .nil <| .of_error <| .of_error <| .of_succeed rfl ⟨rfl, rfl⟩

/-! ## The limb commands -/

theorem lbParse_followsTable {n : Word} : FollowsTable (.lbParse rd addr len n) s :=
  .check (by simp) <| .check_not <| .nil <| .of_error <| .of_error <| .of_succeed rfl ⟨rfl, rfl⟩

section
variable {a : List Nat} (ha : s.slot rs1 = .limbs a)
include ha

theorem lbFormat_followsTable : FollowsTable (.lbFormat rs1 addr len) s := by
  simp only [FollowsTable, fieldChecks, slotLimbCount, exec, execLbFormat, ha, State.limbsIn_eq_some.2 ha]
  exact .check (by simp) <| .check_not <| .nil <| .of_succeed rfl ⟨rfl, rfl⟩

theorem lbZero_followsTable : FollowsTable (.lbZero rs1) s := by
  simp only [FollowsTable, fieldChecks, exec, execLbZero, State.limbsIn_eq_some.2 ha]
  exact .nil .of_succeedMask

theorem lbEven_followsTable : FollowsTable (.lbEven rs1) s := by
  simp only [FollowsTable, fieldChecks, exec, execLbEven, State.limbsIn_eq_some.2 ha]
  exact .nil .of_succeedMask

theorem lbEqlimb_followsTable : FollowsTable (.lbEqlimb rs1 lo hi) s := by
  simp only [FollowsTable, fieldChecks, exec, execLbEqlimb, State.limbsIn_eq_some.2 ha]
  exact .check (by cases s.cfg.limbWidth <;> simp) <| .nil .of_succeedMask

theorem lbMinbits_followsTable : FollowsTable (.lbMinbits rs1) s := by
  simp only [FollowsTable, fieldChecks, exec, execLbMinbits, State.limbsIn_eq_some.2 ha]
  exact .nil <| .of_succeed rfl ⟨rfl, rfl⟩

theorem lbFold5_followsTable : FollowsTable (.lbFold5 rs1 addr) s := by
  simp only [FollowsTable, fieldChecks, slotLimbCount, exec, execLbFold5, ha, State.limbsIn_eq_some.2 ha]
  exact .check_not <| .nil <| .of_succeed rfl ⟨rfl, rfl⟩

/-! ## The commands on two big integers, of the signature formatter too -/

variable {b : List Nat} (hb : s.slot rs2 = .limbs b)
include hb

theorem sameLimbCount_of_limbs : sameLimbCount s rs1 rs2 = (a.length == b.length) := by simp only [sameLimbCount, ha, hb]

theorem lbEq_followsTable : FollowsTable (.lbEq rs1 rs2) s := by
  simp only [FollowsTable, fieldChecks, sameLimbCount_of_limbs ha hb, exec,
    execLbEq, State.limbsPairIn_eq_some.2 ⟨ha, hb⟩]
  exact .check (by simp) <| .nil .of_succeedMask

theorem lbLt_followsTable : FollowsTable (.lbLt rs1 rs2) s := by
  simp only [FollowsTable, fieldChecks, sameLimbCount_of_limbs ha hb, exec,
    execLbLt, State.limbsPairIn_eq_some.2 ⟨ha, hb⟩]
  exact .check (by simp) <| .nil .of_succeedMask

theorem lbReduce_followsTable : FollowsTable (.lbReduce rs1 rs2) s := by
  simp only [FollowsTable, fieldChecks, sameLimbCount_of_limbs ha hb, exec,
    execLbReduce, State.limbsPairIn_eq_some.2 ⟨ha, hb⟩]
  exact .check (by simp) <| .nil <| .of_succeed rfl ⟨rfl, rfl⟩

theorem sgFixed_followsTable : FollowsTable (.sgFixed rs1 rs2 addr) s := by
  simp only [FollowsTable, fieldChecks, sameLimbCount_of_limbs ha hb, slotLimbCount, ha, exec, execSgFixed,
    State.limbsPairIn_eq_some.2 ⟨ha, hb⟩]
  exact .check (by simp) <| .check_not <| .nil <| .of_succeed rfl ⟨rfl, rfl⟩

theorem sgAsn1_followsTable : FollowsTable (.sgAsn1 rs1 rs2 addr) s := by
  simp only [FollowsTable, fieldChecks, sameLimbCount_of_limbs ha hb, slotLimbCount, slotValue, ha, hb, exec, execSgAsn1,
    State.limbsPairIn_eq_some.2 ⟨ha, hb⟩]
  exact .check (by simp) <| .check (by simp only [decide_eq_false_iff_not, not_and_or, not_not, ne_eq]) <| .check_not <|
    .check_not <| .nil <| .of_succeed rfl ⟨rfl, rfl⟩

end

/-! ## The commands that ask the random source -/

theorem validRange_eq_false_iff {g : MemRange} : s.validRange g = false ↔ ¬ g.addr + g.len ≤ s.cfg.memSize := by
  rw [← State.validRange_iff, Bool.not_eq_true]

theorem ecNkey_followsTable : FollowsTable (.ecNkey rd alg addr len) s := by
  refine .cons (fun hlen => execEcNkey_of_badLength (of_decide_eq_false hlen)) fun hlen => ?_
  rw [exec, execEcNkey_of_length (of_decide_eq_true hlen)]
  exact .check (not_le.symm.trans (validRange_eq_false_iff (g := wordRange addr len)).symm) <| .nil <|
    .of_endWithReply rfl (fun _ => rfl) fun _ => ⟨rfl, rfl⟩

theorem ecNonce_followsTable {ma ml d dl : Word} {k : NonceKey} (hk : s.slot rs1 = .nonceKey k) :
    FollowsTable (.ecNonce rs1 ma ml d dl) s := by
  simp only [FollowsTable, fieldChecks, slotAlg, hk]
  refine .cons (fun hml => execEcNonce_of_badLength hk (.inl (of_decide_eq_false hml))) fun hml =>
    .cons (fun hdl => execEcNonce_of_badLength hk (.inr (of_decide_eq_false hdl))) fun hdl => ?_
  rw [exec, execEcNonce_of_lengths hk (of_decide_eq_true hml) (of_decide_eq_true hdl)]
  exact .check_both (by rw [not_and_or, validRange_eq_false_iff, validRange_eq_false_iff]; rfl) <| .check (by simp) <|
    .nil <| .of_endWithReply rfl (fun _ => rfl) fun _ => ⟨rfl, rfl⟩

/-! ## Any command -/

/-- Every command checks the kinds of its source slots and then its fields, in the order of the table. -/
theorem exec_makesChecks (i : Instr) (s : State) : MakesChecks i s (faultChecks i s) (exec i s) := by
  refine .cons exec_of_sourcesOk_eq_false fun hsrc => ?_
  have hk {r k} := objIs_of_sourcesOk hsrc (r := r) (k := k)
  have hpair {a b} := limbs_of_sourcesOk hsrc (a := a) (b := b)
  cases i with
  | slFree | dgInit => exact .nil <| .of_succeed rfl ⟨rfl, rfl⟩
  | hmKey => exact .check_not <| .nil <| .of_succeed rfl ⟨rfl, rfl⟩
  | lbParse => exact lbParse_followsTable
  | ecNkey => exact ecNkey_followsTable
  | dgUpdate => exact (objIs_digestCtx.1 (hk (.head _))).elim fun _ => dgUpdate_followsTable
  | dgFinish => exact (objIs_digestCtx.1 (hk (.head _))).elim fun _ => dgFinish_followsTable
  | dgRead => exact (objIs_digestVal.1 (hk (.head _))).elim fun _ => dgRead_followsTable
  | ctVerify => exact (objIs_digestVal.1 (hk (.head _))).elim fun _ => ctVerify_followsTable
  | hmInit => exact (objIs_hmacKey.1 (hk (.head _))).elim fun _ => hmInit_followsTable
  | hmUpdate => exact (objIs_hmacCtx.1 (hk (.head _))).elim fun _ => hmUpdate_followsTable
  | hmSign => exact (objIs_hmacCtx.1 (hk (.head _))).elim fun _ => hmSign_followsTable
  | hkExpand => exact (objIs_hmacKey.1 (hk (.head _))).elim fun _ => hkExpand_followsTable
  | lbFormat => exact (objIs_limbs.1 (hk (.head _))).elim fun _ => lbFormat_followsTable
  | lbZero => exact (objIs_limbs.1 (hk (.head _))).elim fun _ => lbZero_followsTable
  | lbEven => exact (objIs_limbs.1 (hk (.head _))).elim fun _ => lbEven_followsTable
  | lbEqlimb => exact (objIs_limbs.1 (hk (.head _))).elim fun _ => lbEqlimb_followsTable
  | lbMinbits => exact (objIs_limbs.1 (hk (.head _))).elim fun _ => lbMinbits_followsTable
  | lbFold5 => exact (objIs_limbs.1 (hk (.head _))).elim fun _ => lbFold5_followsTable
  | ecNonce => exact (objIs_nonceKey.1 (hk (.head _))).elim fun _ => ecNonce_followsTable
  | lbEq => exact (hpair rfl).elim fun _ ⟨_, ha, hb⟩ => lbEq_followsTable ha hb
  | lbLt => exact (hpair rfl).elim fun _ ⟨_, ha, hb⟩ => lbLt_followsTable ha hb
  | lbReduce => exact (hpair rfl).elim fun _ ⟨_, ha, hb⟩ => lbReduce_followsTable ha hb
  | sgFixed => exact (hpair rfl).elim fun _ ⟨_, ha, hb⟩ => sgFixed_followsTable ha hb
  | sgAsn1 => exact (hpair rfl).elim fun _ ⟨_, ha, hb⟩ => sgAsn1_followsTable ha hb

/-- A command takes the fault of its first failing check, or passes them all and takes none. -/
theorem exec_trap_or_endsUnfaulted (i : Instr) (s : State) :
    (∃ c, (s.Inv → firstFault i s = some c) ∧ exec i s = trap i c s) ∨
    (firstFault i s = none ∧ EndsUnfaulted i s (exec i s)) := by
  rw [firstFault_eq_firstFailing]
  exact (exec_makesChecks i s).trap_or_endsUnfaulted

end Sys2Proof.Machine
end

section
/-! Faults, recoverable errors and their order: the statements of 60_exceptions.md. -/

namespace Sys2Proof.Machine

/-- Settles O13, by the outcomes of a command: one that completes leaves FAULT as it was, 0. -/
theorem faultsArePrecise : Obligations.FaultsArePrecise := by
  intro i s t hf h hne
  rcases exec_next_cases h with hfault | ⟨s', e, rfl, ⟨hfault, -⟩, -⟩
  · exact hfault
  · exact absurd (hfault.trans hf) hne

/-- Settles O15, by the outcomes of a command: a completion with a code other than 0 has no effect of its own. -/
theorem errorsChangeNothingElse : Obligations.ErrorsChangeNothingElse := by
  intro i s t _ h ht herr
  rcases exec_next_cases h with ⟨c, -, rfl⟩ | ⟨s', e, rfl, ⟨-, hcmd, hseq, hbuf, hcfg, -⟩, hcount, -, herror⟩
  · exact absurd ht (faultByte_ne_zero c)
  · obtain ⟨hslots, hmem, hres⟩ := herror (by rintro rfl; exact herr rfl)
    exact ⟨congrArg (· + 1#32) hcount, fun r => congrArg (·[r.val]) hslots, fun a => congrArg (memRead · a) hmem, hres,
      hcmd, hseq, hbuf, hcfg⟩

/-- Settles O16: the header is checked at the command port, and every command then makes the checks of the table. -/
theorem firstFailingCheckDecides : Obligations.FirstFailingCheckDecides := by
  refine ⟨fun _ _ _ _ _ hin hf hb hl => ⟨_, (step_regWrite_cmd hin).trans (writeCmd_of_illegal hf hb hl), rfl⟩,
    fun i s hs hf => ?_⟩
  rcases exec_trap_or_endsUnfaulted i s with ⟨c, hfirst, htrap⟩ | ⟨hnone, hend⟩
  · rw [hfirst hs]
    exact ⟨by rintro _ ⟨⟩; exact htrap, nofun⟩
  · rw [hnone]
    exact ⟨nofun, fun _ t h => (hend t h).1.trans hf⟩

/-- Settles O17: a fault asks for nothing, and a command that takes none has passed every check. -/
theorem rngIsAskedLast : Obligations.RngIsAskedLast := by
  intro i s t hf h
  rcases exec_trap_or_endsUnfaulted i s with ⟨c, -, htrap⟩ | ⟨hnone, hend⟩
  · obtain rfl := trap_eq_next.1 (htrap.symm.trans h)
    exact .inl ⟨rfl, rfl⟩
  · obtain ⟨hfault, hrng⟩ := hend t h
    exact hrng.imp_right fun ⟨hasks, honce⟩ => ⟨hasks, hnone, hfault.trans hf, honce⟩

/-- Settles O11, by the equations of a step: only a word written to `CMD` looks at FAULT. -/
theorem faultedEngineIsHalted : Obligations.FaultedEngineIsHalted := fun _ _ hf =>
  ⟨fun _ hin => (step_regWrite_cmd hin).trans (writeCmd_of_faulted hf), fun _ halign hin => step_regRead halign hin,
    fun _ _ hb hin => step_memWrite_inside hin hb, fun _ _ hb hin => step_memRead_inside hin hb⟩

end Sys2Proof.Machine
end

section
/-! SUPPORT. The blocks a command is observed to compress (70_reset_and_hazards.md R361): each invocation is on one or more, and a
command that completes with `ERR = 0` compresses in all what the guide says. -/

namespace Sys2Proof.Machine

/-! ## Sums of invocations -/

/-- A digest from nothing compresses the blocks of its padded message. -/
theorem feedCalls_zero_sum (alg : AlgId) (lens : List Nat) : (feedCalls alg 0 lens).sum = padCount alg lens.sum := by
  rw [feedCalls_sum (blockLen_pos alg), Nat.zero_add]
  rfl

/-- The finish after a digest compresses one block (41_hmac.md R165). -/
theorem finishCalls_outputLen_sum (alg : AlgId) : (finishCalls alg (outputLen alg)).sum = 1 :=
  (finishCalls_sum (outputLen_lt_blockLen alg)).trans (padCount_outputLen alg)

theorem hmacKeyCalls_sum (alg : AlgId) (len : Nat) :
    (hmacKeyCalls alg len).sum = 2 + if blockLen alg < len then padCount alg len else 0 := by
  rw [hmacKeyCalls, List.sum_append, Nat.add_comm]
  split
  · rw [feedCalls_zero_sum, List.sum_singleton]
    rfl
  · rfl

theorem hkdfRoundCalls_sum (alg : AlgId) (lens : List Nat) (n : Nat) :
    (hkdfRoundCalls alg lens n).sum = hkdfRoundWork alg lens.sum n := by
  have hfed : ((if 1 < n then [outputLen alg] else []) ++ lens ++ [1]).sum =
      (if 1 < n then outputLen alg else 0) + lens.sum + 1 := by
    split <;> simp [Nat.add_assoc]
  rw [hkdfRoundCalls, List.sum_append, feedCalls_zero_sum, finishCalls_outputLen_sum, hfed]
  rfl

/-- Key, random bytes to the end of the first block, and message digest are two blocks (44_ecdsa_nonce.md R258). -/
theorem nonceCalls_sum (alg : AlgId) :
    (feedCalls alg 0 [outputLen alg, blockLen alg - outputLen alg, outputLen alg]).sum = 2 := by
  cases alg <;> decide

/-- A request that fails brings no bytes. -/
theorem rngDelivers_eq_false_of_fail {n : Nat} {s s' : State} (h : rngFill n s = .fail s') : rngDelivers s = false := by
  rw [Bool.eq_false_iff, Ne, rngDelivers_iff (n := n), h]
  rintro ⟨_, _, ⟨⟩⟩

/-! ## Results that compress by the guide -/

/-- What a next state without a fault says of the invocations of the command: with `ERR = 0` they are on the blocks of the guide,
with an error there are none. -/
def CompressesByGuide (i : Instr) (s : State) (r : Result) : Prop :=
  ∀ t, r = .next t → t.fault = 0#8 →
    (t.err = 0#8 → (workOf i s).compressions.sum = workGuide i s) ∧ (t.err ≠ 0#8 → (workOf i s).compressions = [])

section
variable {i : Instr} {s s' : State}

theorem CompressesByGuide.of_trap {c : FaultCode} : CompressesByGuide i s (trap i c s) := by
  intro t ht hf
  obtain rfl := trap_eq_next.1 ht
  exact absurd hf (faultByte_ne_zero c)

theorem CompressesByGuide.of_stop {f : Fault} : CompressesByGuide i s (.fault f) := nofun

theorem CompressesByGuide.of_succeed (h : (workOf i s).compressions.sum = workGuide i s) :
    CompressesByGuide i s (succeed s') := by
  intro t ht _
  obtain rfl := succeed_eq_next.1 ht
  exact ⟨fun _ => h, fun hne => absurd rfl hne⟩

theorem CompressesByGuide.of_failWith {c : ErrCode} (hc : errByte c ≠ 0#8) (h : (workOf i s).compressions = []) :
    CompressesByGuide i s (failWith c s') := by
  intro t ht _
  obtain rfl := failWith_eq_next.1 ht
  exact ⟨fun h0 => absurd h0 hc, fun _ => h⟩

/-- A command for which the guide has no work. -/
theorem CompressesByGuide.of_no_work {r : Result} (h : (workOf i s).compressions = []) (hg : workGuide i s = 0) :
    CompressesByGuide i s r :=
  fun _ _ _ => ⟨fun _ => by rw [h, hg]; rfl, fun _ => h⟩

end

/-! ## The commands that compress -/

section
variable {s : State}

theorem execDgUpdate_compressesByGuide (hs : s.Inv) (rd : Slot) (addr len : Word) :
    CompressesByGuide (.dgUpdate rd addr len) s (execDgUpdate rd addr len s) := by
  rcases execDgUpdate_cases rd addr len s with ⟨-, e⟩ | ⟨c, hc, ⟨-, e⟩ | ⟨-, -, e⟩ | ⟨-, -, e⟩⟩ <;> rw [e]
  · exact .of_trap
  · exact .of_trap
  · exact .of_trap
  · refine .of_succeed ?_
    simp only [workOf, workGuide, slotDigestCtx, State.digestCtxIn_eq_some.2 hc, hc]
    exact updateCalls_sum (digestCtxOk_iff.1 (hs.objOk_of_slot hc)).2

theorem execDgFinish_compressesByGuide (hs : s.Inv) (rd rs1 : Slot) :
    CompressesByGuide (.dgFinish rd rs1) s (execDgFinish rd rs1 s) := by
  rcases execDgFinish_cases rd rs1 s with ⟨-, e⟩ | ⟨c, hc, ⟨f, -, e⟩ | ⟨-, e⟩⟩ <;> rw [e]
  · exact .of_trap
  · exact .of_trap
  · refine .of_succeed ?_
    simp only [workOf, workGuide, slotDigestCtx, State.digestCtxIn_eq_some.2 hc, hc]
    exact finishCalls_sum (digestCtxOk_iff.1 (hs.objOk_of_slot hc)).2

theorem execHmKey_compressesByGuide (rd : Slot) (alg : AlgId) (addr len : Word) :
    CompressesByGuide (.hmKey rd alg addr len) s (execHmKey rd alg addr len s) := by
  rcases execHmKey_cases rd alg addr len s with ⟨-, e⟩ | ⟨-, e⟩ <;> rw [e]
  · exact .of_trap
  · exact .of_succeed (hmacKeyCalls_sum alg len.toNat)

theorem execHmUpdate_compressesByGuide (hs : s.Inv) (rd : Slot) (addr len : Word) :
    CompressesByGuide (.hmUpdate rd addr len) s (execHmUpdate rd addr len s) := by
  rcases execHmUpdate_cases rd addr len s with ⟨-, e⟩ | ⟨c, hc, ⟨-, e⟩ | ⟨-, -, e⟩ | ⟨-, -, e⟩⟩ <;> rw [e]
  · exact .of_trap
  · exact .of_trap
  · exact .of_trap
  · obtain ⟨-, hinner, -⟩ := objOk_hmacCtx_iff.1 (hs.objOk_of_slot hc)
    refine .of_succeed ?_
    simp only [workOf, workGuide, slotDigestCtx, State.hmacCtxIn_eq_some.2 hc, hc]
    exact updateCalls_sum (digestCtxOk_iff.1 hinner).2

/-- The inner finish pads the pending bytes, the outer one a digest of the same algorithm. -/
theorem execHmSign_compressesByGuide (hs : s.Inv) (rd rs1 : Slot) :
    CompressesByGuide (.hmSign rd rs1) s (execHmSign rd rs1 s) := by
  rcases execHmSign_cases rd rs1 s with ⟨-, e⟩ | ⟨c, hc, ⟨f, -, e⟩ | ⟨-, e⟩⟩ <;> rw [e]
  · exact .of_trap
  · exact .of_trap
  · obtain ⟨halg, hinner, houter⟩ := objOk_hmacCtx_iff.1 (hs.objOk_of_slot hc)
    obtain ⟨hoalg, -⟩ := padBlockOk_iff.1 houter
    refine .of_succeed ?_
    simp only [workOf, workGuide, slotDigestCtx, State.hmacCtxIn_eq_some.2 hc, hc]
    rw [List.sum_append, finishCalls_sum (digestCtxOk_iff.1 hinner).2, hoalg, halg, finishCalls_outputLen_sum]
    rfl

theorem execHkExpand_compressesByGuide (rs1 : Slot) (tab n out outLen bigL : Word) :
    CompressesByGuide (.hkExpand rs1 tab n out outLen bigL) s (execHkExpand rs1 tab n out outLen bigL s) := by
  rcases execHkExpand_cases rs1 tab n out outLen bigL s with
    ⟨-, e⟩ | ⟨k, hk, ⟨-, e⟩ | ⟨-, ⟨-, e⟩ | ⟨-, ⟨-, e⟩ | ⟨-, ⟨hbad, e⟩ | ⟨hok, e⟩⟩⟩⟩⟩ <;> rw [e]
  · exact .of_trap
  · exact .of_trap
  · exact .of_trap
  · exact .of_trap
  · refine .of_failWith (by decide) ?_
    simp only [workOf, State.hmacKeyIn_eq_some.2 hk]
    rw [if_neg hbad]
    rfl
  · refine .of_succeed ?_
    simp only [workOf, workGuide, slotAlg, State.hmacKeyIn_eq_some.2 hk, hk]
    rw [if_pos hok]
    simp only [List.flatMap_def, List.sum_flatten, List.map_map, Function.comp_def, hkdfRoundCalls_sum]

theorem execEcNkey_compressesByGuide (rd : Slot) (alg : AlgId) (addr len : Word) :
    CompressesByGuide (.ecNkey rd alg addr len) s (execEcNkey rd alg addr len s) := by
  rcases execEcNkey_cases rd alg addr len s with
    ⟨-, e⟩ | ⟨-, -, e⟩ | ⟨-, -, ⟨-, e⟩ | ⟨s', hr, e⟩ | ⟨rand, s', hr, e⟩⟩ <;> rw [e]
  · exact .of_trap
  · exact .of_trap
  · exact .of_stop
  · refine .of_failWith (by decide) ?_
    simp only [workOf, rngDelivers_eq_false_of_fail hr]
    rfl
  · refine .of_succeed ?_
    simp only [workOf, workGuide, rngDelivers_iff.2 ⟨rand, s', hr⟩, if_true, feedCalls_zero_sum, Nat.two_mul]
    rfl

theorem execEcNonce_compressesByGuide (rs1 : Slot) (ma ml d dl : Word) :
    CompressesByGuide (.ecNonce rs1 ma ml d dl) s (execEcNonce rs1 ma ml d dl s) := by
  rcases execEcNonce_cases rs1 ma ml d dl s with
    ⟨-, e⟩ | ⟨k, hk, ⟨-, e⟩ | ⟨-, ⟨-, e⟩ | ⟨-, ⟨-, e⟩ | ⟨-, ⟨-, e⟩ | ⟨s', hr, e⟩ | ⟨rand, s', hr, e⟩⟩⟩⟩⟩ <;> rw [e]
  · exact .of_trap
  · exact .of_trap
  · exact .of_trap
  · exact .of_trap
  · exact .of_stop
  · refine .of_failWith (by decide) ?_
    simp only [workOf, State.nonceKeyIn_eq_some.2 hk, rngDelivers_eq_false_of_fail hr]
    rfl
  · refine .of_succeed ?_
    simp only [workOf, workGuide, State.nonceKeyIn_eq_some.2 hk, rngDelivers_iff.2 ⟨rand, s', hr⟩, if_true]
    exact nonceCalls_sum k.alg

/-! ## Any command -/

theorem exec_compressesByGuide (hs : s.Inv) (i : Instr) : CompressesByGuide i s (exec i s) := by
  cases i with
  | dgUpdate rd addr len => exact execDgUpdate_compressesByGuide hs rd addr len
  | dgFinish rd rs1 => exact execDgFinish_compressesByGuide hs rd rs1
  | hmKey rd alg addr len => exact execHmKey_compressesByGuide rd alg addr len
  | hmUpdate rd addr len => exact execHmUpdate_compressesByGuide hs rd addr len
  | hmSign rd rs1 => exact execHmSign_compressesByGuide hs rd rs1
  | hkExpand rs1 tab n out outLen bigL => exact execHkExpand_compressesByGuide rs1 tab n out outLen bigL
  | ecNkey rd alg addr len => exact execEcNkey_compressesByGuide rd alg addr len
  | ecNonce rs1 ma ml d dl => exact execEcNonce_compressesByGuide rs1 ma ml d dl
  | slFree | dgInit | ctVerify | hmInit | lbFormat | lbEq | lbLt | lbZero | lbEven | lbEqlimb | lbReduce | lbMinbits =>
    exact .of_no_work rfl rfl
  | dgRead | lbParse | lbFold5 | sgFixed | sgAsn1 =>
    refine .of_no_work ?_ rfl
    simp only [workOf]
    split <;> rfl

/-- The footprint of a command that took a fault is what it had read. -/
theorem footprint_of_fault {i : Instr} {t : State} (h : exec i s = .next t) (hf : t.fault ≠ 0#8) :
    footprint i s = { noFootprint with reads := faultReads i s } := by
  simp [footprint, tookFault, h, hf]

/-- Every invocation of a command that passes its checks is on one or more blocks (40_digest.md R123). -/
theorem workOf_compressions_pos {i : Instr} {k : Nat} (h : k ∈ (workOf i s).compressions) : 1 ≤ k := by
  cases i <;> simp only [workOf] at h
  case slFree | dgInit | ctVerify | hmInit | lbFormat | lbEq | lbLt | lbZero | lbEven | lbEqlimb | lbReduce | lbMinbits =>
    exact absurd h List.not_mem_nil
  case dgRead | lbParse | lbFold5 | sgFixed | sgAsn1 => split at h <;> exact absurd h List.not_mem_nil
  case hmKey => exact hmacKeyCalls_pos h
  case dgUpdate | hmUpdate =>
    split at h
    · exact absurd h List.not_mem_nil
    · exact updateCalls_pos h
  case dgFinish =>
    split at h
    · exact absurd h List.not_mem_nil
    · exact finishCalls_pos h
  case hmSign =>
    split at h
    · exact absurd h List.not_mem_nil
    · exact (List.mem_append.1 h).elim finishCalls_pos finishCalls_pos
  case hkExpand =>
    split at h
    · exact absurd h List.not_mem_nil
    · split at h
      · obtain ⟨_, -, hk⟩ := List.mem_flatMap.1 h
        exact hkdfRoundCalls_pos hk
      · exact absurd h List.not_mem_nil
  case ecNkey =>
    split at h
    · exact feedCalls_pos h
    · exact absurd h List.not_mem_nil
  case ecNonce =>
    split at h
    · exact absurd h List.not_mem_nil
    · split at h
      · exact feedCalls_pos h
      · exact absurd h List.not_mem_nil

end

end Sys2Proof.Machine
end

section
/-! The work of a command: the statement of 70_reset_and_hazards.md R361. -/

namespace Sys2Proof.Machine

/-- Settles O60: a command that takes a fault is observed to compress nothing, any other to do its work. -/
theorem compressionWorkByGuide : Obligations.CompressionWorkByGuide := by
  intro i s t hs _ h
  by_cases hf : t.fault = 0#8
  · obtain ⟨hok, herr⟩ := exec_compressesByGuide hs i t h hf
    rw [footprint_eq_workOf h hf]
    exact ⟨fun _ => workOf_compressions_pos, fun _ => hok, fun hbad => herr (hbad.resolve_left (absurd hf))⟩
  · rw [footprint_of_fault h hf]
    exact ⟨fun _ hk => absurd hk List.not_mem_nil, fun h0 => absurd h0 hf, fun _ => rfl⟩

end Sys2Proof.Machine
end

section
/-! SUPPORT. What two states that agree on every public value (70_reset_and_hazards.md R350) have in common: which sources a command
finds, with which public parts, how the random source answers, and that each operation on both keeps them so. -/

namespace Sys2Proof.Machine

section
variable {s t : State} (h : publicEq s t)
include h

/-! ## Parameters -/

theorem publicEq.cfg_eq : s.cfg = t.cfg := by
  obtain ⟨hcfg, -⟩ := h
  exact hcfg

theorem publicEq.publicObj_eq (r : Slot) : publicObj (s.slot r) = publicObj (t.slot r) := by
  obtain ⟨-, hslots, -⟩ := h
  exact hslots r

theorem publicEq.validRange_eq : s.validRange = t.validRange := by
  funext g
  rw [State.validRange, State.validRange, h.cfg_eq]

theorem publicEq.limbBits_eq : s.limbBits = t.limbBits := by rw [State.limbBits, State.limbBits, h.cfg_eq]

theorem publicEq.limbBytes_eq : s.limbBytes = t.limbBytes := by rw [State.limbBytes, State.limbBytes, h.cfg_eq]

/-! ## Source slots -/

/-- A source slot holds an object of the kind in both states, with the same public part, or in neither: the public part says the
kind. -/
theorem publicEq.source_cases {α : Type} {mk : α → Obj} {read : State → Slot → Option α} (r : Slot)
    (hread : ∀ u x, read u r = some x ↔ u.slot r = mk x)
    (hkind : ∀ x o, publicObj (mk x) = publicObj o → ∃ y, o = mk y) :
    (read s r = none ∧ read t r = none) ∨
    ∃ x y, read s r = some x ∧ read t r = some y ∧ publicObj (mk x) = publicObj (mk y) := by
  have hpub := h.publicObj_eq r
  cases hs : read s r with
  | some x =>
    rw [(hread s x).1 hs] at hpub
    obtain ⟨y, hy⟩ := hkind x _ hpub
    exact .inr ⟨x, y, rfl, (hread t y).2 hy, hy ▸ hpub⟩
  | none =>
    refine .inl ⟨rfl, Option.eq_none_iff_forall_ne_some.2 fun y ht => ?_⟩
    rw [(hread t y).1 ht] at hpub
    obtain ⟨x, hx⟩ := hkind y _ hpub.symm
    simp [(hread s x).2 hx] at hs

variable (r : Slot)

theorem publicEq.digestCtxIn_cases :
    (s.digestCtxIn r = none ∧ t.digestCtxIn r = none) ∨
    ∃ c d, s.digestCtxIn r = some c ∧ t.digestCtxIn r = some d ∧ publicObj (.digestCtx c) = publicObj (.digestCtx d) :=
  h.source_cases r (fun _ _ => State.digestCtxIn_eq_some) fun _ o ho => by cases o <;> simp [publicObj] at ho ⊢

theorem publicEq.digestValIn_cases :
    (s.digestValIn r = none ∧ t.digestValIn r = none) ∨
    ∃ d e, s.digestValIn r = some d ∧ t.digestValIn r = some e ∧ publicObj (.digestVal d) = publicObj (.digestVal e) :=
  h.source_cases r (fun _ _ => State.digestValIn_eq_some) fun _ o ho => by cases o <;> simp [publicObj] at ho ⊢

theorem publicEq.hmacKeyIn_cases :
    (s.hmacKeyIn r = none ∧ t.hmacKeyIn r = none) ∨
    ∃ k l, s.hmacKeyIn r = some k ∧ t.hmacKeyIn r = some l ∧ publicObj (.hmacKey k) = publicObj (.hmacKey l) :=
  h.source_cases r (fun _ _ => State.hmacKeyIn_eq_some) fun _ o ho => by cases o <;> simp [publicObj] at ho ⊢

theorem publicEq.hmacCtxIn_cases :
    (s.hmacCtxIn r = none ∧ t.hmacCtxIn r = none) ∨
    ∃ c d, s.hmacCtxIn r = some c ∧ t.hmacCtxIn r = some d ∧ publicObj (.hmacCtx c) = publicObj (.hmacCtx d) :=
  h.source_cases r (fun _ _ => State.hmacCtxIn_eq_some) fun _ o ho => by cases o <;> simp [publicObj] at ho ⊢

theorem publicEq.limbsIn_cases :
    (s.limbsIn r = none ∧ t.limbsIn r = none) ∨
    ∃ x y, s.limbsIn r = some x ∧ t.limbsIn r = some y ∧ publicObj (.limbs x) = publicObj (.limbs y) :=
  h.source_cases r (fun _ _ => State.limbsIn_eq_some) fun _ o ho => by cases o <;> simp [publicObj] at ho ⊢

theorem publicEq.nonceKeyIn_cases :
    (s.nonceKeyIn r = none ∧ t.nonceKeyIn r = none) ∨
    ∃ k l, s.nonceKeyIn r = some k ∧ t.nonceKeyIn r = some l ∧ publicObj (.nonceKey k) = publicObj (.nonceKey l) :=
  h.source_cases r (fun _ _ => State.nonceKeyIn_eq_some) fun _ o ho => by cases o <;> simp [publicObj] at ho ⊢

/-- Both operands of a command on two big integers are there in both states, with the same numbers of limbs, or in neither. -/
theorem publicEq.limbsPairIn_cases (a b : Slot) :
    (s.limbsPairIn a b = none ∧ t.limbsPairIn a b = none) ∨
    ∃ x y x' y', s.limbsPairIn a b = some (x, y) ∧ t.limbsPairIn a b = some (x', y') ∧ x.length = x'.length ∧
      y.length = y'.length := by
  unfold State.limbsPairIn
  rcases h.limbsIn_cases a with ⟨hs, ht⟩ | ⟨x, x', hs, ht, hx⟩ <;> rw [hs, ht]
  · exact .inl ⟨rfl, rfl⟩
  · rcases h.limbsIn_cases b with ⟨hs, ht⟩ | ⟨y, y', hs, ht, hy⟩ <;> rw [hs, ht]
    · exact .inl ⟨rfl, rfl⟩
    · exact .inr ⟨x, y, x', y', rfl, rfl, PublicObj.limbs.inj hx, PublicObj.limbs.inj hy⟩

/-! ## Operations on both states -/

/-- Objects with the same public part written to one slot of both. -/
theorem publicEq.setSlot {o o' : Obj} (ho : publicObj o = publicObj o') : publicEq (s.setSlot r o) (t.setSlot r o') := by
  obtain ⟨hcfg, hslots, hrest⟩ := h
  refine ⟨hcfg, fun q => ?_, hrest⟩
  rw [State.slot_setSlot, State.slot_setSlot]
  split
  · exact ho
  · exact hslots q

/-- Bytes of `MEM` are not public. -/
theorem publicEq.store {a a' : Nat} {bs bs' : List Byte} : publicEq (s.store a bs) (t.store a' bs') := h

/-- `RES` is not public. -/
theorem publicEq.setRes {v v' : BitVec 64} : publicEq (s.setRes v) (t.setRes v') := h

theorem publicEq.complete (c : ErrCode) : publicEq (s.complete c) (t.complete c) := by
  obtain ⟨hcfg, hslots, -, hfault, hcmd, hseq, hcount, hrest⟩ := h
  exact ⟨hcfg, hslots, rfl, hfault, hcmd, hseq, congrArg (· + 1#32) hcount, hrest⟩

theorem publicEq.raiseFault (c : FaultCode) (hdr : Word) : publicEq (raiseFault c hdr s) (raiseFault c hdr t) := by
  obtain ⟨hcfg, hslots, herr, -, -, -, hcount, -, hrng⟩ := h
  exact ⟨hcfg, hslots, herr, rfl, rfl, hcount, hcount, rfl, hrng⟩

theorem publicEq.afterRequest : publicEq s.afterRequest t.afterRequest := by
  obtain ⟨hcfg, hslots, herr, hfault, hcmd, hseq, hcount, hbuf, hscript, hdraws⟩ := h
  refine ⟨hcfg, hslots, herr, hfault, hcmd, hseq, hcount, hbuf, ?_, congrArg (· + 1) hdraws⟩
  rw [State.afterRequest, State.afterRequest, List.map_tail, List.map_tail, hscript]

/-! ## The random source -/

/-- The random source delivers bytes in both states, fails in both, or answers in neither. -/
theorem publicEq.rngFill_cases (n : Nat) :
    (rngFill n s = .never ∧ rngFill n t = .never) ∨
    (rngFill n s = .fail s.afterRequest ∧ rngFill n t = .fail t.afterRequest) ∨
    ∃ rand rand', rngFill n s = .ok rand s.afterRequest ∧ rngFill n t = .ok rand' t.afterRequest := by
  obtain ⟨-, -, -, -, -, -, -, -, hscript, hdraws⟩ := h
  simp only [rngFill, State.afterRequest]
  rw [← hdraws]
  cases hs : s.rngScript with
  | nil =>
    rw [hs, List.map_nil, eq_comm, List.map_eq_nil_iff] at hscript
    rw [hscript]
    cases Config.rngFails s.rngDraws <;> simp
  | cons a _ =>
    rw [hs, List.map_cons, eq_comm, List.map_eq_cons_iff] at hscript
    obtain ⟨b, _, ht, hab, -⟩ := hscript
    rw [ht]
    cases a <;> cases b <;> simp [publicAnswer] at hab ⊢

theorem publicEq.rngDelivers_eq : rngDelivers s = rngDelivers t := by
  rw [Bool.eq_iff_iff, rngDelivers_iff (n := 0), rngDelivers_iff (n := 0)]
  rcases h.rngFill_cases 0 with ⟨hs, ht⟩ | ⟨hs, ht⟩ | ⟨_, _, hs, ht⟩ <;> simp [hs, ht]

end

/-! ## The public part of what the engine's functions make -/

/-- How many bytes an update is fed, and what is public of the Context, decide what is public of the Context after it. -/
theorem publicObj_ctxUpdate (src : CompressSource) {c c' : DigestCtx} {d d' : List Byte}
    (hpub : publicObj (.digestCtx c) = publicObj (.digestCtx c')) (hlen : d.length = d'.length) :
    publicObj (.digestCtx (ctxUpdate src c d)) = publicObj (.digestCtx (ctxUpdate src c' d')) := by
  obtain ⟨halg, hn, hp⟩ := PublicObj.digestCtx.inj hpub
  simp only [publicObj, ctxUpdate_alg]
  by_cases hs : d.length < blockLen c.block.alg - c.pending.length
  · have hs' : d'.length < blockLen c'.block.alg - c'.pending.length := by rwa [← hlen, ← halg, ← hp]
    rw [ctxUpdate_short src c d hs, ctxUpdate_short src c' d' hs']
    simp only [List.length_append, halg, hn, hp, hlen]
  · have hs' : ¬ d'.length < blockLen c'.block.alg - c'.pending.length := by rwa [← hlen, ← halg, ← hp]
    rw [ctxUpdate_long src c d hs, ctxUpdate_long src c' d' hs']
    simp only [ctxTopUp, ← hp]
    split <;> simp only [blockUpdate, List.length_append, List.length_take, List.length_drop, halg, hn, hp, hlen]

theorem publicObj_ctxFinish (src : CompressSource) {c c' : DigestCtx}
    (hpub : publicObj (.digestCtx c) = publicObj (.digestCtx c')) :
    publicObj (.digestVal (ctxFinish src c)) = publicObj (.digestVal (ctxFinish src c')) := by
  obtain ⟨halg, -⟩ := PublicObj.digestCtx.inj hpub
  simp only [publicObj, ctxFinish_alg, halg]

theorem publicObj_hmacCtxUpdate (src : CompressSource) {c c' : HmacCtx} {d d' : List Byte}
    (hpub : publicObj (.hmacCtx c) = publicObj (.hmacCtx c')) (hlen : d.length = d'.length) :
    publicObj (.hmacCtx (hmacCtxUpdate src c d)) = publicObj (.hmacCtx (hmacCtxUpdate src c' d')) := by
  obtain ⟨hinner, hn, hp⟩ := PublicObj.digestCtx.inj (publicObj_ctxUpdate src (publicObj_inner_eq hpub) hlen)
  obtain ⟨halg, -, houter, -, hno, -⟩ := PublicObj.hmacCtx.inj hpub
  simp only [publicObj, hmacCtxUpdate, halg, houter, hno, hinner, hn, hp]

/-- A key made from bytes shows its algorithm alone: one block of each pad is compressed (41_hmac.md R162). -/
theorem publicObj_hmacKeyNew (src : CompressSource) (alg : AlgId) (k : List Byte) :
    publicObj (.hmacKey (hmacKeyNew src alg k)) = .hmacKey alg alg alg 1#64 1#64 := by
  have hok := objOk_hmacKeyNew State.reset.cfg src alg k
  simp only [objOk, Bool.and_eq_true] at hok
  obtain ⟨hin, hout⟩ := hok
  obtain ⟨-, -, hin⟩ := padBlockOk_iff.1 hin
  obtain ⟨-, -, hout⟩ := padBlockOk_iff.1 hout
  rw [publicObj, hin, hout]
  rfl

theorem publicObj_hmacCtxNew {k l : HmacKey} (hpub : publicObj (.hmacKey k) = publicObj (.hmacKey l)) :
    publicObj (.hmacCtx (hmacCtxNew k)) = publicObj (.hmacCtx (hmacCtxNew l)) := by
  obtain ⟨halg, -, houter, hin, hno⟩ := PublicObj.hmacKey.inj hpub
  simp only [publicObj, hmacCtxNew, halg, houter, hin, hno, List.length_nil]

theorem publicObj_hmacSign (src : CompressSource) {c c' : HmacCtx}
    (hpub : publicObj (.hmacCtx c) = publicObj (.hmacCtx c')) :
    publicObj (.digestVal (hmacSign src c)) = publicObj (.digestVal (hmacSign src c')) := by
  obtain ⟨-, -, houter, -⟩ := PublicObj.hmacCtx.inj hpub
  simp only [publicObj, hmacSign_alg, houter]

theorem publicObj_nonceKeyNew (src : CompressSource) (alg : AlgId) (seed rand : List Byte) :
    publicObj (.nonceKey (nonceKeyNew src alg seed rand)) = .nonceKey alg := rfl

theorem publicObj_limbsOfNat (w n v : Nat) : publicObj (.limbs (limbsOfNat w n v)) = .limbs n := by
  rw [publicObj, limbsOfNat_length]

end Sys2Proof.Machine
end

section
/-! SUPPORT. Two runs of one command, in lockstep, on states that agree on every public value and on what the command may disclose
(70_reset_and_hazards.md R350, R351): one rule for each way a command ends, and then each command. -/

namespace Sys2Proof.Machine

section
variable {s t : State} (h : publicEq s t)
include h

/-! ## The ends of a command -/

theorem publicEq.outcome_trap {i : Instr} {c : FaultCode} : publicOutcomeEq (trap i c s) (trap i c t) := h.raiseFault c _

theorem publicEq.outcome_failWith {c : ErrCode} : publicOutcomeEq (failWith c s) (failWith c t) := h.complete c

theorem publicEq.outcome_succeed : publicOutcomeEq (succeed s) (succeed t) := h.complete .ok

/-- The mask of a comparison is not public (43_limb.md R224). -/
theorem publicEq.outcome_succeedMask {b b' : Bool} : publicOutcomeEq (succeedMask s b) (succeedMask t b') := h.complete .ok

section
variable {p : Prop} [Decidable p] {r r' : Result} (hr : ¬ p → publicOutcomeEq r r')
include hr

/-- A fault check that both runs make alike (60_exceptions.md R309). -/
theorem publicEq.outcome_check {i : Instr} {c : FaultCode} :
    publicOutcomeEq (if p then trap i c s else r) (if p then trap i c t else r') := by
  by_cases hp : p
  · simpa only [if_pos hp] using h.outcome_trap
  · simpa only [if_neg hp] using hr hp

/-- A recoverable error that both runs end with or neither (R310). -/
theorem publicEq.outcome_error {c : ErrCode} :
    publicOutcomeEq (if p then failWith c s else r) (if p then failWith c t else r') := by
  by_cases hp : p
  · simpa only [if_pos hp] using h.outcome_failWith
  · simpa only [if_neg hp] using hr hp

end

/-- Both runs end alike after a request to the random source, whatever the bytes are, if the effects of the bytes are public
alike. -/
theorem publicEq.outcome_endWithReply {n : Nat} {c : ErrCode} {effect effect' : List Byte → State → State}
    (he : ∀ rand rand', publicEq (effect rand s.afterRequest) (effect' rand' t.afterRequest)) :
    publicOutcomeEq (endWithReply c effect (rngFill n s)) (endWithReply c effect' (rngFill n t)) := by
  rcases h.rngFill_cases n with ⟨hs, ht⟩ | ⟨hs, ht⟩ | ⟨rand, rand', hs, ht⟩ <;> rw [hs, ht]
  · exact rfl
  · exact h.afterRequest.outcome_failWith
  · exact (he rand rand').outcome_succeed

/-! ## The digest commands and CT_VERIFY -/

theorem execDgInit_publicOutcomeEq (rd : Slot) (alg : AlgId) :
    publicOutcomeEq (execDgInit rd alg s) (execDgInit rd alg t) := by
  rw [execDgInit, execDgInit, h.cfg_eq]
  exact (h.setSlot rd rfl).outcome_succeed

theorem execDgUpdate_publicOutcomeEq (rd : Slot) (addr len : Word) :
    publicOutcomeEq (execDgUpdate rd addr len s) (execDgUpdate rd addr len t) := by
  unfold execDgUpdate
  rcases h.digestCtxIn_cases rd with ⟨hs, ht⟩ | ⟨c, d, hs, ht, hpub⟩ <;> simp only [hs, ht]
  · exact h.outcome_trap
  · rw [h.validRange_eq, updateFits_eq_of_public hpub, h.cfg_eq]
    exact h.outcome_check fun _ => h.outcome_check fun _ =>
      (h.setSlot rd (publicObj_ctxUpdate _ hpub (by simp only [State.bytesAt_length]))).outcome_succeed

theorem execDgFinish_publicOutcomeEq (rd rs1 : Slot) :
    publicOutcomeEq (execDgFinish rd rs1 s) (execDgFinish rd rs1 t) := by
  unfold execDgFinish
  rcases h.digestCtxIn_cases rs1 with ⟨hs, ht⟩ | ⟨c, d, hs, ht, hpub⟩ <;> simp only [hs, ht]
  · exact h.outcome_trap
  · rw [finishFault_eq_of_public hpub, h.cfg_eq]
    cases blockFinishFault d.block d.pending.length with
    | some f => exact h.outcome_trap
    | none => exact ((h.setSlot rs1 rfl).setSlot rd (publicObj_ctxFinish _ hpub)).outcome_succeed

theorem execDgRead_publicOutcomeEq (rs1 : Slot) (addr : Word) :
    publicOutcomeEq (execDgRead rs1 addr s) (execDgRead rs1 addr t) := by
  unfold execDgRead
  rcases h.digestValIn_cases rs1 with ⟨hs, ht⟩ | ⟨d, e, hs, ht, hpub⟩ <;> simp only [hs, ht]
  · exact h.outcome_trap
  · rw [h.validRange_eq, PublicObj.digestVal.inj hpub]
    exact h.outcome_check fun _ => h.store.setRes.outcome_succeed

/-- The verdict is all that the bytes decide, and it is disclosed where they are compared. -/
theorem execCtVerify_publicOutcomeEq (rs1 : Slot) (addr len : Word)
    (hd : verifyDisclosed rs1 addr len s = verifyDisclosed rs1 addr len t) :
    publicOutcomeEq (execCtVerify rs1 addr len s) (execCtVerify rs1 addr len t) := by
  unfold verifyDisclosed at hd
  unfold execCtVerify
  rcases h.digestValIn_cases rs1 with ⟨hs, ht⟩ | ⟨d, e, hs, ht, hpub⟩ <;> simp only [hs, ht] at hd ⊢
  · exact h.outcome_trap
  · rw [h.validRange_eq, PublicObj.digestVal.inj hpub] at hd ⊢
    refine h.outcome_check fun hvalid => h.outcome_error fun hlen => ?_
    rw [not_not] at hvalid hlen
    have hverdict : byteDifference d.value (s.bytesAt (wordRange addr len)) = 0#8 ↔
        byteDifference e.value (t.bytesAt (wordRange addr len)) = 0#8 := by simpa [hvalid, hlen] using hd
    simp only [ne_eq, hverdict]
    exact h.outcome_error fun _ => h.outcome_succeed

/-! ## The HMAC commands and HKDF expansion -/

theorem execHmKey_publicOutcomeEq (rd : Slot) (alg : AlgId) (addr len : Word) :
    publicOutcomeEq (execHmKey rd alg addr len s) (execHmKey rd alg addr len t) := by
  rw [execHmKey, execHmKey, h.validRange_eq]
  exact h.outcome_check fun _ =>
    (h.setSlot rd ((publicObj_hmacKeyNew _ _ _).trans (publicObj_hmacKeyNew _ _ _).symm)).outcome_succeed

theorem execHmInit_publicOutcomeEq (rd rs1 : Slot) :
    publicOutcomeEq (execHmInit rd rs1 s) (execHmInit rd rs1 t) := by
  unfold execHmInit
  rcases h.hmacKeyIn_cases rs1 with ⟨hs, ht⟩ | ⟨k, l, hs, ht, hpub⟩ <;> simp only [hs, ht]
  · exact h.outcome_trap
  · exact (h.setSlot rd (publicObj_hmacCtxNew hpub)).outcome_succeed

theorem execHmUpdate_publicOutcomeEq (rd : Slot) (addr len : Word) :
    publicOutcomeEq (execHmUpdate rd addr len s) (execHmUpdate rd addr len t) := by
  unfold execHmUpdate
  rcases h.hmacCtxIn_cases rd with ⟨hs, ht⟩ | ⟨c, d, hs, ht, hpub⟩ <;> simp only [hs, ht]
  · exact h.outcome_trap
  · rw [h.validRange_eq, updateFits_eq_of_public (publicObj_inner_eq hpub), h.cfg_eq]
    exact h.outcome_check fun _ => h.outcome_check fun _ =>
      (h.setSlot rd (publicObj_hmacCtxUpdate _ hpub (by simp only [State.bytesAt_length]))).outcome_succeed

theorem execHmSign_publicOutcomeEq (rd rs1 : Slot) :
    publicOutcomeEq (execHmSign rd rs1 s) (execHmSign rd rs1 t) := by
  unfold execHmSign
  rcases h.hmacCtxIn_cases rs1 with ⟨hs, ht⟩ | ⟨c, d, hs, ht, hpub⟩ <;> simp only [hs, ht]
  · exact h.outcome_trap
  · rw [hmacSignFault_eq_of_public hpub, h.cfg_eq]
    cases hmacSignFault d with
    | some f => exact h.outcome_trap
    | none => exact ((h.setSlot rs1 rfl).setSlot rd (publicObj_hmacSign _ hpub)).outcome_succeed

/-- Where the key and both ranges are accepted, HK_EXPAND discloses its chunk table (42_hkdf.md R197). -/
theorem publicEq.chunkRanges_eq {rs1 : Slot} {tab n out outLen : Word} {k : HmacKey} (hk : s.hmacKeyIn rs1 = some k)
    (htab : s.validRange (tableRange tab n) = true) (hout : s.validRange (wordRange out outLen) = true)
    (hd : expandDisclosed rs1 tab n out outLen s = expandDisclosed rs1 tab n out outLen t) :
    s.chunkRanges tab n = t.chunkRanges tab n := by
  unfold expandDisclosed at hd
  rcases h.hmacKeyIn_cases rs1 with ⟨hs, -⟩ | ⟨_, _, hs, ht, -⟩
  · simp [hs] at hk
  · simp only [hs, ht] at hd
    rw [← h.validRange_eq, htab, hout] at hd
    exact Disclosed.chunks.inj hd

theorem execHkExpand_publicOutcomeEq (rs1 : Slot) (tab n out outLen bigL : Word)
    (hd : expandDisclosed rs1 tab n out outLen s = expandDisclosed rs1 tab n out outLen t) :
    publicOutcomeEq (execHkExpand rs1 tab n out outLen bigL s) (execHkExpand rs1 tab n out outLen bigL t) := by
  unfold execHkExpand
  rcases h.hmacKeyIn_cases rs1 with ⟨hs, ht⟩ | ⟨k, l, hs, ht, hpub⟩ <;> simp only [hs, ht]
  · exact h.outcome_trap
  · obtain ⟨halg, -⟩ := PublicObj.hmacKey.inj hpub
    rw [← h.validRange_eq, halg]
    refine h.outcome_check fun htab => h.outcome_check fun hout => ?_
    rw [h.chunkRanges_eq hs (not_not.1 htab) (not_not.1 hout) hd]
    exact h.outcome_check fun _ => h.outcome_check fun _ => h.outcome_check fun _ => h.outcome_error fun _ =>
      h.outcome_error fun _ => h.store.outcome_succeed

/-! ## The limb commands -/

theorem execLbParse_publicOutcomeEq (rd : Slot) (addr len n : Word) :
    publicOutcomeEq (execLbParse rd addr len n s) (execLbParse rd addr len n t) := by
  rw [execLbParse, execLbParse, h.validRange_eq, h.limbBytes_eq, h.cfg_eq]
  exact h.outcome_check fun _ => h.outcome_check fun _ => h.outcome_error fun _ => h.outcome_error fun _ =>
    (h.setSlot rd ((publicObj_limbsOfNat _ _ _).trans (publicObj_limbsOfNat _ _ _).symm)).outcome_succeed

theorem execLbFormat_publicOutcomeEq (rs1 : Slot) (addr len : Word) :
    publicOutcomeEq (execLbFormat rs1 addr len s) (execLbFormat rs1 addr len t) := by
  unfold execLbFormat
  rcases h.limbsIn_cases rs1 with ⟨hs, ht⟩ | ⟨x, y, hs, ht, hpub⟩ <;> simp only [hs, ht]
  · exact h.outcome_trap
  · rw [h.validRange_eq, h.limbBytes_eq, PublicObj.limbs.inj hpub]
    exact h.outcome_check fun _ => h.outcome_check fun _ => h.store.outcome_succeed

theorem execLbEq_publicOutcomeEq (rs1 rs2 : Slot) : publicOutcomeEq (execLbEq rs1 rs2 s) (execLbEq rs1 rs2 t) := by
  unfold execLbEq
  rcases h.limbsPairIn_cases rs1 rs2 with ⟨hs, ht⟩ | ⟨x, y, x', y', hs, ht, hx, hy⟩ <;> simp only [hs, ht]
  · exact h.outcome_trap
  · rw [hx, hy]
    exact h.outcome_check fun _ => h.outcome_succeedMask

theorem execLbLt_publicOutcomeEq (rs1 rs2 : Slot) : publicOutcomeEq (execLbLt rs1 rs2 s) (execLbLt rs1 rs2 t) := by
  unfold execLbLt
  rcases h.limbsPairIn_cases rs1 rs2 with ⟨hs, ht⟩ | ⟨x, y, x', y', hs, ht, hx, hy⟩ <;> simp only [hs, ht]
  · exact h.outcome_trap
  · rw [hx, hy]
    exact h.outcome_check fun _ => h.outcome_succeedMask

theorem execLbZero_publicOutcomeEq (rs1 : Slot) : publicOutcomeEq (execLbZero rs1 s) (execLbZero rs1 t) := by
  unfold execLbZero
  rcases h.limbsIn_cases rs1 with ⟨hs, ht⟩ | ⟨x, y, hs, ht, -⟩ <;> simp only [hs, ht]
  · exact h.outcome_trap
  · exact h.outcome_succeedMask

theorem execLbEven_publicOutcomeEq (rs1 : Slot) : publicOutcomeEq (execLbEven rs1 s) (execLbEven rs1 t) := by
  unfold execLbEven
  rcases h.limbsIn_cases rs1 with ⟨hs, ht⟩ | ⟨x, y, hs, ht, -⟩ <;> simp only [hs, ht]
  · exact h.outcome_trap
  · exact h.outcome_succeedMask

theorem execLbEqlimb_publicOutcomeEq (rs1 : Slot) (lo hi : Word) :
    publicOutcomeEq (execLbEqlimb rs1 lo hi s) (execLbEqlimb rs1 lo hi t) := by
  unfold execLbEqlimb
  rcases h.limbsIn_cases rs1 with ⟨hs, ht⟩ | ⟨x, y, hs, ht, -⟩ <;> simp only [hs, ht]
  · exact h.outcome_trap
  · rw [h.cfg_eq]
    exact h.outcome_check fun _ => h.outcome_succeedMask

theorem execLbReduce_publicOutcomeEq (rd rs2 : Slot) :
    publicOutcomeEq (execLbReduce rd rs2 s) (execLbReduce rd rs2 t) := by
  unfold execLbReduce
  rcases h.limbsPairIn_cases rd rs2 with ⟨hs, ht⟩ | ⟨x, y, x', y', hs, ht, hx, hy⟩ <;> simp only [hs, ht]
  · exact h.outcome_trap
  · rw [hx, hy]
    exact h.outcome_check fun _ =>
      (h.setSlot rd ((publicObj_limbsOfNat _ _ _).trans (publicObj_limbsOfNat _ _ _).symm)).outcome_succeed

theorem execLbMinbits_publicOutcomeEq (rs1 : Slot) :
    publicOutcomeEq (execLbMinbits rs1 s) (execLbMinbits rs1 t) := by
  unfold execLbMinbits
  rcases h.limbsIn_cases rs1 with ⟨hs, ht⟩ | ⟨x, y, hs, ht, -⟩ <;> simp only [hs, ht]
  · exact h.outcome_trap
  · exact h.setRes.outcome_succeed

theorem execLbFold5_publicOutcomeEq (rs1 : Slot) (addr : Word) :
    publicOutcomeEq (execLbFold5 rs1 addr s) (execLbFold5 rs1 addr t) := by
  unfold execLbFold5
  rcases h.limbsIn_cases rs1 with ⟨hs, ht⟩ | ⟨x, y, hs, ht, hpub⟩ <;> simp only [hs, ht]
  · exact h.outcome_trap
  · rw [h.validRange_eq, h.limbBits_eq, PublicObj.limbs.inj hpub]
    exact h.outcome_check fun _ => h.store.setRes.outcome_succeed

/-! ## The nonce commands -/

theorem execEcNkey_publicOutcomeEq (rd : Slot) (alg : AlgId) (addr len : Word) :
    publicOutcomeEq (execEcNkey rd alg addr len s) (execEcNkey rd alg addr len t) := by
  by_cases hlen : 1 ≤ len.toNat ∧ len.toNat ≤ 64
  · rw [execEcNkey_of_length hlen, execEcNkey_of_length hlen, h.cfg_eq]
    exact h.outcome_check fun _ => h.outcome_endWithReply fun _ _ => h.afterRequest.setSlot rd <|
      (publicObj_nonceKeyNew _ _ _ _).trans (publicObj_nonceKeyNew _ _ _ _).symm
  · rw [execEcNkey_of_badLength hlen, execEcNkey_of_badLength hlen]
    exact h.outcome_trap

theorem execEcNonce_publicOutcomeEq (rs1 : Slot) (ma ml d dl : Word) :
    publicOutcomeEq (execEcNonce rs1 ma ml d dl s) (execEcNonce rs1 ma ml d dl t) := by
  rcases h.nonceKeyIn_cases rs1 with ⟨hs, ht⟩ | ⟨k, l, hs, ht, hpub⟩
  · rw [execEcNonce_of_badSlotKind (State.nonceKeyIn_eq_none.1 hs), execEcNonce_of_badSlotKind (State.nonceKeyIn_eq_none.1 ht)]
    exact h.outcome_trap
  have halg : k.alg = l.alg := PublicObj.nonceKey.inj hpub
  have hk := State.nonceKeyIn_eq_some.1 hs
  have hl := State.nonceKeyIn_eq_some.1 ht
  by_cases hlen : ml.toNat = outputLen k.alg ∧ dl.toNat = outputLen k.alg
  · obtain ⟨hml, hdl⟩ := hlen
    rw [execEcNonce_of_lengths hk hml hdl, execEcNonce_of_lengths hl (halg ▸ hml) (halg ▸ hdl), halg, h.cfg_eq]
    exact h.outcome_check fun _ => h.outcome_check fun _ => h.outcome_endWithReply fun _ _ => h.afterRequest.store
  · rw [not_and_or] at hlen
    rw [execEcNonce_of_badLength hk hlen, execEcNonce_of_badLength hl (halg ▸ hlen)]
    exact h.outcome_trap

/-! ## The signature formatter -/

theorem execSgFixed_publicOutcomeEq (rs1 rs2 : Slot) (addr : Word) :
    publicOutcomeEq (execSgFixed rs1 rs2 addr s) (execSgFixed rs1 rs2 addr t) := by
  unfold execSgFixed
  rcases h.limbsPairIn_cases rs1 rs2 with ⟨hs, ht⟩ | ⟨x, y, x', y', hs, ht, hx, hy⟩ <;> simp only [hs, ht]
  · exact h.outcome_trap
  · rw [h.validRange_eq, h.limbBytes_eq, hx, hy]
    exact h.outcome_check fun _ => h.outcome_check fun _ => h.store.setRes.outcome_succeed

end

/-- A result of command `i`: the fault of the first of the checks that fails, or a signature written when none does. -/
def FaultsOrSigns (i : Instr) (s : State) (cs : List (Bool × FaultCode)) (r : Result) : Prop :=
  (∃ c, firstFailing cs = some c ∧ r = trap i c s) ∨
  (firstFailing cs = none ∧ ∃ a bs v, r = succeed ((s.store a bs).setRes v))

section
variable {i : Instr} {s : State} {cs : List (Bool × FaultCode)} {c : FaultCode} {r : Result}

theorem FaultsOrSigns.pass (h : FaultsOrSigns i s cs r) : FaultsOrSigns i s ((true, c) :: cs) r := h

/-- A check written as the condition under which it fails. -/
theorem FaultsOrSigns.check {p : Prop} [Decidable p] {passed : Bool} (hp : p ↔ passed = false)
    (h : FaultsOrSigns i s cs r) : FaultsOrSigns i s ((passed, c) :: cs) (if p then trap i c s else r) := by
  cases passed with
  | false => exact .inl ⟨c, firstFailing_cons_false c cs, if_pos (hp.2 rfl)⟩
  | true => rw [if_neg (by simp [hp])]; exact h.pass

end

/-- SG_ASN1 makes its checks in the order of the table in every state (45_sig_format.md R274). -/
theorem execSgAsn1_faultsOrSigns (rs1 rs2 : Slot) (addr : Word) (s : State) :
    FaultsOrSigns (.sgAsn1 rs1 rs2 addr) s (faultChecks (.sgAsn1 rs1 rs2 addr) s) (execSgAsn1 rs1 rs2 addr s) := by
  cases hsrc : sourcesOk (.sgAsn1 rs1 rs2 addr) s with
  | false => exact .inl ⟨.badSlotKind, by rw [faultChecks, hsrc]; rfl, exec_of_sourcesOk_eq_false hsrc⟩
  | true =>
    obtain ⟨x, y, hx, hy⟩ := limbs_of_sourcesOk hsrc rfl
    rw [faultChecks, hsrc]
    refine .pass ?_
    simp only [fieldChecks, sameLimbCount_of_limbs hx hy, slotLimbCount, slotValue, hx, hy, execSgAsn1,
      State.limbsPairIn_eq_some.2 ⟨hx, hy⟩]
    exact .check (by simp) <| .check (by simp only [decide_eq_false_iff_not, not_and_or, not_not, ne_eq]) <|
      .check (Bool.not_eq_true _).to_iff <| .check (Bool.not_eq_true _).to_iff <| .inr ⟨rfl, _, _, _, rfl⟩

/-- The fault of SG_ASN1 is disclosed, and so is that it takes none. -/
theorem execSgAsn1_publicOutcomeEq {s t : State} (h : publicEq s t) (rs1 rs2 : Slot) (addr : Word)
    (hd : asn1Disclosed rs1 rs2 addr s = asn1Disclosed rs1 rs2 addr t) :
    publicOutcomeEq (execSgAsn1 rs1 rs2 addr s) (execSgAsn1 rs1 rs2 addr t) := by
  simp only [asn1Disclosed, firstFault_eq_firstFailing] at hd
  rcases execSgAsn1_faultsOrSigns rs1 rs2 addr s with ⟨c, hc, e⟩ | ⟨hc, _, _, _, e⟩ <;>
    rcases execSgAsn1_faultsOrSigns rs1 rs2 addr t with ⟨c', hc', e'⟩ | ⟨hc', _, _, _, e'⟩ <;>
    simp only [hc, hc'] at hd
  · rw [e, e', Disclosed.faultOf.inj hd]
    exact h.outcome_trap
  · cases hd
  · cases hd
  · rw [e, e']
    exact h.store.setRes.outcome_succeed

/-! ## Any command -/

theorem exec_publicOutcomeEq {s t : State} (h : publicEq s t) (i : Instr) (hd : disclosed i s = disclosed i t) :
    publicOutcomeEq (exec i s) (exec i t) := by
  cases i with
  | slFree rd => exact (h.setSlot rd rfl).outcome_succeed
  | dgInit rd alg => exact execDgInit_publicOutcomeEq h rd alg
  | dgUpdate rd addr len => exact execDgUpdate_publicOutcomeEq h rd addr len
  | dgFinish rd rs1 => exact execDgFinish_publicOutcomeEq h rd rs1
  | dgRead rs1 addr => exact execDgRead_publicOutcomeEq h rs1 addr
  | ctVerify rs1 addr len => exact execCtVerify_publicOutcomeEq h rs1 addr len hd
  | hmKey rd alg addr len => exact execHmKey_publicOutcomeEq h rd alg addr len
  | hmInit rd rs1 => exact execHmInit_publicOutcomeEq h rd rs1
  | hmUpdate rd addr len => exact execHmUpdate_publicOutcomeEq h rd addr len
  | hmSign rd rs1 => exact execHmSign_publicOutcomeEq h rd rs1
  | hkExpand rs1 tab n out outLen bigL => exact execHkExpand_publicOutcomeEq h rs1 tab n out outLen bigL hd
  | lbParse rd addr len n => exact execLbParse_publicOutcomeEq h rd addr len n
  | lbFormat rs1 addr len => exact execLbFormat_publicOutcomeEq h rs1 addr len
  | lbEq rs1 rs2 => exact execLbEq_publicOutcomeEq h rs1 rs2
  | lbLt rs1 rs2 => exact execLbLt_publicOutcomeEq h rs1 rs2
  | lbZero rs1 => exact execLbZero_publicOutcomeEq h rs1
  | lbEven rs1 => exact execLbEven_publicOutcomeEq h rs1
  | lbEqlimb rs1 lo hi => exact execLbEqlimb_publicOutcomeEq h rs1 lo hi
  | lbReduce rd rs2 => exact execLbReduce_publicOutcomeEq h rd rs2
  | lbMinbits rs1 => exact execLbMinbits_publicOutcomeEq h rs1
  | lbFold5 rs1 addr => exact execLbFold5_publicOutcomeEq h rs1 addr
  | ecNkey rd alg addr len => exact execEcNkey_publicOutcomeEq h rd alg addr len
  | ecNonce rs1 ma ml d dl => exact execEcNonce_publicOutcomeEq h rs1 ma ml d dl
  | sgFixed rs1 rs2 addr => exact execSgFixed_publicOutcomeEq h rs1 rs2 addr
  | sgAsn1 rs1 rs2 addr => exact execSgAsn1_publicOutcomeEq h rs1 rs2 addr hd

end Sys2Proof.Machine
end

section
/-! SUPPORT. The footprint of a command (70_reset_and_hazards.md R350, log entry 21) on states that agree on every public value and on
what the command may disclose. -/

namespace Sys2Proof.Machine

/-! ## Whether a command takes a fault -/

/-- A command that took no fault has passed every check. -/
theorem firstFault_eq_none_of_tookFault_eq_false {i : Instr} {s : State} (h : tookFault i s = false) :
    firstFault i s = none := by
  rcases exec_trap_or_endsUnfaulted i s with ⟨c, -, htrap⟩ | ⟨hnone, -⟩
  · simp [tookFault, htrap, trap, faultByte_ne_zero] at h
  · exact hnone

theorem passed_of_firstFault_eq_none {i : Instr} {s : State} (h : firstFault i s = none) {passed : Bool} {c : FaultCode}
    (hmem : (passed, c) ∈ faultChecks i s) : passed = true := by
  rw [firstFault, Option.map_eq_none_iff, List.find?_eq_none] at h
  simpa using h _ hmem

/-- Whether a command took a fault is public. -/
theorem tookFault_eq_of_publicOutcomeEq {i : Instr} {s t : State} (h : publicOutcomeEq (exec i s) (exec i t)) :
    tookFault i s = tookFault i t := by
  unfold tookFault
  cases hs : exec i s <;> cases ht : exec i t <;> rw [hs, ht] at h
  case next.next =>
    obtain ⟨-, -, -, hfault, -⟩ := h
    exact congrArg (· != 0#8) hfault
  all_goals exact h.elim

/-! ## What a command touches -/

section
variable {s t : State} (h : publicEq s t)
include h

theorem publicEq.faultReads_eq (i : Instr) : faultReads i s = faultReads i t := by
  cases i with
  | hkExpand rs1 =>
    simp only [faultReads, h.validRange_eq]
    rcases h.hmacKeyIn_cases rs1 with ⟨hs, ht⟩ | ⟨_, _, hs, ht, -⟩ <;> simp only [hs, ht]
  | _ => rfl

/-- The chunk table is disclosed once the key and both ranges are accepted. -/
theorem publicEq.workOf_hkExpand_eq {rs1 : Slot} {tab n out outLen bigL : Word}
    (hd : expandDisclosed rs1 tab n out outLen s = expandDisclosed rs1 tab n out outLen t)
    (hpass : firstFault (.hkExpand rs1 tab n out outLen bigL) s = none) :
    workOf (.hkExpand rs1 tab n out outLen bigL) s = workOf (.hkExpand rs1 tab n out outLen bigL) t := by
  have htab : s.validRange (tableRange tab n) = true :=
    passed_of_firstFault_eq_none hpass (c := .badAddress) (by simp [faultChecks, fieldChecks])
  have hout : s.validRange (wordRange out outLen) = true :=
    passed_of_firstFault_eq_none hpass (c := .badAddress) (by simp [faultChecks, fieldChecks])
  rcases h.hmacKeyIn_cases rs1 with ⟨hs, ht⟩ | ⟨k, l, hs, ht, hpub⟩ <;> simp only [workOf, hs, ht]
  obtain ⟨halg, -⟩ := PublicObj.hmacKey.inj hpub
  rw [h.chunkRanges_eq hs htab hout hd, halg]

/-- The lengths of the two contents are disclosed with the signature, and they decide its length. -/
theorem publicEq.workOf_sgAsn1_eq {rs1 rs2 : Slot} {addr : Word}
    (hd : asn1Disclosed rs1 rs2 addr s = asn1Disclosed rs1 rs2 addr t)
    (hpass : firstFault (.sgAsn1 rs1 rs2 addr) s = none) (hpass' : firstFault (.sgAsn1 rs1 rs2 addr) t = none) :
    workOf (.sgAsn1 rs1 rs2 addr) s = workOf (.sgAsn1 rs1 rs2 addr) t := by
  simp only [asn1Disclosed, hpass, hpass'] at hd
  rcases h.limbsPairIn_cases rs1 rs2 with ⟨hs, ht⟩ | ⟨x, y, x', y', hs, ht, -, -⟩ <;> simp only [workOf, hs, ht]
  obtain ⟨hx, hy⟩ := State.limbsPairIn_eq_some.1 hs
  obtain ⟨hx', hy'⟩ := State.limbsPairIn_eq_some.1 ht
  simp only [slotLimbCount, slotValue, hx, hy, hx', hy'] at hd
  obtain ⟨hr, hv⟩ := Disclosed.contents.inj hd
  simp only [derBodyLen, integerTlv, List.length_cons, hr, hv]

theorem publicEq.workOf_eq {i : Instr} (hd : disclosed i s = disclosed i t) (hpass : firstFault i s = none)
    (hpass' : firstFault i t = none) : workOf i s = workOf i t := by
  cases i with
  | hkExpand => exact h.workOf_hkExpand_eq hd hpass
  | sgAsn1 => exact h.workOf_sgAsn1_eq hd hpass hpass'
  | slFree | dgInit | ctVerify | hmKey | hmInit | lbFormat | lbEq | lbLt | lbZero | lbEven | lbEqlimb | lbReduce | lbMinbits =>
    rfl
  | dgUpdate rd =>
    rcases h.digestCtxIn_cases rd with ⟨hs, ht⟩ | ⟨c, d, hs, ht, hpub⟩ <;> simp only [workOf, hs, ht]
    obtain ⟨halg, -, hlen⟩ := PublicObj.digestCtx.inj hpub
    rw [halg, hlen]
  | dgFinish rd rs1 =>
    rcases h.digestCtxIn_cases rs1 with ⟨hs, ht⟩ | ⟨c, d, hs, ht, hpub⟩ <;> simp only [workOf, hs, ht]
    obtain ⟨halg, -, hlen⟩ := PublicObj.digestCtx.inj hpub
    rw [halg, hlen]
  | dgRead rs1 =>
    rcases h.digestValIn_cases rs1 with ⟨hs, ht⟩ | ⟨d, e, hs, ht, hpub⟩ <;> simp only [workOf, hs, ht]
    rw [PublicObj.digestVal.inj hpub]
  | hmUpdate rd =>
    rcases h.hmacCtxIn_cases rd with ⟨hs, ht⟩ | ⟨c, d, hs, ht, hpub⟩ <;> simp only [workOf, hs, ht]
    obtain ⟨halg, -, hlen⟩ := PublicObj.digestCtx.inj (publicObj_inner_eq hpub)
    rw [halg, hlen]
  | hmSign rd rs1 =>
    rcases h.hmacCtxIn_cases rs1 with ⟨hs, ht⟩ | ⟨c, d, hs, ht, hpub⟩ <;> simp only [workOf, hs, ht]
    obtain ⟨-, hinner, houter, -, -, hlen⟩ := PublicObj.hmacCtx.inj hpub
    rw [hinner, houter, hlen]
  | lbParse => simp only [workOf, h.limbBytes_eq]
  | lbFold5 rs1 =>
    rcases h.limbsIn_cases rs1 with ⟨hs, ht⟩ | ⟨x, y, hs, ht, hpub⟩ <;> simp only [workOf, hs, ht]
    rw [h.limbBits_eq, PublicObj.limbs.inj hpub]
  | ecNkey => simp only [workOf, h.rngDelivers_eq]
  | ecNonce rs1 =>
    rcases h.nonceKeyIn_cases rs1 with ⟨hs, ht⟩ | ⟨k, l, hs, ht, hpub⟩ <;> simp only [workOf, hs, ht]
    rw [h.rngDelivers_eq, PublicObj.nonceKey.inj hpub]
  | sgFixed rs1 =>
    rcases h.limbsIn_cases rs1 with ⟨hs, ht⟩ | ⟨x, y, hs, ht, hpub⟩ <;> simp only [workOf, hs, ht]
    rw [h.limbBytes_eq, PublicObj.limbs.inj hpub]

/-- The footprint of a command depends on public values and on what the command may disclose. -/
theorem publicEq.footprint_eq {i : Instr} (hd : disclosed i s = disclosed i t) : footprint i s = footprint i t := by
  have htook := tookFault_eq_of_publicOutcomeEq (exec_publicOutcomeEq h i hd)
  unfold footprint
  rw [← htook, h.faultReads_eq]
  cases hs : tookFault i s with
  | true => rfl
  | false =>
    exact h.workOf_eq hd (firstFault_eq_none_of_tookFault_eq_false hs)
      (firstFault_eq_none_of_tookFault_eq_false (htook.symm.trans hs))

end

end Sys2Proof.Machine
end

section
/-! Data independence: the statement of 70_reset_and_hazards.md R350 and R351. -/

namespace Sys2Proof.Machine

/-- Settles O58, by running the command on both states in lockstep: every check, length and range is a public value, or one that
R351 lets the command disclose. -/
theorem observablesArePublic : Obligations.ObservablesArePublic :=
  fun i _ _ h hd => ⟨h.footprint_eq hd, exec_publicOutcomeEq h i hd⟩

end Sys2Proof.Machine
end
